-- ==== Sys2Proof/Word.lean ====
section
/-!
DEFINITION. The word types of the model: a byte of memory and the 64-bit word that holds a general register, a linear
address or RFLAGS (spec/00_scope.md R8).
-/
namespace Sys2Proof

/-- A byte: 8 bits (00_scope.md R8). -/
abbrev Byte := BitVec 8

/-- A quadword: 64 bits (00_scope.md R8). In PROT32 the 32-bit values (EIP, addresses, general registers) are held in
one, with the upper half 0. -/
abbrev Quad := BitVec 64

end Sys2Proof
end

