-- ==== Sys2Proof/Machine/Bytes.lean ====
section
/-!
DEFINITION. Byte order and bit fields: little-endian byte lists (spec/20_memory.md R120) and the replacement of one bit,
shared by the decoder, the encoder and memory.
-/
namespace Sys2Proof.Machine

/-- The `n` low bytes of `v`, the least significant first (R120). -/
def leBytes : (n : Nat) → (v : Nat) → List Byte
  | 0, _ => []
  | n + 1, v => BitVec.ofNat 8 v :: leBytes n (v / 256)

/-- The number that a list of bytes spells, the first byte least significant (R120). -/
def ofLeBytes : List Byte → Nat
  | [] => 0
  | b :: bs => b.toNat + 256 * ofLeBytes bs

/-- `v` with bit `i` made `b` (00_scope.md R8: bit 0 is the least significant). -/
def setBit {w : Nat} (v : BitVec w) (i : Nat) (b : Bool) : BitVec w :=
  if b then v ||| BitVec.twoPow w i else v &&& ~~~BitVec.twoPow w i

/-- How many bits of a byte are 1 (10_state.md R59). -/
def popcount8 (v : Byte) : Nat :=
  (v.getLsbD 0).toNat + (v.getLsbD 1).toNat + (v.getLsbD 2).toNat + (v.getLsbD 3).toNat + (v.getLsbD 4).toNat +
    (v.getLsbD 5).toNat + (v.getLsbD 6).toNat + (v.getLsbD 7).toNat

end Sys2Proof.Machine
end

