-- ==== Sys2Proof/Config.lean ====
section
/-!
DEFINITION. What is fixed for the model: the two operating modes, the value of a byte of memory that nothing has
written, and the free values for what the hardware leaves undefined.
-/
namespace Sys2Proof

/-- The operating modes of the model (00_scope.md R7, 60_exceptions.md R403, decision D2). -/
inductive Mode where
  /-- 32-bit protected mode, flat model. -/
  | prot32
  /-- 64-bit mode. -/
  | long64
deriving DecidableEq, Repr

/-- The linear-address width `W` of a mode: 32 or 64 bits (00_scope.md R7). It is also the address size (30_encoding.md
R166). -/
def Mode.addrBits : Mode → Nat
  | .prot32 => 32
  | .long64 => 64

/-- What a byte of memory reads as that no cell lists. DESIGN CHOICE 00H, unsafe (log 3): the spec leaves every byte of
the launch memory to the environment. -/
def Config.unlistedByte : Byte := 0#8

/-- The free bits: `Config.freeBit n` is the `n`-th unconstrained bit (`draw_1` of 00_scope.md R9) of a run. It has no
body, so nothing can be proved of its value (70_reset_and_hazards.md R441, decision D13; log 10). -/
opaque Config.freeBit : Nat → Bool

end Sys2Proof
end

