-- ==== Sys2Proof/Syntax.lean ====
section
/-!
DEFINITION. The syntax of the admitted instructions: registers, operands and the 90 rows of spec/opcode_table.json, one
constructor of `Instr` each. A term says what an instruction does; how it is written in bytes is Decode.lean's.
-/
namespace Sys2Proof

/-- The general registers by number (10_state.md R24): 0 to 7 are the IA-32 registers, 8 to 15 exist in LONG64 only
(R27). The 64-bit name stands for the register at every width. -/
inductive Gpr where
  | rax | rcx | rdx | rbx | rsp | rbp | rsi | rdi
  | r8 | r9 | r10 | r11 | r12 | r13 | r14 | r15
deriving DecidableEq, Repr

/-- The legacy high bytes: bits 15:8 of RAX, RCX, RDX, RBX (10_state.md R26). -/
inductive HiByte where
  | ah | ch | dh | bh
deriving DecidableEq, Repr

/-- A byte register (10_state.md R26, R28): the low byte of a general register, or a legacy high byte. -/
inductive Reg8 where
  | lo (r : Gpr)
  | hi (r : HiByte)
deriving DecidableEq, Repr

/-- The segment registers (10_state.md R42). -/
inductive SegReg where
  | es | cs | ss | ds | fs | gs
deriving DecidableEq, Repr

/-- What a segment-register field of ModRM names: a segment register, or one of the two numbers that name none
(30_encoding.md R171, R182). -/
inductive SegField where
  | sreg (s : SegReg)
  | reserved6
  | reserved7
deriving DecidableEq, Repr

/-- The scale factor of an index (20_memory.md R112; 30_encoding.md R173). -/
inductive Scale where
  | x1 | x2 | x4 | x8
deriving DecidableEq, Repr

/-- The base component of an effective address: absent, a general register, or RIP (20_memory.md R112, R116). -/
inductive Base where
  | absent
  | reg (r : Gpr)
  | rip
deriving DecidableEq, Repr

/-- The displacement: none, 8 bits or 32 bits (20_memory.md R112; 30_encoding.md R176). -/
inductive Disp where
  | none
  | d8 (v : BitVec 8)
  | d32 (v : BitVec 32)
deriving DecidableEq, Repr

/-- A memory operand: the segment override if there is one, base, index with its scale, displacement (20_memory.md R107,
R112, R118). -/
structure Mem where
  seg : Option SegReg
  base : Base
  index : Option (Gpr × Scale)
  disp : Disp
deriving DecidableEq, Repr

/-- An r/m operand: a register of the kind `ρ`, or memory (30_encoding.md R170). -/
inductive Rm (ρ : Type) where
  | reg (r : ρ)
  | mem (m : Mem)
deriving DecidableEq, Repr

/-- The operand size of an instruction that is not byte-sized (30_encoding.md R165). -/
inductive OpSize where
  | w16 | w32 | w64
deriving DecidableEq, Repr

/-- Every operand width: byte, word, doubleword, quadword (20_memory.md R125). -/
inductive Width where
  | b8 | b16 | b32 | b64
deriving DecidableEq, Repr

/-- Bytes of a width. -/
abbrev Width.bytes : Width → Nat
  | .b8 => 1
  | .b16 => 2
  | .b32 => 4
  | .b64 => 8

/-- Bits of a width. -/
abbrev Width.bits (w : Width) : Nat := 8 * w.bytes

/-- The width of an operand size. -/
def OpSize.width : OpSize → Width
  | .w16 => .b16
  | .w32 => .b32
  | .w64 => .b64

/-- The immediate `iz` (30_encoding.md R177): it carries its operand size, because the size fixes how many bits of it
are encoded; with `w64` it is 32 bits, sign-extended. -/
inductive ImmZ where
  | w16 (v : BitVec 16)
  | w32 (v : BitVec 32)
  | w64 (v : BitVec 32)
deriving DecidableEq, Repr

/-- The immediate `iv` (30_encoding.md R177): as wide as the operand, up to 64 bits. -/
inductive ImmV where
  | w16 (v : BitVec 16)
  | w32 (v : BitVec 32)
  | w64 (v : BitVec 64)
deriving DecidableEq, Repr

/-- The operand size that `iz` belongs to. -/
def ImmZ.size : ImmZ → OpSize
  | .w16 _ => .w16
  | .w32 _ => .w32
  | .w64 _ => .w64

/-- The operand size that `iv` belongs to. -/
def ImmV.size : ImmV → OpSize
  | .w16 _ => .w16
  | .w32 _ => .w32
  | .w64 _ => .w64

/-- The sixteen condition codes in the order of their numbers (43_control_transfer.md R320). -/
inductive Cond where
  | o | no | b | ae | e | ne | be | a | s | ns | p | np | l | ge | le | g
deriving DecidableEq, Repr

/-- The instructions: one constructor per row of spec/opcode_table.json, in the table's order. -/
inductive Instr where
  /-- ADD r/m8, r8 (`base+0 /r`, R250). -/
  | addRm8R8 (dst : Rm Reg8) (src : Reg8)
  /-- ADD r/m, r (`base+1 /r`). -/
  | addRmR (sz : OpSize) (dst : Rm Gpr) (src : Gpr)
  /-- ADD r8, r/m8 (`base+2 /r`). -/
  | addR8Rm8 (dst : Reg8) (src : Rm Reg8)
  /-- ADD r, r/m (`base+3 /r`). -/
  | addRRm (sz : OpSize) (dst : Gpr) (src : Rm Gpr)
  /-- ADD AL, imm8 (`base+4 ib`). -/
  | addAlImm8 (imm : Byte)
  /-- ADD AX/EAX/RAX, immz (`base+5 iz`). -/
  | addAccImm (imm : ImmZ)
  /-- ADC r/m8, r8 (`base+0 /r`, R250). -/
  | adcRm8R8 (dst : Rm Reg8) (src : Reg8)
  /-- ADC r/m, r (`base+1 /r`). -/
  | adcRmR (sz : OpSize) (dst : Rm Gpr) (src : Gpr)
  /-- ADC r8, r/m8 (`base+2 /r`). -/
  | adcR8Rm8 (dst : Reg8) (src : Rm Reg8)
  /-- ADC r, r/m (`base+3 /r`). -/
  | adcRRm (sz : OpSize) (dst : Gpr) (src : Rm Gpr)
  /-- ADC AL, imm8 (`base+4 ib`). -/
  | adcAlImm8 (imm : Byte)
  /-- ADC AX/EAX/RAX, immz (`base+5 iz`). -/
  | adcAccImm (imm : ImmZ)
  /-- SBB r/m8, r8 (`base+0 /r`, R250). -/
  | sbbRm8R8 (dst : Rm Reg8) (src : Reg8)
  /-- SBB r/m, r (`base+1 /r`). -/
  | sbbRmR (sz : OpSize) (dst : Rm Gpr) (src : Gpr)
  /-- SBB r8, r/m8 (`base+2 /r`). -/
  | sbbR8Rm8 (dst : Reg8) (src : Rm Reg8)
  /-- SBB r, r/m (`base+3 /r`). -/
  | sbbRRm (sz : OpSize) (dst : Gpr) (src : Rm Gpr)
  /-- SBB AL, imm8 (`base+4 ib`). -/
  | sbbAlImm8 (imm : Byte)
  /-- SBB AX/EAX/RAX, immz (`base+5 iz`). -/
  | sbbAccImm (imm : ImmZ)
  /-- SUB r/m8, r8 (`base+0 /r`, R250). -/
  | subRm8R8 (dst : Rm Reg8) (src : Reg8)
  /-- SUB r/m, r (`base+1 /r`). -/
  | subRmR (sz : OpSize) (dst : Rm Gpr) (src : Gpr)
  /-- SUB r8, r/m8 (`base+2 /r`). -/
  | subR8Rm8 (dst : Reg8) (src : Rm Reg8)
  /-- SUB r, r/m (`base+3 /r`). -/
  | subRRm (sz : OpSize) (dst : Gpr) (src : Rm Gpr)
  /-- SUB AL, imm8 (`base+4 ib`). -/
  | subAlImm8 (imm : Byte)
  /-- SUB AX/EAX/RAX, immz (`base+5 iz`). -/
  | subAccImm (imm : ImmZ)
  /-- ADD r/m8, imm8 (`80 /n ib`). -/
  | addRm8Imm8 (dst : Rm Reg8) (imm : Byte)
  /-- ADD r/m, immz (`81 /n iz`). -/
  | addRmImm (dst : Rm Gpr) (imm : ImmZ)
  /-- ADD r/m, sign-extended imm8 (`83 /n ib`). -/
  | addRmSimm8 (sz : OpSize) (dst : Rm Gpr) (imm : Byte)
  /-- ADC r/m8, imm8 (`80 /n ib`). -/
  | adcRm8Imm8 (dst : Rm Reg8) (imm : Byte)
  /-- ADC r/m, immz (`81 /n iz`). -/
  | adcRmImm (dst : Rm Gpr) (imm : ImmZ)
  /-- ADC r/m, sign-extended imm8 (`83 /n ib`). -/
  | adcRmSimm8 (sz : OpSize) (dst : Rm Gpr) (imm : Byte)
  /-- SBB r/m8, imm8 (`80 /n ib`). -/
  | sbbRm8Imm8 (dst : Rm Reg8) (imm : Byte)
  /-- SBB r/m, immz (`81 /n iz`). -/
  | sbbRmImm (dst : Rm Gpr) (imm : ImmZ)
  /-- SBB r/m, sign-extended imm8 (`83 /n ib`). -/
  | sbbRmSimm8 (sz : OpSize) (dst : Rm Gpr) (imm : Byte)
  /-- SUB r/m8, imm8 (`80 /n ib`). -/
  | subRm8Imm8 (dst : Rm Reg8) (imm : Byte)
  /-- SUB r/m, immz (`81 /n iz`). -/
  | subRmImm (dst : Rm Gpr) (imm : ImmZ)
  /-- SUB r/m, sign-extended imm8 (`83 /n ib`). -/
  | subRmSimm8 (sz : OpSize) (dst : Rm Gpr) (imm : Byte)
  /-- PUSH r (`50+r`, 40_flag_control.md R232). -/
  | push (sz : OpSize) (r : Gpr)
  /-- POP r (`58+r`, R233). -/
  | pop (sz : OpSize) (r : Gpr)
  /-- Jcc rel8 (`70+cc cb`, 43_control_transfer.md R321). -/
  | jccRel8 (c : Cond) (rel : BitVec 8)
  /-- MOV r/m8, r8 (`88 /r`, 42_data_movement.md R291). -/
  | movRm8R8 (dst : Rm Reg8) (src : Reg8)
  /-- MOV r/m, r (`89 /r`, R291). -/
  | movRmR (sz : OpSize) (dst : Rm Gpr) (src : Gpr)
  /-- MOV r8, r/m8 (`8A /r`, R292). -/
  | movR8Rm8 (dst : Reg8) (src : Rm Reg8)
  /-- MOV r, r/m (`8B /r`, R292). -/
  | movRRm (sz : OpSize) (dst : Gpr) (src : Rm Gpr)
  /-- MOV r/m, Sreg (`8C /r`, R295). -/
  | movRmSreg (sz : OpSize) (dst : Rm Gpr) (src : SegField)
  /-- MOV Sreg, r/m16 (`8E /r`, R296). -/
  | movSregRm (dst : SegField) (src : Rm Gpr)
  /-- PUSHF, PUSHFD, PUSHFQ (`9C`, 40_flag_control.md R229). -/
  | pushf (sz : OpSize)
  /-- POPF, POPFD, POPFQ (`9D`, R231). -/
  | popf (sz : OpSize)
  /-- SAHF (`9E`, R228). -/
  | sahf
  /-- LAHF (`9F`, R227). -/
  | lahf
  /-- MOVSB (`A4`, 44_string.md R341); `seg` overrides DS for the source. -/
  | movsb (seg : Option SegReg)
  /-- MOVSW, MOVSD, MOVSQ (`A5`, R341). -/
  | movs (sz : OpSize) (seg : Option SegReg)
  /-- CMPSB (`A6`, R342). -/
  | cmpsb (seg : Option SegReg)
  /-- CMPSW, CMPSD, CMPSQ (`A7`, R342). -/
  | cmps (sz : OpSize) (seg : Option SegReg)
  /-- STOSB (`AA`, R345). -/
  | stosb
  /-- STOSW, STOSD, STOSQ (`AB`, R345). -/
  | stos (sz : OpSize)
  /-- LODSB (`AC`, R344). -/
  | lodsb (seg : Option SegReg)
  /-- LODSW, LODSD, LODSQ (`AD`, R344). -/
  | lods (sz : OpSize) (seg : Option SegReg)
  /-- SCASB (`AE`, R343). -/
  | scasb
  /-- SCASW, SCASD, SCASQ (`AF`, R343). -/
  | scas (sz : OpSize)
  /-- MOV r8, imm8 (`B0+r ib`, 42_data_movement.md R293). -/
  | movR8Imm8 (dst : Reg8) (imm : Byte)
  /-- MOV r, immv (`B8+r iv`, R293). -/
  | movRImm (dst : Gpr) (imm : ImmV)
  /-- MOV r/m8, imm8 (`C6 /0 ib`, R294). -/
  | movRm8Imm8 (dst : Rm Reg8) (imm : Byte)
  /-- MOV r/m, immz (`C7 /0 iz`, R294). -/
  | movRmImm (dst : Rm Gpr) (imm : ImmZ)
  /-- IRET, IRETD, IRETQ (`CF`, 45_named_only.md R360): named only. -/
  | iret
  /-- LOOPNE, LOOPNZ rel8 (`E0 cb`, 43_control_transfer.md R325). -/
  | loopne (rel : BitVec 8)
  /-- LOOPE, LOOPZ rel8 (`E1 cb`, R324). -/
  | loope (rel : BitVec 8)
  /-- LOOP rel8 (`E2 cb`, R323). -/
  | loop (rel : BitVec 8)
  /-- CMC (`F5`, 40_flag_control.md R224). -/
  | cmc
  /-- MUL r/m8 (`F6 /4`, 41_arithmetic.md R256). -/
  | mulRm8 (src : Rm Reg8)
  /-- MUL r/m (`F7 /4`, R256). -/
  | mulRm (sz : OpSize) (src : Rm Gpr)
  /-- DIV r/m8 (`F6 /6`, R257). -/
  | divRm8 (src : Rm Reg8)
  /-- DIV r/m (`F7 /6`, R257). -/
  | divRm (sz : OpSize) (src : Rm Gpr)
  /-- IDIV r/m8 (`F6 /7`, R258). -/
  | idivRm8 (src : Rm Reg8)
  /-- IDIV r/m (`F7 /7`, R258). -/
  | idivRm (sz : OpSize) (src : Rm Gpr)
  /-- CLC (`F8`, 40_flag_control.md R223). -/
  | clc
  /-- STC (`F9`, R222). -/
  | stc
  /-- CLD (`FC`, R226). -/
  | cld
  /-- STD (`FD`, R225). -/
  | std
  /-- CMOVcc r, r/m (`0F 40+cc /r`, 42_data_movement.md R297). -/
  | cmovcc (c : Cond) (sz : OpSize) (dst : Gpr) (src : Rm Gpr)
  /-- Jcc rel32 (`0F 80+cc cd`, 43_control_transfer.md R322). -/
  | jccRel32 (c : Cond) (rel : BitVec 32)
  /-- SETcc r/m8 (`0F 90+cc /r`, 42_data_movement.md R298). -/
  | setcc (c : Cond) (dst : Rm Reg8)
  /-- CPUID (`0F A2`, 45_named_only.md R361): named only. -/
  | cpuid
  /-- BT r/m, r (`0F A3 /r`, 41_arithmetic.md R259 to R263). -/
  | btRmR (sz : OpSize) (base : Rm Gpr) (off : Gpr)
  /-- BTS r/m, r (`0F AB /r`, 41_arithmetic.md R259 to R263). -/
  | btsRmR (sz : OpSize) (base : Rm Gpr) (off : Gpr)
  /-- BTR r/m, r (`0F B3 /r`, 41_arithmetic.md R259 to R263). -/
  | btrRmR (sz : OpSize) (base : Rm Gpr) (off : Gpr)
  /-- BTC r/m, r (`0F BB /r`, 41_arithmetic.md R259 to R263). -/
  | btcRmR (sz : OpSize) (base : Rm Gpr) (off : Gpr)
  /-- BT r/m, imm8 (`0F BA /4 ib`, R259 to R263). -/
  | btRmImm8 (sz : OpSize) (base : Rm Gpr) (off : Byte)
  /-- BTS r/m, imm8 (`0F BA /5 ib`, R259 to R263). -/
  | btsRmImm8 (sz : OpSize) (base : Rm Gpr) (off : Byte)
  /-- BTR r/m, imm8 (`0F BA /6 ib`, R259 to R263). -/
  | btrRmImm8 (sz : OpSize) (base : Rm Gpr) (off : Byte)
  /-- BTC r/m, imm8 (`0F BA /7 ib`, R259 to R263). -/
  | btcRmImm8 (sz : OpSize) (base : Rm Gpr) (off : Byte)
deriving DecidableEq, Repr

end Sys2Proof
end

