-- ==== Sys2Proof/Machine/State.lean ====
section
/-!
DEFINITION. The state of the machine as plain data (spec/10_state.md; INVENTORY.md, heading State), the reasons a step can
stop (spec/60_exceptions.md R382; spec/00_scope.md R10), and the state right after reset.
-/
namespace Sys2Proof.Machine

/-! ## Parts of the state -/

/-- The sixteen general registers, 64 bits each (10_state.md R21, R27). In PROT32 only the low halves of the first eight
exist (R32, R35; log 12). -/
structure GprFile where
  rax : Quad
  rcx : Quad
  rdx : Quad
  rbx : Quad
  rsp : Quad
  rbp : Quad
  rsi : Quad
  rdi : Quad
  r8 : Quad
  r9 : Quad
  r10 : Quad
  r11 : Quad
  r12 : Quad
  r13 : Quad
  r14 : Quad
  r15 : Quad
deriving DecidableEq, Repr

/-- One value for each of the six segment registers (10_state.md R42, R47): the selectors, or the hidden bases. -/
structure SegFile (α : Type) where
  es : α
  cs : α
  ss : α
  ds : α
  fs : α
  gs : α
deriving DecidableEq, Repr

/-- Memory: the bytes that do not read as `Config.unlistedByte`, by linear address, addresses strictly rising
(20_memory.md R101; log 3). -/
abbrev Memory := List Host.Cell

/-- The three kinds of access that the launch memory admits (20_memory.md R126). -/
inductive Access where
  | read
  | write
  | fetch
deriving DecidableEq, Repr

/-- A run of byte addresses of the launch memory and the kinds of access it admits (20_memory.md R126, decision D4). -/
structure Region where
  base : Nat
  size : Nat
  read : Bool
  write : Bool
  fetch : Bool
deriving DecidableEq, Repr

/-- The faults that a descriptor lookup can report, with the selector as error code (42_data_movement.md R296;
60_exceptions.md R382). -/
inductive SegFault where
  /-- `#NP`. -/
  | notPresent (code : BitVec 16)
  /-- `#SS`. -/
  | stackSegment (code : BitVec 16)
  /-- `#GP`. -/
  | generalProtection (code : BitVec 16)
deriving DecidableEq, Repr

/-- What a descriptor lookup answers (42_data_movement.md R296, decision D3). -/
inductive DescResult where
  /-- The selector is valid and its segment has this 32-bit base. -/
  | ok (base : BitVec 32)
  | fault (e : SegFault)
  | unknown
deriving DecidableEq, Repr

/-- One entry of the table that holds `DescLookup`: its three arguments and its answer. -/
structure DescEntry where
  sreg : SegReg
  selector : BitVec 16
  cpl : BitVec 2
  result : DescResult
deriving DecidableEq, Repr

/-- The launch parameters (00_scope.md R7, 70_reset_and_hazards.md R431): fixed for a run. `DescLookup` is a table and the
answer for what the table does not list, so that it is data (log 5). The control-register bits of R7 are in `SysRegs`. -/
structure Launch where
  mode : Mode
  cpl : BitVec 2
  lahf64 : Bool
  idToggle : Bool
  entry : Quad
  endAddr : Quad
  regions : List Region
  descTable : List DescEntry
  descDefault : DescResult
deriving DecidableEq, Repr

/-- The system registers that can be register operands (10_state.md R80 to R86). Widths PRESUMED (log 6). -/
structure SysRegs where
  cr0 : Quad
  cr2 : Quad
  cr3 : Quad
  cr4 : Quad
  cr8 : Quad
  gdtr : BitVec 80
  idtr : BitVec 80
  ldtr : BitVec 16
  tr : BitVec 16
  dr0 : Quad
  dr1 : Quad
  dr2 : Quad
  dr3 : Quad
  dr6 : Quad
  dr7 : Quad
  msrs : List (Nat × Quad)
deriving DecidableEq, Repr

/-- The x87, MMX and XMM register files (10_state.md R87 to R89), which no admitted instruction reaches. Widths other than
64-bit MMX and 128-bit XMM PRESUMED (log 6). -/
structure FpRegs where
  st : Vector (BitVec 80) 8
  statusWord : BitVec 16
  controlWord : BitVec 16
  tagWord : BitVec 16
  dataPointer : Quad
  instrPointer : Quad
  mm : Vector Quad 8
  xmm : Vector (BitVec 128) 16
  mxcsr : BitVec 32
deriving DecidableEq, Repr

/-! ## The state -/

/-- The whole state of the machine. -/
structure State where
  /-- General registers (10_state.md R21, R27). -/
  gpr : GprFile
  /-- EIP or RIP (10_state.md R37, R38). -/
  pc : Quad
  /-- The address after the current instruction, `pc_next` (00_scope.md R9, 10_state.md R39): the model's own field, set
  by the step before an instruction executes (log 18). -/
  pcNext : Quad
  /-- Segment selectors (10_state.md R42). -/
  selector : SegFile (BitVec 16)
  /-- Hidden segment bases (10_state.md R47); `fs` and `gs` are FS_BASE and GS_BASE (00_scope.md R7). -/
  segBase : SegFile Quad
  /-- RFLAGS; its low half is EFLAGS (10_state.md R50, R79). -/
  rflags : Quad
  /-- Memory (20_memory.md R101). -/
  mem : Memory
  /-- Launch parameters (00_scope.md R7). -/
  launch : Launch
  /-- System registers (10_state.md R80 to R86). -/
  sys : SysRegs
  /-- x87, MMX and XMM registers (10_state.md R87 to R89). -/
  fp : FpRegs
  /-- How many free bits the run has drawn (00_scope.md R9 `draw_N`; the model's own field, log 10). -/
  draws : Nat
deriving DecidableEq, Repr

/-! ## Why a step stops -/

/-- The faults (60_exceptions.md R381, R382): the hardware would raise the named exception. Terminal, because the spec
describes no handler entry (decision D8). Unless its docstring says otherwise, the state is that before the instruction
and nothing was written. Safe: where the hardware would go on in a handler, the model stops. -/
inductive Fault where
  /-- `#DE`, vector 0: raised by DIV and IDIV (R383). Safe. -/
  | divideError
  /-- `#DB`, vector 1: raised by the step after an instruction that began with TF = 1; `after` is the state after the
  instruction (R384, R408). Safe. -/
  | debug (after : State)
  /-- `#UD`, vector 6: raised by MOV to and from segment registers and by LAHF and SAHF (R385). Safe. -/
  | invalidOpcode
  /-- `#NP`, vector 11: raised by MOV Sreg when the descriptor lookup reports it (R296). Safe. -/
  | segmentNotPresent (code : BitVec 16)
  /-- `#SS`, vector 12: raised by MOV Sreg when the descriptor lookup reports it (R296). Safe. -/
  | stackFault (code : BitVec 16)
  /-- `#GP`, vector 13: raised by MOV Sreg when the descriptor lookup reports it (R296), and by the fetch of an
  instruction longer than 15 bytes (30_encoding.md R160), which no admitted encoding is. Safe. -/
  | generalProtection (code : BitVec 16)
  /-- `#PF`, vector 14: named by R382 and raised by nothing, since there is no paging (R387). Safe. -/
  | pageFault (code : BitVec 16)
  /-- `#AC(0)`, vector 17: raised by a misaligned data access under alignment checking (R386). Safe. -/
  | alignmentCheck
deriving DecidableEq, Repr

/-- The refusals (00_scope.md R10): the spec gives the bytes or the situation no meaning, and nothing may be concluded of
the hardware (70_reset_and_hazards.md R432). All are safe. -/
inductive Refusal where
  /-- An instruction that the model does not give a meaning yet. Raised by no arm. Safe. -/
  | notModelled (mnemonic : String)
  /-- `refuse(OutsideLaunchMemory)`: raised by a fetch or data access to a byte that the launch memory does not admit
  (20_memory.md R126). Safe. -/
  | outsideLaunchMemory
  /-- `refuse(WriteToCode)`: raised by a store to a byte admitted for fetch (20_memory.md R135). Safe. -/
  | writeToCode
  /-- `refuse(Prefix)`: raised by the decoder (30_encoding.md R164). Safe. -/
  | prefixRefused
  /-- `refuse(Opcode)`: raised by the decoder (30_encoding.md R183). Safe. -/
  | opcodeRefused
  /-- `refuse(NamedOnly …)`: raised by IRET and CPUID (45_named_only.md R360, R361). Safe. -/
  | namedOnly (mnemonic : String)
  /-- `refuse(UnknownSelector)`: raised by MOV Sreg (42_data_movement.md R296). Safe. -/
  | unknownSelector
  /-- `refuse(MovSSUnderSingleStep)`: raised by MOV SS when TF = 1 (42_data_movement.md R296). Safe. -/
  | movSSUnderSingleStep
  /-- `refuse(BitStringMemoryForm)`: raised by BT, BTS, BTR, BTC with a memory base and a register offset
  (41_arithmetic.md R259). Safe. -/
  | bitStringMemoryForm
deriving DecidableEq, Repr

/-! ## Reset -/

/-- General registers at reset: zero, DESIGN CHOICE (10_state.md R93 gives none; log 1). -/
def GprFile.zero : GprFile := ⟨0, 0, 0, 0, 0, 0, 0, 0, 0, 0, 0, 0, 0, 0, 0, 0⟩

/-- System registers at reset: zero, DESIGN CHOICE (10_state.md R93 gives none; log 6). -/
def SysRegs.zero : SysRegs := ⟨0, 0, 0, 0, 0, 0, 0, 0, 0, 0, 0, 0, 0, 0, 0, []⟩

/-- x87, MMX and XMM registers at reset: zero, DESIGN CHOICE (10_state.md R93 gives none; log 6). -/
def FpRegs.zero : FpRegs :=
  ⟨Vector.replicate 8 0, 0, 0, 0, 0, 0, Vector.replicate 8 0, Vector.replicate 16 0, 0⟩

/-- The launch memory at reset: 1000H to 1FFFH can be read and fetched, every other byte of the 4-GByte space read and
written. DESIGN CHOICE (log 4). -/
def Launch.defaultRegions : List Region :=
  [⟨0x0, 0x1000, true, true, false⟩, ⟨0x1000, 0x1000, true, false, true⟩, ⟨0x2000, 0xFFFFE000, true, true, false⟩]

/-- The launch parameters at reset: the launch state that spec/95_test_vectors.md takes unless a line says otherwise.
DESIGN CHOICE (log 1, log 2, log 4, log 5). -/
def Launch.default : Launch :=
  { mode := .prot32, cpl := 3, lahf64 := true, idToggle := true, entry := 0x1000, endAddr := 0x2000,
    regions := Launch.defaultRegions, descTable := [], descDefault := .ok 0 }

/-- The machine right after reset: RFLAGS is 00000002H (10_state.md R51, 70_reset_and_hazards.md R430); the spec states no
other value (R93), and every other field is the model's choice (log 1 to log 6). -/
def State.reset : State :=
  { gpr := GprFile.zero, pc := Launch.default.entry, pcNext := 0, selector := ⟨0, 0, 0, 0, 0, 0⟩, segBase := ⟨0, 0, 0, 0, 0, 0⟩,
    rflags := 0x00000002, mem := [], launch := Launch.default, sys := SysRegs.zero, fp := FpRegs.zero, draws := 0 }

end Sys2Proof.Machine
end

