-- ==== Sys2Proof/Machine/Flags.lean ====
section
/-!
DEFINITION. The flags of RFLAGS (spec/10_state.md R52, R53), the flag computations of addition and subtraction
(spec/41_arithmetic.md R251), the condition codes (spec/43_control_transfer.md R320) and the masks of the instructions
that move flags (spec/40_flag_control.md R227 to R231).
-/
namespace Sys2Proof.Machine

/-- The one-bit flags (10_state.md R53). -/
inductive Flag where
  | cf | pf | af | zf | sf | tf | intf | df | of | nt | rf | vm | ac | vif | vip | id
deriving DecidableEq, Repr

/-- The bit position of a flag in RFLAGS (10_state.md R53). -/
def Flag.bit : Flag → Nat
  | .cf => 0
  | .pf => 2
  | .af => 4
  | .zf => 6
  | .sf => 7
  | .tf => 8
  | .intf => 9
  | .df => 10
  | .of => 11
  | .nt => 14
  | .rf => 16
  | .vm => 17
  | .ac => 18
  | .vif => 19
  | .vip => 20
  | .id => 21

/-- `FLAGS.X` (00_scope.md R9). -/
def getFlag (fl : Quad) (f : Flag) : Bool := fl.getLsbD f.bit

/-- `FLAGS.X <- b` (00_scope.md R9). -/
def setFlag (fl : Quad) (f : Flag) (b : Bool) : Quad := setBit fl f.bit b

/-- IOPL, bits 13:12 (10_state.md R71). -/
def iopl (fl : Quad) : BitVec 2 := fl.extractLsb' 12 2

/-- The reserved bits of RFLAGS: 1, 3, 5, 15 and 22 to 31 of EFLAGS (10_state.md R52) and the upper half (R79). -/
def reservedMask : Quad := 0xFFFFFFFFFFC0802A

/-- The reserved bits hold their fixed values: bit 1 is 1, the others 0 (10_state.md R52, R79). -/
def reservedOk (fl : Quad) : Bool := fl &&& reservedMask == 2

/-! ## Status flags -/

/-- The six status flags that an arithmetic instruction writes (10_state.md R58 to R63). -/
structure StatusFlags where
  of : Bool
  sf : Bool
  zf : Bool
  af : Bool
  pf : Bool
  cf : Bool
deriving DecidableEq, Repr

/-- Write the six status flags (41_arithmetic.md R250). -/
def setStatus (fl : Quad) (f : StatusFlags) : Quad :=
  setFlag (setFlag (setFlag (setFlag (setFlag (setFlag fl .of f.of) .sf f.sf) .zf f.zf) .af f.af) .pf f.pf) .cf f.cf

/-- PF: the least significant byte of the result contains an even number of 1 bits (10_state.md R59). -/
def parityFlag {w : Nat} (r : BitVec w) : Bool := popcount8 (r.setWidth 8) % 2 == 0

/-- The sum and the flags of `a + b + c` (41_arithmetic.md R251, AddFlags). -/
def addFlags {w : Nat} (a b : BitVec w) (c : Bool) : BitVec w × StatusFlags :=
  let s := a.toNat + b.toNat + c.toNat
  let r := BitVec.ofNat w s
  (r,
    { of := a.msb == b.msb && r.msb != a.msb
      sf := r.msb
      zf := r == 0
      af := decide (16 ≤ a.toNat % 16 + b.toNat % 16 + c.toNat)
      pf := parityFlag r
      cf := decide (2 ^ w ≤ s) })

/-- The difference and the flags of `a - b - c` (41_arithmetic.md R251, SubFlags). -/
def subFlags {w : Nat} (a b : BitVec w) (c : Bool) : BitVec w × StatusFlags :=
  let d : Int := a.toNat - b.toNat - c.toNat
  let r := BitVec.ofInt w d
  (r,
    { of := a.msb != b.msb && r.msb != a.msb
      sf := r.msb
      zf := r == 0
      af := decide (a.toNat % 16 < b.toNat % 16 + c.toNat)
      pf := parityFlag r
      cf := decide (a.toNat < b.toNat + c.toNat) })

/-- The four two-operand arithmetic operations (41_arithmetic.md R252 to R255). -/
inductive AluOp where
  | add | adc | sub | sbb
deriving DecidableEq, Repr

/-- The result and the flags of an arithmetic operation; `cf` is the carry flag before it (41_arithmetic.md R252 to
R255). -/
def aluResult {w : Nat} (op : AluOp) (a b : BitVec w) (cf : Bool) : BitVec w × StatusFlags :=
  match op with
  | .add => addFlags a b false
  | .adc => addFlags a b cf
  | .sub => subFlags a b false
  | .sbb => subFlags a b cf

/-! ## Conditions -/

/-- `cond(cc)` (43_control_transfer.md R320). -/
def condHolds (c : Cond) (fl : Quad) : Bool :=
  let cf := getFlag fl .cf
  let pf := getFlag fl .pf
  let zf := getFlag fl .zf
  let sf := getFlag fl .sf
  let of := getFlag fl .of
  match c with
  | .o => of
  | .no => !of
  | .b => cf
  | .ae => !cf
  | .e => zf
  | .ne => !zf
  | .be => cf || zf
  | .a => !cf && !zf
  | .s => sf
  | .ns => !sf
  | .p => pf
  | .np => !pf
  | .l => sf != of
  | .ge => sf == of
  | .le => zf || sf != of
  | .g => !zf && sf == of

/-! ## Moving flags -/

/-- The flags that PUSHFD and PUSHFQ push: EFLAGS with VM and RF as 0 (40_flag_control.md R229). -/
def pushfImage (fl : Quad) : Quad := fl &&& 0x00FCFFFF

/-- The bits that POPFD and POPFQ may change, by CPL and IOPL (40_flag_control.md R230). Without `idToggle` bit 21 is
not among them. -/
def popfMask (cpl iopl : BitVec 2) (idToggle : Bool) : Quad :=
  let m : Quad := if cpl = 0 then 0x00247FD5 else if cpl ≤ iopl then 0x00244FD5 else 0x00244DD5
  if idToggle then m else m &&& 0xFFDFFFFF

/-- The bits that POPF with a 16-bit operand may change (40_flag_control.md R230). -/
def popfMask16 (cpl iopl : BitVec 2) : Quad :=
  if cpl = 0 then 0x7FD5 else if cpl ≤ iopl then 0x4FD5 else 0x4DD5

/-- `fl` with the bits of `mask` taken from `v` (40_flag_control.md R231). -/
def mergeBits (fl v mask : Quad) : Quad := (fl &&& ~~~mask) ||| (v &&& mask)

/-- SAHF: SF, ZF, AF, PF, CF from a byte (40_flag_control.md R228). -/
def sahfFlags (fl : Quad) (ah : Byte) : Quad :=
  setFlag (setFlag (setFlag (setFlag (setFlag fl .sf (ah.getLsbD 7)) .zf (ah.getLsbD 6)) .af (ah.getLsbD 4)) .pf
    (ah.getLsbD 2)) .cf (ah.getLsbD 0)

end Sys2Proof.Machine
end

