-- ==== Sys2Proof/Machine/Ops.lean ====
section
/-!
DEFINITION. The operations over registers and memory that every meaning is made of: register access with the partial-write
rules, linear addresses, admission and alignment of accesses, memory, descriptor lookup, the stack, free bits, and raising
a fault (spec/10_state.md, spec/20_memory.md, spec/40_flag_control.md R220 and R221, spec/60_exceptions.md).
-/
namespace Sys2Proof.Machine

/-! ## Stopping -/

/-- Why an operation gives no state: a fault or a refusal (00_scope.md R10). -/
inductive Stop where
  | fault (f : Fault)
  | refusal (r : Refusal)
deriving DecidableEq, Repr

/-- What an operation gives: a value, or why the step stops. -/
abbrev Res (α : Type) := Except Stop α

/-- Taking an exception: `raise #XX` (00_scope.md R9). The spec describes no handler entry (60_exceptions.md R381, R390,
decision D8), so it ends the run with the named fault, and nothing that the instruction would have written is written. -/
def raise {α : Type} (f : Fault) : Res α := .error (.fault f)

/-- `refuse(reason)` (00_scope.md R9). -/
def refuse {α : Type} (r : Refusal) : Res α := .error (.refusal r)

/-- Returning from an exception: the spec names IRET and gives it no effect, since no handler is ever entered
(45_named_only.md R360, 60_exceptions.md R390); log 19. -/
def returnFromException : Res State := refuse (.namedOnly "IRET")

/-- The outcome of a step from what its operations gave. -/
def toOutcome : Res State → Host.Outcome State Fault Refusal
  | .ok s => .next s
  | .error (.fault f) => .fault f
  | .error (.refusal r) => .refused r

/-- The end of an instruction that does not write `pc`: `pc` becomes `pc_next` (00_scope.md R10, 10_state.md R39). -/
def advance (s : State) : State := { s with pc := s.pcNext }

/-- The outcome of an instruction that does not write `pc`. -/
def finish (r : Res State) : Host.Outcome State Fault Refusal := toOutcome (r.map advance)

/-! ## Modes and widths -/

/-- `trunc_W` and `trunc_A` (00_scope.md R9): an address reduced to the address width of the mode. -/
def truncAddr (md : Mode) (a : Quad) : Quad :=
  match md with
  | .prot32 => (a.setWidth 32).setWidth 64
  | .long64 => a

/-- How many byte addresses the linear address space has (20_memory.md R101). -/
def spaceSize (md : Mode) : Nat := 2 ^ md.addrBits

/-! ## General registers -/

/-- The 64 bits of a general register. -/
def GprFile.get (g : GprFile) : Gpr → Quad
  | .rax => g.rax | .rcx => g.rcx | .rdx => g.rdx | .rbx => g.rbx
  | .rsp => g.rsp | .rbp => g.rbp | .rsi => g.rsi | .rdi => g.rdi
  | .r8 => g.r8 | .r9 => g.r9 | .r10 => g.r10 | .r11 => g.r11
  | .r12 => g.r12 | .r13 => g.r13 | .r14 => g.r14 | .r15 => g.r15

/-- Replace the 64 bits of a general register. -/
def GprFile.set (g : GprFile) (r : Gpr) (v : Quad) : GprFile :=
  match r with
  | .rax => { g with rax := v } | .rcx => { g with rcx := v } | .rdx => { g with rdx := v } | .rbx => { g with rbx := v }
  | .rsp => { g with rsp := v } | .rbp => { g with rbp := v } | .rsi => { g with rsi := v } | .rdi => { g with rdi := v }
  | .r8 => { g with r8 := v } | .r9 => { g with r9 := v } | .r10 => { g with r10 := v } | .r11 => { g with r11 := v }
  | .r12 => { g with r12 := v } | .r13 => { g with r13 := v } | .r14 => { g with r14 := v } | .r15 => { g with r15 := v }

/-- The general register whose bits 15:8 a legacy high byte names (10_state.md R26). -/
def highGpr : HiByte → Gpr
  | .ah => .rax | .ch => .rcx | .dh => .rdx | .bh => .rbx

/-- `x_w[r]`: the value that a register has at a width (10_state.md R25, R26, R28). A high byte is bits 15:8. -/
def readReg (w : Width) (r : Reg8) (s : State) : BitVec w.bits :=
  match r with
  | .lo g => (s.gpr.get g).setWidth w.bits
  | .hi h => ((s.gpr.get (highGpr h)) >>> 8).setWidth w.bits

/-- The 64 bits of a register after a write of `v` at a width: 64 bits replace all, 32 bits are zero-extended, 16 and 8
bits leave the rest (10_state.md R29 to R32; log 12 for PROT32). -/
def mergeLow (w : Width) (old : Quad) (v : BitVec w.bits) : Quad :=
  match w with
  | .b8 => (old.extractLsb' 8 56 ++ v.setWidth 8 : BitVec (56 + 8))
  | .b16 => (old.extractLsb' 16 48 ++ v.setWidth 16 : BitVec (48 + 16))
  | .b32 => v.setWidth 64
  | .b64 => v.setWidth 64

/-- The 64 bits of a register after a write of its bits 15:8 (10_state.md R31). -/
def mergeHigh (old : Quad) (v : Byte) : Quad :=
  (old.extractLsb' 16 48 ++ v ++ old.extractLsb' 0 8 : BitVec (48 + 8 + 8))

/-- `x_w[r] <- v` (10_state.md R29 to R32). -/
def writeReg (w : Width) (r : Reg8) (v : BitVec w.bits) (s : State) : State :=
  match r with
  | .lo g => { s with gpr := s.gpr.set g (mergeLow w (s.gpr.get g) v) }
  | .hi h => { s with gpr := s.gpr.set (highGpr h) (mergeHigh (s.gpr.get (highGpr h)) (v.setWidth 8)) }

/-- A register read at the address size: ESP, ESI, EDI, ECX in PROT32, RSP, RSI, RDI, RCX in LONG64 (30_encoding.md
R166). -/
def readAddrReg (r : Gpr) (s : State) : Quad := truncAddr s.launch.mode (s.gpr.get r)

/-- A register written at the address size (30_encoding.md R166); in PROT32 the value is zero-extended (log 12). -/
def writeAddrReg (r : Gpr) (v : Quad) (s : State) : State :=
  { s with gpr := s.gpr.set r (truncAddr s.launch.mode v) }

/-! ## Segments and linear addresses -/

/-- The entry of a segment file for a segment register. -/
def SegFile.get {α : Type} (f : SegFile α) : SegReg → α
  | .es => f.es | .cs => f.cs | .ss => f.ss | .ds => f.ds | .fs => f.fs | .gs => f.gs

/-- Replace the entry of a segment file for a segment register. -/
def SegFile.set {α : Type} (f : SegFile α) (r : SegReg) (v : α) : SegFile α :=
  match r with
  | .es => { f with es := v } | .cs => { f with cs := v } | .ss => { f with ss := v }
  | .ds => { f with ds := v } | .fs => { f with fs := v } | .gs => { f with gs := v }

/-- FS and GS, whose bases take part in addresses in LONG64 (10_state.md R48). -/
def isFsGs : SegReg → Bool
  | .fs | .gs => true
  | .es | .cs | .ss | .ds => false

/-- `base(s)`: in LONG64 the base of CS, DS, ES and SS is 0 whatever the descriptor says (10_state.md R47, R48;
20_memory.md R109, R110). -/
def baseOf (s : State) (r : SegReg) : Quad :=
  match s.launch.mode with
  | .prot32 => s.segBase.get r
  | .long64 => if isFsGs r then s.segBase.get r else 0

/-- `LA(s, off) = trunc_W(base(s) + off)` (20_memory.md R108). -/
def linear (s : State) (r : SegReg) (off : Quad) : Quad := truncAddr s.launch.mode (baseOf s r + off)

/-- `DescLookup(Sreg, selector, CPL)` (42_data_movement.md R296): the first table entry for these arguments, else the
default answer (log 5). -/
def descLookup (s : State) (r : SegReg) (sel : BitVec 16) : DescResult :=
  match s.launch.descTable.find? (fun e => e.sreg == r && e.selector == sel && e.cpl == s.launch.cpl) with
  | some e => e.result
  | none => s.launch.descDefault

/-- The fault that a descriptor lookup reports (60_exceptions.md R382). -/
def SegFault.toFault : SegFault → Fault
  | .notPresent c => .segmentNotPresent c
  | .stackSegment c => .stackFault c
  | .generalProtection c => .generalProtection c

/-- Load a segment register with a valid selector: in PROT32 its base too, in LONG64 the base of FS and GS only
(42_data_movement.md R296). -/
def loadSegment (s : State) (r : SegReg) (sel : BitVec 16) (base : BitVec 32) : State :=
  { s with
    selector := s.selector.set r sel
    segBase :=
      if s.launch.mode = .prot32 ∨ isFsGs r then s.segBase.set r (base.setWidth 64) else s.segBase }

/-! ## Control-register bits and privilege -/

/-- CR0_AM: bit 18 of CR0 (10_state.md R81). -/
def cr0Am (s : State) : Bool := s.sys.cr0.getLsbD 18

/-- CR4_SMAP: bit 21 of CR4 (10_state.md R82). No rule of the model reads it, since there are no pages (60_exceptions.md
R407). -/
def cr4Smap (s : State) : Bool := s.sys.cr4.getLsbD 21

/-- CR4_VME: bit 0 of CR4 (10_state.md R83). No rule of the model reads it (60_exceptions.md R405). -/
def cr4Vme (s : State) : Bool := s.sys.cr4.getLsbD 0

/-- The current program may access the I/O address space: CPL ≤ IOPL (10_state.md R71, 20_memory.md R139). No admitted
instruction does (20_memory.md R140). -/
def ioPermitted (s : State) : Bool := s.launch.cpl ≤ iopl s.rflags

/-- The I/O address space has 65,536 byte ports (20_memory.md R138). -/
def ioSpaceSize : Nat := 65536

/-- Maskable interrupts would be responded to: IF is set (10_state.md R70). The model has no interrupt source
(60_exceptions.md R389), so no step reads it. -/
def maskableInterruptsEnabled (s : State) : Bool := getFlag s.rflags .intf

/-! ## Memory -/

/-- The byte at an address. -/
def Memory.read : Memory → Nat → Byte
  | [], _ => Config.unlistedByte
  | (k, b) :: m, a => if a = k then b else Memory.read m a

/-- Memory with one byte replaced, in the canonical form: addresses strictly rising, no byte listed that reads as an
unlisted one. -/
def Memory.write : Memory → Nat → Byte → Memory
  | [], a, v => if v = Config.unlistedByte then [] else [(a, v)]
  | (k, b) :: m, a, v =>
    if a < k then if v = Config.unlistedByte then (k, b) :: m else (a, v) :: (k, b) :: m
    else if a = k then if v = Config.unlistedByte then m else (a, v) :: m
    else (k, b) :: Memory.write m a v

/-- The canonical form of memory. -/
def Memory.wf : Memory → Bool
  | [] => true
  | [(_, b)] => b != Config.unlistedByte
  | (k, b) :: (k', b') :: m => decide (k < k') && b != Config.unlistedByte && Memory.wf ((k', b') :: m)

/-- The `n` bytes from an address upward. -/
def Memory.readBytes (m : Memory) (a : Nat) : Nat → List Byte
  | 0 => []
  | n + 1 => Memory.read m a :: Memory.readBytes m (a + 1) n

/-- Memory with bytes stored from an address upward. -/
def Memory.writeBytes (m : Memory) (a : Nat) : List Byte → Memory
  | [] => m
  | b :: bs => Memory.writeBytes (Memory.write m a b) (a + 1) bs

/-- A region admits a kind of access. -/
def Region.allows (r : Region) : Access → Bool
  | .read => r.read
  | .write => r.write
  | .fetch => r.fetch

/-- A region covers an address. -/
def Region.covers (r : Region) (a : Nat) : Bool := decide (r.base ≤ a) && decide (a < r.base + r.size)

/-- The launch memory admits a kind of access to a byte, and the byte exists in the linear address space (20_memory.md
R101, R126; log 15). -/
def admits (s : State) (k : Access) (a : Nat) : Bool :=
  decide (a < spaceSize s.launch.mode) && s.launch.regions.any (fun r => r.allows k && r.covers a)

/-- Every byte of `a` to `a + n - 1` is admitted; so the access does not wrap past the top of the space (20_memory.md
R126). -/
def admitsAll (s : State) (k : Access) (a : Nat) : Nat → Bool
  | 0 => true
  | n + 1 => admits s k a && admitsAll s k (a + 1) n

/-- Some byte of `a` to `a + n - 1` is admitted for fetch (20_memory.md R135). -/
def touchesCode (s : State) (a : Nat) : Nat → Bool
  | 0 => false
  | n + 1 => admits s .fetch a || touchesCode s (a + 1) n

/-- Alignment checking is on and the access of `n` bytes is not aligned (20_memory.md R122, 60_exceptions.md R386). -/
def misaligned (s : State) (a n : Nat) : Bool :=
  cr0Am s && getFlag s.rflags .ac && s.launch.cpl == 3 && (n == 2 || n == 4 || n == 8) && a % n != 0

/-- `MemRead(addr, n)`: admission, then alignment (20_memory.md R120, R122, R126; 60_exceptions.md R388). -/
def memRead (s : State) (a : Quad) (n : Nat) : Res (BitVec (8 * n)) :=
  if !admitsAll s .read a.toNat n then refuse .outsideLaunchMemory
  else if misaligned s a.toNat n then raise .alignmentCheck
  else .ok (BitVec.ofNat (8 * n) (ofLeBytes (Memory.readBytes s.mem a.toNat n)))

/-- The store of a `MemWrite` that completes: byte `k` of `v` goes to `a + k` (20_memory.md R120). -/
def storeBytes (s : State) (a : Quad) (n : Nat) (v : BitVec (8 * n)) : State :=
  { s with mem := Memory.writeBytes s.mem a.toNat (leBytes n v.toNat) }

/-- `MemWrite(addr, n, v)`: the store-to-code refusal and admission, then alignment (20_memory.md R122, R126, R135;
60_exceptions.md R388; log 13 for the order of the two refusals). -/
def memWrite (s : State) (a : Quad) (n : Nat) (v : BitVec (8 * n)) : Res State :=
  if touchesCode s a.toNat n then refuse .writeToCode
  else if !admitsAll s .write a.toNat n then refuse .outsideLaunchMemory
  else if misaligned s a.toNat n then raise .alignmentCheck
  else .ok (storeBytes s a n v)

/-! ## The stack -/

/-- The linear address at which the next push of `n` bytes stores (40_flag_control.md R220). -/
def pushAddr (s : State) (n : Nat) : Quad :=
  linear s .ss (truncAddr s.launch.mode (readAddrReg .rsp s - BitVec.ofNat 64 n))

/-- `Push_n(v)` (40_flag_control.md R220): the pointer moves only if the store completed. -/
def push (w : Width) (v : BitVec w.bits) (s : State) : Res State := do
  let t ← memWrite s (pushAddr s w.bytes) w.bytes v
  .ok (writeAddrReg .rsp (readAddrReg .rsp s - BitVec.ofNat 64 w.bytes) t)

/-- The linear address from which a pop reads (40_flag_control.md R221). -/
def popAddr (s : State) : Quad := linear s .ss (readAddrReg .rsp s)

/-- `Pop_n()` (40_flag_control.md R221): the value, and the state with the pointer moved. -/
def pop (w : Width) (s : State) : Res (BitVec w.bits × State) := do
  let v ← memRead s (popAddr s) w.bytes
  .ok (v, writeAddrReg .rsp (readAddrReg .rsp s + BitVec.ofNat 64 w.bytes) s)

/-! ## Flags of the state -/

/-- The state with RFLAGS replaced. -/
def withFlags (s : State) (fl : Quad) : State := { s with rflags := fl }

/-- The carry flag. -/
def carry (s : State) : Bool := getFlag s.rflags .cf

/-- `draw_1` (00_scope.md R9): the next free bit and the state that has used it (log 10). -/
def draw (s : State) : Bool × State := (Config.freeBit s.draws, { s with draws := s.draws + 1 })

/-- A flag that the instruction leaves undefined takes a free bit (70_reset_and_hazards.md R441). -/
def drawFlag (s : State) (f : Flag) : State := withFlags (draw s).2 (setFlag s.rflags f (draw s).1)

/-- Each of several undefined flags takes a free bit of its own (70_reset_and_hazards.md R441). -/
def drawFlags (s : State) (fs : List Flag) : State := fs.foldl drawFlag s

/-- VIF or VIP under POPFD and POPFQ: its old value or 0, by a free bit (40_flag_control.md R230, decision D23; log 11). -/
def drawKeepOrClear (s : State) (f : Flag) : State :=
  withFlags (draw s).2 (setFlag s.rflags f (getFlag s.rflags f && (draw s).1))

/-! ## Identification of faults -/

/-- The vector number of a fault (60_exceptions.md R382). -/
def Fault.vector : Fault → Nat
  | .divideError => 0
  | .debug _ => 1
  | .invalidOpcode => 6
  | .segmentNotPresent _ => 11
  | .stackFault _ => 12
  | .generalProtection _ => 13
  | .pageFault _ => 14
  | .alignmentCheck => 17

/-- The error code of a fault, if it has one (60_exceptions.md R382). -/
def Fault.errorCode : Fault → Option (BitVec 16)
  | .divideError | .debug _ | .invalidOpcode => none
  | .segmentNotPresent c | .stackFault c | .generalProtection c | .pageFault c => some c
  | .alignmentCheck => some 0

end Sys2Proof.Machine
end

