-- ==== Sys2Proof/Machine/Operands.lean ====
section
/-!
DEFINITION. Every operand form: effective addresses and default segments (spec/20_memory.md R112 to R118), r/m operands,
immediates (spec/30_encoding.md R177), branch targets (spec/43_control_transfer.md R321), the pointers of the string
instructions (spec/44_string.md R340), the register pairs of MUL and DIV (spec/10_state.md R36) and far pointers
(spec/20_memory.md R119).
-/
namespace Sys2Proof.Machine

/-! ## Memory operands -/

/-- The factor by which an index is multiplied (30_encoding.md R173). -/
def scaleFactor : Scale → Quad
  | .x1 => 1
  | .x2 => 2
  | .x4 => 4
  | .x8 => 8

/-- The base component: 0 when there is none; the RIP value is the address of the next instruction (20_memory.md R112,
R116). -/
def baseValue (s : State) : Base → Quad
  | .absent => 0
  | .reg r => readAddrReg r s
  | .rip => s.pcNext

/-- The scaled index component: 0 when there is none (20_memory.md R112). -/
def indexValue (s : State) : Option (Gpr × Scale) → Quad
  | none => 0
  | some (r, sc) => readAddrReg r s * scaleFactor sc

/-- The displacement, sign-extended to the address size (20_memory.md R112, R115). -/
def dispValue : Disp → Quad
  | .none => 0
  | .d8 v => v.signExtend 64
  | .d32 v => v.signExtend 64

/-- `EA`: base plus scaled index plus displacement, modulo 2^32 or 2^64 (20_memory.md R112, R115, R116). -/
def effectiveAddr (s : State) (m : Mem) : Quad :=
  truncAddr s.launch.mode (baseValue s m.base + indexValue s m.index + dispValue m.disp)

/-- The default segment: SS with ESP/RSP or EBP/RBP as the base, else DS (20_memory.md R113, R117). -/
def defaultSegment : Base → SegReg
  | .reg .rsp | .reg .rbp => .ss
  | .reg _ | .absent | .rip => .ds

/-- The segment of a memory operand: its override, else the default (20_memory.md R118). -/
def operandSegment (m : Mem) : SegReg := m.seg.getD (defaultSegment m.base)

/-- `LA(seg, EA)`: the linear address of a memory operand (20_memory.md R108). -/
def operandAddr (s : State) (m : Mem) : Quad := linear s (operandSegment m) (effectiveAddr s m)

/-! ## r/m operands -/

/-- An r/m operand of general registers as one of byte registers, whose low-byte names stand for the registers at every
width. -/
def wide : Rm Gpr → Rm Reg8
  | .reg r => .reg (.lo r)
  | .mem m => .mem m

/-- Read an r/m operand (41_arithmetic.md R250). -/
def readRm (w : Width) (rm : Rm Reg8) (s : State) : Res (BitVec w.bits) :=
  match rm with
  | .reg r => .ok (readReg w r s)
  | .mem m => memRead s (operandAddr s m) w.bytes

/-- Write an r/m operand (41_arithmetic.md R250). -/
def writeRm (w : Width) (rm : Rm Reg8) (v : BitVec w.bits) (s : State) : Res State :=
  match rm with
  | .reg r => .ok (writeReg w r v s)
  | .mem m => memWrite s (operandAddr s m) w.bytes v

/-- What a write of an r/m operand that completes leaves. -/
def storeRm (w : Width) (rm : Rm Reg8) (v : BitVec w.bits) (s : State) : State :=
  match rm with
  | .reg r => writeReg w r v s
  | .mem m => storeBytes s (operandAddr s m) w.bytes v

/-! ## Immediates -/

/-- The value of an immediate `iz`: with a 64-bit operand its 32 bits are sign-extended (30_encoding.md R177). -/
def immZValue : (imm : ImmZ) → BitVec imm.size.width.bits
  | .w16 v => v
  | .w32 v => v
  | .w64 v => v.signExtend 64

/-- The value of an immediate `iv` (30_encoding.md R177). -/
def immVValue : (imm : ImmV) → BitVec imm.size.width.bits
  | .w16 v => v
  | .w32 v => v
  | .w64 v => v

/-- The value of an 8-bit immediate of opcode 83: sign-extended to the operand width (30_encoding.md R177). -/
def simm8 (w : Width) (imm : Byte) : BitVec w.bits := imm.signExtend w.bits

/-! ## Branches -/

/-- `trunc_W(pc_next + sext_W(rel))` (43_control_transfer.md R321, R322). -/
def branchTarget {n : Nat} (s : State) (rel : BitVec n) : Quad := truncAddr s.launch.mode (s.pcNext + rel.signExtend 64)

/-- Continue at the branch target if the condition holds, else at the next instruction (43_control_transfer.md R321). -/
def branchIf {n : Nat} (taken : Bool) (rel : BitVec n) (s : State) : State :=
  { s with pc := if taken then branchTarget s rel else s.pcNext }

/-! ## String operands -/

/-- `delta`: plus the element size when DF is 0, minus it when DF is 1 (44_string.md R340). -/
def stringDelta (s : State) (w : Width) : Quad :=
  if getFlag s.rflags .df then -BitVec.ofNat 64 w.bytes else BitVec.ofNat 64 w.bytes

/-- `src = LA(S, SI)` with `S` the override segment or DS (44_string.md R340). -/
def stringSrc (s : State) (seg : Option SegReg) : Quad := linear s (seg.getD .ds) (readAddrReg .rsi s)

/-- `dst = LA(ES, DI)`, which no prefix overrides (44_string.md R340, 20_memory.md R118). -/
def stringDst (s : State) : Quad := linear s .es (readAddrReg .rdi s)

/-- Move a pointer register by `delta` (44_string.md R340). -/
def movePointer (r : Gpr) (delta : Quad) (s : State) : State := writeAddrReg r (readAddrReg r s + delta) s

/-! ## Double-width operands -/

/-- The register of the upper half of a double-width operand: AH for bytes, else DX, EDX, RDX (10_state.md R36). -/
def highHalf : Width → Reg8
  | .b8 => .hi .ah
  | .b16 | .b32 | .b64 => .lo .rdx

/-- The `2w`-bit operand AX, DX:AX, EDX:EAX or RDX:RAX (10_state.md R36, 41_arithmetic.md R257). -/
def readPair (w : Width) (s : State) : BitVec (w.bits + w.bits) :=
  readReg w (highHalf w) s ++ readReg w (.lo .rax) s

/-- Write the halves of AX, DX:AX, EDX:EAX or RDX:RAX (41_arithmetic.md R256, R257). -/
def writePair (w : Width) (hi lo : BitVec w.bits) (s : State) : State :=
  writeReg w (highHalf w) hi (writeReg w (.lo .rax) lo s)

/-! ## Far pointers -/

/-- A far pointer m16:16 or m16:32 in memory: the offset first, the selector after it (20_memory.md R119; log 28 for
m16:16). All its bytes must be admitted, so it does not wrap (R126). DESIGN CHOICE (log 34): offset and selector are read
apart, each checked for alignment by its own size. No admitted instruction takes a far pointer. -/
def readFarPointer (w : Width) (s : State) (a : Quad) : Res (BitVec 16 × BitVec w.bits) :=
  if !admitsAll s .read a.toNat (w.bytes + 2) then refuse .outsideLaunchMemory
  else do
    let off ← memRead s a w.bytes
    let sel ← memRead s (a + BitVec.ofNat 64 w.bytes) 2
    .ok (sel, off)

end Sys2Proof.Machine
end

