-- ==== Sys2Proof/Machine/Arithmetic.lean ====
section
/-!
DEFINITION. ADD, ADC, SUB, SBB, MUL, DIV, IDIV (spec/41_arithmetic.md R250 to R258): three shared operations and one
meaning per row of the opcode table.
-/
namespace Sys2Proof.Machine

/-- An arithmetic operation whose destination is an r/m operand and whose source value is `b`: the destination is read,
then written, then the flags (41_arithmetic.md R250). -/
def aluRm (op : AluOp) (w : Width) (dst : Rm Reg8) (b : BitVec w.bits) (s : State) : Res State := do
  let a ← readRm w dst s
  let r := aluResult op a b (carry s)
  let t ← writeRm w dst r.1 s
  .ok (withFlags t (setStatus s.rflags r.2))

/-- An arithmetic operation whose destination is a register and whose source is an r/m operand (41_arithmetic.md R250). -/
def aluReg (op : AluOp) (w : Width) (dst : Reg8) (src : Rm Reg8) (s : State) : Res State := do
  let b ← readRm w src s
  let r := aluResult op (readReg w dst s) b (carry s)
  .ok (withFlags (writeReg w dst r.1 s) (setStatus s.rflags r.2))

/-- MUL (41_arithmetic.md R256): the double-width product; CF and OF say whether its upper half is non-zero; SF, ZF, AF
and PF are undefined. -/
def mulOp (w : Width) (src : Rm Reg8) (s : State) : Res State := do
  let b ← readRm w src s
  let p := (readReg w (.lo .rax) s).toNat * b.toNat
  let hi := BitVec.ofNat w.bits (p / 2 ^ w.bits)
  let upper := decide (p / 2 ^ w.bits ≠ 0)
  let t := writePair w hi (BitVec.ofNat w.bits p) s
  .ok (drawFlags (withFlags t (setFlag (setFlag s.rflags .cf upper) .of upper)) [.sf, .zf, .af, .pf])

/-- The end of DIV and IDIV: quotient and remainder are written and all six status flags are undefined (41_arithmetic.md
R257, R258). -/
def divResult (w : Width) (q m : BitVec w.bits) (s : State) : State :=
  drawFlags (writePair w m q s) [.of, .sf, .zf, .af, .pf, .cf]

/-- DIV (41_arithmetic.md R257): `#DE` on a zero divisor and on a quotient that does not fit. -/
def divOp (w : Width) (src : Rm Reg8) (s : State) : Res State := do
  let b ← readRm w src s
  let n := (readPair w s).toNat
  if b.toNat = 0 then raise .divideError
  else if 2 ^ w.bits ≤ n / b.toNat then raise .divideError
  else .ok (divResult w (BitVec.ofNat w.bits (n / b.toNat)) (BitVec.ofNat w.bits (n % b.toNat)) s)

/-- IDIV (41_arithmetic.md R258): the quotient is truncated toward zero and the remainder has the sign of the dividend;
`#DE` on a zero divisor and on a quotient that does not fit. -/
def idivOp (w : Width) (src : Rm Reg8) (s : State) : Res State := do
  let b ← readRm w src s
  let n := (readPair w s).toInt
  let q := n.tdiv b.toInt
  if b.toInt = 0 then raise .divideError
  else if q < -2 ^ (w.bits - 1) ∨ 2 ^ (w.bits - 1) - 1 < q then raise .divideError
  else .ok (divResult w (BitVec.ofInt w.bits q) (BitVec.ofInt w.bits (n.tmod b.toInt)) s)

/-- ADD r/m8, r8 (41_arithmetic.md R252). -/
def execAddRm8R8 (dst : Rm Reg8) (src : Reg8) (s : State) : Host.Outcome State Fault Refusal :=
  finish (aluRm .add .b8 dst (readReg .b8 src s) s)

/-- ADD r/m, r (41_arithmetic.md R252). -/
def execAddRmR (sz : OpSize) (dst : Rm Gpr) (src : Gpr) (s : State) : Host.Outcome State Fault Refusal :=
  finish (aluRm .add sz.width (wide dst) (readReg sz.width (.lo src) s) s)

/-- ADD r8, r/m8 (41_arithmetic.md R252). -/
def execAddR8Rm8 (dst : Reg8) (src : Rm Reg8) (s : State) : Host.Outcome State Fault Refusal :=
  finish (aluReg .add .b8 dst src s)

/-- ADD r, r/m (41_arithmetic.md R252). -/
def execAddRRm (sz : OpSize) (dst : Gpr) (src : Rm Gpr) (s : State) : Host.Outcome State Fault Refusal :=
  finish (aluReg .add sz.width (.lo dst) (wide src) s)

/-- ADD AL, imm8 (41_arithmetic.md R252). -/
def execAddAlImm8 (imm : Byte) (s : State) : Host.Outcome State Fault Refusal :=
  finish (aluRm .add .b8 (.reg (.lo .rax)) imm s)

/-- ADD AX/EAX/RAX, immz (41_arithmetic.md R252). -/
def execAddAccImm (imm : ImmZ) (s : State) : Host.Outcome State Fault Refusal :=
  finish (aluRm .add imm.size.width (.reg (.lo .rax)) (immZValue imm) s)

/-- ADC r/m8, r8 (41_arithmetic.md R253). -/
def execAdcRm8R8 (dst : Rm Reg8) (src : Reg8) (s : State) : Host.Outcome State Fault Refusal :=
  finish (aluRm .adc .b8 dst (readReg .b8 src s) s)

/-- ADC r/m, r (41_arithmetic.md R253). -/
def execAdcRmR (sz : OpSize) (dst : Rm Gpr) (src : Gpr) (s : State) : Host.Outcome State Fault Refusal :=
  finish (aluRm .adc sz.width (wide dst) (readReg sz.width (.lo src) s) s)

/-- ADC r8, r/m8 (41_arithmetic.md R253). -/
def execAdcR8Rm8 (dst : Reg8) (src : Rm Reg8) (s : State) : Host.Outcome State Fault Refusal :=
  finish (aluReg .adc .b8 dst src s)

/-- ADC r, r/m (41_arithmetic.md R253). -/
def execAdcRRm (sz : OpSize) (dst : Gpr) (src : Rm Gpr) (s : State) : Host.Outcome State Fault Refusal :=
  finish (aluReg .adc sz.width (.lo dst) (wide src) s)

/-- ADC AL, imm8 (41_arithmetic.md R253). -/
def execAdcAlImm8 (imm : Byte) (s : State) : Host.Outcome State Fault Refusal :=
  finish (aluRm .adc .b8 (.reg (.lo .rax)) imm s)

/-- ADC AX/EAX/RAX, immz (41_arithmetic.md R253). -/
def execAdcAccImm (imm : ImmZ) (s : State) : Host.Outcome State Fault Refusal :=
  finish (aluRm .adc imm.size.width (.reg (.lo .rax)) (immZValue imm) s)

/-- SBB r/m8, r8 (41_arithmetic.md R255). -/
def execSbbRm8R8 (dst : Rm Reg8) (src : Reg8) (s : State) : Host.Outcome State Fault Refusal :=
  finish (aluRm .sbb .b8 dst (readReg .b8 src s) s)

/-- SBB r/m, r (41_arithmetic.md R255). -/
def execSbbRmR (sz : OpSize) (dst : Rm Gpr) (src : Gpr) (s : State) : Host.Outcome State Fault Refusal :=
  finish (aluRm .sbb sz.width (wide dst) (readReg sz.width (.lo src) s) s)

/-- SBB r8, r/m8 (41_arithmetic.md R255). -/
def execSbbR8Rm8 (dst : Reg8) (src : Rm Reg8) (s : State) : Host.Outcome State Fault Refusal :=
  finish (aluReg .sbb .b8 dst src s)

/-- SBB r, r/m (41_arithmetic.md R255). -/
def execSbbRRm (sz : OpSize) (dst : Gpr) (src : Rm Gpr) (s : State) : Host.Outcome State Fault Refusal :=
  finish (aluReg .sbb sz.width (.lo dst) (wide src) s)

/-- SBB AL, imm8 (41_arithmetic.md R255). -/
def execSbbAlImm8 (imm : Byte) (s : State) : Host.Outcome State Fault Refusal :=
  finish (aluRm .sbb .b8 (.reg (.lo .rax)) imm s)

/-- SBB AX/EAX/RAX, immz (41_arithmetic.md R255). -/
def execSbbAccImm (imm : ImmZ) (s : State) : Host.Outcome State Fault Refusal :=
  finish (aluRm .sbb imm.size.width (.reg (.lo .rax)) (immZValue imm) s)

/-- SUB r/m8, r8 (41_arithmetic.md R254). -/
def execSubRm8R8 (dst : Rm Reg8) (src : Reg8) (s : State) : Host.Outcome State Fault Refusal :=
  finish (aluRm .sub .b8 dst (readReg .b8 src s) s)

/-- SUB r/m, r (41_arithmetic.md R254). -/
def execSubRmR (sz : OpSize) (dst : Rm Gpr) (src : Gpr) (s : State) : Host.Outcome State Fault Refusal :=
  finish (aluRm .sub sz.width (wide dst) (readReg sz.width (.lo src) s) s)

/-- SUB r8, r/m8 (41_arithmetic.md R254). -/
def execSubR8Rm8 (dst : Reg8) (src : Rm Reg8) (s : State) : Host.Outcome State Fault Refusal :=
  finish (aluReg .sub .b8 dst src s)

/-- SUB r, r/m (41_arithmetic.md R254). -/
def execSubRRm (sz : OpSize) (dst : Gpr) (src : Rm Gpr) (s : State) : Host.Outcome State Fault Refusal :=
  finish (aluReg .sub sz.width (.lo dst) (wide src) s)

/-- SUB AL, imm8 (41_arithmetic.md R254). -/
def execSubAlImm8 (imm : Byte) (s : State) : Host.Outcome State Fault Refusal :=
  finish (aluRm .sub .b8 (.reg (.lo .rax)) imm s)

/-- SUB AX/EAX/RAX, immz (41_arithmetic.md R254). -/
def execSubAccImm (imm : ImmZ) (s : State) : Host.Outcome State Fault Refusal :=
  finish (aluRm .sub imm.size.width (.reg (.lo .rax)) (immZValue imm) s)

/-- ADD r/m8, imm8 (41_arithmetic.md R252). -/
def execAddRm8Imm8 (dst : Rm Reg8) (imm : Byte) (s : State) : Host.Outcome State Fault Refusal :=
  finish (aluRm .add .b8 dst imm s)

/-- ADD r/m, immz (41_arithmetic.md R252). -/
def execAddRmImm (dst : Rm Gpr) (imm : ImmZ) (s : State) : Host.Outcome State Fault Refusal :=
  finish (aluRm .add imm.size.width (wide dst) (immZValue imm) s)

/-- ADD r/m, sign-extended imm8 (41_arithmetic.md R252). -/
def execAddRmSimm8 (sz : OpSize) (dst : Rm Gpr) (imm : Byte) (s : State) : Host.Outcome State Fault Refusal :=
  finish (aluRm .add sz.width (wide dst) (simm8 sz.width imm) s)

/-- ADC r/m8, imm8 (41_arithmetic.md R253). -/
def execAdcRm8Imm8 (dst : Rm Reg8) (imm : Byte) (s : State) : Host.Outcome State Fault Refusal :=
  finish (aluRm .adc .b8 dst imm s)

/-- ADC r/m, immz (41_arithmetic.md R253). -/
def execAdcRmImm (dst : Rm Gpr) (imm : ImmZ) (s : State) : Host.Outcome State Fault Refusal :=
  finish (aluRm .adc imm.size.width (wide dst) (immZValue imm) s)

/-- ADC r/m, sign-extended imm8 (41_arithmetic.md R253). -/
def execAdcRmSimm8 (sz : OpSize) (dst : Rm Gpr) (imm : Byte) (s : State) : Host.Outcome State Fault Refusal :=
  finish (aluRm .adc sz.width (wide dst) (simm8 sz.width imm) s)

/-- SBB r/m8, imm8 (41_arithmetic.md R255). -/
def execSbbRm8Imm8 (dst : Rm Reg8) (imm : Byte) (s : State) : Host.Outcome State Fault Refusal :=
  finish (aluRm .sbb .b8 dst imm s)

/-- SBB r/m, immz (41_arithmetic.md R255). -/
def execSbbRmImm (dst : Rm Gpr) (imm : ImmZ) (s : State) : Host.Outcome State Fault Refusal :=
  finish (aluRm .sbb imm.size.width (wide dst) (immZValue imm) s)

/-- SBB r/m, sign-extended imm8 (41_arithmetic.md R255). -/
def execSbbRmSimm8 (sz : OpSize) (dst : Rm Gpr) (imm : Byte) (s : State) : Host.Outcome State Fault Refusal :=
  finish (aluRm .sbb sz.width (wide dst) (simm8 sz.width imm) s)

/-- SUB r/m8, imm8 (41_arithmetic.md R254). -/
def execSubRm8Imm8 (dst : Rm Reg8) (imm : Byte) (s : State) : Host.Outcome State Fault Refusal :=
  finish (aluRm .sub .b8 dst imm s)

/-- SUB r/m, immz (41_arithmetic.md R254). -/
def execSubRmImm (dst : Rm Gpr) (imm : ImmZ) (s : State) : Host.Outcome State Fault Refusal :=
  finish (aluRm .sub imm.size.width (wide dst) (immZValue imm) s)

/-- SUB r/m, sign-extended imm8 (41_arithmetic.md R254). -/
def execSubRmSimm8 (sz : OpSize) (dst : Rm Gpr) (imm : Byte) (s : State) : Host.Outcome State Fault Refusal :=
  finish (aluRm .sub sz.width (wide dst) (simm8 sz.width imm) s)

/-- MUL r/m8 (41_arithmetic.md R256). -/
def execMulRm8 (src : Rm Reg8) (s : State) : Host.Outcome State Fault Refusal :=
  finish (mulOp .b8 src s)

/-- MUL r/m (41_arithmetic.md R256). -/
def execMulRm (sz : OpSize) (src : Rm Gpr) (s : State) : Host.Outcome State Fault Refusal :=
  finish (mulOp sz.width (wide src) s)

/-- DIV r/m8 (41_arithmetic.md R257). -/
def execDivRm8 (src : Rm Reg8) (s : State) : Host.Outcome State Fault Refusal :=
  finish (divOp .b8 src s)

/-- DIV r/m (41_arithmetic.md R257). -/
def execDivRm (sz : OpSize) (src : Rm Gpr) (s : State) : Host.Outcome State Fault Refusal :=
  finish (divOp sz.width (wide src) s)

/-- IDIV r/m8 (41_arithmetic.md R258). -/
def execIdivRm8 (src : Rm Reg8) (s : State) : Host.Outcome State Fault Refusal :=
  finish (idivOp .b8 src s)

/-- IDIV r/m (41_arithmetic.md R258). -/
def execIdivRm (sz : OpSize) (src : Rm Gpr) (s : State) : Host.Outcome State Fault Refusal :=
  finish (idivOp sz.width (wide src) s)

end Sys2Proof.Machine
end

