-- ==== Sys2Proof/Machine/BitTest.lean ====
section
/-!
DEFINITION. BT, BTS, BTR, BTC (spec/41_arithmetic.md R259 to R263).
-/
namespace Sys2Proof.Machine

/-- What a bit instruction does to the selected bit: nothing, set, reset, complement (41_arithmetic.md R260 to R263). -/
inductive BitAction where
  | test | set | reset | complement
deriving DecidableEq, Repr

/-- The value that the selected bit takes (41_arithmetic.md R261 to R263). -/
def bitAfter (act : BitAction) (b : Bool) : Bool :=
  match act with
  | .test => b
  | .set => true
  | .reset => false
  | .complement => !b

/-- The flags of the bit instructions: CF is the selected bit, ZF is unchanged, OF, SF, AF and PF are undefined
(41_arithmetic.md R259). -/
def bitFlags (s : State) (b : Bool) : State := drawFlags (withFlags s (setFlag s.rflags .cf b)) [.of, .sf, .af, .pf]

/-- The common part of the bit instructions (41_arithmetic.md R259): bit `off mod w` of the base goes to CF; BT writes no
base, the others write it back with the bit replaced. -/
def bitOp (act : BitAction) (w : Width) (base : Rm Reg8) (off : Nat) (s : State) : Res State := do
  let v ← readRm w base s
  let b := v.getLsbD (off % w.bits)
  let t ← if act = .test then .ok s else writeRm w base (setBit v (off % w.bits) (bitAfter act b)) s
  .ok (bitFlags t b)

/-- A bit instruction with a register offset: with a memory base it addresses a bit string, which the model refuses
(41_arithmetic.md R259; log 20). -/
def bitRegOp (act : BitAction) (w : Width) (base : Rm Gpr) (off : Gpr) (s : State) : Res State :=
  match base with
  | .mem _ => refuse .bitStringMemoryForm
  | .reg r => bitOp act w (.reg (.lo r)) (readReg w (.lo off) s).toNat s

/-- BT r/m, r (41_arithmetic.md R260). -/
def execBtRmR (sz : OpSize) (base : Rm Gpr) (off : Gpr) (s : State) : Host.Outcome State Fault Refusal :=
  finish (bitRegOp .test sz.width base off s)

/-- BTS r/m, r (41_arithmetic.md R261). -/
def execBtsRmR (sz : OpSize) (base : Rm Gpr) (off : Gpr) (s : State) : Host.Outcome State Fault Refusal :=
  finish (bitRegOp .set sz.width base off s)

/-- BTR r/m, r (41_arithmetic.md R262). -/
def execBtrRmR (sz : OpSize) (base : Rm Gpr) (off : Gpr) (s : State) : Host.Outcome State Fault Refusal :=
  finish (bitRegOp .reset sz.width base off s)

/-- BTC r/m, r (41_arithmetic.md R263). -/
def execBtcRmR (sz : OpSize) (base : Rm Gpr) (off : Gpr) (s : State) : Host.Outcome State Fault Refusal :=
  finish (bitRegOp .complement sz.width base off s)

/-- BT r/m, imm8 (41_arithmetic.md R260). -/
def execBtRmImm8 (sz : OpSize) (base : Rm Gpr) (off : Byte) (s : State) : Host.Outcome State Fault Refusal :=
  finish (bitOp .test sz.width (wide base) off.toNat s)

/-- BTS r/m, imm8 (41_arithmetic.md R261). -/
def execBtsRmImm8 (sz : OpSize) (base : Rm Gpr) (off : Byte) (s : State) : Host.Outcome State Fault Refusal :=
  finish (bitOp .set sz.width (wide base) off.toNat s)

/-- BTR r/m, imm8 (41_arithmetic.md R262). -/
def execBtrRmImm8 (sz : OpSize) (base : Rm Gpr) (off : Byte) (s : State) : Host.Outcome State Fault Refusal :=
  finish (bitOp .reset sz.width (wide base) off.toNat s)

/-- BTC r/m, imm8 (41_arithmetic.md R263). -/
def execBtcRmImm8 (sz : OpSize) (base : Rm Gpr) (off : Byte) (s : State) : Host.Outcome State Fault Refusal :=
  finish (bitOp .complement sz.width (wide base) off.toNat s)

end Sys2Proof.Machine
end

