-- ==== Sys2Proof/Machine/ControlTransfer.lean ====
section
/-!
DEFINITION. Jcc, LOOP, LOOPE, LOOPNE (spec/43_control_transfer.md R320 to R327).
-/
namespace Sys2Proof.Machine

/-- The count of a loop after the decrement: ECX in PROT32, RCX in LONG64 (43_control_transfer.md R323). -/
def loopCount (s : State) : Quad := truncAddr s.launch.mode (readAddrReg .rcx s - 1)

/-- A loop instruction (43_control_transfer.md R323): the count is decremented, and the branch is taken if it is not 0
and `also` holds. -/
def loopOp (also : Bool) (rel : BitVec 8) (s : State) : State :=
  branchIf (decide (loopCount s ≠ 0) && also) rel (writeAddrReg .rcx (loopCount s) s)

/-- Jcc rel8 (43_control_transfer.md R321). -/
def execJccRel8 (c : Cond) (rel : BitVec 8) (s : State) : Host.Outcome State Fault Refusal :=
  toOutcome (.ok (branchIf (condHolds c s.rflags) rel s))

/-- Jcc rel32 (43_control_transfer.md R322). -/
def execJccRel32 (c : Cond) (rel : BitVec 32) (s : State) : Host.Outcome State Fault Refusal :=
  toOutcome (.ok (branchIf (condHolds c s.rflags) rel s))

/-- LOOPNE, LOOPNZ rel8 (43_control_transfer.md R325): ZF as it was before the instruction. -/
def execLoopne (rel : BitVec 8) (s : State) : Host.Outcome State Fault Refusal :=
  toOutcome (.ok (loopOp (!getFlag s.rflags .zf) rel s))

/-- LOOPE, LOOPZ rel8 (43_control_transfer.md R324): ZF as it was before the instruction. -/
def execLoope (rel : BitVec 8) (s : State) : Host.Outcome State Fault Refusal :=
  toOutcome (.ok (loopOp (getFlag s.rflags .zf) rel s))

/-- LOOP rel8 (43_control_transfer.md R323). -/
def execLoop (rel : BitVec 8) (s : State) : Host.Outcome State Fault Refusal :=
  toOutcome (.ok (loopOp true rel s))

end Sys2Proof.Machine
end

