-- ==== Sys2Proof/Machine/DataMovement.lean ====
section
/-!
DEFINITION. MOV in all its forms, CMOVcc and SETcc (spec/42_data_movement.md R290 to R298).
-/
namespace Sys2Proof.Machine

/-- MOV with a register destination and an r/m source (42_data_movement.md R292). -/
def movToReg (w : Width) (dst : Reg8) (src : Rm Reg8) (s : State) : Res State := do
  let v ← readRm w src s
  .ok (writeReg w dst v s)

/-- MOV r/m, Sreg (42_data_movement.md R295): two bytes to memory whatever the operand size, and zero-extended to the
operand size in a register; a field that names no segment register is `#UD`. -/
def movFromSeg (w : Width) (dst : Rm Gpr) (src : SegField) (s : State) : Res State :=
  match src with
  | .reserved6 | .reserved7 => raise .invalidOpcode
  | .sreg r =>
    match dst with
    | .reg d => .ok (writeReg w (.lo d) ((s.selector.get r).setWidth w.bits) s)
    | .mem m => memWrite s (operandAddr s m) 2 (s.selector.get r)

/-- MOV Sreg, r/m16 for a segment register that can be loaded (42_data_movement.md R296): a load of SS under single-step
is refused, then the selector is read and looked up. -/
def loadFromRm (r : SegReg) (src : Rm Gpr) (s : State) : Res State :=
  if r = .ss ∧ getFlag s.rflags .tf = true then refuse .movSSUnderSingleStep
  else do
    let sel ← readRm .b16 (wide src) s
    match descLookup s r sel with
    | .ok base => .ok (loadSegment s r sel base)
    | .fault e => raise e.toFault
    | .unknown => refuse .unknownSelector

/-- MOV Sreg, r/m16 (42_data_movement.md R296): `#UD` for CS and for a field that names no segment register. -/
def movToSeg (dst : SegField) (src : Rm Gpr) (s : State) : Res State :=
  match dst with
  | .sreg .cs | .reserved6 | .reserved7 => raise .invalidOpcode
  | .sreg r => loadFromRm r src s

/-- CMOVcc (42_data_movement.md R297): the source is read whether or not the condition holds; when it does not, a 32-bit
form in LONG64 still clears the upper half of the destination. -/
def cmovOp (c : Cond) (w : Width) (dst : Gpr) (src : Rm Gpr) (s : State) : Res State := do
  let v ← readRm w (wide src) s
  if condHolds c s.rflags then .ok (writeReg w (.lo dst) v s)
  else if s.launch.mode = .long64 ∧ w = .b32 then .ok (writeReg w (.lo dst) (readReg w (.lo dst) s) s)
  else .ok s

/-- MOV r/m8, r8 (42_data_movement.md R291). -/
def execMovRm8R8 (dst : Rm Reg8) (src : Reg8) (s : State) : Host.Outcome State Fault Refusal :=
  finish (writeRm .b8 dst (readReg .b8 src s) s)

/-- MOV r/m, r (42_data_movement.md R291). -/
def execMovRmR (sz : OpSize) (dst : Rm Gpr) (src : Gpr) (s : State) : Host.Outcome State Fault Refusal :=
  finish (writeRm sz.width (wide dst) (readReg sz.width (.lo src) s) s)

/-- MOV r8, r/m8 (42_data_movement.md R292). -/
def execMovR8Rm8 (dst : Reg8) (src : Rm Reg8) (s : State) : Host.Outcome State Fault Refusal :=
  finish (movToReg .b8 dst src s)

/-- MOV r, r/m (42_data_movement.md R292). -/
def execMovRRm (sz : OpSize) (dst : Gpr) (src : Rm Gpr) (s : State) : Host.Outcome State Fault Refusal :=
  finish (movToReg sz.width (.lo dst) (wide src) s)

/-- MOV r/m, Sreg (42_data_movement.md R295). -/
def execMovRmSreg (sz : OpSize) (dst : Rm Gpr) (src : SegField) (s : State) : Host.Outcome State Fault Refusal :=
  finish (movFromSeg sz.width dst src s)

/-- MOV Sreg, r/m16 (42_data_movement.md R296). -/
def execMovSregRm (dst : SegField) (src : Rm Gpr) (s : State) : Host.Outcome State Fault Refusal :=
  finish (movToSeg dst src s)

/-- MOV r8, imm8 (42_data_movement.md R293). -/
def execMovR8Imm8 (dst : Reg8) (imm : Byte) (s : State) : Host.Outcome State Fault Refusal :=
  finish (.ok (writeReg .b8 dst imm s))

/-- MOV r, immv (42_data_movement.md R293). -/
def execMovRImm (dst : Gpr) (imm : ImmV) (s : State) : Host.Outcome State Fault Refusal :=
  finish (.ok (writeReg imm.size.width (.lo dst) (immVValue imm) s))

/-- MOV r/m8, imm8 (42_data_movement.md R294). -/
def execMovRm8Imm8 (dst : Rm Reg8) (imm : Byte) (s : State) : Host.Outcome State Fault Refusal :=
  finish (writeRm .b8 dst imm s)

/-- MOV r/m, immz (42_data_movement.md R294). -/
def execMovRmImm (dst : Rm Gpr) (imm : ImmZ) (s : State) : Host.Outcome State Fault Refusal :=
  finish (writeRm imm.size.width (wide dst) (immZValue imm) s)

/-- CMOVcc r, r/m (42_data_movement.md R297). -/
def execCmovcc (c : Cond) (sz : OpSize) (dst : Gpr) (src : Rm Gpr) (s : State) : Host.Outcome State Fault Refusal :=
  finish (cmovOp c sz.width dst src s)

/-- SETcc r/m8 (42_data_movement.md R298). -/
def execSetcc (c : Cond) (dst : Rm Reg8) (s : State) : Host.Outcome State Fault Refusal :=
  finish (writeRm .b8 dst (if condHolds c s.rflags then 1#8 else 0#8) s)

end Sys2Proof.Machine
end

