-- ==== Sys2Proof/Machine/FlagControl.lean ====
section
/-!
DEFINITION. STC, CLC, CMC, STD, CLD, LAHF, SAHF, PUSHF, POPF, PUSH r, POP r (spec/40_flag_control.md R220 to R234).
-/
namespace Sys2Proof.Machine

/-- An instruction that sets one flag to a value (40_flag_control.md R222 to R226). -/
def setFlagOp (f : Flag) (b : Bool) (s : State) : Res State := .ok (withFlags s (setFlag s.rflags f b))

/-- LAHF and SAHF do not exist in LONG64 when LAHF64 is false (30_encoding.md R182). -/
def lahfMissing (s : State) : Bool := s.launch.mode == .long64 && !s.launch.lahf64

/-- LAHF (40_flag_control.md R227): AH takes bits 7:0 of the flags; AH whatever the prefixes. -/
def lahfOp (s : State) : Res State :=
  if lahfMissing s then raise .invalidOpcode else .ok (writeReg .b8 (.hi .ah) (s.rflags.setWidth 8) s)

/-- SAHF (40_flag_control.md R228). -/
def sahfOp (s : State) : Res State :=
  if lahfMissing s then raise .invalidOpcode
  else .ok (withFlags s (sahfFlags s.rflags (readReg .b8 (.hi .ah) s)))

/-- What PUSHF, PUSHFD and PUSHFQ push (40_flag_control.md R229): the 16-bit form bits 15:0 as they are, the others
EFLAGS with VM and RF as 0. -/
def flagsImage (sz : OpSize) (fl : Quad) : BitVec sz.width.bits :=
  match sz with
  | .w16 => fl.setWidth 16
  | .w32 => (pushfImage fl).setWidth 32
  | .w64 => pushfImage fl

/-- PUSHF, PUSHFD, PUSHFQ (40_flag_control.md R229). -/
def pushfOp (sz : OpSize) (s : State) : Res State := push sz.width (flagsImage sz s.rflags) s

/-- The flags after a pop of `v` (40_flag_control.md R231): the 16-bit form touches bits 15:0 only; the others take the
bits of the mask, clear RF, and keep or clear VIF and VIP by a free choice. CPL and IOPL are those before the pop. -/
def loadFlags (sz : OpSize) (v : BitVec sz.width.bits) (s : State) : State :=
  match sz with
  | .w16 => withFlags s (mergeBits s.rflags (v.setWidth 64) (popfMask16 s.launch.cpl (iopl s.rflags)))
  | .w32 | .w64 =>
    let m := popfMask s.launch.cpl (iopl s.rflags) s.launch.idToggle
    let fl := setFlag (mergeBits s.rflags (v.setWidth 64) m) .rf false
    drawKeepOrClear (drawKeepOrClear (withFlags s fl) .vif) .vip

/-- POPF, POPFD, POPFQ (40_flag_control.md R231). -/
def popfOp (sz : OpSize) (s : State) : Res State := do
  let (v, t) ← pop sz.width s
  .ok (loadFlags sz v t)

/-- PUSH r (40_flag_control.md R232): the value is read before the stack pointer moves. -/
def pushOp (w : Width) (r : Gpr) (s : State) : Res State := push w (readReg w (.lo r) s) s

/-- POP r (40_flag_control.md R233): the stack pointer moves, then the register is written. -/
def popOp (w : Width) (r : Gpr) (s : State) : Res State := do
  let (v, t) ← pop w s
  .ok (writeReg w (.lo r) v t)

/-- PUSH r (40_flag_control.md R232). -/
def execPush (sz : OpSize) (r : Gpr) (s : State) : Host.Outcome State Fault Refusal :=
  finish (pushOp sz.width r s)

/-- POP r (40_flag_control.md R233). -/
def execPop (sz : OpSize) (r : Gpr) (s : State) : Host.Outcome State Fault Refusal :=
  finish (popOp sz.width r s)

/-- PUSHF, PUSHFD, PUSHFQ (40_flag_control.md R229). -/
def execPushf (sz : OpSize) (s : State) : Host.Outcome State Fault Refusal :=
  finish (pushfOp sz s)

/-- POPF, POPFD, POPFQ (40_flag_control.md R231). -/
def execPopf (sz : OpSize) (s : State) : Host.Outcome State Fault Refusal :=
  finish (popfOp sz s)

/-- SAHF (40_flag_control.md R228). -/
def execSahf (s : State) : Host.Outcome State Fault Refusal :=
  finish (sahfOp s)

/-- LAHF (40_flag_control.md R227). -/
def execLahf (s : State) : Host.Outcome State Fault Refusal :=
  finish (lahfOp s)

/-- CMC (40_flag_control.md R224). -/
def execCmc (s : State) : Host.Outcome State Fault Refusal :=
  finish (setFlagOp .cf (!carry s) s)

/-- CLC (40_flag_control.md R223). -/
def execClc (s : State) : Host.Outcome State Fault Refusal :=
  finish (setFlagOp .cf false s)

/-- STC (40_flag_control.md R222). -/
def execStc (s : State) : Host.Outcome State Fault Refusal :=
  finish (setFlagOp .cf true s)

/-- CLD (40_flag_control.md R226). -/
def execCld (s : State) : Host.Outcome State Fault Refusal :=
  finish (setFlagOp .df false s)

/-- STD (40_flag_control.md R225). -/
def execStd (s : State) : Host.Outcome State Fault Refusal :=
  finish (setFlagOp .df true s)

end Sys2Proof.Machine
end

