-- ==== Sys2Proof/Machine/NamedOnly.lean ====
section
/-!
DEFINITION. IRET and CPUID, which the spec names and refuses (spec/45_named_only.md R360, R361).
-/
namespace Sys2Proof.Machine

/-- IRET, IRETD, IRETQ (45_named_only.md R360): the spec gives it no effect and refuses it (log 19). -/
def execIret (_s : State) : Host.Outcome State Fault Refusal :=
  finish (returnFromException)

/-- CPUID (45_named_only.md R361): the spec gives it no result and refuses it (log 19). -/
def execCpuid (_s : State) : Host.Outcome State Fault Refusal :=
  finish (refuse (.namedOnly "CPUID"))

end Sys2Proof.Machine
end

