-- ==== Sys2Proof/Machine/StringOps.lean ====
section
/-!
DEFINITION. MOVS, CMPS, SCAS, LODS, STOS without repeat prefix (spec/44_string.md R340 to R346).
-/
namespace Sys2Proof.Machine

/-- MOVS (44_string.md R341): the element is read completely before it is written. -/
def movsOp (w : Width) (seg : Option SegReg) (s : State) : Res State := do
  let v ← memRead s (stringSrc s seg) w.bytes
  let t ← memWrite s (stringDst s) w.bytes v
  .ok (movePointer .rdi (stringDelta s w) (movePointer .rsi (stringDelta s w) t))

/-- CMPS (44_string.md R342): the flags of source minus destination; no data is written. -/
def cmpsOp (w : Width) (seg : Option SegReg) (s : State) : Res State := do
  let a ← memRead s (stringSrc s seg) w.bytes
  let b ← memRead s (stringDst s) w.bytes
  let t := movePointer .rdi (stringDelta s w) (movePointer .rsi (stringDelta s w) s)
  .ok (withFlags t (setStatus s.rflags (subFlags a b false).2))

/-- SCAS (44_string.md R343): the flags of accumulator minus destination; the accumulator is not written. -/
def scasOp (w : Width) (s : State) : Res State := do
  let b ← memRead s (stringDst s) w.bytes
  let f := (subFlags (readReg w (.lo .rax) s) b false).2
  .ok (withFlags (movePointer .rdi (stringDelta s w) s) (setStatus s.rflags f))

/-- LODS (44_string.md R344): the element goes to the accumulator. -/
def lodsOp (w : Width) (seg : Option SegReg) (s : State) : Res State := do
  let v ← memRead s (stringSrc s seg) w.bytes
  .ok (movePointer .rsi (stringDelta s w) (writeReg w (.lo .rax) v s))

/-- STOS (44_string.md R345): the accumulator goes to the destination. -/
def stosOp (w : Width) (s : State) : Res State := do
  let t ← memWrite s (stringDst s) w.bytes (readReg w (.lo .rax) s)
  .ok (movePointer .rdi (stringDelta s w) t)

/-- MOVSB (44_string.md R341). -/
def execMovsb (seg : Option SegReg) (s : State) : Host.Outcome State Fault Refusal :=
  finish (movsOp .b8 seg s)

/-- MOVSW, MOVSD, MOVSQ (44_string.md R341). -/
def execMovs (sz : OpSize) (seg : Option SegReg) (s : State) : Host.Outcome State Fault Refusal :=
  finish (movsOp sz.width seg s)

/-- CMPSB (44_string.md R342). -/
def execCmpsb (seg : Option SegReg) (s : State) : Host.Outcome State Fault Refusal :=
  finish (cmpsOp .b8 seg s)

/-- CMPSW, CMPSD, CMPSQ (44_string.md R342). -/
def execCmps (sz : OpSize) (seg : Option SegReg) (s : State) : Host.Outcome State Fault Refusal :=
  finish (cmpsOp sz.width seg s)

/-- STOSB (44_string.md R345). -/
def execStosb (s : State) : Host.Outcome State Fault Refusal :=
  finish (stosOp .b8 s)

/-- STOSW, STOSD, STOSQ (44_string.md R345). -/
def execStos (sz : OpSize) (s : State) : Host.Outcome State Fault Refusal :=
  finish (stosOp sz.width s)

/-- LODSB (44_string.md R344). -/
def execLodsb (seg : Option SegReg) (s : State) : Host.Outcome State Fault Refusal :=
  finish (lodsOp .b8 seg s)

/-- LODSW, LODSD, LODSQ (44_string.md R344). -/
def execLods (sz : OpSize) (seg : Option SegReg) (s : State) : Host.Outcome State Fault Refusal :=
  finish (lodsOp sz.width seg s)

/-- SCASB (44_string.md R343). -/
def execScasb (s : State) : Host.Outcome State Fault Refusal :=
  finish (scasOp .b8 s)

/-- SCASW, SCASD, SCASQ (44_string.md R343). -/
def execScas (sz : OpSize) (s : State) : Host.Outcome State Fault Refusal :=
  finish (scasOp sz.width s)

end Sys2Proof.Machine
end

