-- ==== Sys2Proof/Machine/Dispatch.lean ====
section
/-!
DEFINITION. The dispatch: one arm per instruction, in the order of spec/opcode_table.json.
-/
namespace Sys2Proof.Machine

def exec (i : Instr) (s : State) : Host.Outcome State Fault Refusal :=
  match i with
  | .addRm8R8 dst src => Sys2Proof.Machine.execAddRm8R8 dst src s
  | .addRmR sz dst src => Sys2Proof.Machine.execAddRmR sz dst src s
  | .addR8Rm8 dst src => Sys2Proof.Machine.execAddR8Rm8 dst src s
  | .addRRm sz dst src => Sys2Proof.Machine.execAddRRm sz dst src s
  | .addAlImm8 imm => Sys2Proof.Machine.execAddAlImm8 imm s
  | .addAccImm imm => Sys2Proof.Machine.execAddAccImm imm s
  | .adcRm8R8 dst src => Sys2Proof.Machine.execAdcRm8R8 dst src s
  | .adcRmR sz dst src => Sys2Proof.Machine.execAdcRmR sz dst src s
  | .adcR8Rm8 dst src => Sys2Proof.Machine.execAdcR8Rm8 dst src s
  | .adcRRm sz dst src => Sys2Proof.Machine.execAdcRRm sz dst src s
  | .adcAlImm8 imm => Sys2Proof.Machine.execAdcAlImm8 imm s
  | .adcAccImm imm => Sys2Proof.Machine.execAdcAccImm imm s
  | .sbbRm8R8 dst src => Sys2Proof.Machine.execSbbRm8R8 dst src s
  | .sbbRmR sz dst src => Sys2Proof.Machine.execSbbRmR sz dst src s
  | .sbbR8Rm8 dst src => Sys2Proof.Machine.execSbbR8Rm8 dst src s
  | .sbbRRm sz dst src => Sys2Proof.Machine.execSbbRRm sz dst src s
  | .sbbAlImm8 imm => Sys2Proof.Machine.execSbbAlImm8 imm s
  | .sbbAccImm imm => Sys2Proof.Machine.execSbbAccImm imm s
  | .subRm8R8 dst src => Sys2Proof.Machine.execSubRm8R8 dst src s
  | .subRmR sz dst src => Sys2Proof.Machine.execSubRmR sz dst src s
  | .subR8Rm8 dst src => Sys2Proof.Machine.execSubR8Rm8 dst src s
  | .subRRm sz dst src => Sys2Proof.Machine.execSubRRm sz dst src s
  | .subAlImm8 imm => Sys2Proof.Machine.execSubAlImm8 imm s
  | .subAccImm imm => Sys2Proof.Machine.execSubAccImm imm s
  | .addRm8Imm8 dst imm => Sys2Proof.Machine.execAddRm8Imm8 dst imm s
  | .addRmImm dst imm => Sys2Proof.Machine.execAddRmImm dst imm s
  | .addRmSimm8 sz dst imm => Sys2Proof.Machine.execAddRmSimm8 sz dst imm s
  | .adcRm8Imm8 dst imm => Sys2Proof.Machine.execAdcRm8Imm8 dst imm s
  | .adcRmImm dst imm => Sys2Proof.Machine.execAdcRmImm dst imm s
  | .adcRmSimm8 sz dst imm => Sys2Proof.Machine.execAdcRmSimm8 sz dst imm s
  | .sbbRm8Imm8 dst imm => Sys2Proof.Machine.execSbbRm8Imm8 dst imm s
  | .sbbRmImm dst imm => Sys2Proof.Machine.execSbbRmImm dst imm s
  | .sbbRmSimm8 sz dst imm => Sys2Proof.Machine.execSbbRmSimm8 sz dst imm s
  | .subRm8Imm8 dst imm => Sys2Proof.Machine.execSubRm8Imm8 dst imm s
  | .subRmImm dst imm => Sys2Proof.Machine.execSubRmImm dst imm s
  | .subRmSimm8 sz dst imm => Sys2Proof.Machine.execSubRmSimm8 sz dst imm s
  | .push sz r => Sys2Proof.Machine.execPush sz r s
  | .pop sz r => Sys2Proof.Machine.execPop sz r s
  | .jccRel8 c rel => Sys2Proof.Machine.execJccRel8 c rel s
  | .movRm8R8 dst src => Sys2Proof.Machine.execMovRm8R8 dst src s
  | .movRmR sz dst src => Sys2Proof.Machine.execMovRmR sz dst src s
  | .movR8Rm8 dst src => Sys2Proof.Machine.execMovR8Rm8 dst src s
  | .movRRm sz dst src => Sys2Proof.Machine.execMovRRm sz dst src s
  | .movRmSreg sz dst src => Sys2Proof.Machine.execMovRmSreg sz dst src s
  | .movSregRm dst src => Sys2Proof.Machine.execMovSregRm dst src s
  | .pushf sz => Sys2Proof.Machine.execPushf sz s
  | .popf sz => Sys2Proof.Machine.execPopf sz s
  | .sahf => Sys2Proof.Machine.execSahf s
  | .lahf => Sys2Proof.Machine.execLahf s
  | .movsb seg => Sys2Proof.Machine.execMovsb seg s
  | .movs sz seg => Sys2Proof.Machine.execMovs sz seg s
  | .cmpsb seg => Sys2Proof.Machine.execCmpsb seg s
  | .cmps sz seg => Sys2Proof.Machine.execCmps sz seg s
  | .stosb => Sys2Proof.Machine.execStosb s
  | .stos sz => Sys2Proof.Machine.execStos sz s
  | .lodsb seg => Sys2Proof.Machine.execLodsb seg s
  | .lods sz seg => Sys2Proof.Machine.execLods sz seg s
  | .scasb => Sys2Proof.Machine.execScasb s
  | .scas sz => Sys2Proof.Machine.execScas sz s
  | .movR8Imm8 dst imm => Sys2Proof.Machine.execMovR8Imm8 dst imm s
  | .movRImm dst imm => Sys2Proof.Machine.execMovRImm dst imm s
  | .movRm8Imm8 dst imm => Sys2Proof.Machine.execMovRm8Imm8 dst imm s
  | .movRmImm dst imm => Sys2Proof.Machine.execMovRmImm dst imm s
  | .iret => Sys2Proof.Machine.execIret s
  | .loopne rel => Sys2Proof.Machine.execLoopne rel s
  | .loope rel => Sys2Proof.Machine.execLoope rel s
  | .loop rel => Sys2Proof.Machine.execLoop rel s
  | .cmc => Sys2Proof.Machine.execCmc s
  | .mulRm8 src => Sys2Proof.Machine.execMulRm8 src s
  | .mulRm sz src => Sys2Proof.Machine.execMulRm sz src s
  | .divRm8 src => Sys2Proof.Machine.execDivRm8 src s
  | .divRm sz src => Sys2Proof.Machine.execDivRm sz src s
  | .idivRm8 src => Sys2Proof.Machine.execIdivRm8 src s
  | .idivRm sz src => Sys2Proof.Machine.execIdivRm sz src s
  | .clc => Sys2Proof.Machine.execClc s
  | .stc => Sys2Proof.Machine.execStc s
  | .cld => Sys2Proof.Machine.execCld s
  | .std => Sys2Proof.Machine.execStd s
  | .cmovcc c sz dst src => Sys2Proof.Machine.execCmovcc c sz dst src s
  | .jccRel32 c rel => Sys2Proof.Machine.execJccRel32 c rel s
  | .setcc c dst => Sys2Proof.Machine.execSetcc c dst s
  | .cpuid => Sys2Proof.Machine.execCpuid s
  | .btRmR sz base off => Sys2Proof.Machine.execBtRmR sz base off s
  | .btsRmR sz base off => Sys2Proof.Machine.execBtsRmR sz base off s
  | .btrRmR sz base off => Sys2Proof.Machine.execBtrRmR sz base off s
  | .btcRmR sz base off => Sys2Proof.Machine.execBtcRmR sz base off s
  | .btRmImm8 sz base off => Sys2Proof.Machine.execBtRmImm8 sz base off s
  | .btsRmImm8 sz base off => Sys2Proof.Machine.execBtsRmImm8 sz base off s
  | .btrRmImm8 sz base off => Sys2Proof.Machine.execBtrRmImm8 sz base off s
  | .btcRmImm8 sz base off => Sys2Proof.Machine.execBtcRmImm8 sz base off s

end Sys2Proof.Machine
end

