-- ==== Sys2Proof/WellFormed.lean ====
section
/-!
DEFINITION. Which instruction terms have an encoding in a mode (spec/30_encoding.md R165 to R174; spec/10_state.md R27,
R33): registers and sizes that the mode has, memory forms that ModRM and SIB can write, and byte registers that may stand
in one instruction. Each check is a `Bool`, so a term can be tested by evaluation.
-/
namespace Sys2Proof

/-- R8 to R15, which exist in LONG64 only and need a REX prefix (10_state.md R27). -/
def Gpr.isExtended : Gpr → Bool
  | .rax | .rcx | .rdx | .rbx | .rsp | .rbp | .rsi | .rdi => false
  | .r8 | .r9 | .r10 | .r11 | .r12 | .r13 | .r14 | .r15 => true

/-- The byte registers that only a REX prefix can name: SPL, BPL, SIL, DIL and R8B to R15B (10_state.md R28, R33). -/
def Reg8.needsRex : Reg8 → Bool
  | .lo .rax | .lo .rcx | .lo .rdx | .lo .rbx => false
  | .lo _ => true
  | .hi _ => false

/-- AH, CH, DH, BH, which no instruction with a REX prefix can name (10_state.md R33). -/
def Reg8.isHigh : Reg8 → Bool
  | .lo _ => false
  | .hi _ => true

/-- The mode has this general register (10_state.md R27). -/
def gprOk (md : Mode) (r : Gpr) : Bool := md == .long64 || !r.isExtended

/-- The mode has this byte register (10_state.md R26, R28). -/
def reg8Ok (md : Mode) (r : Reg8) : Bool := md == .long64 || !r.needsRex

/-- The mode has this operand size: 64 bits exist in LONG64 only (30_encoding.md R165). -/
def sizeOk (md : Mode) (sz : OpSize) : Bool := md == .long64 || sz != .w64

/-- The sizes of a push or pop: 16 or 32 bits in PROT32, 16 or 64 bits in LONG64 (30_encoding.md R165). -/
def stackSizeOk (md : Mode) (sz : OpSize) : Bool :=
  match md, sz with
  | .prot32, .w64 => false
  | .long64, .w32 => false
  | _, _ => true

/-- A segment override that has an effect in the mode: in LONG64 only FS and GS (30_encoding.md R163). -/
def segOk (md : Mode) (seg : Option SegReg) : Bool :=
  match md, seg with
  | .prot32, _ => true
  | .long64, none => true
  | .long64, some .fs => true
  | .long64, some .gs => true
  | .long64, some _ => false

/-- A base component and the displacement that can stand beside it: no base and RIP take 32 bits, EBP/RBP and R13 take
some displacement (30_encoding.md R172 to R174); RIP exists in LONG64 only. -/
def baseOk (md : Mode) (base : Base) (disp : Disp) : Bool :=
  match base, disp with
  | .absent, .d32 _ => true
  | .absent, _ => false
  | .rip, .d32 _ => md == .long64
  | .rip, _ => false
  | .reg .rbp, .none => false
  | .reg .r13, .none => false
  | .reg r, _ => gprOk md r

/-- An index component: any register of the mode but ESP/RSP (20_memory.md R113; 30_encoding.md R173, R174), and none
beside RIP (20_memory.md R116). -/
def indexOk (md : Mode) (base : Base) (index : Option (Gpr × Scale)) : Bool :=
  match base, index with
  | _, none => true
  | .rip, some _ => false
  | _, some (.rsp, _) => false
  | _, some (r, _) => gprOk md r

/-- A memory operand that the mode can encode (30_encoding.md R172 to R174). -/
def memOk (md : Mode) (m : Mem) : Bool := segOk md m.seg && baseOk md m.base m.disp && indexOk md m.base m.index

/-- An r/m operand of a word, doubleword or quadword instruction. -/
def rmOk (md : Mode) : Rm Gpr → Bool
  | .reg r => gprOk md r
  | .mem m => memOk md m

/-- An r/m operand of a byte instruction. -/
def rm8Ok (md : Mode) : Rm Reg8 → Bool
  | .reg r => reg8Ok md r
  | .mem m => memOk md m

/-- The base register is one of R8 to R15 (bit B of REX, 30_encoding.md R167). -/
def Mem.baseExtended (m : Mem) : Bool :=
  match m.base with
  | .reg r => r.isExtended
  | .absent | .rip => false

/-- The index register is one of R8 to R15 (bit X of REX, 30_encoding.md R167). -/
def Mem.indexExtended (m : Mem) : Bool :=
  match m.index with
  | some (r, _) => r.isExtended
  | none => false

/-- The r/m operand of a byte instruction needs a REX prefix. -/
def rm8NeedsRex : Rm Reg8 → Bool
  | .reg r => r.needsRex
  | .mem m => m.baseExtended || m.indexExtended

/-- The r/m operand of a byte instruction is a legacy high byte. -/
def rm8IsHigh : Rm Reg8 → Bool
  | .reg r => r.isHigh
  | .mem _ => false

/-- The two operands of a byte instruction may stand together: a legacy high byte excludes whatever needs a REX prefix
(10_state.md R33). -/
def pairOk (r : Reg8) (m : Rm Reg8) : Bool := !(r.isHigh && rm8NeedsRex m) && !(rm8IsHigh m && r.needsRex)

/-- The instruction has an encoding in the mode. -/
def Instr.wellFormed (md : Mode) : Instr → Bool
  | .addRm8R8 d r => rm8Ok md d && reg8Ok md r && pairOk r d
  | .addRmR sz d r => sizeOk md sz && rmOk md d && gprOk md r
  | .addR8Rm8 r m => rm8Ok md m && reg8Ok md r && pairOk r m
  | .addRRm sz r m => sizeOk md sz && rmOk md m && gprOk md r
  | .addAlImm8 _ => true
  | .addAccImm imm => sizeOk md imm.size
  | .adcRm8R8 d r => rm8Ok md d && reg8Ok md r && pairOk r d
  | .adcRmR sz d r => sizeOk md sz && rmOk md d && gprOk md r
  | .adcR8Rm8 r m => rm8Ok md m && reg8Ok md r && pairOk r m
  | .adcRRm sz r m => sizeOk md sz && rmOk md m && gprOk md r
  | .adcAlImm8 _ => true
  | .adcAccImm imm => sizeOk md imm.size
  | .sbbRm8R8 d r => rm8Ok md d && reg8Ok md r && pairOk r d
  | .sbbRmR sz d r => sizeOk md sz && rmOk md d && gprOk md r
  | .sbbR8Rm8 r m => rm8Ok md m && reg8Ok md r && pairOk r m
  | .sbbRRm sz r m => sizeOk md sz && rmOk md m && gprOk md r
  | .sbbAlImm8 _ => true
  | .sbbAccImm imm => sizeOk md imm.size
  | .subRm8R8 d r => rm8Ok md d && reg8Ok md r && pairOk r d
  | .subRmR sz d r => sizeOk md sz && rmOk md d && gprOk md r
  | .subR8Rm8 r m => rm8Ok md m && reg8Ok md r && pairOk r m
  | .subRRm sz r m => sizeOk md sz && rmOk md m && gprOk md r
  | .subAlImm8 _ => true
  | .subAccImm imm => sizeOk md imm.size
  | .addRm8Imm8 d _ => rm8Ok md d
  | .addRmImm d imm => sizeOk md imm.size && rmOk md d
  | .addRmSimm8 sz d _ => sizeOk md sz && rmOk md d
  | .adcRm8Imm8 d _ => rm8Ok md d
  | .adcRmImm d imm => sizeOk md imm.size && rmOk md d
  | .adcRmSimm8 sz d _ => sizeOk md sz && rmOk md d
  | .sbbRm8Imm8 d _ => rm8Ok md d
  | .sbbRmImm d imm => sizeOk md imm.size && rmOk md d
  | .sbbRmSimm8 sz d _ => sizeOk md sz && rmOk md d
  | .subRm8Imm8 d _ => rm8Ok md d
  | .subRmImm d imm => sizeOk md imm.size && rmOk md d
  | .subRmSimm8 sz d _ => sizeOk md sz && rmOk md d
  | .push sz r => stackSizeOk md sz && gprOk md r
  | .pop sz r => stackSizeOk md sz && gprOk md r
  | .jccRel8 _ _ => true
  | .movRm8R8 d r => rm8Ok md d && reg8Ok md r && pairOk r d
  | .movRmR sz d r => sizeOk md sz && rmOk md d && gprOk md r
  | .movR8Rm8 r m => rm8Ok md m && reg8Ok md r && pairOk r m
  | .movRRm sz r m => sizeOk md sz && rmOk md m && gprOk md r
  | .movRmSreg sz d _ => sizeOk md sz && rmOk md d
  | .movSregRm _ m => rmOk md m
  | .pushf sz => stackSizeOk md sz
  | .popf sz => stackSizeOk md sz
  | .sahf => true
  | .lahf => true
  | .movsb seg => segOk md seg
  | .movs sz seg => sizeOk md sz && segOk md seg
  | .cmpsb seg => segOk md seg
  | .cmps sz seg => sizeOk md sz && segOk md seg
  | .stosb => true
  | .stos sz => sizeOk md sz
  | .lodsb seg => segOk md seg
  | .lods sz seg => sizeOk md sz && segOk md seg
  | .scasb => true
  | .scas sz => sizeOk md sz
  | .movR8Imm8 r _ => reg8Ok md r
  | .movRImm r imm => sizeOk md imm.size && gprOk md r
  | .movRm8Imm8 d _ => rm8Ok md d
  | .movRmImm d imm => sizeOk md imm.size && rmOk md d
  | .iret => true
  | .loopne _ => true
  | .loope _ => true
  | .loop _ => true
  | .cmc => true
  | .mulRm8 m => rm8Ok md m
  | .mulRm sz m => sizeOk md sz && rmOk md m
  | .divRm8 m => rm8Ok md m
  | .divRm sz m => sizeOk md sz && rmOk md m
  | .idivRm8 m => rm8Ok md m
  | .idivRm sz m => sizeOk md sz && rmOk md m
  | .clc => true
  | .stc => true
  | .cld => true
  | .std => true
  | .cmovcc _ sz r m => sizeOk md sz && rmOk md m && gprOk md r
  | .jccRel32 _ _ => true
  | .setcc _ d => rm8Ok md d
  | .cpuid => true
  | .btRmR sz d r => sizeOk md sz && rmOk md d && gprOk md r
  | .btsRmR sz d r => sizeOk md sz && rmOk md d && gprOk md r
  | .btrRmR sz d r => sizeOk md sz && rmOk md d && gprOk md r
  | .btcRmR sz d r => sizeOk md sz && rmOk md d && gprOk md r
  | .btRmImm8 sz d _ => sizeOk md sz && rmOk md d
  | .btsRmImm8 sz d _ => sizeOk md sz && rmOk md d
  | .btrRmImm8 sz d _ => sizeOk md sz && rmOk md d
  | .btcRmImm8 sz d _ => sizeOk md sz && rmOk md d

end Sys2Proof
end

