-- ==== Sys2Proof/Decode.lean ====
section
/-!
DEFINITION. The decoder, total on any byte string, and the encoder, both written from spec/30_encoding.md R160 to R183.
A byte string that no admitted row matches is rejected by name, never given a neighbour's meaning (R183).
-/
namespace Sys2Proof

open Sys2Proof.Machine (leBytes ofLeBytes)

/-! ## Numbers of registers and conditions -/

/-- The number of a general register (10_state.md R24). -/
def Gpr.num : Gpr → BitVec 4
  | .rax => 0 | .rcx => 1 | .rdx => 2 | .rbx => 3 | .rsp => 4 | .rbp => 5 | .rsi => 6 | .rdi => 7
  | .r8 => 8 | .r9 => 9 | .r10 => 10 | .r11 => 11 | .r12 => 12 | .r13 => 13 | .r14 => 14 | .r15 => 15

/-- The general register with a number (10_state.md R24). -/
def Gpr.ofNum (n : BitVec 4) : Gpr :=
  match n.toNat with
  | 0 => .rax | 1 => .rcx | 2 => .rdx | 3 => .rbx | 4 => .rsp | 5 => .rbp | 6 => .rsi | 7 => .rdi
  | 8 => .r8 | 9 => .r9 | 10 => .r10 | 11 => .r11 | 12 => .r12 | 13 => .r13 | 14 => .r14 | _ => .r15

/-- The number of a byte register (30_encoding.md R171). -/
def Reg8.num : Reg8 → BitVec 4
  | .lo r => r.num
  | .hi .ah => 4
  | .hi .ch => 5
  | .hi .dh => 6
  | .hi .bh => 7

/-- The byte register with a number: 4 to 7 are AH, CH, DH, BH without a REX prefix and SPL, BPL, SIL, DIL with one
(10_state.md R33; 30_encoding.md R171). -/
def Reg8.ofNum (hasRex : Bool) (n : BitVec 4) : Reg8 :=
  if hasRex then .lo (Gpr.ofNum n)
  else
    match n.toNat with
    | 4 => .hi .ah
    | 5 => .hi .ch
    | 6 => .hi .dh
    | 7 => .hi .bh
    | _ => .lo (Gpr.ofNum n)

/-- The number of a segment-register field (30_encoding.md R171). -/
def SegField.num : SegField → BitVec 3
  | .sreg .es => 0
  | .sreg .cs => 1
  | .sreg .ss => 2
  | .sreg .ds => 3
  | .sreg .fs => 4
  | .sreg .gs => 5
  | .reserved6 => 6
  | .reserved7 => 7

/-- What a segment-register field names (30_encoding.md R171). -/
def SegField.ofNum (n : BitVec 3) : SegField :=
  match n.toNat with
  | 0 => .sreg .es
  | 1 => .sreg .cs
  | 2 => .sreg .ss
  | 3 => .sreg .ds
  | 4 => .sreg .fs
  | 5 => .sreg .gs
  | 6 => .reserved6
  | _ => .reserved7

/-- The two scale bits (30_encoding.md R173). -/
def Scale.num : Scale → BitVec 2
  | .x1 => 0 | .x2 => 1 | .x4 => 2 | .x8 => 3

/-- The scale factor that two bits select (30_encoding.md R173). -/
def Scale.ofNum (n : BitVec 2) : Scale :=
  match n.toNat with
  | 0 => .x1 | 1 => .x2 | 2 => .x4 | _ => .x8

/-- The number of a condition (43_control_transfer.md R320). -/
def Cond.num : Cond → BitVec 4
  | .o => 0 | .no => 1 | .b => 2 | .ae => 3 | .e => 4 | .ne => 5 | .be => 6 | .a => 7
  | .s => 8 | .ns => 9 | .p => 10 | .np => 11 | .l => 12 | .ge => 13 | .le => 14 | .g => 15

/-- The condition with a number (43_control_transfer.md R320). -/
def Cond.ofNum (n : BitVec 4) : Cond :=
  match n.toNat with
  | 0 => .o | 1 => .no | 2 => .b | 3 => .ae | 4 => .e | 5 => .ne | 6 => .be | 7 => .a
  | 8 => .s | 9 => .ns | 10 => .p | 11 => .np | 12 => .l | 13 => .ge | 14 => .le | _ => .g

/-! ## The decoder -/

/-- Why the decoder gives no instruction. -/
inductive DecodeError where
  /-- A refused prefix or combination of prefixes (30_encoding.md R164). -/
  | prefixRefused
  /-- An opcode, or a ModRM `reg` extension, outside the admitted table (R183). -/
  | opcodeRefused
  /-- The bytes end before the instruction does. -/
  | truncated
deriving DecidableEq, Repr

/-- A parser's answer: what it read and the bytes after it. -/
abbrev Parsed (α : Type) := Except DecodeError (α × List Byte)

/-- Parse with `x`, then with `f` on what it read and the bytes after it. -/
def andThen {α β : Type} (x : Parsed α) (f : α → List Byte → Parsed β) : Parsed β :=
  match x with
  | .ok (a, bs) => f a bs
  | .error e => .error e

/-- Read one byte. -/
def nextByte : List Byte → Parsed Byte
  | [] => .error .truncated
  | b :: bs => .ok (b, bs)

/-- Read an `n`-byte little-endian field (30_encoding.md R160; 20_memory.md R120). -/
def takeLe (n : Nat) (bs : List Byte) : Parsed (BitVec (8 * n)) :=
  if bs.length < n then .error .truncated
  else .ok (BitVec.ofNat (8 * n) (ofLeBytes (bs.take n)), bs.drop n)

/-- The segment register of a segment-override prefix (30_encoding.md R163). -/
def segmentPrefix (b : Byte) : Option SegReg :=
  match b.toNat with
  | 0x26 => some .es
  | 0x2E => some .cs
  | 0x36 => some .ss
  | 0x3E => some .ds
  | 0x64 => some .fs
  | 0x65 => some .gs
  | _ => none

/-- The prefixes that the model refuses: address size, LOCK, REPNE, REP (30_encoding.md R164). -/
def isRefusedPrefix (b : Byte) : Bool := b == 0x67 || b == 0xF0 || b == 0xF2 || b == 0xF3

/-- The bytes that the decoding algorithm takes as legacy prefixes (30_encoding.md R181 step 1). -/
def isLegacyPrefix (b : Byte) : Bool := b == 0x66 || (segmentPrefix b).isSome || isRefusedPrefix b

/-- A REX byte, `0100WRXB` (30_encoding.md R167). -/
def isRex (b : Byte) : Bool := b.extractLsb' 4 4 == 4#4

/-- The legacy prefixes of an instruction: the operand-size prefix and the segment override. -/
structure Prefixes where
  opsize : Bool
  seg : Option SegReg
deriving DecidableEq, Repr

/-- Read the legacy prefixes; a repeated one, a second segment override and the refused prefixes are refused (R164, R181
step 1). -/
def takePrefixes (p : Prefixes) : List Byte → Parsed Prefixes
  | [] => .ok (p, [])
  | b :: bs =>
    if b = 0x66 then
      if p.opsize then .error .prefixRefused else takePrefixes { p with opsize := true } bs
    else
      match segmentPrefix b with
      | some sg => if p.seg.isSome then .error .prefixRefused else takePrefixes { p with seg := some sg } bs
      | none => if isRefusedPrefix b then .error .prefixRefused else .ok (p, b :: bs)

/-- Read the REX prefix: it exists in LONG64 only and stands immediately before the opcode (R164, R167, R181 step 2). -/
def takeRex (md : Mode) : List Byte → Parsed (Option Byte)
  | [] => .error .truncated
  | b :: bs =>
    if md = .long64 ∧ isRex b then
      match bs with
      | [] => .error .truncated
      | c :: _ => if isLegacyPrefix c || isRex c then .error .prefixRefused else .ok (some b, bs)
    else .ok (none, b :: bs)

/-- What the prefixes say to the rest of the decoder. -/
structure DecodeCtx where
  mode : Mode
  opsize : Bool
  seg : Option SegReg
  rex : Option Byte
deriving DecidableEq, Repr

/-- A bit of the REX prefix, 0 when there is none (30_encoding.md R167, R169). -/
def rexBit (cx : DecodeCtx) (i : Nat) : Bool :=
  match cx.rex with
  | some b => b.getLsbD i
  | none => false

/-- The operand size: 32 bits by default, 16 with prefix 66, 64 with REX.W, which takes precedence (30_encoding.md
R165). -/
def opSize (cx : DecodeCtx) : OpSize := if rexBit cx 3 then .w64 else if cx.opsize then .w16 else .w32

/-- The size of a push or pop: 16 bits with prefix 66, else 32 in PROT32 and 64 in LONG64; REX.W has no effect
(30_encoding.md R165; 93_implementation_defined.md U21; log 16). -/
def stackSize (cx : DecodeCtx) : OpSize :=
  if cx.opsize then .w16
  else
    match cx.mode with
    | .prot32 => .w32
    | .long64 => .w64

/-- The segment override that has an effect: in LONG64 only FS and GS (30_encoding.md R163; log 17). -/
def segOverride (cx : DecodeCtx) : Option SegReg := if segOk cx.mode cx.seg then cx.seg else none

/-- A register number with its REX extension as bit 3 (30_encoding.md R167, R169, R170). -/
def extend (hi : Bool) (lo : BitVec 3) : BitVec 4 := BitVec.ofBool hi ++ lo

/-- The register number in the low three bits of an opcode (30_encoding.md R169). -/
def opcodeNum (cx : DecodeCtx) (op : Byte) : BitVec 4 := extend (rexBit cx 0) (op.setWidth 3)

/-- The general register in the low three bits of an opcode. -/
def opcodeGpr (cx : DecodeCtx) (op : Byte) : Gpr := Gpr.ofNum (opcodeNum cx op)

/-- The byte register in the low three bits of an opcode. -/
def opcodeReg8 (cx : DecodeCtx) (op : Byte) : Reg8 := Reg8.ofNum cx.rex.isSome (opcodeNum cx op)

/-- Read the displacement that `mod` calls for (30_encoding.md R172, R176). -/
def parseDisp (mod : BitVec 2) (bs : List Byte) : Parsed Disp :=
  if mod = 0 then .ok (.none, bs)
  else if mod = 1 then
    andThen (nextByte bs) fun v bs =>
    .ok (.d8 v, bs)
  else
    andThen (takeLe 4 bs) fun v bs =>
    .ok (.d32 v, bs)

/-- The index that a SIB byte names: the four-bit number 4 names none (30_encoding.md R173, R174(c)). -/
def sibIndex (cx : DecodeCtx) (sib : Byte) : Option (Gpr × Scale) :=
  let n := extend (rexBit cx 1) (sib.extractLsb' 3 3)
  if n = 4 then none else some (Gpr.ofNum n, Scale.ofNum (sib.extractLsb' 6 2))

/-- Read the rest of a memory operand after its ModRM byte (30_encoding.md R172 to R174). -/
def parseMem (cx : DecodeCtx) (mod : BitVec 2) (rm : BitVec 3) (bs : List Byte) : Parsed Mem :=
  if rm = 4 then
    andThen (nextByte bs) fun sib bs =>
    if mod = 0 ∧ sib.extractLsb' 0 3 = 5#3 then
      andThen (takeLe 4 bs) fun v bs =>
      .ok (⟨segOverride cx, .absent, sibIndex cx sib, .d32 v⟩, bs)
    else
      andThen (parseDisp mod bs) fun d bs =>
      .ok (⟨segOverride cx, .reg (Gpr.ofNum (extend (rexBit cx 0) (sib.extractLsb' 0 3))), sibIndex cx sib, d⟩, bs)
  else if mod = 0 ∧ rm = 5 then
    andThen (takeLe 4 bs) fun v bs =>
    match cx.mode with
    | .prot32 => .ok (⟨segOverride cx, .absent, none, .d32 v⟩, bs)
    | .long64 => .ok (⟨segOverride cx, .rip, none, .d32 v⟩, bs)
  else
    andThen (parseDisp mod bs) fun d bs =>
    .ok (⟨segOverride cx, .reg (Gpr.ofNum (extend (rexBit cx 0) rm)), none, d⟩, bs)

/-- Read ModRM and the operand it describes: the `reg` field and the r/m operand, a register by its number
(30_encoding.md R170). -/
def parseModRm (cx : DecodeCtx) (bs : List Byte) : Parsed (BitVec 3 × Rm (BitVec 4)) :=
  andThen (nextByte bs) fun b bs =>
  if b.extractLsb' 6 2 = 3#2 then
    .ok ((b.extractLsb' 3 3, .reg (extend (rexBit cx 0) (b.extractLsb' 0 3))), bs)
  else
    andThen (parseMem cx (b.extractLsb' 6 2) (b.extractLsb' 0 3) bs) fun m bs =>
    .ok ((b.extractLsb' 3 3, .mem m), bs)

/-- The r/m operand with its register named by `f`. -/
def Rm.numbered {ρ σ : Type} (f : ρ → σ) : Rm ρ → Rm σ
  | .reg r => .reg (f r)
  | .mem m => .mem m

/-- The r/m operand of a word, doubleword or quadword instruction. -/
def rmGpr (m : Rm (BitVec 4)) : Rm Gpr := m.numbered Gpr.ofNum

/-- The r/m operand of a byte instruction. -/
def rmReg8 (cx : DecodeCtx) (m : Rm (BitVec 4)) : Rm Reg8 := m.numbered (Reg8.ofNum cx.rex.isSome)

/-- An opcode with ModRM, byte registers (`/r`). -/
def parseRm8R8 (cx : DecodeCtx) (mk : Rm Reg8 → Reg8 → Instr) (bs : List Byte) : Parsed Instr :=
  andThen (parseModRm cx bs) fun (reg, rm) bs =>
  .ok (mk (rmReg8 cx rm) (Reg8.ofNum cx.rex.isSome (extend (rexBit cx 2) reg)), bs)

/-- An opcode with ModRM, general registers (`/r`). -/
def parseRmR (cx : DecodeCtx) (mk : OpSize → Rm Gpr → Gpr → Instr) (bs : List Byte) : Parsed Instr :=
  andThen (parseModRm cx bs) fun (reg, rm) bs =>
  .ok (mk (opSize cx) (rmGpr rm) (Gpr.ofNum (extend (rexBit cx 2) reg)), bs)

/-- An opcode with ModRM whose `reg` names a segment register; REX.R is ignored (30_encoding.md R171). -/
def parseRmSeg (cx : DecodeCtx) (mk : Rm Gpr → SegField → Instr) (bs : List Byte) : Parsed Instr :=
  andThen (parseModRm cx bs) fun (reg, rm) bs =>
  .ok (mk (rmGpr rm) (SegField.ofNum reg), bs)

/-- Read an 8-bit immediate (`ib`). -/
def parseImm8 (mk : Byte → Instr) (bs : List Byte) : Parsed Instr :=
  andThen (nextByte bs) fun v bs =>
  .ok (mk v, bs)

/-- Read an immediate `iz`: 2 bytes with a 16-bit operand, else 4 (30_encoding.md R177). -/
def takeImmZ (cx : DecodeCtx) (bs : List Byte) : Parsed ImmZ :=
  match opSize cx with
  | .w16 =>
    andThen (takeLe 2 bs) fun v bs =>
    .ok (.w16 v, bs)
  | .w32 =>
    andThen (takeLe 4 bs) fun v bs =>
    .ok (.w32 v, bs)
  | .w64 =>
    andThen (takeLe 4 bs) fun v bs =>
    .ok (.w64 v, bs)

/-- An opcode followed by an immediate `iz`. -/
def parseImmZ (cx : DecodeCtx) (mk : ImmZ → Instr) (bs : List Byte) : Parsed Instr :=
  andThen (takeImmZ cx bs) fun v bs =>
  .ok (mk v, bs)

/-- An opcode followed by an immediate `iv`: 2, 4 or 8 bytes (30_encoding.md R177). -/
def parseImmV (cx : DecodeCtx) (mk : ImmV → Instr) (bs : List Byte) : Parsed Instr :=
  match opSize cx with
  | .w16 =>
    andThen (takeLe 2 bs) fun v bs =>
    .ok (mk (.w16 v), bs)
  | .w32 =>
    andThen (takeLe 4 bs) fun v bs =>
    .ok (mk (.w32 v), bs)
  | .w64 =>
    andThen (takeLe 8 bs) fun v bs =>
    .ok (mk (.w64 v), bs)

/-- A branch with an 8-bit displacement; the operand-size prefix is refused (30_encoding.md R164, decision D24). -/
def parseRel8 (cx : DecodeCtx) (mk : BitVec 8 → Instr) (bs : List Byte) : Parsed Instr :=
  if cx.opsize then .error .prefixRefused
  else
    andThen (nextByte bs) fun v bs =>
    .ok (mk v, bs)

/-- A branch with a 32-bit displacement; the operand-size prefix is refused (30_encoding.md R164, decision D24). -/
def parseRel32 (cx : DecodeCtx) (mk : BitVec 32 → Instr) (bs : List Byte) : Parsed Instr :=
  if cx.opsize then .error .prefixRefused
  else
    andThen (takeLe 4 bs) fun v bs =>
    .ok (mk v, bs)

/-- SETcc: ModRM.reg is ignored (42_data_movement.md R298). -/
def parseSetcc (cx : DecodeCtx) (c : Cond) (bs : List Byte) : Parsed Instr :=
  andThen (parseModRm cx bs) fun (_, rm) bs =>
  .ok (.setcc c (rmReg8 cx rm), bs)

/-- Look at the `reg` field of ModRM before the memory form is read: an opcode extension outside those listed is refused
(30_encoding.md R181 step 5, R183). -/
def checkExt (listed : List Nat) : List Byte → Parsed Unit
  | [] => .error .truncated
  | b :: bs => if listed.contains (b.extractLsb' 3 3).toNat then .ok ((), b :: bs) else .error .opcodeRefused

/-- Opcode 80: `/0` ADD, `/2` ADC, `/3` SBB, `/5` SUB r/m8, imm8. -/
def parseGroup80 (cx : DecodeCtx) (bs : List Byte) : Parsed Instr :=
  andThen (checkExt [0, 2, 3, 5] bs) fun _ bs =>
  andThen (parseModRm cx bs) fun (reg, rm) bs =>
  match reg.toNat with
  | 0 => parseImm8 (.addRm8Imm8 (rmReg8 cx rm)) bs
  | 2 => parseImm8 (.adcRm8Imm8 (rmReg8 cx rm)) bs
  | 3 => parseImm8 (.sbbRm8Imm8 (rmReg8 cx rm)) bs
  | 5 => parseImm8 (.subRm8Imm8 (rmReg8 cx rm)) bs
  | _ => .error .opcodeRefused

/-- Opcode 81: `/0` ADD, `/2` ADC, `/3` SBB, `/5` SUB r/m, immz. -/
def parseGroup81 (cx : DecodeCtx) (bs : List Byte) : Parsed Instr :=
  andThen (checkExt [0, 2, 3, 5] bs) fun _ bs =>
  andThen (parseModRm cx bs) fun (reg, rm) bs =>
  match reg.toNat with
  | 0 => parseImmZ cx (.addRmImm (rmGpr rm)) bs
  | 2 => parseImmZ cx (.adcRmImm (rmGpr rm)) bs
  | 3 => parseImmZ cx (.sbbRmImm (rmGpr rm)) bs
  | 5 => parseImmZ cx (.subRmImm (rmGpr rm)) bs
  | _ => .error .opcodeRefused

/-- Opcode 83: `/0` ADD, `/2` ADC, `/3` SBB, `/5` SUB r/m, sign-extended imm8. -/
def parseGroup83 (cx : DecodeCtx) (bs : List Byte) : Parsed Instr :=
  andThen (checkExt [0, 2, 3, 5] bs) fun _ bs =>
  andThen (parseModRm cx bs) fun (reg, rm) bs =>
  match reg.toNat with
  | 0 => parseImm8 (.addRmSimm8 (opSize cx) (rmGpr rm)) bs
  | 2 => parseImm8 (.adcRmSimm8 (opSize cx) (rmGpr rm)) bs
  | 3 => parseImm8 (.sbbRmSimm8 (opSize cx) (rmGpr rm)) bs
  | 5 => parseImm8 (.subRmSimm8 (opSize cx) (rmGpr rm)) bs
  | _ => .error .opcodeRefused

/-- Opcode C6: `/0` MOV r/m8, imm8. -/
def parseGroupC6 (cx : DecodeCtx) (bs : List Byte) : Parsed Instr :=
  andThen (checkExt [0] bs) fun _ bs =>
  andThen (parseModRm cx bs) fun (reg, rm) bs =>
  match reg.toNat with
  | 0 => parseImm8 (.movRm8Imm8 (rmReg8 cx rm)) bs
  | _ => .error .opcodeRefused

/-- Opcode C7: `/0` MOV r/m, immz. -/
def parseGroupC7 (cx : DecodeCtx) (bs : List Byte) : Parsed Instr :=
  andThen (checkExt [0] bs) fun _ bs =>
  andThen (parseModRm cx bs) fun (reg, rm) bs =>
  match reg.toNat with
  | 0 => parseImmZ cx (.movRmImm (rmGpr rm)) bs
  | _ => .error .opcodeRefused

/-- Opcode F6: `/4` MUL, `/6` DIV, `/7` IDIV r/m8. -/
def parseGroupF6 (cx : DecodeCtx) (bs : List Byte) : Parsed Instr :=
  andThen (checkExt [4, 6, 7] bs) fun _ bs =>
  andThen (parseModRm cx bs) fun (reg, rm) bs =>
  match reg.toNat with
  | 4 => .ok (.mulRm8 (rmReg8 cx rm), bs)
  | 6 => .ok (.divRm8 (rmReg8 cx rm), bs)
  | 7 => .ok (.idivRm8 (rmReg8 cx rm), bs)
  | _ => .error .opcodeRefused

/-- Opcode F7: `/4` MUL, `/6` DIV, `/7` IDIV r/m. -/
def parseGroupF7 (cx : DecodeCtx) (bs : List Byte) : Parsed Instr :=
  andThen (checkExt [4, 6, 7] bs) fun _ bs =>
  andThen (parseModRm cx bs) fun (reg, rm) bs =>
  match reg.toNat with
  | 4 => .ok (.mulRm (opSize cx) (rmGpr rm), bs)
  | 6 => .ok (.divRm (opSize cx) (rmGpr rm), bs)
  | 7 => .ok (.idivRm (opSize cx) (rmGpr rm), bs)
  | _ => .error .opcodeRefused

/-- Opcode 0F BA: `/4` BT, `/5` BTS, `/6` BTR, `/7` BTC r/m, imm8. -/
def parseGroupBA (cx : DecodeCtx) (bs : List Byte) : Parsed Instr :=
  andThen (checkExt [4, 5, 6, 7] bs) fun _ bs =>
  andThen (parseModRm cx bs) fun (reg, rm) bs =>
  match reg.toNat with
  | 4 => parseImm8 (.btRmImm8 (opSize cx) (rmGpr rm)) bs
  | 5 => parseImm8 (.btsRmImm8 (opSize cx) (rmGpr rm)) bs
  | 6 => parseImm8 (.btrRmImm8 (opSize cx) (rmGpr rm)) bs
  | 7 => parseImm8 (.btcRmImm8 (opSize cx) (rmGpr rm)) bs
  | _ => .error .opcodeRefused

/-- The two-byte opcodes: `op` is the byte after 0F (30_encoding.md R168, R180). -/
def decodeTwoByte (cx : DecodeCtx) (op : Byte) (bs : List Byte) : Parsed Instr :=
  match op.toNat with
  | 0x40 | 0x41 | 0x42 | 0x43 | 0x44 | 0x45 | 0x46 | 0x47 | 0x48 | 0x49 | 0x4A | 0x4B | 0x4C | 0x4D | 0x4E | 0x4F => parseRmR cx (fun sz m r => .cmovcc (Cond.ofNum (op.setWidth 4)) sz r m) bs
  | 0x80 | 0x81 | 0x82 | 0x83 | 0x84 | 0x85 | 0x86 | 0x87 | 0x88 | 0x89 | 0x8A | 0x8B | 0x8C | 0x8D | 0x8E | 0x8F => parseRel32 cx (.jccRel32 (Cond.ofNum (op.setWidth 4))) bs
  | 0x90 | 0x91 | 0x92 | 0x93 | 0x94 | 0x95 | 0x96 | 0x97 | 0x98 | 0x99 | 0x9A | 0x9B | 0x9C | 0x9D | 0x9E | 0x9F => parseSetcc cx (Cond.ofNum (op.setWidth 4)) bs
  | 0xA2 => .ok (.cpuid, bs)
  | 0xA3 => parseRmR cx .btRmR bs
  | 0xAB => parseRmR cx .btsRmR bs
  | 0xB3 => parseRmR cx .btrRmR bs
  | 0xBB => parseRmR cx .btcRmR bs
  | 0xBA => parseGroupBA cx bs
  | _ => .error .opcodeRefused

/-- The one-byte opcodes (30_encoding.md R180). -/
def decodeOneByte (cx : DecodeCtx) (op : Byte) (bs : List Byte) : Parsed Instr :=
  match op.toNat with
  | 0x00 => parseRm8R8 cx .addRm8R8 bs
  | 0x01 => parseRmR cx .addRmR bs
  | 0x02 => parseRm8R8 cx (fun m r => .addR8Rm8 r m) bs
  | 0x03 => parseRmR cx (fun sz m r => .addRRm sz r m) bs
  | 0x04 => parseImm8 .addAlImm8 bs
  | 0x05 => parseImmZ cx .addAccImm bs
  | 0x10 => parseRm8R8 cx .adcRm8R8 bs
  | 0x11 => parseRmR cx .adcRmR bs
  | 0x12 => parseRm8R8 cx (fun m r => .adcR8Rm8 r m) bs
  | 0x13 => parseRmR cx (fun sz m r => .adcRRm sz r m) bs
  | 0x14 => parseImm8 .adcAlImm8 bs
  | 0x15 => parseImmZ cx .adcAccImm bs
  | 0x18 => parseRm8R8 cx .sbbRm8R8 bs
  | 0x19 => parseRmR cx .sbbRmR bs
  | 0x1A => parseRm8R8 cx (fun m r => .sbbR8Rm8 r m) bs
  | 0x1B => parseRmR cx (fun sz m r => .sbbRRm sz r m) bs
  | 0x1C => parseImm8 .sbbAlImm8 bs
  | 0x1D => parseImmZ cx .sbbAccImm bs
  | 0x28 => parseRm8R8 cx .subRm8R8 bs
  | 0x29 => parseRmR cx .subRmR bs
  | 0x2A => parseRm8R8 cx (fun m r => .subR8Rm8 r m) bs
  | 0x2B => parseRmR cx (fun sz m r => .subRRm sz r m) bs
  | 0x2C => parseImm8 .subAlImm8 bs
  | 0x2D => parseImmZ cx .subAccImm bs
  | 0x50 | 0x51 | 0x52 | 0x53 | 0x54 | 0x55 | 0x56 | 0x57 => .ok (.push (stackSize cx) (opcodeGpr cx op), bs)
  | 0x58 | 0x59 | 0x5A | 0x5B | 0x5C | 0x5D | 0x5E | 0x5F => .ok (.pop (stackSize cx) (opcodeGpr cx op), bs)
  | 0x70 | 0x71 | 0x72 | 0x73 | 0x74 | 0x75 | 0x76 | 0x77 | 0x78 | 0x79 | 0x7A | 0x7B | 0x7C | 0x7D | 0x7E | 0x7F => parseRel8 cx (.jccRel8 (Cond.ofNum (op.setWidth 4))) bs
  | 0x80 => parseGroup80 cx bs
  | 0x81 => parseGroup81 cx bs
  | 0x83 => parseGroup83 cx bs
  | 0x88 => parseRm8R8 cx .movRm8R8 bs
  | 0x89 => parseRmR cx .movRmR bs
  | 0x8A => parseRm8R8 cx (fun m r => .movR8Rm8 r m) bs
  | 0x8B => parseRmR cx (fun sz m r => .movRRm sz r m) bs
  | 0x8C => parseRmSeg cx (fun m f => .movRmSreg (opSize cx) m f) bs
  | 0x8E => parseRmSeg cx (fun m f => .movSregRm f m) bs
  | 0x9C => .ok (.pushf (stackSize cx), bs)
  | 0x9D => .ok (.popf (stackSize cx), bs)
  | 0x9E => .ok (.sahf, bs)
  | 0x9F => .ok (.lahf, bs)
  | 0xA4 => .ok (.movsb (segOverride cx), bs)
  | 0xA5 => .ok (.movs (opSize cx) (segOverride cx), bs)
  | 0xA6 => .ok (.cmpsb (segOverride cx), bs)
  | 0xA7 => .ok (.cmps (opSize cx) (segOverride cx), bs)
  | 0xAA => .ok (.stosb, bs)
  | 0xAB => .ok (.stos (opSize cx), bs)
  | 0xAC => .ok (.lodsb (segOverride cx), bs)
  | 0xAD => .ok (.lods (opSize cx) (segOverride cx), bs)
  | 0xAE => .ok (.scasb, bs)
  | 0xAF => .ok (.scas (opSize cx), bs)
  | 0xB0 | 0xB1 | 0xB2 | 0xB3 | 0xB4 | 0xB5 | 0xB6 | 0xB7 => parseImm8 (.movR8Imm8 (opcodeReg8 cx op)) bs
  | 0xB8 | 0xB9 | 0xBA | 0xBB | 0xBC | 0xBD | 0xBE | 0xBF => parseImmV cx (.movRImm (opcodeGpr cx op)) bs
  | 0xC6 => parseGroupC6 cx bs
  | 0xC7 => parseGroupC7 cx bs
  | 0xCF => .ok (.iret, bs)
  | 0xE0 => parseRel8 cx .loopne bs
  | 0xE1 => parseRel8 cx .loope bs
  | 0xE2 => parseRel8 cx .loop bs
  | 0xF5 => .ok (.cmc, bs)
  | 0xF6 => parseGroupF6 cx bs
  | 0xF7 => parseGroupF7 cx bs
  | 0xF8 => .ok (.clc, bs)
  | 0xF9 => .ok (.stc, bs)
  | 0xFC => .ok (.cld, bs)
  | 0xFD => .ok (.std, bs)
  | _ => .error .opcodeRefused

/-- Look the opcode up and read what follows it (30_encoding.md R181 steps 3 to 7). -/
def decodeOpcode (cx : DecodeCtx) (bs : List Byte) : Parsed Instr :=
  andThen (nextByte bs) fun op bs =>
  if op = 0x0F then
    andThen (nextByte bs) fun op2 bs =>
    decodeTwoByte cx op2 bs
  else decodeOneByte cx op bs

/-- The decoder: the instruction at the head of the bytes and the bytes after it (30_encoding.md R181). -/
def decode (md : Mode) (bs : List Byte) : Parsed Instr :=
  andThen (takePrefixes ⟨false, none⟩ bs) fun p bs =>
  andThen (takeRex md bs) fun rex bs =>
  decodeOpcode ⟨md, p.opsize, p.seg, rex⟩ bs

/-- The longest instruction: 15 bytes (30_encoding.md R160). -/
def maxLength : Nat := 15

/-- The instruction that the decoder reads from the bytes of `w`, first byte lowest, followed by zero bytes up to the
longest instruction, in PROT32 (the mode of `State.reset`). -/
def decodeTableWord (nbits w : Nat) : Option Instr :=
  match decode .prot32 (leBytes (nbits / 8) w ++ List.replicate (maxLength - nbits / 8) 0) with
  | .ok (i, _) => some i
  | .error _ => none

/-! ## The encoder -/

/-- Prefix 66 is written. -/
def OpSize.is16 : OpSize → Bool
  | .w16 => true
  | .w32 | .w64 => false

/-- REX.W is written. -/
def OpSize.is64 : OpSize → Bool
  | .w64 => true
  | .w16 | .w32 => false

/-- The bytes of an immediate `iz` (30_encoding.md R177). -/
def ImmZ.encode : ImmZ → List Byte
  | .w16 v => leBytes 2 v.toNat
  | .w32 v | .w64 v => leBytes 4 v.toNat

/-- The bytes of an immediate `iv` (30_encoding.md R177). -/
def ImmV.encode : ImmV → List Byte
  | .w16 v => leBytes 2 v.toNat
  | .w32 v => leBytes 4 v.toNat
  | .w64 v => leBytes 8 v.toNat

/-- The segment-override prefix (30_encoding.md R163). -/
def SegReg.prefixByte : SegReg → Byte
  | .es => 0x26
  | .cs => 0x2E
  | .ss => 0x36
  | .ds => 0x3E
  | .fs => 0x64
  | .gs => 0x65

/-- The bytes before the opcode: prefix 66, segment override, REX (30_encoding.md R160, R162). -/
def encodePrefixes (osz : Bool) (seg : Option SegReg) (rex : Option Byte) : List Byte :=
  (if osz then [0x66] else []) ++ (seg.map SegReg.prefixByte).toList ++ rex.toList

/-- A REX byte when one of its bits is 1 or the instruction needs one (30_encoding.md R167). -/
def rexByte (force w r x b : Bool) : Option Byte :=
  if force || w || r || x || b then
    some (0x4#4 ++ BitVec.ofBool w ++ BitVec.ofBool r ++ BitVec.ofBool x ++ BitVec.ofBool b)
  else none

/-- The bytes of a displacement. -/
def Disp.encode : Disp → List Byte
  | .none => []
  | .d8 v => [v]
  | .d32 v => leBytes 4 v.toNat

/-- The `mod` that a displacement beside a base register calls for (30_encoding.md R172). -/
def Disp.mod : Disp → BitVec 2
  | .none => 0
  | .d8 _ => 1
  | .d32 _ => 2

/-- The SIB byte of an index and the three bits of a base (30_encoding.md R173). -/
def sibByte (index : Option (Gpr × Scale)) (base : BitVec 3) : Byte :=
  match index with
  | none => 0#2 ++ 4#3 ++ base
  | some (r, sc) => sc.num ++ r.num.setWidth 3 ++ base

/-- ModRM's `mod` and `rm` and the bytes after ModRM for a memory operand (30_encoding.md R172 to R174). -/
def encodeMem (md : Mode) (m : Mem) : BitVec 2 × BitVec 3 × List Byte :=
  match m.base with
  | .rip => (0, 5, m.disp.encode)
  | .absent =>
    if md = .prot32 ∧ m.index = none then (0, 5, m.disp.encode) else (0, 4, sibByte m.index 5 :: m.disp.encode)
  | .reg r =>
    if m.index = none ∧ r.num.setWidth 3 ≠ 4#3 then (m.disp.mod, r.num.setWidth 3, m.disp.encode)
    else (m.disp.mod, 4, sibByte m.index (r.num.setWidth 3) :: m.disp.encode)

/-- An instruction with ModRM: prefixes, REX, opcode, ModRM and what follows it, immediate. -/
def encodeRm (md : Mode) (osz force w : Bool) (op : List Byte) (reg : BitVec 4) (rm : Rm (BitVec 4)) (imm : List Byte) :
    List Byte :=
  match rm with
  | .reg n =>
    encodePrefixes osz none (rexByte force w (reg.getLsbD 3) false (n.getLsbD 3)) ++ op ++
      (3#2 ++ reg.setWidth 3 ++ n.setWidth 3 : BitVec 8) :: imm
  | .mem m =>
    encodePrefixes osz m.seg (rexByte force w (reg.getLsbD 3) m.indexExtended m.baseExtended) ++ op ++
      ((encodeMem md m).1 ++ reg.setWidth 3 ++ (encodeMem md m).2.1 : BitVec 8) :: ((encodeMem md m).2.2 ++ imm)

/-- A byte instruction with two operands (`/r`). -/
def encodeRm8R8 (md : Mode) (op : List Byte) (r : Reg8) (m : Rm Reg8) : List Byte :=
  encodeRm md false (r.needsRex || rm8NeedsRex m) false op r.num (m.numbered Reg8.num) []

/-- A word, doubleword or quadword instruction with two operands (`/r`). -/
def encodeRmR (md : Mode) (sz : OpSize) (op : List Byte) (r : Gpr) (m : Rm Gpr) : List Byte :=
  encodeRm md sz.is16 false sz.is64 op r.num (m.numbered Gpr.num) []

/-- A byte instruction with an opcode extension (`/n`). -/
def encodeExt8 (md : Mode) (op : List Byte) (ext : BitVec 3) (m : Rm Reg8) (imm : List Byte) : List Byte :=
  encodeRm md false (rm8NeedsRex m) false op (ext.setWidth 4) (m.numbered Reg8.num) imm

/-- A word, doubleword or quadword instruction with an opcode extension (`/n`). -/
def encodeExt (md : Mode) (sz : OpSize) (op : List Byte) (ext : BitVec 3) (m : Rm Gpr) (imm : List Byte) : List Byte :=
  encodeRm md sz.is16 false sz.is64 op (ext.setWidth 4) (m.numbered Gpr.num) imm

/-- An instruction with a register number in its opcode (`+r`, 30_encoding.md R169). -/
def encodeOpcodeReg (osz force w : Bool) (op : Byte) (n : BitVec 4) (imm : List Byte) : List Byte :=
  encodePrefixes osz none (rexByte force w false false (n.getLsbD 3)) ++ (op + (n.setWidth 3).setWidth 8) :: imm

/-- A string instruction with an odd opcode (44_string.md R340). -/
def encodeString (sz : OpSize) (seg : Option SegReg) (op : Byte) : List Byte :=
  encodePrefixes sz.is16 seg (rexByte false sz.is64 false false false) ++ [op]

/-- The encoder: one encoding of a well-formed instruction (30_encoding.md R160 to R180; log 30 says which, where there
are several). -/
def encode (md : Mode) : Instr → List Byte
  | .addRm8R8 d r => encodeRm8R8 md [0x00] r d
  | .addRmR sz d r => encodeRmR md sz [0x01] r d
  | .addR8Rm8 r m => encodeRm8R8 md [0x02] r m
  | .addRRm sz r m => encodeRmR md sz [0x03] r m
  | .addAlImm8 imm => [0x04, imm]
  | .addAccImm imm => encodePrefixes imm.size.is16 none (rexByte false imm.size.is64 false false false) ++ 0x05 :: imm.encode
  | .adcRm8R8 d r => encodeRm8R8 md [0x10] r d
  | .adcRmR sz d r => encodeRmR md sz [0x11] r d
  | .adcR8Rm8 r m => encodeRm8R8 md [0x12] r m
  | .adcRRm sz r m => encodeRmR md sz [0x13] r m
  | .adcAlImm8 imm => [0x14, imm]
  | .adcAccImm imm => encodePrefixes imm.size.is16 none (rexByte false imm.size.is64 false false false) ++ 0x15 :: imm.encode
  | .sbbRm8R8 d r => encodeRm8R8 md [0x18] r d
  | .sbbRmR sz d r => encodeRmR md sz [0x19] r d
  | .sbbR8Rm8 r m => encodeRm8R8 md [0x1A] r m
  | .sbbRRm sz r m => encodeRmR md sz [0x1B] r m
  | .sbbAlImm8 imm => [0x1C, imm]
  | .sbbAccImm imm => encodePrefixes imm.size.is16 none (rexByte false imm.size.is64 false false false) ++ 0x1D :: imm.encode
  | .subRm8R8 d r => encodeRm8R8 md [0x28] r d
  | .subRmR sz d r => encodeRmR md sz [0x29] r d
  | .subR8Rm8 r m => encodeRm8R8 md [0x2A] r m
  | .subRRm sz r m => encodeRmR md sz [0x2B] r m
  | .subAlImm8 imm => [0x2C, imm]
  | .subAccImm imm => encodePrefixes imm.size.is16 none (rexByte false imm.size.is64 false false false) ++ 0x2D :: imm.encode
  | .addRm8Imm8 d imm => encodeExt8 md [0x80] 0 d [imm]
  | .addRmImm d imm => encodeExt md imm.size [0x81] 0 d imm.encode
  | .addRmSimm8 sz d imm => encodeExt md sz [0x83] 0 d [imm]
  | .adcRm8Imm8 d imm => encodeExt8 md [0x80] 2 d [imm]
  | .adcRmImm d imm => encodeExt md imm.size [0x81] 2 d imm.encode
  | .adcRmSimm8 sz d imm => encodeExt md sz [0x83] 2 d [imm]
  | .sbbRm8Imm8 d imm => encodeExt8 md [0x80] 3 d [imm]
  | .sbbRmImm d imm => encodeExt md imm.size [0x81] 3 d imm.encode
  | .sbbRmSimm8 sz d imm => encodeExt md sz [0x83] 3 d [imm]
  | .subRm8Imm8 d imm => encodeExt8 md [0x80] 5 d [imm]
  | .subRmImm d imm => encodeExt md imm.size [0x81] 5 d imm.encode
  | .subRmSimm8 sz d imm => encodeExt md sz [0x83] 5 d [imm]
  | .push sz r => encodeOpcodeReg sz.is16 false false 0x50 r.num []
  | .pop sz r => encodeOpcodeReg sz.is16 false false 0x58 r.num []
  | .jccRel8 c rel => [0x70#8 + c.num.setWidth 8, rel]
  | .movRm8R8 d r => encodeRm8R8 md [0x88] r d
  | .movRmR sz d r => encodeRmR md sz [0x89] r d
  | .movR8Rm8 r m => encodeRm8R8 md [0x8A] r m
  | .movRRm sz r m => encodeRmR md sz [0x8B] r m
  | .movRmSreg sz d f => encodeExt md sz [0x8C] f.num d []
  | .movSregRm f m => encodeRm md false false false [0x8E] (f.num.setWidth 4) (m.numbered Gpr.num) []
  | .pushf sz => encodePrefixes sz.is16 none none ++ [0x9C]
  | .popf sz => encodePrefixes sz.is16 none none ++ [0x9D]
  | .sahf => [0x9E]
  | .lahf => [0x9F]
  | .movsb seg => encodePrefixes false seg none ++ [0xA4]
  | .movs sz seg => encodeString sz seg 0xA5
  | .cmpsb seg => encodePrefixes false seg none ++ [0xA6]
  | .cmps sz seg => encodeString sz seg 0xA7
  | .stosb => [0xAA]
  | .stos sz => encodeString sz none 0xAB
  | .lodsb seg => encodePrefixes false seg none ++ [0xAC]
  | .lods sz seg => encodeString sz seg 0xAD
  | .scasb => [0xAE]
  | .scas sz => encodeString sz none 0xAF
  | .movR8Imm8 r imm => encodeOpcodeReg false r.needsRex false 0xB0 r.num [imm]
  | .movRImm r imm => encodeOpcodeReg imm.size.is16 false imm.size.is64 0xB8 r.num imm.encode
  | .movRm8Imm8 d imm => encodeExt8 md [0xC6] 0 d [imm]
  | .movRmImm d imm => encodeExt md imm.size [0xC7] 0 d imm.encode
  | .iret => [0xCF]
  | .loopne rel => [0xE0, rel]
  | .loope rel => [0xE1, rel]
  | .loop rel => [0xE2, rel]
  | .cmc => [0xF5]
  | .mulRm8 m => encodeExt8 md [0xF6] 4 m []
  | .mulRm sz m => encodeExt md sz [0xF7] 4 m []
  | .divRm8 m => encodeExt8 md [0xF6] 6 m []
  | .divRm sz m => encodeExt md sz [0xF7] 6 m []
  | .idivRm8 m => encodeExt8 md [0xF6] 7 m []
  | .idivRm sz m => encodeExt md sz [0xF7] 7 m []
  | .clc => [0xF8]
  | .stc => [0xF9]
  | .cld => [0xFC]
  | .std => [0xFD]
  | .cmovcc c sz r m => encodeRmR md sz [0x0F, 0x40#8 + c.num.setWidth 8] r m
  | .jccRel32 c rel => 0x0F :: (0x80#8 + c.num.setWidth 8) :: leBytes 4 rel.toNat
  | .setcc c d => encodeExt8 md [0x0F, 0x90#8 + c.num.setWidth 8] 0 d []
  | .cpuid => [0x0F, 0xA2]
  | .btRmR sz d r => encodeRmR md sz [0x0F, 0xA3] r d
  | .btsRmR sz d r => encodeRmR md sz [0x0F, 0xAB] r d
  | .btrRmR sz d r => encodeRmR md sz [0x0F, 0xB3] r d
  | .btcRmR sz d r => encodeRmR md sz [0x0F, 0xBB] r d
  | .btRmImm8 sz d imm => encodeExt md sz [0x0F, 0xBA] 4 d [imm]
  | .btsRmImm8 sz d imm => encodeExt md sz [0x0F, 0xBA] 5 d [imm]
  | .btrRmImm8 sz d imm => encodeExt md sz [0x0F, 0xBA] 6 d [imm]
  | .btcRmImm8 sz d imm => encodeExt md sz [0x0F, 0xBA] 7 d [imm]

end Sys2Proof
end

