-- ==== Sys2Proof/Machine/Fetch.lean ====
section
/-!
DEFINITION. Fetching and decoding the instruction at the program counter (spec/10_state.md R37 to R41, spec/30_encoding.md
R160, R181), the end of a run (spec/70_reset_and_hazards.md R432) and single-step (spec/60_exceptions.md R408).
-/
namespace Sys2Proof.Machine

/-- The bytes from an address upward as far as they are admitted for fetch, at most `n` (30_encoding.md R181, 20_memory.md
R126). -/
def fetchBytes (s : State) (a : Nat) : Nat → List Byte
  | 0 => []
  | n + 1 => if admits s .fetch a then Memory.read s.mem a :: fetchBytes s (a + 1) n else []

/-- The linear address of the next instruction, `LA(CS, pc)` (10_state.md R41). -/
def fetchAddr (s : State) : Quad := linear s .cs s.pc

/-- The bytes that the decoder may read: at most the 15 bytes of the longest instruction. -/
def fetchWindow (s : State) : List Byte := fetchBytes s (fetchAddr s).toNat maxLength

/-- Fetch and decode: the instruction and its length (30_encoding.md R160, R181). A needed byte that is not admitted for
fetch refuses the step (20_memory.md R126); an instruction longer than 15 bytes would be `#GP(0)` (30_encoding.md R160). -/
def fetchDecode (s : State) : Res (Instr × Nat) :=
  match decode s.launch.mode (fetchWindow s) with
  | .ok (i, rest) => .ok (i, (fetchWindow s).length - rest.length)
  | .error .prefixRefused => refuse .prefixRefused
  | .error .opcodeRefused => refuse .opcodeRefused
  | .error .truncated =>
    if (fetchWindow s).length = maxLength then raise (.generalProtection 0) else refuse .outsideLaunchMemory

/-- The run is complete: `pc = END` at the start of a step (70_reset_and_hazards.md R432; log 8). -/
def completed (s : State) : Bool := s.pc == s.launch.endAddr

/-- The state in which an instruction of `len` bytes executes: `pc_next = pc + len` at the address width (10_state.md R39,
R40). -/
def beginInstr (s : State) (len : Nat) : State :=
  { s with pcNext := truncAddr s.launch.mode (s.pc + BitVec.ofNat 64 len) }

/-- Single-step: an instruction that began with TF = 1 and completed is followed by `#DB` with the state after it
(60_exceptions.md R408). -/
def singleStep (tf0 : Bool) (o : Host.Outcome State Fault Refusal) : Host.Outcome State Fault Refusal :=
  match o with
  | .next t => if tf0 then .fault (.debug t) else .next t
  | .fault f => .fault f
  | .refused r => .refused r

/-- Memory and launch memory with bytes placed at an address, admitted for read and fetch. -/
def placeCode (s : State) (a : Nat) (bs : List Byte) : State :=
  { s with
    mem := Memory.writeBytes s.mem a bs
    launch := { s.launch with regions := ⟨a, bs.length, true, false, true⟩ :: s.launch.regions } }

end Sys2Proof.Machine
end

