-- ==== Sys2Proof/Machine/Step.lean ====
section
/-!
DEFINITION. One step of the machine, and the state with a given instruction placed where the step fetches it.
-/
namespace Sys2Proof.Machine

/-- One step: a completed run stays as it is (70_reset_and_hazards.md R432; log 8); else the instruction at `pc` is
fetched, decoded and executed (60_exceptions.md R388), and single-step is seen to after it (R408). -/
def step (s : State) : Host.Outcome State Fault Refusal :=
  if completed s then .next s
  else
    match fetchDecode s with
    | .error (.fault f) => .fault f
    | .error (.refusal r) => .refused r
    | .ok (i, len) => singleStep (getFlag s.rflags .tf) (exec i (beginInstr s len))

/-- `s` with the bytes of `w`, first byte lowest, and zero bytes after them up to the longest instruction, placed at the
fetch address and admitted for fetch; and with END elsewhere than `pc`, so that the next step runs them (log 2). -/
def State.withFetchWord (s : State) (nbits w : Nat) : State :=
  let t := placeCode s (fetchAddr s).toNat (leBytes (nbits / 8) w ++ List.replicate (maxLength - nbits / 8) 0)
  if completed t then { t with launch := { t.launch with endAddr := t.pc - 1 } } else t

end Sys2Proof.Machine
end

