-- ==== Sys2Proof/Machine/Launch.lean ====
section
/-!
DEFINITION. Launch states: the states from which a run starts (spec/70_reset_and_hazards.md R431). The launch parameters
are fields of the state that no step changes (log 5), so any value of them is a launch value.
-/
namespace Sys2Proof.Machine

/-- `pc` is ENTRY, an address of the mode, and the byte there is admitted for fetch (70_reset_and_hazards.md R431;
10_state.md R37). -/
def launchPc (s : State) : Prop :=
  s.pc = s.launch.entry ∧ s.launch.entry.toNat < spaceSize s.launch.mode ∧ admits s .fetch (fetchAddr s).toNat = true

/-- In PROT32 only bits 31:0 of the first eight general registers exist (70_reset_and_hazards.md R431); the storage that
does not exist holds 0 (log 12). -/
def launchRegisters (s : State) : Prop :=
  s.launch.mode = .prot32 → ∀ r, (s.gpr.get r).toNat < 2 ^ 32 ∧ (r.isExtended = true → s.gpr.get r = 0)

/-- The reserved bits of RFLAGS hold their fixed values and VM is 0 (70_reset_and_hazards.md R431; 10_state.md R52,
R79). -/
def launchFlags (s : State) : Prop := reservedOk s.rflags = true ∧ getFlag s.rflags .vm = false

/-- All segment bases are 0, but for FS and GS in LONG64, which may have any base (70_reset_and_hazards.md R431). -/
def launchBases (s : State) : Prop :=
  ∀ r, s.launch.mode = .prot32 ∨ isFsGs r = false → s.segBase.get r = 0

/-- Memory holds bytes at admitted addresses only, in the canonical form, and no byte is admitted both for fetch and for
write (70_reset_and_hazards.md R431; 20_memory.md R126, R135; DEDUCED, log 35). -/
def launchMemory (s : State) : Prop :=
  Memory.wf s.mem = true ∧
    (∀ c ∈ s.mem, admits s .read c.1 = true ∨ admits s .write c.1 = true ∨ admits s .fetch c.1 = true) ∧
    ∀ a, admits s .fetch a = true → admits s .write a = false

/-- A launch state (70_reset_and_hazards.md R431). Whatever the parts above do not constrain may have any value: the other
flags, the selectors, the stack pointer, the system registers. -/
def isLaunch (s : State) : Prop :=
  launchPc s ∧ launchRegisters s ∧ launchFlags s ∧ launchBases s ∧ launchMemory s

end Sys2Proof.Machine
end

