-- ==== Sys2Proof/Safety.lean ====
section
/-!
DEFINITION. What counts as a safe run, when an access completes, what a state change may touch, and the operand forms of
the instruction families as tables: the terms in which the claims of Certificates/Slice0/Obligations.lean are made.
-/
namespace Sys2Proof.Machine

/-! ## Steps -/

/-- A step is safe when it answers a next state: no fault and no refusal. -/
def SafeStep (s : State) : Prop := ∃ t, step s = .next t

/-- The state `t` is what a step that completed leaves: the next state, or the state after an instruction that
single-step has trapped (60_exceptions.md R408). -/
def Leads (s t : State) : Prop := step s = .next t ∨ step s = .fault (.debug t)

/-- The state with other system registers and other x87, MMX and XMM registers. -/
def withSystem (sys : SysRegs) (fp : FpRegs) (s : State) : State := { s with sys := sys, fp := fp }

/-- An outcome with the state in it changed by `f`. -/
def mapState (f : State → State) (o : Host.Outcome State Fault Refusal) : Host.Outcome State Fault Refusal :=
  match o with
  | .next t => .next (f t)
  | .fault (.debug t) => .fault (.debug (f t))
  | .fault r => .fault r
  | .refused r => .refused r

/-! ## Accesses -/

/-- Alignment of data accesses is checked (20_memory.md R122). -/
abbrev AlignmentChecked (s : State) : Prop := cr0Am s = true ∧ getFlag s.rflags .ac = true ∧ s.launch.cpl = 3

/-- An access of `n` bytes at `a` passes the alignment check (20_memory.md R122). -/
abbrev AlignedFor (s : State) (a : Quad) (n : Nat) : Prop :=
  AlignmentChecked s → n = 2 ∨ n = 4 ∨ n = 8 → a.toNat % n = 0

/-- Every byte of an access of `n` bytes at `a` is admitted (20_memory.md R126). -/
abbrev Admitted (s : State) (k : Access) (a : Quad) (n : Nat) : Prop := ∀ j < n, admits s k (a.toNat + j) = true

/-- No byte of an access of `n` bytes at `a` is admitted for fetch (20_memory.md R135). -/
abbrev OffCode (s : State) (a : Quad) (n : Nat) : Prop := ∀ j < n, admits s .fetch (a.toNat + j) = false

/-- A read of `n` bytes at `a` completes (20_memory.md R122, R126). -/
abbrev Readable (s : State) (a : Quad) (n : Nat) : Prop := Admitted s .read a n ∧ AlignedFor s a n

/-- A write of `n` bytes at `a` completes (20_memory.md R122, R126, R135). -/
abbrev Writable (s : State) (a : Quad) (n : Nat) : Prop := Admitted s .write a n ∧ OffCode s a n ∧ AlignedFor s a n

/-- The r/m operand can be read: a register always, memory when the access completes. -/
def RmReadable (w : Width) (rm : Rm Reg8) (s : State) : Prop :=
  match rm with
  | .reg _ => True
  | .mem m => Readable s (operandAddr s m) w.bytes

/-- The r/m operand can be written. -/
def RmWritable (w : Width) (rm : Rm Reg8) (s : State) : Prop :=
  match rm with
  | .reg _ => True
  | .mem m => Writable s (operandAddr s m) w.bytes

/-- The `n` bytes at `a` as a number, the first byte least significant (20_memory.md R120). -/
def memValue (s : State) (a : Quad) (n : Nat) : BitVec (8 * n) :=
  BitVec.ofNat (8 * n) (ofLeBytes (Memory.readBytes s.mem a.toNat n))

/-- The value of an r/m operand that can be read. -/
def rmValue (w : Width) (rm : Rm Reg8) (s : State) : BitVec w.bits :=
  match rm with
  | .reg r => readReg w r s
  | .mem m => memValue s (operandAddr s m) w.bytes

/-! ## What changed -/

/-- Every byte of memory reads in `t` as in `s`. -/
def MemSame (s t : State) : Prop := ∀ x, Memory.read t.mem x = Memory.read s.mem x

/-- The `n` bytes at `a` hold `v` in `t`, the least significant byte first, and every byte outside them reads as in
`s`. -/
def Stored (a : Quad) (n : Nat) (v : BitVec (8 * n)) (s t : State) : Prop :=
  (∀ k < n, Memory.read t.mem (a.toNat + k) = v.extractLsb' (8 * k) 8) ∧
    ∀ x, x < a.toNat ∨ a.toNat + n ≤ x → Memory.read t.mem x = Memory.read s.mem x

/-- Every general register but those listed holds in `t` what it held in `s`. -/
def GprSameBut (rs : List Gpr) (s t : State) : Prop := ∀ r, r ∉ rs → t.gpr.get r = s.gpr.get r

/-- Every bit of RFLAGS but those of the listed flags is in `t` what it was in `s`: the other flags, IOPL and the reserved
bits. -/
def FlagsSameBut (fs : List Flag) (s t : State) : Prop :=
  ∀ i, (∀ f ∈ fs, f.bit ≠ i) → t.rflags.getLsbD i = s.rflags.getLsbD i

/-- The segment registers and their bases are in `t` what they were in `s`. -/
def SegmentsSame (s t : State) : Prop := t.selector = s.selector ∧ t.segBase = s.segBase

/-- The launch parameters, the system registers and the x87, MMX and XMM registers are in `t` what they were in `s`. -/
def SystemSame (s t : State) : Prop := t.launch = s.launch ∧ t.sys = s.sys ∧ t.fp = s.fp

/-- The general register that a byte register is part of. -/
def wholeGpr : Reg8 → Gpr
  | .lo r => r
  | .hi h => highGpr h

/-- The register `r` was written with `v` at width `w`: it reads as `v`, the rest of its 64 bits is as the partial-write
rules say (10_state.md R29 to R32), and no other register changed. -/
def RegWritten (w : Width) (r : Reg8) (v : BitVec w.bits) (s t : State) : Prop :=
  t.gpr = (writeReg w r v s).gpr ∧ readReg w r t = v ∧ GprSameBut [wholeGpr r] s t

/-- The destination `rm` was written with `v` at width `w`, and nothing else in the general registers or in memory
changed. A memory destination is the `w` bits at the operand's address in `s`. -/
def RmWritten (w : Width) (rm : Rm Reg8) (v : BitVec w.bits) (s t : State) : Prop :=
  match rm with
  | .reg r => RegWritten w r v s t ∧ MemSame s t
  | .mem m => t.gpr = s.gpr ∧ Stored (operandAddr s m) w.bytes v s t

/-- The six status flags hold `f` in `t`. -/
def StatusAre (f : StatusFlags) (t : State) : Prop :=
  getFlag t.rflags .of = f.of ∧ getFlag t.rflags .sf = f.sf ∧ getFlag t.rflags .zf = f.zf ∧
    getFlag t.rflags .af = f.af ∧ getFlag t.rflags .pf = f.pf ∧ getFlag t.rflags .cf = f.cf

/-- The six status flags. -/
def statusFlags : List Flag := [.of, .sf, .zf, .af, .pf, .cf]

/-! ## Operand forms -/

/-- A source operand: an r/m operand (a register among them) or an immediate already extended to the operand width. -/
inductive Source (w : Width) where
  | rm (x : Rm Reg8)
  | imm (v : BitVec w.bits)

/-- The source can be read. -/
def Source.readable {w : Width} (x : Source w) (s : State) : Prop :=
  match x with
  | .rm m => RmReadable w m s
  | .imm _ => True

/-- The value of a source that can be read. -/
def Source.value {w : Width} (x : Source w) (s : State) : BitVec w.bits :=
  match x with
  | .rm m => rmValue w m s
  | .imm v => v

/-- A form of a two-operand arithmetic instruction: operation, width, destination, source. -/
structure AluForm where
  op : AluOp
  w : Width
  dst : Rm Reg8
  src : Source w

/-- The nine operand forms of ADD, ADC, SBB and SUB (41_arithmetic.md R250). -/
def aluForm : Instr → Option AluForm
  | .addRm8R8 d r => some ⟨.add, .b8, d, .rm (.reg r)⟩
  | .addRmR sz d r => some ⟨.add, sz.width, wide d, .rm (.reg (.lo r))⟩
  | .addR8Rm8 d m => some ⟨.add, .b8, .reg d, .rm m⟩
  | .addRRm sz d m => some ⟨.add, sz.width, .reg (.lo d), .rm (wide m)⟩
  | .addAlImm8 v => some ⟨.add, .b8, .reg (.lo .rax), .imm v⟩
  | .addAccImm v => some ⟨.add, v.size.width, .reg (.lo .rax), .imm (immZValue v)⟩
  | .addRm8Imm8 d v => some ⟨.add, .b8, d, .imm v⟩
  | .addRmImm d v => some ⟨.add, v.size.width, wide d, .imm (immZValue v)⟩
  | .addRmSimm8 sz d v => some ⟨.add, sz.width, wide d, .imm (simm8 sz.width v)⟩
  | .adcRm8R8 d r => some ⟨.adc, .b8, d, .rm (.reg r)⟩
  | .adcRmR sz d r => some ⟨.adc, sz.width, wide d, .rm (.reg (.lo r))⟩
  | .adcR8Rm8 d m => some ⟨.adc, .b8, .reg d, .rm m⟩
  | .adcRRm sz d m => some ⟨.adc, sz.width, .reg (.lo d), .rm (wide m)⟩
  | .adcAlImm8 v => some ⟨.adc, .b8, .reg (.lo .rax), .imm v⟩
  | .adcAccImm v => some ⟨.adc, v.size.width, .reg (.lo .rax), .imm (immZValue v)⟩
  | .adcRm8Imm8 d v => some ⟨.adc, .b8, d, .imm v⟩
  | .adcRmImm d v => some ⟨.adc, v.size.width, wide d, .imm (immZValue v)⟩
  | .adcRmSimm8 sz d v => some ⟨.adc, sz.width, wide d, .imm (simm8 sz.width v)⟩
  | .sbbRm8R8 d r => some ⟨.sbb, .b8, d, .rm (.reg r)⟩
  | .sbbRmR sz d r => some ⟨.sbb, sz.width, wide d, .rm (.reg (.lo r))⟩
  | .sbbR8Rm8 d m => some ⟨.sbb, .b8, .reg d, .rm m⟩
  | .sbbRRm sz d m => some ⟨.sbb, sz.width, .reg (.lo d), .rm (wide m)⟩
  | .sbbAlImm8 v => some ⟨.sbb, .b8, .reg (.lo .rax), .imm v⟩
  | .sbbAccImm v => some ⟨.sbb, v.size.width, .reg (.lo .rax), .imm (immZValue v)⟩
  | .sbbRm8Imm8 d v => some ⟨.sbb, .b8, d, .imm v⟩
  | .sbbRmImm d v => some ⟨.sbb, v.size.width, wide d, .imm (immZValue v)⟩
  | .sbbRmSimm8 sz d v => some ⟨.sbb, sz.width, wide d, .imm (simm8 sz.width v)⟩
  | .subRm8R8 d r => some ⟨.sub, .b8, d, .rm (.reg r)⟩
  | .subRmR sz d r => some ⟨.sub, sz.width, wide d, .rm (.reg (.lo r))⟩
  | .subR8Rm8 d m => some ⟨.sub, .b8, .reg d, .rm m⟩
  | .subRRm sz d m => some ⟨.sub, sz.width, .reg (.lo d), .rm (wide m)⟩
  | .subAlImm8 v => some ⟨.sub, .b8, .reg (.lo .rax), .imm v⟩
  | .subAccImm v => some ⟨.sub, v.size.width, .reg (.lo .rax), .imm (immZValue v)⟩
  | .subRm8Imm8 d v => some ⟨.sub, .b8, d, .imm v⟩
  | .subRmImm d v => some ⟨.sub, v.size.width, wide d, .imm (immZValue v)⟩
  | .subRmSimm8 sz d v => some ⟨.sub, sz.width, wide d, .imm (simm8 sz.width v)⟩
  | _ => none

/-- A form of MOV between general registers, memory and immediates: width, destination, source. -/
structure MoveForm where
  w : Width
  dst : Rm Reg8
  src : Source w

/-- The operand forms of MOV without segment registers (42_data_movement.md R291 to R294). -/
def moveForm : Instr → Option MoveForm
  | .movRm8R8 d r => some ⟨.b8, d, .rm (.reg r)⟩
  | .movRmR sz d r => some ⟨sz.width, wide d, .rm (.reg (.lo r))⟩
  | .movR8Rm8 d m => some ⟨.b8, .reg d, .rm m⟩
  | .movRRm sz d m => some ⟨sz.width, .reg (.lo d), .rm (wide m)⟩
  | .movR8Imm8 d v => some ⟨.b8, .reg d, .imm v⟩
  | .movRImm d v => some ⟨v.size.width, .reg (.lo d), .imm (immVValue v)⟩
  | .movRm8Imm8 d v => some ⟨.b8, d, .imm v⟩
  | .movRmImm d v => some ⟨v.size.width, wide d, .imm (immZValue v)⟩
  | _ => none

/-- The width and the source operand of MUL (41_arithmetic.md R256). -/
def mulForm : Instr → Option (Width × Rm Reg8)
  | .mulRm8 m => some (.b8, m)
  | .mulRm sz m => some (sz.width, wide m)
  | _ => none

/-- The width and the divisor of DIV (41_arithmetic.md R257). -/
def divForm : Instr → Option (Width × Rm Reg8)
  | .divRm8 m => some (.b8, m)
  | .divRm sz m => some (sz.width, wide m)
  | _ => none

/-- The width and the divisor of IDIV (41_arithmetic.md R258). -/
def idivForm : Instr → Option (Width × Rm Reg8)
  | .idivRm8 m => some (.b8, m)
  | .idivRm sz m => some (sz.width, wide m)
  | _ => none

/-- A form of a bit instruction: what it does to the bit, operand size, bit base, and the bit offset, a register or an
immediate. -/
structure BitForm where
  act : BitAction
  sz : OpSize
  base : Rm Gpr
  off : Gpr ⊕ Byte

/-- The operand forms of BT, BTS, BTR and BTC (41_arithmetic.md R259 to R263). -/
def bitForm : Instr → Option BitForm
  | .btRmR sz d r => some ⟨.test, sz, d, .inl r⟩
  | .btsRmR sz d r => some ⟨.set, sz, d, .inl r⟩
  | .btrRmR sz d r => some ⟨.reset, sz, d, .inl r⟩
  | .btcRmR sz d r => some ⟨.complement, sz, d, .inl r⟩
  | .btRmImm8 sz d v => some ⟨.test, sz, d, .inr v⟩
  | .btsRmImm8 sz d v => some ⟨.set, sz, d, .inr v⟩
  | .btrRmImm8 sz d v => some ⟨.reset, sz, d, .inr v⟩
  | .btcRmImm8 sz d v => some ⟨.complement, sz, d, .inr v⟩
  | _ => none

/-- The bit offset as a number (41_arithmetic.md R259). -/
def BitForm.offset (f : BitForm) (s : State) : Nat :=
  match f.off with
  | .inl r => (readReg f.sz.width (.lo r) s).toNat
  | .inr v => v.toNat

/-- The form addresses a bit string in memory (41_arithmetic.md R259). -/
def BitForm.isBitString (f : BitForm) : Prop := (∃ m, f.base = .mem m) ∧ ∃ r, f.off = .inl r

/-- The width and the source segment override of MOVS (44_string.md R341). -/
def movsForm : Instr → Option (Width × Option SegReg)
  | .movsb seg => some (.b8, seg)
  | .movs sz seg => some (sz.width, seg)
  | _ => none

/-- The width and the source segment override of CMPS (44_string.md R342). -/
def cmpsForm : Instr → Option (Width × Option SegReg)
  | .cmpsb seg => some (.b8, seg)
  | .cmps sz seg => some (sz.width, seg)
  | _ => none

/-- The width of SCAS (44_string.md R343). -/
def scasForm : Instr → Option Width
  | .scasb => some .b8
  | .scas sz => some sz.width
  | _ => none

/-- The width and the source segment override of LODS (44_string.md R344). -/
def lodsForm : Instr → Option (Width × Option SegReg)
  | .lodsb seg => some (.b8, seg)
  | .lods sz seg => some (sz.width, seg)
  | _ => none

/-- The width of STOS (44_string.md R345). -/
def stosForm : Instr → Option Width
  | .stosb => some .b8
  | .stos sz => some sz.width
  | _ => none

/-- A pointer register of a string instruction after it: moved by the element size `n`, up when DF is 0 and down when DF
is 1, at the address size (44_string.md R340). -/
def PointerMoved (r : Gpr) (n : Nat) (s t : State) : Prop :=
  t.gpr.get r =
    truncAddr s.launch.mode
      (if getFlag s.rflags .df then s.gpr.get r - BitVec.ofNat 64 n else s.gpr.get r + BitVec.ofNat 64 n)

/-! ## Stack slots and opcode bytes -/

/-- The address of the next stack slot of `n` bytes: `LA(SS, sp - n)` (40_flag_control.md R220). -/
def stackSlot (s : State) (n : Nat) : Quad :=
  linear s .ss (truncAddr s.launch.mode (s.gpr.get .rsp - BitVec.ofNat 64 n))

/-- The first opcode bytes of the admitted rows, 0F among them (30_encoding.md R180). -/
def oneByteOpcodes : List (Nat × Nat) :=
  [(0x00, 0x05), (0x0F, 0x15), (0x18, 0x1D), (0x28, 0x2D), (0x50, 0x5F), (0x70, 0x81), (0x83, 0x83), (0x88, 0x8C),
    (0x8E, 0x8E), (0x9C, 0x9F), (0xA4, 0xA7), (0xAA, 0xBF), (0xC6, 0xC7), (0xCF, 0xCF), (0xE0, 0xE2), (0xF5, 0xF9),
    (0xFC, 0xFD)]

/-- The second opcode bytes of the admitted rows after 0F (30_encoding.md R180). -/
def twoByteOpcodes : List (Nat × Nat) :=
  [(0x40, 0x4F), (0x80, 0x9F), (0xA2, 0xA3), (0xAB, 0xAB), (0xB3, 0xB3), (0xBA, 0xBB)]

/-- The legacy prefixes that the decoder takes: 66 and the segment overrides (30_encoding.md R163, R164). -/
def takenPrefix (b : Byte) : Bool := b == 0x66 || (segmentPrefix b).isSome

/-- What may stand between the legacy prefixes and the opcode: nothing or, in LONG64, one REX prefix (30_encoding.md
R167). -/
def RexPart (md : Mode) (rex : List Byte) : Prop := rex = [] ∨ md = .long64 ∧ ∃ r, isRex r = true ∧ rex = [r]

/-- Legacy prefixes without a repetition (30_encoding.md R164). -/
def PrefixesTaken (pre : List Byte) : Prop :=
  pre.all takenPrefix = true ∧ pre.count 0x66 ≤ 1 ∧ pre.countP (fun b => (segmentPrefix b).isSome) ≤ 1

/-! ## Undefined flags -/

/-- The flags that an instruction leaves undefined, in the order in which they are drawn (41_arithmetic.md R256 to R259,
70_reset_and_hazards.md R441; the order is the model's, log 10). -/
def undefinedFlags (i : Instr) : List Flag :=
  if (mulForm i).isSome then [.sf, .zf, .af, .pf]
  else if (bitForm i).isSome then [.of, .sf, .af, .pf]
  else if (divForm i).isSome || (idivForm i).isSome then [.of, .sf, .zf, .af, .pf, .cf]
  else []

/-! ## The invariant of the machine -/

/-- What holds of every state of a run: memory is in its canonical form and lies in the linear address space
(20_memory.md R101); the reserved bits of RFLAGS read as fixed and VM is 0 (10_state.md R52, R79, R74); and in PROT32 no
general register, `pc` or segment base is wider than 32 bits and R8 to R15 do not exist (10_state.md R27, R32, R37,
R47; log 12). -/
structure Inv (s : State) : Prop where
  memCanonical : Memory.wf s.mem = true
  memInSpace : ∀ c ∈ s.mem, c.1 < spaceSize s.launch.mode
  reserved : reservedOk s.rflags = true
  vmClear : getFlag s.rflags .vm = false
  gprNarrow : s.launch.mode = .prot32 → ∀ r, (s.gpr.get r).toNat < 2 ^ 32
  gprAbsent : s.launch.mode = .prot32 → ∀ r, r.isExtended = true → s.gpr.get r = 0
  pcNarrow : s.launch.mode = .prot32 → s.pc.toNat < 2 ^ 32
  baseNarrow : s.launch.mode = .prot32 → ∀ r, (s.segBase.get r).toNat < 2 ^ 32

end Sys2Proof.Machine
end

