-- ==== Sys2Proof/Certificates/Slice0/Obligations.lean ====
section
/-!
DEFINITION. The statements for the provers. Each docstring names the rules of spec/ that the statement formalises; what
rests on a choice of the model names the log entry.
-/

open Sys2Proof Sys2Proof.Machine

/-! ## Encoding -/

/-- Every well-formed instruction has an encoding of 1 to 15 bytes that decodes to it and to nothing after it
(30_encoding.md R160 to R181; log 30 for the choice among encodings). -/
def Obligations.DecodeEncodeRoundTrip : Prop :=
  ∀ (md : Mode) (i : Instr) (rest : List Byte), i.wellFormed md = true →
    decode md (encode md i ++ rest) = .ok (i, rest) ∧ 1 ≤ (encode md i).length ∧ (encode md i).length ≤ 15

/-- What the decoder answers is an instruction of the mode, read from 1 to 15 bytes at the head of the list, and the bytes
after those play no part (30_encoding.md R160, R181; 10_state.md R27, R33; 20_memory.md R113, R116). -/
def Obligations.DecodedInstructionIsWellFormed : Prop :=
  ∀ (md : Mode) (bs : List Byte) (i : Instr) (rest : List Byte), decode md bs = .ok (i, rest) →
    i.wellFormed md = true ∧
      ∃ pre, bs = pre ++ rest ∧ 1 ≤ pre.length ∧ pre.length ≤ 15 ∧ ∀ other, decode md (pre ++ other) = .ok (i, other)

/-- Words written out from the encoding tables decode to the instructions they stand for (30_encoding.md R163 to R180;
the examples of 41_arithmetic.md R252, R260, 42_data_movement.md R291, R292, 43_control_transfer.md R321, R322). -/
def Obligations.SampleWordsDecode : Prop :=
  decode .prot32 [0x83, 0xC0, 0x0E] = .ok (.addRmSimm8 .w32 (.reg .rax) 14, []) ∧
    decode .prot32 [0x26, 0x89, 0x03] = .ok (.movRmR .w32 (.mem ⟨some .es, .reg .rbx, none, .none⟩) .rax, []) ∧
    decode .prot32 [0x8B, 0x44, 0x8B, 0x04] =
      .ok (.movRRm .w32 .rax (.mem ⟨none, .reg .rbx, some (.rcx, .x4), .d8 4⟩), []) ∧
    decode .prot32 [0x0F, 0xBA, 0xE0, 0x09] = .ok (.btRmImm8 .w32 (.reg .rax) 9, []) ∧
    decode .prot32 [0x75, 0xF9] = .ok (.jccRel8 .ne 0xF9, []) ∧
    decode .long64 [0x0F, 0x84, 0xFA, 0xFF, 0xFF, 0xFF] = .ok (.jccRel32 .e 0xFFFFFFFA, []) ∧
    decode .long64 [0x4C, 0x8B, 0x05, 0x10, 0x00, 0x00, 0x00] =
      .ok (.movRRm .w64 .r8 (.mem ⟨none, .rip, none, .d32 0x10⟩), []) ∧
    decode .prot32 [0x66, 0xAB] = .ok (.stos .w16, []) ∧ decode .prot32 [0x9D] = .ok (.popf .w32, []) ∧
    decode .prot32 [0xE2, 0xFE] = .ok (.loop 0xFE, [])

/-- A byte register field of 4 to 7 names AH, CH, DH, BH without a REX prefix and SPL, BPL, SIL, DIL with any REX prefix
(10_state.md R33, 30_encoding.md R171): the move of an immediate byte into register number `n`. -/
def Obligations.RexChangesByteRegisters : Prop :=
  ∀ (n : Fin 4) (imm : Byte) (rest : List Byte) (rex : Byte), isRex rex = true → rex.getLsbD 0 = false →
    decode .prot32 (BitVec.ofNat 8 (0xB4 + n.val) :: imm :: rest) =
        .ok (.movR8Imm8 (.hi ([HiByte.ah, .ch, .dh, .bh].get n)) imm, rest) ∧
      decode .long64 (BitVec.ofNat 8 (0xB4 + n.val) :: imm :: rest) =
        .ok (.movR8Imm8 (.hi ([HiByte.ah, .ch, .dh, .bh].get n)) imm, rest) ∧
      decode .long64 (rex :: BitVec.ofNat 8 (0xB4 + n.val) :: imm :: rest) =
        .ok (.movR8Imm8 (.lo ([Gpr.rsp, .rbp, .rsi, .rdi].get n)) imm, rest)

/-- The refused prefixes and combinations of prefixes (30_encoding.md R164), wherever they stand among the legacy prefixes
66 and segment override: 67, F0, F2 and F3; a prefix 66 or a segment override twice; a REX prefix that a legacy prefix or
another REX follows; 66 on Jcc, LOOP, LOOPE and LOOPNE, with other prefixes around it and with or without REX. -/
def Obligations.PrefixesRefused : Prop :=
  ∀ (md : Mode) (pre rex rest : List Byte), pre.all takenPrefix = true → RexPart md rex →
    (∀ b, b = 0x67 ∨ b = 0xF0 ∨ b = 0xF2 ∨ b = 0xF3 → decode md (pre ++ b :: rest) = .error .prefixRefused) ∧
      (2 ≤ pre.count 0x66 ∨ 2 ≤ pre.countP (fun b => (segmentPrefix b).isSome) →
        decode md (pre ++ rest) = .error .prefixRefused) ∧
      (∀ b, rex ≠ [] → isLegacyPrefix b = true ∨ isRex b = true →
        decode md (pre ++ rex ++ b :: rest) = .error .prefixRefused) ∧
      ((0x66 : Byte) ∈ pre → ∀ b : Byte,
        ((0x70 ≤ b.toNat ∧ b.toNat ≤ 0x7F) ∨ b = 0xE0 ∨ b = 0xE1 ∨ b = 0xE2 →
          decode md (pre ++ rex ++ b :: rest) = .error .prefixRefused) ∧
        (0x80 ≤ b.toNat ∧ b.toNat ≤ 0x8F →
          decode md (pre ++ rex ++ 0x0F :: b :: rest) = .error .prefixRefused))

/-- An opcode byte, or a ModRM `reg` extension, that the admitted table does not list is refused, not `#UD` and not a
neighbour's meaning, whatever legacy prefixes without repetition, and in LONG64 whatever REX prefix, stand before it; so
are the bytes 40 to 4F in PROT32 (30_encoding.md R183, R167). -/
def Obligations.UnlistedOpcodesRefused : Prop :=
  ∀ (md : Mode) (pre rex rest : List Byte), PrefixesTaken pre → RexPart md rex →
    (∀ op : Byte, isLegacyPrefix op = false → (md = .long64 → isRex op = false) →
      (∀ r ∈ oneByteOpcodes, op.toNat < r.1 ∨ r.2 < op.toNat) →
      decode md (pre ++ rex ++ op :: rest) = .error .opcodeRefused) ∧
      (∀ op : Byte, (∀ r ∈ twoByteOpcodes, op.toNat < r.1 ∨ r.2 < op.toNat) →
        decode md (pre ++ rex ++ 0x0F :: op :: rest) = .error .opcodeRefused) ∧
      ∀ m : Byte,
        ((m.extractLsb' 3 3).toNat ∉ [0, 2, 3, 5] →
          ∀ op ∈ [0x80#8, 0x81#8, 0x83#8], decode md (pre ++ rex ++ op :: m :: rest) = .error .opcodeRefused) ∧
        ((m.extractLsb' 3 3).toNat ≠ 0 →
          ∀ op ∈ [0xC6#8, 0xC7#8], decode md (pre ++ rex ++ op :: m :: rest) = .error .opcodeRefused) ∧
        ((m.extractLsb' 3 3).toNat ∉ [4, 6, 7] →
          ∀ op ∈ [0xF6#8, 0xF7#8], decode md (pre ++ rex ++ op :: m :: rest) = .error .opcodeRefused) ∧
        ((m.extractLsb' 3 3).toNat ∉ [4, 5, 6, 7] →
          decode md (pre ++ rex ++ 0x0F :: 0xBA :: m :: rest) = .error .opcodeRefused)

/-! ## Steps -/

/-- A step runs the decoded instruction: exec in the state whose `pc_next` is `pc` plus the length, followed by
single-step (10_state.md R39; 60_exceptions.md R388, R408; log 18). -/
def Obligations.StepRunsDecodedInstruction : Prop :=
  ∀ (s : State) (i : Instr) (rest : List Byte), s.pc ≠ s.launch.endAddr →
    decode s.launch.mode (fetchWindow s) = .ok (i, rest) →
    step s =
      singleStep (getFlag s.rflags .tf)
        (exec i
          { s with
            pcNext :=
              truncAddr s.launch.mode (s.pc + BitVec.ofNat 64 ((fetchWindow s).length - rest.length)) })

/-- Where the encoding of a well-formed instruction stands at `LA(CS, pc)`, admitted for fetch, the step runs that
instruction, whatever bytes follow it (10_state.md R37, R39, R41; 30_encoding.md R160, R181). -/
def Obligations.StepRunsEncodedInstruction : Prop :=
  ∀ (s : State) (i : Instr), s.pc ≠ s.launch.endAddr → i.wellFormed s.launch.mode = true →
    (∀ k (h : k < (encode s.launch.mode i).length),
      admits s .fetch ((linear s .cs s.pc).toNat + k) = true ∧
        Memory.read s.mem ((linear s .cs s.pc).toNat + k) = (encode s.launch.mode i)[k]) →
    step s =
      singleStep (getFlag s.rflags .tf)
        (exec i
          { s with
            pcNext := truncAddr s.launch.mode (s.pc + BitVec.ofNat 64 (encode s.launch.mode i).length) })

/-- A run that has reached END stays as it is, whatever stands there (70_reset_and_hazards.md R432; that a step then answers
the same state is the model's choice, log 8); elsewhere a step whose first byte is not admitted for fetch is refused
(20_memory.md R126). -/
def Obligations.RunEndsAndFetchRefusal : Prop :=
  ∀ s : State, (s.pc = s.launch.endAddr → step s = .next s) ∧
    (s.pc ≠ s.launch.endAddr → admits s .fetch (linear s .cs s.pc).toNat = false →
      step s = .refused .outsideLaunchMemory)

/-- Single-step: with TF = 1 no step of an unfinished run answers a next state; an instruction that completes ends in `#DB`
with the state after it, and a fault or refusal of the instruction is reported as its own (60_exceptions.md R408). -/
def Obligations.SingleStepTraps : Prop :=
  ∀ (s : State) (i : Instr) (len : Nat), s.pc ≠ s.launch.endAddr → getFlag s.rflags .tf = true →
    (∀ t, step s ≠ .next t) ∧
      (fetchDecode s = .ok (i, len) →
        (∀ t, exec i (beginInstr s len) = .next t → step s = .fault (.debug t)) ∧
          (∀ f, exec i (beginInstr s len) = .fault f → step s = .fault f) ∧
          ∀ r, exec i (beginInstr s len) = .refused r → step s = .refused r)

/-! ## Reset -/

/-- After RESET or INIT EFLAGS is 00000002H, every flag clear (10_state.md R51). -/
def Obligations.ResetFlags : Prop :=
  State.reset.rflags.setWidth 32 = 0x00000002#32 ∧ State.reset.rflags.getLsbD 1 = true ∧
    (∀ f : Flag, getFlag State.reset.rflags f = false) ∧ iopl State.reset.rflags = 0

/-- The machine right after reset satisfies the invariant and is a launch state, and every launch state satisfies the
invariant (70_reset_and_hazards.md R431; 10_state.md R51, R52). The reset values other than that of EFLAGS are the model's
choice (log 1 to log 4, log 12); how a launch state is read is log 35. -/
def Obligations.ResetSatisfiesInv : Prop :=
  Inv State.reset ∧ isLaunch State.reset ∧ ∀ s : State, isLaunch s → Inv s

/-! ## Rules of the whole machine -/

/-- Every step keeps the invariant: canonical memory inside the address space, fixed reserved flag bits, VM clear, and in
PROT32 no register wider than 32 bits (10_state.md R27, R32, R37, R52, R74, R79; 20_memory.md R101; log 12). -/
def Obligations.StepKeepsInv : Prop :=
  ∀ s t : State, Inv s → Leads s t → Inv t

/-- No step changes a byte that is admitted for fetch, and every byte that a step changes is admitted for write
(20_memory.md R126, R135; 70_reset_and_hazards.md R445). -/
def Obligations.StoresStayInWritableMemory : Prop :=
  ∀ s t : State, Memory.wf s.mem = true → Leads s t → ∀ x, Memory.read t.mem x ≠ Memory.read s.mem x →
    admits s .write x = true ∧ admits s .fetch x = false

/-- No step changes a launch parameter (mode, CPL and launch memory among them), a system register, an x87, MMX or XMM
register, or the selector or base of CS (00_scope.md R7; 10_state.md R46, R92; 45_named_only.md R363; 60_exceptions.md
R402, R403). -/
def Obligations.StepKeepsModeAndSystem : Prop :=
  ∀ s t : State, Leads s t → SystemSame s t ∧ t.selector.cs = s.selector.cs ∧ t.segBase.cs = s.segBase.cs

/-- The control, debug, system-table and model-specific registers and the x87, MMX and XMM registers are read by no step,
except the AM bit of CR0: with other values of them a step answers the same, with those values carried along
(45_named_only.md R363; 60_exceptions.md R405, R406, R407). -/
def Obligations.StepReadsNoSystemRegisterButAm : Prop :=
  ∀ (s : State) (sys : SysRegs) (fp : FpRegs), sys.cr0.getLsbD 18 = s.sys.cr0.getLsbD 18 →
    step (withSystem sys fp s) = mapState (withSystem sys fp) (step s)

/-- Who may change a flag: only POPF changes anything but the six status flags and DF; only STD and CLD change DF beside it;
IOPL changes only at CPL 0, IF only when CPL ≤ IOPL, and VM never; VIF and VIP are never set (10_state.md R64, R67, R71,
R74; 40_flag_control.md R230; 60_exceptions.md R401). -/
def Obligations.FlagsChangeOnlyAsAllowed : Prop :=
  ∀ (i : Instr) (s t : State), exec i s = .next t →
    ((∀ sz, i ≠ .popf sz) → FlagsSameBut [.of, .sf, .zf, .af, .pf, .cf, .df] s t) ∧
      ((∀ sz, i ≠ .popf sz) → i ≠ .std → i ≠ .cld → getFlag t.rflags .df = getFlag s.rflags .df) ∧
      (s.launch.cpl ≠ 0 → iopl t.rflags = iopl s.rflags) ∧
      (iopl s.rflags < s.launch.cpl → getFlag t.rflags .intf = getFlag s.rflags .intf) ∧
      getFlag t.rflags .vm = getFlag s.rflags .vm ∧
      (getFlag t.rflags .vif = true → getFlag s.rflags .vif = true) ∧
      (getFlag t.rflags .vip = true → getFlag s.rflags .vip = true)

/-- Which instruction raises which fault: `#DE` only DIV and IDIV; `#UD` exactly the load of CS, a segment field of 6 or 7,
and LAHF and SAHF in LONG64 without LAHF64; `#NP`, `#SS` and `#GP` only MOV Sreg; `#PF` nothing; `#DB` no instruction of
itself (60_exceptions.md R382, R383, R385, R387; 30_encoding.md R182). -/
def Obligations.FaultSources : Prop :=
  ∀ (i : Instr) (s : State),
    (exec i s = .fault .divideError → (divForm i).isSome = true ∨ (idivForm i).isSome = true) ∧
      (exec i s = .fault .invalidOpcode ↔
        (∃ m, i = .movSregRm (.sreg .cs) m ∨ i = .movSregRm .reserved6 m ∨ i = .movSregRm .reserved7 m) ∨
          (∃ sz m, i = .movRmSreg sz m .reserved6 ∨ i = .movRmSreg sz m .reserved7) ∨
          ((i = .lahf ∨ i = .sahf) ∧ s.launch.mode = .long64 ∧ s.launch.lahf64 = false)) ∧
      (∀ c, exec i s = .fault (.segmentNotPresent c) ∨ exec i s = .fault (.stackFault c) ∨
        exec i s = .fault (.generalProtection c) → ∃ r m, i = .movSregRm (.sreg r) m ∧ r ≠ .cs) ∧
      (∀ c, exec i s ≠ .fault (.pageFault c)) ∧ ∀ t, exec i s ≠ .fault (.debug t)

/-- `#AC` is raised only with CR0.AM = 1, AC = 1 and CPL = 3, by any instruction and by any step (20_memory.md R122,
60_exceptions.md R386). -/
def Obligations.AlignmentFaultOnlyWhenEnabled : Prop :=
  ∀ (i : Instr) (s : State), exec i s = .fault .alignmentCheck ∨ step s = .fault .alignmentCheck →
    s.sys.cr0.getLsbD 18 = true ∧ getFlag s.rflags .ac = true ∧ s.launch.cpl = 3

/-- Every flag that a completed instruction leaves undefined holds a free bit of its own: the `k`-th of them the free bit
number `draws + k` of the state before, and the counter then moves past them all, so that no two flags and no two
executions of a run share one (70_reset_and_hazards.md R441; 41_arithmetic.md R256 to R259). VIF and VIP after POPFD and
POPFQ are their old values and-ed with a free bit each (40_flag_control.md R230). No other instruction draws one. The
counter and the order are the model's own (log 10, log 11). -/
def Obligations.FreeBitsDrawn : Prop :=
  ∀ (i : Instr) (s t : State), exec i s = .next t →
    (∀ k (h : k < (undefinedFlags i).length),
      getFlag t.rflags (undefinedFlags i)[k] = Config.freeBit (s.draws + k)) ∧
      (i = .popf .w32 ∨ i = .popf .w64 →
        getFlag t.rflags .vif = (getFlag s.rflags .vif && Config.freeBit s.draws) ∧
          getFlag t.rflags .vip = (getFlag s.rflags .vip && Config.freeBit (s.draws + 1))) ∧
      t.draws = s.draws + (undefinedFlags i).length + (if i = .popf .w32 ∨ i = .popf .w64 then 2 else 0)

/-! ## Registers -/

/-- The partial-write rules: 64 bits replace the register; 32 bits give the low half and, in LONG64, are zero-extended; 16
and 8 bits and the legacy high bytes leave the other bits; and no other register changes (10_state.md R26, R29, R30, R31;
in PROT32 R32, which the spec marks derived, and log 12 for the stored upper half). -/
def Obligations.PartialRegisterWrites : Prop :=
  ∀ (s : State) (r q : Gpr) (h : HiByte),
    (∀ v : BitVec 64, (writeReg .b64 (.lo r) v s).gpr.get r = v) ∧
      (∀ v : BitVec 32, ((writeReg .b32 (.lo r) v s).gpr.get r).setWidth 32 = v ∧
        (s.launch.mode = .long64 → (writeReg .b32 (.lo r) v s).gpr.get r = v.setWidth 64)) ∧
      (∀ v : BitVec 16, (writeReg .b16 (.lo r) v s).gpr.get r = (s.gpr.get r &&& ~~~0xFFFF#64) ||| v.setWidth 64) ∧
      (∀ v : BitVec 8, (writeReg .b8 (.lo r) v s).gpr.get r = (s.gpr.get r &&& ~~~0xFF#64) ||| v.setWidth 64) ∧
      (∀ v : BitVec 8, (writeReg .b8 (.hi h) v s).gpr.get (highGpr h) =
        (s.gpr.get (highGpr h) &&& ~~~0xFF00#64) ||| (v.setWidth 64 <<< 8)) ∧
      (∀ (w : Width) (v : BitVec w.bits), q ≠ r → (writeReg w (.lo r) v s).gpr.get q = s.gpr.get q) ∧
      ∀ v : BitVec 8, q ≠ highGpr h → (writeReg .b8 (.hi h) v s).gpr.get q = s.gpr.get q

/-! ## Memory and addresses -/

/-- A store and a read of 1, 2, 4 or 8 bytes: the bytes lie least significant first, nothing else changes, memory keeps its
canonical form, and the stored value is read back (20_memory.md R120, R127, R132). -/
def Obligations.MemoryIsLittleEndian : Prop :=
  ∀ (s t : State) (a : Quad) (n : Nat) (v : BitVec (8 * n)), Memory.wf s.mem = true → memWrite s a n v = .ok t →
    Stored a n v s t ∧ Memory.wf t.mem = true ∧ (Admitted s .read a n → memRead t a n = .ok v) ∧
      ∀ k < n, Admitted s .read (a + BitVec.ofNat 64 k) 1 →
        memRead t (a + BitVec.ofNat 64 k) 1 = .ok (v.extractLsb' (8 * k) 8)

/-- Memories in the canonical form that read the same everywhere are the same data (log 3). -/
def Obligations.CanonicalMemoryIsUnique : Prop :=
  ∀ m m' : Memory, Memory.wf m = true → Memory.wf m' = true → (∀ x, Memory.read m x = Memory.read m' x) → m = m'

/-- The outcome of a data access: a read is refused outside the launch memory, then checked for alignment; a write is
refused on code and outside the launch memory, then checked for alignment; nothing else stops it (20_memory.md R122, R126,
R135; 60_exceptions.md R386, R388). Which refusal a store reports that meets both is the model's choice (log 13). -/
def Obligations.AccessOutcomes : Prop :=
  ∀ (s : State) (a : Quad) (n : Nat) (v : BitVec (8 * n)),
    memRead s a n =
        (if ∃ j < n, admits s .read (a.toNat + j) = false then .error (.refusal .outsideLaunchMemory)
        else if AlignmentChecked s ∧ (n = 2 ∨ n = 4 ∨ n = 8) ∧ a.toNat % n ≠ 0 then .error (.fault .alignmentCheck)
        else .ok (memValue s a n)) ∧
      memWrite s a n v =
        (if ∃ j < n, admits s .fetch (a.toNat + j) = true then .error (.refusal .writeToCode)
        else if ∃ j < n, admits s .write (a.toNat + j) = false then .error (.refusal .outsideLaunchMemory)
        else if AlignmentChecked s ∧ (n = 2 ∨ n = 4 ∨ n = 8) ∧ a.toNat % n ≠ 0 then .error (.fault .alignmentCheck)
        else .ok (storeBytes s a n v))

/-- The effective address: base plus index times factor plus sign-extended displacement, each of them there or not, modulo
2^32 on 32-bit register values in PROT32, modulo 2^64 in LONG64; with RIP as the base, `pc_next` plus displacement
(20_memory.md R112, R114, R115, R116; 30_encoding.md R172, R174). -/
def Obligations.EffectiveAddressSum : Prop :=
  ∀ (s : State) (seg : Option SegReg) (b x : Gpr) (sc : Scale) (d : BitVec 32) (e : BitVec 8),
    let md := s.launch.mode
    let val (r : Gpr) : Int := ((s.gpr.get r).toNat % 2 ^ md.addrBits : Nat)
    let factor : Int := 2 ^ sc.num.toNat
    let ea (base : Base) (index : Option (Gpr × Scale)) (disp : Disp) : Int :=
      ((effectiveAddr s ⟨seg, base, index, disp⟩).toNat : Int)
    ea (.reg b) none .none = val b ∧
      ea (.reg b) none (.d8 e) = (val b + e.toInt) % 2 ^ md.addrBits ∧
      ea (.reg b) none (.d32 d) = (val b + d.toInt) % 2 ^ md.addrBits ∧
      ea (.reg b) (some (x, sc)) .none = (val b + val x * factor) % 2 ^ md.addrBits ∧
      ea (.reg b) (some (x, sc)) (.d8 e) = (val b + val x * factor + e.toInt) % 2 ^ md.addrBits ∧
      ea (.reg b) (some (x, sc)) (.d32 d) = (val b + val x * factor + d.toInt) % 2 ^ md.addrBits ∧
      ea .absent (some (x, sc)) (.d32 d) = (val x * factor + d.toInt) % 2 ^ md.addrBits ∧
      ea .absent none (.d32 d) = d.toInt % 2 ^ md.addrBits ∧
      ea .rip none (.d32 d) = ((s.pcNext.toNat : Int) + d.toInt) % 2 ^ md.addrBits

/-- The segment of a memory operand: its override if it has one; else SS when ESP/RSP or EBP/RBP is the base, and DS in all
other cases, also when EBP is only the index (20_memory.md R113, R117, R118; 30_encoding.md R172, R173). -/
def Obligations.OperandSegments : Prop :=
  ∀ (m : Mem),
    (∀ r, m.seg = some r → operandSegment m = r) ∧
      (m.seg = none → (m.base = .reg .rsp ∨ m.base = .reg .rbp) → operandSegment m = .ss) ∧
      (m.seg = none → m.base ≠ .reg .rsp → m.base ≠ .reg .rbp → operandSegment m = .ds)

/-- The linear address: in LONG64 the offset itself for CS, DS, ES and SS and base plus offset modulo 2^64 for FS and GS; in
PROT32 base plus offset modulo 2^32 (20_memory.md R108, R110; 10_state.md R48). -/
def Obligations.LinearAddresses : Prop :=
  ∀ (s : State) (r : SegReg) (off : Quad),
    (s.launch.mode = .long64 → r ≠ .fs → r ≠ .gs → linear s r off = off) ∧
      (s.launch.mode = .long64 → r = .fs ∨ r = .gs →
        (linear s r off).toNat = ((s.segBase.get r).toNat + off.toNat) % 2 ^ 64) ∧
      (s.launch.mode = .prot32 → (linear s r off).toNat = ((s.segBase.get r).toNat + off.toNat) % 2 ^ 32)

/-! ## Arithmetic -/

/-- The flags of an addition are what the six flags mean: carry out of the top bit, carry out of bit 3, a signed sum that
does not fit, the sign bit, zero, and even parity of the low byte (10_state.md R58 to R63; 41_arithmetic.md R251). -/
def Obligations.AdditionFlagsMean : Prop :=
  ∀ (w : Nat) (a b : BitVec w) (c : Bool), 0 < w →
    let sum := addFlags a b c
    sum.1.toNat = (a.toNat + b.toNat + c.toNat) % 2 ^ w ∧
      (sum.2.cf = true ↔ 2 ^ w ≤ a.toNat + b.toNat + c.toNat) ∧
      (sum.2.af = true ↔ 16 ≤ a.toNat % 16 + b.toNat % 16 + c.toNat) ∧
      (sum.2.of = true ↔
        a.toInt + b.toInt + (c.toNat : Int) < -2 ^ (w - 1) ∨ 2 ^ (w - 1) ≤ a.toInt + b.toInt + (c.toNat : Int)) ∧
      sum.2.sf = sum.1.getLsbD (w - 1) ∧ (sum.2.zf = true ↔ sum.1.toNat = 0) ∧
      (sum.2.pf = true ↔ ((List.range 8).countP fun k => sum.1.getLsbD k) % 2 = 0)

/-- The flags of a subtraction are what the six flags mean: borrow, borrow out of bit 3, a signed difference that does not
fit, the sign bit, zero, and even parity of the low byte (10_state.md R58 to R63; 41_arithmetic.md R251). -/
def Obligations.SubtractionFlagsMean : Prop :=
  ∀ (w : Nat) (a b : BitVec w) (c : Bool), 0 < w →
    let diff := subFlags a b c
    (diff.1.toNat : Int) = ((a.toNat : Int) - b.toNat - c.toNat) % 2 ^ w ∧
      (diff.2.cf = true ↔ a.toNat < b.toNat + c.toNat) ∧
      (diff.2.af = true ↔ a.toNat % 16 < b.toNat % 16 + c.toNat) ∧
      (diff.2.of = true ↔
        a.toInt - b.toInt - (c.toNat : Int) < -2 ^ (w - 1) ∨ 2 ^ (w - 1) ≤ a.toInt - b.toInt - (c.toNat : Int)) ∧
      diff.2.sf = diff.1.getLsbD (w - 1) ∧ (diff.2.zf = true ↔ diff.1.toNat = 0) ∧
      (diff.2.pf = true ↔ ((List.range 8).countP fun k => diff.1.getLsbD k) % 2 = 0)

/-- ADD and ADC in all nine forms each complete when their operands can be accessed: the destination takes the sum (with CF
for ADC), the six status flags those of the sum, and nothing else changes (41_arithmetic.md R250, R252, R253). -/
def Obligations.AddAndAdcComplete : Prop :=
  ∀ (i : Instr) (f : AluForm) (s : State), aluForm i = some f → f.op = .add ∨ f.op = .adc →
    Memory.wf s.mem = true → RmReadable f.w f.dst s → f.src.readable s → RmWritable f.w f.dst s →
    ∃ t, exec i s = .next t ∧
      (let sum := addFlags (rmValue f.w f.dst s) (f.src.value s) (f.op == .adc && getFlag s.rflags .cf)
      RmWritten f.w f.dst sum.1 s t ∧ StatusAre sum.2 t) ∧
      FlagsSameBut statusFlags s t ∧ SegmentsSame s t ∧ SystemSame s t ∧ t.pc = s.pcNext

/-- SUB and SBB in all nine forms each complete when their operands can be accessed: the destination takes the difference
(less CF for SBB), the six status flags those of the difference, and nothing else changes (41_arithmetic.md R250, R254,
R255). -/
def Obligations.SubAndSbbComplete : Prop :=
  ∀ (i : Instr) (f : AluForm) (s : State), aluForm i = some f → f.op = .sub ∨ f.op = .sbb →
    Memory.wf s.mem = true → RmReadable f.w f.dst s → f.src.readable s → RmWritable f.w f.dst s →
    ∃ t, exec i s = .next t ∧
      (let diff := subFlags (rmValue f.w f.dst s) (f.src.value s) (f.op == .sbb && getFlag s.rflags .cf)
      RmWritten f.w f.dst diff.1 s t ∧ StatusAre diff.2 t) ∧
      FlagsSameBut statusFlags s t ∧ SegmentsSame s t ∧ SystemSame s t ∧ t.pc = s.pcNext

/-- An arithmetic form whose memory operand is admitted but not aligned, with alignment checking on, raises `#AC`
(20_memory.md R122; 41_arithmetic.md R252 to R255). -/
def Obligations.ArithmeticAlignmentTrap : Prop :=
  ∀ (i : Instr) (f : AluForm) (s : State) (m : Mem), aluForm i = some f → f.dst = .mem m ∨ f.src = .rm (.mem m) →
    Admitted s .read (operandAddr s m) f.w.bytes → ¬ AlignedFor s (operandAddr s m) f.w.bytes →
    exec i s = .fault .alignmentCheck

/-- MUL completes when its source can be read: AX, DX:AX, EDX:EAX or RDX:RAX takes the whole product, CF and OF say whether
its upper half is non-zero, SF, ZF, AF and PF are left open, and nothing else changes (41_arithmetic.md R256). -/
def Obligations.MulCompletes : Prop :=
  ∀ (i : Instr) (w : Width) (src : Rm Reg8) (s : State), mulForm i = some (w, src) → RmReadable w src s →
    ∃ t, exec i s = .next t ∧
      (readPair w t).toNat = (readReg w (.lo .rax) s).toNat * (rmValue w src s).toNat ∧
      t.gpr = (writePair w (readReg w (highHalf w) t) (readReg w (.lo .rax) t) s).gpr ∧
      GprSameBut [.rax, .rdx] s t ∧ (w = .b8 → t.gpr.get .rdx = s.gpr.get .rdx) ∧
      getFlag t.rflags .cf = decide (2 ^ w.bits ≤ (readReg w (.lo .rax) s).toNat * (rmValue w src s).toNat) ∧
      getFlag t.rflags .of = getFlag t.rflags .cf ∧
      FlagsSameBut statusFlags s t ∧ MemSame s t ∧ SegmentsSame s t ∧ SystemSame s t ∧ t.pc = s.pcNext

/-- DIV: with a readable divisor it raises `#DE` exactly when the divisor is 0 or the quotient does not fit; otherwise it
completes with quotient and remainder in their registers, the six status flags left open, and nothing else changed
(41_arithmetic.md R257, 60_exceptions.md R383). -/
def Obligations.DivCompletesOrFaults : Prop :=
  ∀ (i : Instr) (w : Width) (src : Rm Reg8) (s : State), divForm i = some (w, src) → RmReadable w src s →
    let n := (readPair w s).toNat
    let d := (rmValue w src s).toNat
    (d = 0 ∨ 2 ^ w.bits ≤ n / d → exec i s = .fault .divideError) ∧
      (d ≠ 0 → n / d < 2 ^ w.bits →
        ∃ t, exec i s = .next t ∧
          (readReg w (.lo .rax) t).toNat = n / d ∧ (readReg w (highHalf w) t).toNat = n % d ∧
          t.gpr = (writePair w (readReg w (highHalf w) t) (readReg w (.lo .rax) t) s).gpr ∧
          GprSameBut [.rax, .rdx] s t ∧ (w = .b8 → t.gpr.get .rdx = s.gpr.get .rdx) ∧
          FlagsSameBut statusFlags s t ∧ MemSame s t ∧ SegmentsSame s t ∧ SystemSame s t ∧ t.pc = s.pcNext)

/-- IDIV: with a readable divisor it raises `#DE` exactly when the divisor is 0 or the quotient, truncated toward zero, does
not fit; otherwise it completes with quotient and remainder in their registers, the remainder making up the dividend and
having its sign, the six status flags left open, and nothing else changed (41_arithmetic.md R258, 60_exceptions.md
R383). -/
def Obligations.IdivCompletesOrFaults : Prop :=
  ∀ (i : Instr) (w : Width) (src : Rm Reg8) (s : State), idivForm i = some (w, src) → RmReadable w src s →
    let n := (readPair w s).toInt
    let d := (rmValue w src s).toInt
    let q := n.tdiv d
    (d = 0 ∨ q < -2 ^ (w.bits - 1) ∨ 2 ^ (w.bits - 1) - 1 < q → exec i s = .fault .divideError) ∧
      (d ≠ 0 → -2 ^ (w.bits - 1) ≤ q → q ≤ 2 ^ (w.bits - 1) - 1 →
        ∃ t, exec i s = .next t ∧
          (readReg w (.lo .rax) t).toInt = q ∧ (readReg w (highHalf w) t).toInt = n - q * d ∧
          (n - q * d ≠ 0 → (n - q * d < 0 ↔ n < 0)) ∧
          t.gpr = (writePair w (readReg w (highHalf w) t) (readReg w (.lo .rax) t) s).gpr ∧
          GprSameBut [.rax, .rdx] s t ∧ (w = .b8 → t.gpr.get .rdx = s.gpr.get .rdx) ∧
          FlagsSameBut statusFlags s t ∧ MemSame s t ∧ SegmentsSame s t ∧ SystemSame s t ∧ t.pc = s.pcNext)

/-- BT, BTS, BTR and BTC, with a register base or an immediate offset, complete when their base can be accessed: CF takes
the selected bit of the old base; BT writes no base, the others write it back with that bit set, reset or complemented; OF,
SF, AF and PF are left open; ZF and everything else is unchanged (41_arithmetic.md R259 to R263). -/
def Obligations.BitInstructionsComplete : Prop :=
  ∀ (i : Instr) (f : BitForm) (s : State), bitForm i = some f → ¬ f.isBitString → Memory.wf s.mem = true →
    RmReadable f.sz.width (wide f.base) s → (f.act ≠ .test → RmWritable f.sz.width (wide f.base) s) →
    let w := f.sz.width
    let old := rmValue w (wide f.base) s
    let k := f.offset s % w.bits
    ∃ t, exec i s = .next t ∧ getFlag t.rflags .cf = old.getLsbD k ∧
      (f.act = .test → t.gpr = s.gpr ∧ MemSame s t) ∧
      (f.act ≠ .test → ∃ new : BitVec w.bits, RmWritten w (wide f.base) new s t ∧
        (∀ j, j ≠ k → new.getLsbD j = old.getLsbD j) ∧
        (f.act = .set → new.getLsbD k = true) ∧ (f.act = .reset → new.getLsbD k = false) ∧
        (f.act = .complement → new.getLsbD k = !old.getLsbD k)) ∧
      FlagsSameBut [.of, .sf, .af, .pf, .cf] s t ∧ SegmentsSame s t ∧ SystemSame s t ∧ t.pc = s.pcNext

/-- A bit instruction with a memory base and a register offset is refused by name (41_arithmetic.md R259; log 20). -/
def Obligations.BitStringFormRefused : Prop :=
  ∀ (i : Instr) (f : BitForm) (s : State), bitForm i = some f → f.isBitString →
    exec i s = .refused .bitStringMemoryForm

/-! ## Data movement -/

/-- MOV between general registers, memory and immediates completes when its operands can be accessed: the destination takes
the source value, and no flag and nothing else changes (42_data_movement.md R290 to R294). -/
def Obligations.MovCompletes : Prop :=
  ∀ (i : Instr) (f : MoveForm) (s : State), moveForm i = some f → Memory.wf s.mem = true →
    f.src.readable s → RmWritable f.w f.dst s →
    ∃ t, exec i s = .next t ∧ RmWritten f.w f.dst (f.src.value s) s t ∧
      t.rflags = s.rflags ∧ SegmentsSame s t ∧ SystemSame s t ∧ t.pc = s.pcNext

/-- MOV r/m, Sreg completes: a register takes the selector zero-extended to the operand size; memory takes its two bytes
whatever the operand size; nothing else changes (42_data_movement.md R295). -/
def Obligations.MovFromSegmentCompletes : Prop :=
  ∀ (sz : OpSize) (r : SegReg) (s : State),
    (∀ d : Gpr, ∃ t, exec (.movRmSreg sz (.reg d) (.sreg r)) s = .next t ∧
      RegWritten sz.width (.lo d) ((s.selector.get r).setWidth sz.width.bits) s t ∧ MemSame s t ∧
      t.rflags = s.rflags ∧ SegmentsSame s t ∧ SystemSame s t ∧ t.pc = s.pcNext) ∧
      ∀ m : Mem, Memory.wf s.mem = true → Writable s (operandAddr s m) 2 →
        ∃ t, exec (.movRmSreg sz (.mem m) (.sreg r)) s = .next t ∧
          Stored (operandAddr s m) 2 (s.selector.get r) s t ∧ t.gpr = s.gpr ∧
          t.rflags = s.rflags ∧ SegmentsSame s t ∧ SystemSame s t ∧ t.pc = s.pcNext

/-- MOV Sreg completes when the descriptor lookup accepts the selector: the selector is loaded; the base is loaded in PROT32
and, in LONG64, for FS and GS only; nothing else changes (42_data_movement.md R296; 10_state.md R48). -/
def Obligations.MovToSegmentCompletes : Prop :=
  ∀ (r : SegReg) (src : Rm Gpr) (base : BitVec 32) (s : State), r ≠ .cs →
    (r = .ss → getFlag s.rflags .tf = false) → RmReadable .b16 (wide src) s →
    descLookup s r (rmValue .b16 (wide src) s) = .ok base →
    ∃ t, exec (.movSregRm (.sreg r) src) s = .next t ∧
      (∀ q, t.selector.get q = if q = r then rmValue .b16 (wide src) s else s.selector.get q) ∧
      (∀ q, t.segBase.get q =
        if q = r ∧ (s.launch.mode = .prot32 ∨ r = .fs ∨ r = .gs) then base.setWidth 64 else s.segBase.get q) ∧
      t.gpr = s.gpr ∧ MemSame s t ∧ t.rflags = s.rflags ∧ SystemSame s t ∧ t.pc = s.pcNext

/-- MOV Sreg stops: `#UD` for CS and for fields 6 and 7; a refusal for SS under single-step; the fault that the lookup
reports; a refusal for an unknown selector (42_data_movement.md R296, 30_encoding.md R182, 60_exceptions.md R388;
log 21). -/
def Obligations.MovToSegmentStops : Prop :=
  ∀ (r : SegReg) (src : Rm Gpr) (s : State),
    exec (.movSregRm (.sreg .cs) src) s = .fault .invalidOpcode ∧
      exec (.movSregRm .reserved6 src) s = .fault .invalidOpcode ∧
      exec (.movSregRm .reserved7 src) s = .fault .invalidOpcode ∧
      (getFlag s.rflags .tf = true → exec (.movSregRm (.sreg .ss) src) s = .refused .movSSUnderSingleStep) ∧
      (r ≠ .cs → (r = .ss → getFlag s.rflags .tf = false) → RmReadable .b16 (wide src) s →
        (∀ e, descLookup s r (rmValue .b16 (wide src) s) = .fault e →
          exec (.movSregRm (.sreg r) src) s = .fault e.toFault) ∧
        (descLookup s r (rmValue .b16 (wide src) s) = .unknown →
          exec (.movSregRm (.sreg r) src) s = .refused .unknownSelector))

/-- CMOVcc completes when its source can be read, whether or not the condition holds: the destination takes the source if it
holds; if it does not, a 32-bit form in LONG64 clears the upper half of the destination and any other form leaves it; no
flag and nothing else changes (42_data_movement.md R297). A misaligned source raises `#AC` even when the condition is
false. -/
def Obligations.CmovCompletes : Prop :=
  ∀ (c : Cond) (sz : OpSize) (dst : Gpr) (src : Rm Gpr) (s : State),
    (RmReadable sz.width (wide src) s →
      ∃ t, exec (.cmovcc c sz dst src) s = .next t ∧
        (condHolds c s.rflags = true → RegWritten sz.width (.lo dst) (rmValue sz.width (wide src) s) s t) ∧
        (condHolds c s.rflags = false → GprSameBut [dst] s t ∧
          t.gpr.get dst =
            if s.launch.mode = .long64 ∧ sz = .w32 then s.gpr.get dst &&& 0xFFFFFFFF#64 else s.gpr.get dst) ∧
        MemSame s t ∧ t.rflags = s.rflags ∧ SegmentsSame s t ∧ SystemSame s t ∧ t.pc = s.pcNext) ∧
      ∀ m, src = .mem m → Admitted s .read (operandAddr s m) sz.width.bytes →
        ¬ AlignedFor s (operandAddr s m) sz.width.bytes → exec (.cmovcc c sz dst src) s = .fault .alignmentCheck

/-- SETcc completes when its destination can be written: the byte becomes 1 if the condition holds and 0 if not; no flag and
nothing else changes (42_data_movement.md R298). -/
def Obligations.SetccCompletes : Prop :=
  ∀ (c : Cond) (dst : Rm Reg8) (s : State), Memory.wf s.mem = true → RmWritable .b8 dst s →
    ∃ t, exec (.setcc c dst) s = .next t ∧ RmWritten .b8 dst (if condHolds c s.rflags then 1#8 else 0#8) s t ∧
      t.rflags = s.rflags ∧ SegmentsSame s t ∧ SystemSame s t ∧ t.pc = s.pcNext

/-- The sixteen condition codes by number, and an odd one is the negation of the one before it (43_control_transfer.md
R320). -/
def Obligations.ConditionCodes : Prop :=
  ∀ fl : Quad,
    let cf := fl.getLsbD 0
    let pf := fl.getLsbD 2
    let zf := fl.getLsbD 6
    let sf := fl.getLsbD 7
    let of := fl.getLsbD 11
    (condHolds (Cond.ofNum 0) fl = of ∧ condHolds (Cond.ofNum 2) fl = cf ∧ condHolds (Cond.ofNum 4) fl = zf ∧
      condHolds (Cond.ofNum 6) fl = (cf || zf) ∧ condHolds (Cond.ofNum 8) fl = sf ∧
      condHolds (Cond.ofNum 10) fl = pf ∧ condHolds (Cond.ofNum 12) fl = (sf != of) ∧
      condHolds (Cond.ofNum 14) fl = (zf || (sf != of))) ∧
      ∀ n : BitVec 4, n.getLsbD 0 = false → condHolds (Cond.ofNum (n + 1)) fl = !condHolds (Cond.ofNum n) fl

/-! ## Control transfer -/

/-- Jcc rel8 and rel32 complete in every state: `pc` becomes `pc_next` plus the signed displacement, modulo 2^32 or 2^64, if
the condition holds, and `pc_next` if not; nothing else changes (43_control_transfer.md R321, R322, R327). -/
def Obligations.JccCompletes : Prop :=
  ∀ (c : Cond) (rel8 : BitVec 8) (rel32 : BitVec 32) (s : State),
    (∃ t, exec (.jccRel8 c rel8) s = .next t ∧ { t with pc := s.pc } = s ∧
      (condHolds c s.rflags = true →
        (t.pc.toNat : Int) = ((s.pcNext.toNat : Int) + rel8.toInt) % 2 ^ s.launch.mode.addrBits) ∧
      (condHolds c s.rflags = false → t.pc = s.pcNext)) ∧
      ∃ t, exec (.jccRel32 c rel32) s = .next t ∧ { t with pc := s.pc } = s ∧
        (condHolds c s.rflags = true →
          (t.pc.toNat : Int) = ((s.pcNext.toNat : Int) + rel32.toInt) % 2 ^ s.launch.mode.addrBits) ∧
        (condHolds c s.rflags = false → t.pc = s.pcNext)

/-- LOOP, LOOPE and LOOPNE complete in every state: ECX or RCX is decremented, modulo 2^32 or 2^64; the branch is taken if
the count is then not 0 and, for LOOPE and LOOPNE, ZF is 1 or 0; no flag and nothing else changes (43_control_transfer.md
R323, R324, R325, R327). -/
def Obligations.LoopsComplete : Prop :=
  ∀ (i : Instr) (rel : BitVec 8) (s : State), i = .loop rel ∨ i = .loope rel ∨ i = .loopne rel →
    ∃ t, exec i s = .next t ∧
      ((t.gpr.get .rcx).toNat : Int) = ((s.gpr.get .rcx).toNat - 1 : Int) % 2 ^ s.launch.mode.addrBits ∧
      (let taken := t.gpr.get .rcx ≠ 0 ∧ (i = .loope rel → getFlag s.rflags .zf = true) ∧
        (i = .loopne rel → getFlag s.rflags .zf = false)
      (taken → (t.pc.toNat : Int) = ((s.pcNext.toNat : Int) + rel.toInt) % 2 ^ s.launch.mode.addrBits) ∧
        (¬ taken → t.pc = s.pcNext)) ∧
      GprSameBut [.rcx] s t ∧ MemSame s t ∧ t.rflags = s.rflags ∧ SegmentsSame s t ∧ SystemSame s t

/-! ## Strings -/

/-- MOVS completes when the source can be read and the destination written: the element at `[S:SI]` is stored at `[ES:DI]`,
both pointers move by the element size, and nothing else changes (44_string.md R340, R341). -/
def Obligations.MovsCompletes : Prop :=
  ∀ (i : Instr) (w : Width) (seg : Option SegReg) (s : State), movsForm i = some (w, seg) → Memory.wf s.mem = true →
    let src := linear s (seg.getD .ds) (truncAddr s.launch.mode (s.gpr.get .rsi))
    let dst := linear s .es (truncAddr s.launch.mode (s.gpr.get .rdi))
    Readable s src w.bytes → Writable s dst w.bytes →
    ∃ t, exec i s = .next t ∧ Stored dst w.bytes (memValue s src w.bytes) s t ∧
      PointerMoved .rsi w.bytes s t ∧ PointerMoved .rdi w.bytes s t ∧ GprSameBut [.rsi, .rdi] s t ∧
      t.rflags = s.rflags ∧ SegmentsSame s t ∧ SystemSame s t ∧ t.pc = s.pcNext

/-- CMPS completes when both elements can be read: the status flags are those of source minus destination, both pointers
move, and nothing else changes (44_string.md R340, R342). -/
def Obligations.CmpsCompletes : Prop :=
  ∀ (i : Instr) (w : Width) (seg : Option SegReg) (s : State), cmpsForm i = some (w, seg) →
    let src := linear s (seg.getD .ds) (truncAddr s.launch.mode (s.gpr.get .rsi))
    let dst := linear s .es (truncAddr s.launch.mode (s.gpr.get .rdi))
    Readable s src w.bytes → Readable s dst w.bytes →
    ∃ t, exec i s = .next t ∧ StatusAre (subFlags (memValue s src w.bytes) (memValue s dst w.bytes) false).2 t ∧
      PointerMoved .rsi w.bytes s t ∧ PointerMoved .rdi w.bytes s t ∧ GprSameBut [.rsi, .rdi] s t ∧
      FlagsSameBut statusFlags s t ∧ MemSame s t ∧ SegmentsSame s t ∧ SystemSame s t ∧ t.pc = s.pcNext

/-- SCAS completes when the element at `[ES:DI]` can be read: the status flags are those of accumulator minus element, DI
moves, and nothing else changes (44_string.md R340, R343). -/
def Obligations.ScasCompletes : Prop :=
  ∀ (i : Instr) (w : Width) (s : State), scasForm i = some w →
    let dst := linear s .es (truncAddr s.launch.mode (s.gpr.get .rdi))
    Readable s dst w.bytes →
    ∃ t, exec i s = .next t ∧ StatusAre (subFlags (readReg w (.lo .rax) s) (memValue s dst w.bytes) false).2 t ∧
      PointerMoved .rdi w.bytes s t ∧ GprSameBut [.rdi] s t ∧
      FlagsSameBut statusFlags s t ∧ MemSame s t ∧ SegmentsSame s t ∧ SystemSame s t ∧ t.pc = s.pcNext

/-- LODS completes when the element at `[S:SI]` can be read: the accumulator takes it under the partial-write rules, SI
moves, and nothing else changes (44_string.md R340, R344). -/
def Obligations.LodsCompletes : Prop :=
  ∀ (i : Instr) (w : Width) (seg : Option SegReg) (s : State), lodsForm i = some (w, seg) →
    let src := linear s (seg.getD .ds) (truncAddr s.launch.mode (s.gpr.get .rsi))
    Readable s src w.bytes →
    ∃ t, exec i s = .next t ∧ readReg w (.lo .rax) t = memValue s src w.bytes ∧
      t.gpr.get .rax = mergeLow w (s.gpr.get .rax) (memValue s src w.bytes) ∧
      PointerMoved .rsi w.bytes s t ∧ GprSameBut [.rsi, .rax] s t ∧
      t.rflags = s.rflags ∧ MemSame s t ∧ SegmentsSame s t ∧ SystemSame s t ∧ t.pc = s.pcNext

/-- STOS completes when the element at `[ES:DI]` can be written: it takes the accumulator, DI moves, and nothing else
changes (44_string.md R340, R345). -/
def Obligations.StosCompletes : Prop :=
  ∀ (i : Instr) (w : Width) (s : State), stosForm i = some w → Memory.wf s.mem = true →
    let dst := linear s .es (truncAddr s.launch.mode (s.gpr.get .rdi))
    Writable s dst w.bytes →
    ∃ t, exec i s = .next t ∧ Stored dst w.bytes (readReg w (.lo .rax) s) s t ∧
      PointerMoved .rdi w.bytes s t ∧ GprSameBut [.rdi] s t ∧
      t.rflags = s.rflags ∧ SegmentsSame s t ∧ SystemSame s t ∧ t.pc = s.pcNext

/-! ## Stack and flags -/

/-- PUSH r completes when the slot below the stack pointer can be written: it takes the register's value from before the
pointer moves (PUSH ESP the old ESP), the pointer is decremented by the size, and nothing else changes
(40_flag_control.md R220, R232). -/
def Obligations.PushCompletes : Prop :=
  ∀ (sz : OpSize) (r : Gpr) (s : State), Memory.wf s.mem = true →
    Writable s (stackSlot s sz.width.bytes) sz.width.bytes →
    ∃ t, exec (.push sz r) s = .next t ∧
      Stored (stackSlot s sz.width.bytes) sz.width.bytes (readReg sz.width (.lo r) s) s t ∧
      t.gpr.get .rsp = truncAddr s.launch.mode (s.gpr.get .rsp - BitVec.ofNat 64 sz.width.bytes) ∧
      GprSameBut [.rsp] s t ∧ t.rflags = s.rflags ∧ SegmentsSame s t ∧ SystemSame s t ∧ t.pc = s.pcNext

/-- POP r completes when the item at the stack pointer can be read: the pointer is incremented by the size, then the register
takes the item under the partial-write rules (POP ESP ends as the popped value), and nothing else changes
(40_flag_control.md R221, R233). -/
def Obligations.PopCompletes : Prop :=
  ∀ (sz : OpSize) (r : Gpr) (s : State),
    let src := linear s .ss (truncAddr s.launch.mode (s.gpr.get .rsp))
    let sp := truncAddr s.launch.mode (s.gpr.get .rsp + BitVec.ofNat 64 sz.width.bytes)
    Readable s src sz.width.bytes →
    ∃ t, exec (.pop sz r) s = .next t ∧ readReg sz.width (.lo r) t = memValue s src sz.width.bytes ∧
      (r ≠ .rsp → t.gpr.get .rsp = sp ∧ t.gpr.get r = mergeLow sz.width (s.gpr.get r) (memValue s src sz.width.bytes)) ∧
      (r = .rsp → t.gpr.get .rsp = mergeLow sz.width sp (memValue s src sz.width.bytes)) ∧
      GprSameBut [.rsp, r] s t ∧
      t.rflags = s.rflags ∧ MemSame s t ∧ SegmentsSame s t ∧ SystemSame s t ∧ t.pc = s.pcNext

/-- PUSHF, PUSHFD and PUSHFQ complete when the slot can be written: the 16-bit form stores bits 15:0 of the flags, the others
EFLAGS with VM and RF as 0 and, above bit 31, zeros; the pointer is decremented; nothing else changes (40_flag_control.md
R229; 10_state.md R52, R79 for the premise on the reserved bits). -/
def Obligations.PushfCompletes : Prop :=
  ∀ (sz : OpSize) (s : State), Memory.wf s.mem = true → reservedOk s.rflags = true →
    Writable s (stackSlot s sz.width.bytes) sz.width.bytes →
    ∃ (t : State) (image : BitVec sz.width.bits), exec (.pushf sz) s = .next t ∧
      Stored (stackSlot s sz.width.bytes) sz.width.bytes image s t ∧
      (∀ k < sz.width.bits, image.getLsbD k = (s.rflags.getLsbD k && k != 16 && k != 17)) ∧
      t.gpr.get .rsp = truncAddr s.launch.mode (s.gpr.get .rsp - BitVec.ofNat 64 sz.width.bytes) ∧
      GprSameBut [.rsp] s t ∧ t.rflags = s.rflags ∧ SegmentsSame s t ∧ SystemSame s t ∧ t.pc = s.pcNext

/-- POPF, POPFD and POPFQ complete when the item at the stack pointer can be read. Each bit of the flags is then as the
privilege rules say: the status flags, TF, DF and NT from the image; IF from it when CPL ≤ IOPL; IOPL from it at CPL 0; in
the 32- and 64-bit forms AC from it, ID from it when it can be toggled, RF cleared, VIF and VIP kept or cleared; every other
bit, VM among them, is kept. The pointer is incremented and nothing else changes (40_flag_control.md R221, R230, R231). -/
def Obligations.PopfCompletes : Prop :=
  ∀ (sz : OpSize) (s : State),
    let src := linear s .ss (truncAddr s.launch.mode (s.gpr.get .rsp))
    let image := memValue s src sz.width.bytes
    let loaded (k : Nat) : Prop := k ∈ [0, 2, 4, 6, 7, 8, 10, 11, 14] ∨ (k = 9 ∧ s.launch.cpl ≤ iopl s.rflags) ∨
      ((k = 12 ∨ k = 13) ∧ s.launch.cpl = 0) ∨ (k = 18 ∧ sz ≠ .w16) ∨
      (k = 21 ∧ sz ≠ .w16 ∧ s.launch.idToggle = true)
    Readable s src sz.width.bytes →
    ∃ t, exec (.popf sz) s = .next t ∧
      (∀ k, loaded k → t.rflags.getLsbD k = image.getLsbD k) ∧
      (sz ≠ .w16 → getFlag t.rflags .rf = false ∧ (getFlag t.rflags .vif = true → getFlag s.rflags .vif = true) ∧
        (getFlag t.rflags .vip = true → getFlag s.rflags .vip = true)) ∧
      (∀ k, ¬ loaded k → (sz ≠ .w16 → k ≠ 16 ∧ k ≠ 19 ∧ k ≠ 20) → t.rflags.getLsbD k = s.rflags.getLsbD k) ∧
      t.gpr.get .rsp = truncAddr s.launch.mode (s.gpr.get .rsp + BitVec.ofNat 64 sz.width.bytes) ∧
      GprSameBut [.rsp] s t ∧ MemSame s t ∧ SegmentsSame s t ∧ SystemSame s t ∧ t.pc = s.pcNext

/-- A push, a pop and their flag forms raise `#AC` when their stack slot is admitted but misaligned under alignment
checking, and nothing is stored (20_memory.md R122; 40_flag_control.md R229, R231, R232, R233). -/
def Obligations.StackAlignmentTraps : Prop :=
  ∀ (sz : OpSize) (r : Gpr) (s : State),
    (OffCode s (stackSlot s sz.width.bytes) sz.width.bytes →
      Admitted s .write (stackSlot s sz.width.bytes) sz.width.bytes →
      ¬ AlignedFor s (stackSlot s sz.width.bytes) sz.width.bytes →
      exec (.push sz r) s = .fault .alignmentCheck ∧ exec (.pushf sz) s = .fault .alignmentCheck) ∧
      (Admitted s .read (linear s .ss (truncAddr s.launch.mode (s.gpr.get .rsp))) sz.width.bytes →
        ¬ AlignedFor s (linear s .ss (truncAddr s.launch.mode (s.gpr.get .rsp))) sz.width.bytes →
        exec (.pop sz r) s = .fault .alignmentCheck ∧ exec (.popf sz) s = .fault .alignmentCheck)

/-- LAHF: `#UD` in LONG64 without LAHF64; otherwise AH takes bits 7:0 of the flags, the rest of RAX and everything else
unchanged; its byte is 9F, and AH is the destination even with a REX prefix (40_flag_control.md R227). The premise says that
the reserved flag bits hold their fixed values (10_state.md R52). -/
def Obligations.LahfLoadsFlags : Prop :=
  ∀ (md : Mode) (rest : List Byte) (s : State), reservedOk s.rflags = true →
    decode md (0x9F :: rest) = .ok (.lahf, rest) ∧ decode .long64 (0x40 :: 0x9F :: rest) = .ok (.lahf, rest) ∧
      (s.launch.mode = .long64 → s.launch.lahf64 = false → exec .lahf s = .fault .invalidOpcode) ∧
      (s.launch.mode = .prot32 ∨ s.launch.lahf64 = true →
        ∃ t, exec .lahf s = .next t ∧
          readReg .b8 (.hi .ah) t =
            (BitVec.ofBool (getFlag s.rflags .sf) ++ BitVec.ofBool (getFlag s.rflags .zf) ++ 0#1 ++
              BitVec.ofBool (getFlag s.rflags .af) ++ 0#1 ++ BitVec.ofBool (getFlag s.rflags .pf) ++ 1#1 ++
              BitVec.ofBool (getFlag s.rflags .cf) : BitVec 8) ∧
          t.gpr.get .rax &&& ~~~0xFF00#64 = s.gpr.get .rax &&& ~~~0xFF00#64 ∧ GprSameBut [.rax] s t ∧
          t.rflags = s.rflags ∧ MemSame s t ∧ SegmentsSame s t ∧ SystemSame s t ∧ t.pc = s.pcNext)

/-- SAHF: `#UD` in LONG64 without LAHF64; otherwise SF, ZF, AF, PF and CF take bits 7, 6, 4, 2 and 0 of AH, OF, DF, the
system flags and everything else unchanged; its byte is 9E (40_flag_control.md R228). -/
def Obligations.SahfStoresFlags : Prop :=
  ∀ (md : Mode) (rest : List Byte) (s : State),
    decode md (0x9E :: rest) = .ok (.sahf, rest) ∧
      (s.launch.mode = .long64 → s.launch.lahf64 = false → exec .sahf s = .fault .invalidOpcode) ∧
      (s.launch.mode = .prot32 ∨ s.launch.lahf64 = true →
        ∃ t, exec .sahf s = .next t ∧
          getFlag t.rflags .sf = (s.gpr.get .rax).getLsbD 15 ∧ getFlag t.rflags .zf = (s.gpr.get .rax).getLsbD 14 ∧
          getFlag t.rflags .af = (s.gpr.get .rax).getLsbD 12 ∧ getFlag t.rflags .pf = (s.gpr.get .rax).getLsbD 10 ∧
          getFlag t.rflags .cf = (s.gpr.get .rax).getLsbD 8 ∧ FlagsSameBut [.sf, .zf, .af, .pf, .cf] s t ∧
          t.gpr = s.gpr ∧ MemSame s t ∧ SegmentsSame s t ∧ SystemSame s t ∧ t.pc = s.pcNext)

/-- STC, CLC, CMC, STD and CLD are the bytes F9, F8, F5, FD and FC, also after a prefix 66 or a segment override; each
completes in every state: CF is set, cleared or complemented, or DF set or cleared, and nothing else changes
(40_flag_control.md R222 to R226). -/
def Obligations.FlagInstructionsComplete : Prop :=
  ∀ (md : Mode) (rest : List Byte) (s : State) (op : Byte) (i : Instr) (f : Flag) (b : Bool),
    (op, i, f, b) ∈ [(0xF9#8, Instr.stc, Flag.cf, true), (0xF8#8, .clc, .cf, false),
      (0xF5#8, .cmc, .cf, !getFlag s.rflags .cf), (0xFD#8, .std, .df, true), (0xFC#8, .cld, .df, false)] →
    decode md (op :: rest) = .ok (i, rest) ∧ decode md (0x66 :: op :: rest) = .ok (i, rest) ∧
      (∀ p ∈ [0x26#8, 0x2E#8, 0x36#8, 0x3E#8, 0x64#8, 0x65#8], decode md (p :: op :: rest) = .ok (i, rest)) ∧
      ∃ t, exec i s = .next t ∧ getFlag t.rflags f = b ∧ FlagsSameBut [f] s t ∧
        t.gpr = s.gpr ∧ MemSame s t ∧ SegmentsSame s t ∧ SystemSame s t ∧ t.pc = s.pcNext

/-! ## Named only -/

/-- The bytes CF and 0F A2 are IRET and CPUID, and both are refused by name in every state (45_named_only.md R360, R361). -/
def Obligations.IretAndCpuidRefused : Prop :=
  ∀ (md : Mode) (rest : List Byte) (s : State),
    decode md (0xCF :: rest) = .ok (.iret, rest) ∧ decode md (0x0F :: 0xA2 :: rest) = .ok (.cpuid, rest) ∧
      exec .iret s = .refused (.namedOnly "IRET") ∧ exec .cpuid s = .refused (.namedOnly "CPUID")
end

