-- ==== Sys2Proof/Laws/State.lean ====
section
/-!
SUPPORT. What each update of the state leaves in each field: one lemma per field per update, so that no later proof unfolds
a record update.
-/
namespace Sys2Proof.Machine

/-! ## `advance` -/

@[simp] theorem advance_gpr (s : State) :
    (advance s).gpr = s.gpr := rfl

@[simp] theorem advance_pc (s : State) :
    (advance s).pc = s.pcNext := rfl

@[simp] theorem advance_pcNext (s : State) :
    (advance s).pcNext = s.pcNext := rfl

@[simp] theorem advance_selector (s : State) :
    (advance s).selector = s.selector := rfl

@[simp] theorem advance_segBase (s : State) :
    (advance s).segBase = s.segBase := rfl

@[simp] theorem advance_rflags (s : State) :
    (advance s).rflags = s.rflags := rfl

@[simp] theorem advance_mem (s : State) :
    (advance s).mem = s.mem := rfl

@[simp] theorem advance_launch (s : State) :
    (advance s).launch = s.launch := rfl

@[simp] theorem advance_sys (s : State) :
    (advance s).sys = s.sys := rfl

@[simp] theorem advance_fp (s : State) :
    (advance s).fp = s.fp := rfl

@[simp] theorem advance_draws (s : State) :
    (advance s).draws = s.draws := rfl

/-! ## `withFlags` -/

@[simp] theorem withFlags_gpr (s : State) (fl : Quad) :
    (withFlags s fl).gpr = s.gpr := rfl

@[simp] theorem withFlags_pc (s : State) (fl : Quad) :
    (withFlags s fl).pc = s.pc := rfl

@[simp] theorem withFlags_pcNext (s : State) (fl : Quad) :
    (withFlags s fl).pcNext = s.pcNext := rfl

@[simp] theorem withFlags_selector (s : State) (fl : Quad) :
    (withFlags s fl).selector = s.selector := rfl

@[simp] theorem withFlags_segBase (s : State) (fl : Quad) :
    (withFlags s fl).segBase = s.segBase := rfl

@[simp] theorem withFlags_rflags (s : State) (fl : Quad) :
    (withFlags s fl).rflags = fl := rfl

@[simp] theorem withFlags_mem (s : State) (fl : Quad) :
    (withFlags s fl).mem = s.mem := rfl

@[simp] theorem withFlags_launch (s : State) (fl : Quad) :
    (withFlags s fl).launch = s.launch := rfl

@[simp] theorem withFlags_sys (s : State) (fl : Quad) :
    (withFlags s fl).sys = s.sys := rfl

@[simp] theorem withFlags_fp (s : State) (fl : Quad) :
    (withFlags s fl).fp = s.fp := rfl

@[simp] theorem withFlags_draws (s : State) (fl : Quad) :
    (withFlags s fl).draws = s.draws := rfl

/-! ## `writeReg` -/

@[simp] theorem writeReg_pc (w : Width) (r : Reg8) (v : BitVec w.bits) (s : State) :
    (writeReg w r v s).pc = s.pc := by cases r <;> rfl

@[simp] theorem writeReg_pcNext (w : Width) (r : Reg8) (v : BitVec w.bits) (s : State) :
    (writeReg w r v s).pcNext = s.pcNext := by cases r <;> rfl

@[simp] theorem writeReg_selector (w : Width) (r : Reg8) (v : BitVec w.bits) (s : State) :
    (writeReg w r v s).selector = s.selector := by cases r <;> rfl

@[simp] theorem writeReg_segBase (w : Width) (r : Reg8) (v : BitVec w.bits) (s : State) :
    (writeReg w r v s).segBase = s.segBase := by cases r <;> rfl

@[simp] theorem writeReg_rflags (w : Width) (r : Reg8) (v : BitVec w.bits) (s : State) :
    (writeReg w r v s).rflags = s.rflags := by cases r <;> rfl

@[simp] theorem writeReg_mem (w : Width) (r : Reg8) (v : BitVec w.bits) (s : State) :
    (writeReg w r v s).mem = s.mem := by cases r <;> rfl

@[simp] theorem writeReg_launch (w : Width) (r : Reg8) (v : BitVec w.bits) (s : State) :
    (writeReg w r v s).launch = s.launch := by cases r <;> rfl

@[simp] theorem writeReg_sys (w : Width) (r : Reg8) (v : BitVec w.bits) (s : State) :
    (writeReg w r v s).sys = s.sys := by cases r <;> rfl

@[simp] theorem writeReg_fp (w : Width) (r : Reg8) (v : BitVec w.bits) (s : State) :
    (writeReg w r v s).fp = s.fp := by cases r <;> rfl

@[simp] theorem writeReg_draws (w : Width) (r : Reg8) (v : BitVec w.bits) (s : State) :
    (writeReg w r v s).draws = s.draws := by cases r <;> rfl

/-! ## `writeAddrReg` -/

@[simp] theorem writeAddrReg_gpr (r : Gpr) (v : Quad) (s : State) :
    (writeAddrReg r v s).gpr = s.gpr.set r (truncAddr s.launch.mode v) := rfl

@[simp] theorem writeAddrReg_pc (r : Gpr) (v : Quad) (s : State) :
    (writeAddrReg r v s).pc = s.pc := rfl

@[simp] theorem writeAddrReg_pcNext (r : Gpr) (v : Quad) (s : State) :
    (writeAddrReg r v s).pcNext = s.pcNext := rfl

@[simp] theorem writeAddrReg_selector (r : Gpr) (v : Quad) (s : State) :
    (writeAddrReg r v s).selector = s.selector := rfl

@[simp] theorem writeAddrReg_segBase (r : Gpr) (v : Quad) (s : State) :
    (writeAddrReg r v s).segBase = s.segBase := rfl

@[simp] theorem writeAddrReg_rflags (r : Gpr) (v : Quad) (s : State) :
    (writeAddrReg r v s).rflags = s.rflags := rfl

@[simp] theorem writeAddrReg_mem (r : Gpr) (v : Quad) (s : State) :
    (writeAddrReg r v s).mem = s.mem := rfl

@[simp] theorem writeAddrReg_launch (r : Gpr) (v : Quad) (s : State) :
    (writeAddrReg r v s).launch = s.launch := rfl

@[simp] theorem writeAddrReg_sys (r : Gpr) (v : Quad) (s : State) :
    (writeAddrReg r v s).sys = s.sys := rfl

@[simp] theorem writeAddrReg_fp (r : Gpr) (v : Quad) (s : State) :
    (writeAddrReg r v s).fp = s.fp := rfl

@[simp] theorem writeAddrReg_draws (r : Gpr) (v : Quad) (s : State) :
    (writeAddrReg r v s).draws = s.draws := rfl

/-! ## `movePointer` -/

@[simp] theorem movePointer_gpr (r : Gpr) (d : Quad) (s : State) :
    (movePointer r d s).gpr = s.gpr.set r (truncAddr s.launch.mode (readAddrReg r s + d)) := rfl

@[simp] theorem movePointer_pc (r : Gpr) (d : Quad) (s : State) :
    (movePointer r d s).pc = s.pc := rfl

@[simp] theorem movePointer_pcNext (r : Gpr) (d : Quad) (s : State) :
    (movePointer r d s).pcNext = s.pcNext := rfl

@[simp] theorem movePointer_selector (r : Gpr) (d : Quad) (s : State) :
    (movePointer r d s).selector = s.selector := rfl

@[simp] theorem movePointer_segBase (r : Gpr) (d : Quad) (s : State) :
    (movePointer r d s).segBase = s.segBase := rfl

@[simp] theorem movePointer_rflags (r : Gpr) (d : Quad) (s : State) :
    (movePointer r d s).rflags = s.rflags := rfl

@[simp] theorem movePointer_mem (r : Gpr) (d : Quad) (s : State) :
    (movePointer r d s).mem = s.mem := rfl

@[simp] theorem movePointer_launch (r : Gpr) (d : Quad) (s : State) :
    (movePointer r d s).launch = s.launch := rfl

@[simp] theorem movePointer_sys (r : Gpr) (d : Quad) (s : State) :
    (movePointer r d s).sys = s.sys := rfl

@[simp] theorem movePointer_fp (r : Gpr) (d : Quad) (s : State) :
    (movePointer r d s).fp = s.fp := rfl

@[simp] theorem movePointer_draws (r : Gpr) (d : Quad) (s : State) :
    (movePointer r d s).draws = s.draws := rfl

/-! ## `writePair` -/

@[simp] theorem writePair_pc (w : Width) (hi lo : BitVec w.bits) (s : State) :
    (writePair w hi lo s).pc = s.pc := by simp [writePair]

@[simp] theorem writePair_pcNext (w : Width) (hi lo : BitVec w.bits) (s : State) :
    (writePair w hi lo s).pcNext = s.pcNext := by simp [writePair]

@[simp] theorem writePair_selector (w : Width) (hi lo : BitVec w.bits) (s : State) :
    (writePair w hi lo s).selector = s.selector := by simp [writePair]

@[simp] theorem writePair_segBase (w : Width) (hi lo : BitVec w.bits) (s : State) :
    (writePair w hi lo s).segBase = s.segBase := by simp [writePair]

@[simp] theorem writePair_rflags (w : Width) (hi lo : BitVec w.bits) (s : State) :
    (writePair w hi lo s).rflags = s.rflags := by simp [writePair]

@[simp] theorem writePair_mem (w : Width) (hi lo : BitVec w.bits) (s : State) :
    (writePair w hi lo s).mem = s.mem := by simp [writePair]

@[simp] theorem writePair_launch (w : Width) (hi lo : BitVec w.bits) (s : State) :
    (writePair w hi lo s).launch = s.launch := by simp [writePair]

@[simp] theorem writePair_sys (w : Width) (hi lo : BitVec w.bits) (s : State) :
    (writePair w hi lo s).sys = s.sys := by simp [writePair]

@[simp] theorem writePair_fp (w : Width) (hi lo : BitVec w.bits) (s : State) :
    (writePair w hi lo s).fp = s.fp := by simp [writePair]

@[simp] theorem writePair_draws (w : Width) (hi lo : BitVec w.bits) (s : State) :
    (writePair w hi lo s).draws = s.draws := by simp [writePair]

/-! ## `storeBytes` -/

@[simp] theorem storeBytes_gpr (s : State) (a : Quad) (n : Nat) (v : BitVec (8 * n)) :
    (storeBytes s a n v).gpr = s.gpr := rfl

@[simp] theorem storeBytes_pc (s : State) (a : Quad) (n : Nat) (v : BitVec (8 * n)) :
    (storeBytes s a n v).pc = s.pc := rfl

@[simp] theorem storeBytes_pcNext (s : State) (a : Quad) (n : Nat) (v : BitVec (8 * n)) :
    (storeBytes s a n v).pcNext = s.pcNext := rfl

@[simp] theorem storeBytes_selector (s : State) (a : Quad) (n : Nat) (v : BitVec (8 * n)) :
    (storeBytes s a n v).selector = s.selector := rfl

@[simp] theorem storeBytes_segBase (s : State) (a : Quad) (n : Nat) (v : BitVec (8 * n)) :
    (storeBytes s a n v).segBase = s.segBase := rfl

@[simp] theorem storeBytes_rflags (s : State) (a : Quad) (n : Nat) (v : BitVec (8 * n)) :
    (storeBytes s a n v).rflags = s.rflags := rfl

@[simp] theorem storeBytes_mem (s : State) (a : Quad) (n : Nat) (v : BitVec (8 * n)) :
    (storeBytes s a n v).mem = Memory.writeBytes s.mem a.toNat (leBytes n v.toNat) := rfl

@[simp] theorem storeBytes_launch (s : State) (a : Quad) (n : Nat) (v : BitVec (8 * n)) :
    (storeBytes s a n v).launch = s.launch := rfl

@[simp] theorem storeBytes_sys (s : State) (a : Quad) (n : Nat) (v : BitVec (8 * n)) :
    (storeBytes s a n v).sys = s.sys := rfl

@[simp] theorem storeBytes_fp (s : State) (a : Quad) (n : Nat) (v : BitVec (8 * n)) :
    (storeBytes s a n v).fp = s.fp := rfl

@[simp] theorem storeBytes_draws (s : State) (a : Quad) (n : Nat) (v : BitVec (8 * n)) :
    (storeBytes s a n v).draws = s.draws := rfl

/-! ## `loadSegment` -/

@[simp] theorem loadSegment_gpr (s : State) (r : SegReg) (sel : BitVec 16) (b : BitVec 32) :
    (loadSegment s r sel b).gpr = s.gpr := rfl

@[simp] theorem loadSegment_pc (s : State) (r : SegReg) (sel : BitVec 16) (b : BitVec 32) :
    (loadSegment s r sel b).pc = s.pc := rfl

@[simp] theorem loadSegment_pcNext (s : State) (r : SegReg) (sel : BitVec 16) (b : BitVec 32) :
    (loadSegment s r sel b).pcNext = s.pcNext := rfl

@[simp] theorem loadSegment_selector (s : State) (r : SegReg) (sel : BitVec 16) (b : BitVec 32) :
    (loadSegment s r sel b).selector = s.selector.set r sel := rfl

@[simp] theorem loadSegment_segBase (s : State) (r : SegReg) (sel : BitVec 16) (b : BitVec 32) :
    (loadSegment s r sel b).segBase = if s.launch.mode = .prot32 ∨ isFsGs r then s.segBase.set r (b.setWidth 64) else s.segBase := rfl

@[simp] theorem loadSegment_rflags (s : State) (r : SegReg) (sel : BitVec 16) (b : BitVec 32) :
    (loadSegment s r sel b).rflags = s.rflags := rfl

@[simp] theorem loadSegment_mem (s : State) (r : SegReg) (sel : BitVec 16) (b : BitVec 32) :
    (loadSegment s r sel b).mem = s.mem := rfl

@[simp] theorem loadSegment_launch (s : State) (r : SegReg) (sel : BitVec 16) (b : BitVec 32) :
    (loadSegment s r sel b).launch = s.launch := rfl

@[simp] theorem loadSegment_sys (s : State) (r : SegReg) (sel : BitVec 16) (b : BitVec 32) :
    (loadSegment s r sel b).sys = s.sys := rfl

@[simp] theorem loadSegment_fp (s : State) (r : SegReg) (sel : BitVec 16) (b : BitVec 32) :
    (loadSegment s r sel b).fp = s.fp := rfl

@[simp] theorem loadSegment_draws (s : State) (r : SegReg) (sel : BitVec 16) (b : BitVec 32) :
    (loadSegment s r sel b).draws = s.draws := rfl

/-! ## `branchIf` -/

@[simp] theorem branchIf_gpr {n : Nat} (c : Bool) (rel : BitVec n) (s : State) :
    (branchIf c rel s).gpr = s.gpr := rfl

@[simp] theorem branchIf_pc {n : Nat} (c : Bool) (rel : BitVec n) (s : State) :
    (branchIf c rel s).pc = if c then branchTarget s rel else s.pcNext := rfl

@[simp] theorem branchIf_pcNext {n : Nat} (c : Bool) (rel : BitVec n) (s : State) :
    (branchIf c rel s).pcNext = s.pcNext := rfl

@[simp] theorem branchIf_selector {n : Nat} (c : Bool) (rel : BitVec n) (s : State) :
    (branchIf c rel s).selector = s.selector := rfl

@[simp] theorem branchIf_segBase {n : Nat} (c : Bool) (rel : BitVec n) (s : State) :
    (branchIf c rel s).segBase = s.segBase := rfl

@[simp] theorem branchIf_rflags {n : Nat} (c : Bool) (rel : BitVec n) (s : State) :
    (branchIf c rel s).rflags = s.rflags := rfl

@[simp] theorem branchIf_mem {n : Nat} (c : Bool) (rel : BitVec n) (s : State) :
    (branchIf c rel s).mem = s.mem := rfl

@[simp] theorem branchIf_launch {n : Nat} (c : Bool) (rel : BitVec n) (s : State) :
    (branchIf c rel s).launch = s.launch := rfl

@[simp] theorem branchIf_sys {n : Nat} (c : Bool) (rel : BitVec n) (s : State) :
    (branchIf c rel s).sys = s.sys := rfl

@[simp] theorem branchIf_fp {n : Nat} (c : Bool) (rel : BitVec n) (s : State) :
    (branchIf c rel s).fp = s.fp := rfl

@[simp] theorem branchIf_draws {n : Nat} (c : Bool) (rel : BitVec n) (s : State) :
    (branchIf c rel s).draws = s.draws := rfl

/-! ## `beginInstr` -/

@[simp] theorem beginInstr_gpr (s : State) (len : Nat) :
    (beginInstr s len).gpr = s.gpr := rfl

@[simp] theorem beginInstr_pc (s : State) (len : Nat) :
    (beginInstr s len).pc = s.pc := rfl

@[simp] theorem beginInstr_pcNext (s : State) (len : Nat) :
    (beginInstr s len).pcNext = truncAddr s.launch.mode (s.pc + BitVec.ofNat 64 len) := rfl

@[simp] theorem beginInstr_selector (s : State) (len : Nat) :
    (beginInstr s len).selector = s.selector := rfl

@[simp] theorem beginInstr_segBase (s : State) (len : Nat) :
    (beginInstr s len).segBase = s.segBase := rfl

@[simp] theorem beginInstr_rflags (s : State) (len : Nat) :
    (beginInstr s len).rflags = s.rflags := rfl

@[simp] theorem beginInstr_mem (s : State) (len : Nat) :
    (beginInstr s len).mem = s.mem := rfl

@[simp] theorem beginInstr_launch (s : State) (len : Nat) :
    (beginInstr s len).launch = s.launch := rfl

@[simp] theorem beginInstr_sys (s : State) (len : Nat) :
    (beginInstr s len).sys = s.sys := rfl

@[simp] theorem beginInstr_fp (s : State) (len : Nat) :
    (beginInstr s len).fp = s.fp := rfl

@[simp] theorem beginInstr_draws (s : State) (len : Nat) :
    (beginInstr s len).draws = s.draws := rfl

/-! ## `drawFlag` -/

@[simp] theorem drawFlag_gpr (s : State) (f : Flag) :
    (drawFlag s f).gpr = s.gpr := rfl

@[simp] theorem drawFlag_pc (s : State) (f : Flag) :
    (drawFlag s f).pc = s.pc := rfl

@[simp] theorem drawFlag_pcNext (s : State) (f : Flag) :
    (drawFlag s f).pcNext = s.pcNext := rfl

@[simp] theorem drawFlag_selector (s : State) (f : Flag) :
    (drawFlag s f).selector = s.selector := rfl

@[simp] theorem drawFlag_segBase (s : State) (f : Flag) :
    (drawFlag s f).segBase = s.segBase := rfl

@[simp] theorem drawFlag_rflags (s : State) (f : Flag) :
    (drawFlag s f).rflags = setFlag s.rflags f (Config.freeBit s.draws) := rfl

@[simp] theorem drawFlag_mem (s : State) (f : Flag) :
    (drawFlag s f).mem = s.mem := rfl

@[simp] theorem drawFlag_launch (s : State) (f : Flag) :
    (drawFlag s f).launch = s.launch := rfl

@[simp] theorem drawFlag_sys (s : State) (f : Flag) :
    (drawFlag s f).sys = s.sys := rfl

@[simp] theorem drawFlag_fp (s : State) (f : Flag) :
    (drawFlag s f).fp = s.fp := rfl

@[simp] theorem drawFlag_draws (s : State) (f : Flag) :
    (drawFlag s f).draws = s.draws + 1 := rfl

/-! ## `drawKeepOrClear` -/

@[simp] theorem drawKeepOrClear_gpr (s : State) (f : Flag) :
    (drawKeepOrClear s f).gpr = s.gpr := rfl

@[simp] theorem drawKeepOrClear_pc (s : State) (f : Flag) :
    (drawKeepOrClear s f).pc = s.pc := rfl

@[simp] theorem drawKeepOrClear_pcNext (s : State) (f : Flag) :
    (drawKeepOrClear s f).pcNext = s.pcNext := rfl

@[simp] theorem drawKeepOrClear_selector (s : State) (f : Flag) :
    (drawKeepOrClear s f).selector = s.selector := rfl

@[simp] theorem drawKeepOrClear_segBase (s : State) (f : Flag) :
    (drawKeepOrClear s f).segBase = s.segBase := rfl

@[simp] theorem drawKeepOrClear_rflags (s : State) (f : Flag) :
    (drawKeepOrClear s f).rflags = setFlag s.rflags f (getFlag s.rflags f && Config.freeBit s.draws) := rfl

@[simp] theorem drawKeepOrClear_mem (s : State) (f : Flag) :
    (drawKeepOrClear s f).mem = s.mem := rfl

@[simp] theorem drawKeepOrClear_launch (s : State) (f : Flag) :
    (drawKeepOrClear s f).launch = s.launch := rfl

@[simp] theorem drawKeepOrClear_sys (s : State) (f : Flag) :
    (drawKeepOrClear s f).sys = s.sys := rfl

@[simp] theorem drawKeepOrClear_fp (s : State) (f : Flag) :
    (drawKeepOrClear s f).fp = s.fp := rfl

@[simp] theorem drawKeepOrClear_draws (s : State) (f : Flag) :
    (drawKeepOrClear s f).draws = s.draws + 1 := rfl

/-! ## `drawFlags` -/

@[simp] theorem drawFlags_gpr (s : State) (fs : List Flag) :
    (drawFlags s fs).gpr = s.gpr := by
  unfold drawFlags
  induction fs generalizing s with
  | nil => rfl
  | cons f fs ih => simp [ih]

@[simp] theorem drawFlags_pc (s : State) (fs : List Flag) :
    (drawFlags s fs).pc = s.pc := by
  unfold drawFlags
  induction fs generalizing s with
  | nil => rfl
  | cons f fs ih => simp [ih]

@[simp] theorem drawFlags_pcNext (s : State) (fs : List Flag) :
    (drawFlags s fs).pcNext = s.pcNext := by
  unfold drawFlags
  induction fs generalizing s with
  | nil => rfl
  | cons f fs ih => simp [ih]

@[simp] theorem drawFlags_selector (s : State) (fs : List Flag) :
    (drawFlags s fs).selector = s.selector := by
  unfold drawFlags
  induction fs generalizing s with
  | nil => rfl
  | cons f fs ih => simp [ih]

@[simp] theorem drawFlags_segBase (s : State) (fs : List Flag) :
    (drawFlags s fs).segBase = s.segBase := by
  unfold drawFlags
  induction fs generalizing s with
  | nil => rfl
  | cons f fs ih => simp [ih]

@[simp] theorem drawFlags_mem (s : State) (fs : List Flag) :
    (drawFlags s fs).mem = s.mem := by
  unfold drawFlags
  induction fs generalizing s with
  | nil => rfl
  | cons f fs ih => simp [ih]

@[simp] theorem drawFlags_launch (s : State) (fs : List Flag) :
    (drawFlags s fs).launch = s.launch := by
  unfold drawFlags
  induction fs generalizing s with
  | nil => rfl
  | cons f fs ih => simp [ih]

@[simp] theorem drawFlags_sys (s : State) (fs : List Flag) :
    (drawFlags s fs).sys = s.sys := by
  unfold drawFlags
  induction fs generalizing s with
  | nil => rfl
  | cons f fs ih => simp [ih]

@[simp] theorem drawFlags_fp (s : State) (fs : List Flag) :
    (drawFlags s fs).fp = s.fp := by
  unfold drawFlags
  induction fs generalizing s with
  | nil => rfl
  | cons f fs ih => simp [ih]

@[simp] theorem drawFlags_draws (s : State) (fs : List Flag) :
    (drawFlags s fs).draws = s.draws + fs.length := by
  unfold drawFlags
  induction fs generalizing s with
  | nil => rfl
  | cons f fs ih => simp [ih]; omega

/-! ## `bitFlags` -/

@[simp] theorem bitFlags_gpr (s : State) (b : Bool) :
    (bitFlags s b).gpr = s.gpr := by simp [bitFlags]

@[simp] theorem bitFlags_pc (s : State) (b : Bool) :
    (bitFlags s b).pc = s.pc := by simp [bitFlags]

@[simp] theorem bitFlags_pcNext (s : State) (b : Bool) :
    (bitFlags s b).pcNext = s.pcNext := by simp [bitFlags]

@[simp] theorem bitFlags_selector (s : State) (b : Bool) :
    (bitFlags s b).selector = s.selector := by simp [bitFlags]

@[simp] theorem bitFlags_segBase (s : State) (b : Bool) :
    (bitFlags s b).segBase = s.segBase := by simp [bitFlags]

@[simp] theorem bitFlags_mem (s : State) (b : Bool) :
    (bitFlags s b).mem = s.mem := by simp [bitFlags]

@[simp] theorem bitFlags_launch (s : State) (b : Bool) :
    (bitFlags s b).launch = s.launch := by simp [bitFlags]

@[simp] theorem bitFlags_sys (s : State) (b : Bool) :
    (bitFlags s b).sys = s.sys := by simp [bitFlags]

@[simp] theorem bitFlags_fp (s : State) (b : Bool) :
    (bitFlags s b).fp = s.fp := by simp [bitFlags]

@[simp] theorem bitFlags_draws (s : State) (b : Bool) :
    (bitFlags s b).draws = s.draws + 4 := by simp [bitFlags]

/-! ## `loopOp` -/

@[simp] theorem loopOp_gpr (also : Bool) (rel : BitVec 8) (s : State) :
    (loopOp also rel s).gpr = s.gpr.set .rcx (truncAddr s.launch.mode (loopCount s)) := by simp [loopOp]

@[simp] theorem loopOp_pcNext (also : Bool) (rel : BitVec 8) (s : State) :
    (loopOp also rel s).pcNext = s.pcNext := by simp [loopOp]

@[simp] theorem loopOp_selector (also : Bool) (rel : BitVec 8) (s : State) :
    (loopOp also rel s).selector = s.selector := by simp [loopOp]

@[simp] theorem loopOp_segBase (also : Bool) (rel : BitVec 8) (s : State) :
    (loopOp also rel s).segBase = s.segBase := by simp [loopOp]

@[simp] theorem loopOp_rflags (also : Bool) (rel : BitVec 8) (s : State) :
    (loopOp also rel s).rflags = s.rflags := by simp [loopOp]

@[simp] theorem loopOp_mem (also : Bool) (rel : BitVec 8) (s : State) :
    (loopOp also rel s).mem = s.mem := by simp [loopOp]

@[simp] theorem loopOp_launch (also : Bool) (rel : BitVec 8) (s : State) :
    (loopOp also rel s).launch = s.launch := by simp [loopOp]

@[simp] theorem loopOp_sys (also : Bool) (rel : BitVec 8) (s : State) :
    (loopOp also rel s).sys = s.sys := by simp [loopOp]

@[simp] theorem loopOp_fp (also : Bool) (rel : BitVec 8) (s : State) :
    (loopOp also rel s).fp = s.fp := by simp [loopOp]

@[simp] theorem loopOp_draws (also : Bool) (rel : BitVec 8) (s : State) :
    (loopOp also rel s).draws = s.draws := by simp [loopOp]

/-! ## `storeRm` -/

@[simp] theorem storeRm_pc (w : Width) (rm : Rm Reg8) (v : BitVec w.bits) (s : State) :
    (storeRm w rm v s).pc = s.pc := by cases rm <;> simp [storeRm]

@[simp] theorem storeRm_pcNext (w : Width) (rm : Rm Reg8) (v : BitVec w.bits) (s : State) :
    (storeRm w rm v s).pcNext = s.pcNext := by cases rm <;> simp [storeRm]

@[simp] theorem storeRm_selector (w : Width) (rm : Rm Reg8) (v : BitVec w.bits) (s : State) :
    (storeRm w rm v s).selector = s.selector := by cases rm <;> simp [storeRm]

@[simp] theorem storeRm_segBase (w : Width) (rm : Rm Reg8) (v : BitVec w.bits) (s : State) :
    (storeRm w rm v s).segBase = s.segBase := by cases rm <;> simp [storeRm]

@[simp] theorem storeRm_rflags (w : Width) (rm : Rm Reg8) (v : BitVec w.bits) (s : State) :
    (storeRm w rm v s).rflags = s.rflags := by cases rm <;> simp [storeRm]

@[simp] theorem storeRm_launch (w : Width) (rm : Rm Reg8) (v : BitVec w.bits) (s : State) :
    (storeRm w rm v s).launch = s.launch := by cases rm <;> simp [storeRm]

@[simp] theorem storeRm_sys (w : Width) (rm : Rm Reg8) (v : BitVec w.bits) (s : State) :
    (storeRm w rm v s).sys = s.sys := by cases rm <;> simp [storeRm]

@[simp] theorem storeRm_fp (w : Width) (rm : Rm Reg8) (v : BitVec w.bits) (s : State) :
    (storeRm w rm v s).fp = s.fp := by cases rm <;> simp [storeRm]

@[simp] theorem storeRm_draws (w : Width) (rm : Rm Reg8) (v : BitVec w.bits) (s : State) :
    (storeRm w rm v s).draws = s.draws := by cases rm <;> simp [storeRm]

/-! ## `loadFlags` -/

@[simp] theorem loadFlags_gpr (sz : OpSize) (v : BitVec sz.width.bits) (s : State) :
    (loadFlags sz v s).gpr = s.gpr := by cases sz <;> simp [loadFlags]

@[simp] theorem loadFlags_pc (sz : OpSize) (v : BitVec sz.width.bits) (s : State) :
    (loadFlags sz v s).pc = s.pc := by cases sz <;> simp [loadFlags]

@[simp] theorem loadFlags_pcNext (sz : OpSize) (v : BitVec sz.width.bits) (s : State) :
    (loadFlags sz v s).pcNext = s.pcNext := by cases sz <;> simp [loadFlags]

@[simp] theorem loadFlags_selector (sz : OpSize) (v : BitVec sz.width.bits) (s : State) :
    (loadFlags sz v s).selector = s.selector := by cases sz <;> simp [loadFlags]

@[simp] theorem loadFlags_segBase (sz : OpSize) (v : BitVec sz.width.bits) (s : State) :
    (loadFlags sz v s).segBase = s.segBase := by cases sz <;> simp [loadFlags]

@[simp] theorem loadFlags_mem (sz : OpSize) (v : BitVec sz.width.bits) (s : State) :
    (loadFlags sz v s).mem = s.mem := by cases sz <;> simp [loadFlags]

@[simp] theorem loadFlags_launch (sz : OpSize) (v : BitVec sz.width.bits) (s : State) :
    (loadFlags sz v s).launch = s.launch := by cases sz <;> simp [loadFlags]

@[simp] theorem loadFlags_sys (sz : OpSize) (v : BitVec sz.width.bits) (s : State) :
    (loadFlags sz v s).sys = s.sys := by cases sz <;> simp [loadFlags]

@[simp] theorem loadFlags_fp (sz : OpSize) (v : BitVec sz.width.bits) (s : State) :
    (loadFlags sz v s).fp = s.fp := by cases sz <;> simp [loadFlags]

end Sys2Proof.Machine
end

