-- ==== Sys2Proof/Laws/Bits.lean ====
section
/-!
SUPPORT. Bits and bytes: the replacement of a bit, the flags of RFLAGS read after a write, and little-endian byte lists.
-/
namespace Sys2Proof.Machine

/-! ## One bit -/

theorem getLsbD_setBit {w : Nat} (v : BitVec w) (i j : Nat) (b : Bool) :
    (setBit v i b).getLsbD j = if j = i ∧ j < w then b else v.getLsbD j := by
  by_cases hj : j < w
  · by_cases hi : j = i
    · subst hi
      cases b <;> simp [setBit, hj]
    · cases b <;> simp [setBit, hi, hj]
  · have h : ∀ x : BitVec w, x.getLsbD j = false := fun x => BitVec.getLsbD_of_ge _ _ (by omega)
    rw [h, h, if_neg (fun hc => hj hc.2)]

theorem getLsbD_setBit_self {w : Nat} (v : BitVec w) (i : Nat) (b : Bool) (h : i < w) :
    (setBit v i b).getLsbD i = b := by
  rw [getLsbD_setBit, if_pos ⟨rfl, h⟩]

theorem getLsbD_setBit_of_ne {w : Nat} (v : BitVec w) (i j : Nat) (b : Bool) (h : j ≠ i) :
    (setBit v i b).getLsbD j = v.getLsbD j := by
  rw [getLsbD_setBit, if_neg (fun hc => h hc.1)]

/-- Setting a bit to what it is changes nothing. -/
theorem setBit_getLsbD {w : Nat} (v : BitVec w) (i : Nat) : setBit v i (v.getLsbD i) = v := by
  apply BitVec.eq_of_getLsbD_eq
  intro j _
  rw [getLsbD_setBit]
  split
  · rename_i h
    rw [h.1]
  · rfl

/-! ## Flags -/

theorem Flag.bit_lt (f : Flag) : f.bit < 22 := by
  cases f <;> decide

theorem Flag.bit_injective {f g : Flag} (h : f.bit = g.bit) : f = g := by
  cases f <;> cases g <;> first | rfl | exact absurd h (by decide)

theorem getLsbD_setFlag (fl : Quad) (f : Flag) (b : Bool) (i : Nat) :
    (setFlag fl f b).getLsbD i = if i = f.bit then b else fl.getLsbD i := by
  have := f.bit_lt
  rw [setFlag, getLsbD_setBit]
  by_cases h : i = f.bit
  · rw [if_pos ⟨h, by omega⟩, if_pos h]
  · rw [if_neg (fun hc => h hc.1), if_neg h]

@[simp] theorem getFlag_setFlag_self (fl : Quad) (f : Flag) (b : Bool) : getFlag (setFlag fl f b) f = b := by
  rw [getFlag, getLsbD_setFlag, if_pos rfl]

theorem getFlag_setFlag_of_ne (fl : Quad) {f g : Flag} (b : Bool) (h : g ≠ f) :
    getFlag (setFlag fl f b) g = getFlag fl g := by
  rw [getFlag, getLsbD_setFlag, if_neg (fun hc => h (Flag.bit_injective hc))]
  rfl

/-- A flag read after a flag was written. -/
@[simp] theorem getFlag_setFlag (fl : Quad) (f g : Flag) (b : Bool) :
    getFlag (setFlag fl f b) g = if g = f then b else getFlag fl g := by
  split
  · rename_i h
    rw [h, getFlag_setFlag_self]
  · rename_i h
    exact getFlag_setFlag_of_ne fl b h

/-- A bit that is no status flag is untouched by a write of the status flags. -/
theorem getLsbD_setStatus_of_ne (fl : Quad) (f : StatusFlags) (i : Nat)
    (h : ∀ g ∈ [Flag.of, .sf, .zf, .af, .pf, .cf], g.bit ≠ i) : (setStatus fl f).getLsbD i = fl.getLsbD i := by
  have h' : ∀ g ∈ [Flag.of, .sf, .zf, .af, .pf, .cf], i ≠ g.bit := fun g hg hc => h g hg hc.symm
  simp only [setStatus, getLsbD_setFlag]
  rw [if_neg (h' _ (by simp)), if_neg (h' _ (by simp)), if_neg (h' _ (by simp)), if_neg (h' _ (by simp)),
    if_neg (h' _ (by simp)), if_neg (h' _ (by simp))]

/-- A bit that is none of the drawn flags is untouched by the draw. -/
theorem getLsbD_drawFlags_of_ne (s : State) (fs : List Flag) (i : Nat) (h : ∀ f ∈ fs, f.bit ≠ i) :
    (drawFlags s fs).rflags.getLsbD i = s.rflags.getLsbD i := by
  unfold drawFlags
  induction fs generalizing s with
  | nil => rfl
  | cons f fs ih =>
    rw [List.foldl_cons, ih _ (fun g hg => h g (List.mem_cons_of_mem _ hg)), drawFlag_rflags, getLsbD_setFlag,
      if_neg (fun hc => h f (List.mem_cons_self ..) hc.symm)]

/-- A flag that is none of the drawn flags is untouched by the draw. -/
theorem getFlag_drawFlags_of_ne (s : State) (fs : List Flag) (g : Flag) (h : g ∉ fs) :
    getFlag (drawFlags s fs).rflags g = getFlag s.rflags g :=
  getLsbD_drawFlags_of_ne s fs g.bit (fun _ hf hc => h (Flag.bit_injective hc ▸ hf))

/-! ## Little-endian byte lists -/

@[simp] theorem length_leBytes (n v : Nat) : (leBytes n v).length = n := by
  induction n generalizing v with
  | zero => rfl
  | succ n ih => simp [leBytes, ih]

/-- The `k`-th byte of a number. -/
theorem getElem_leBytes (n v k : Nat) (h : k < (leBytes n v).length) :
    (leBytes n v)[k] = BitVec.ofNat 8 (v / 256 ^ k) := by
  induction n generalizing v k with
  | zero => simp [leBytes] at h
  | succ n ih =>
    cases k with
    | zero => simp [leBytes]
    | succ k =>
      simp only [leBytes, List.getElem_cons_succ]
      rw [ih, Nat.div_div_eq_div_mul, Nat.pow_succ, Nat.mul_comm]

theorem ofLeBytes_lt (bs : List Byte) : ofLeBytes bs < 256 ^ bs.length := by
  induction bs with
  | nil => simp [ofLeBytes]
  | cons b bs ih =>
    have := b.isLt
    simp only [ofLeBytes, List.length_cons, Nat.pow_succ]
    omega

/-- The bytes of a number spell the number, reduced to that many bytes. -/
theorem ofLeBytes_leBytes (n v : Nat) : ofLeBytes (leBytes n v) = v % 256 ^ n := by
  induction n generalizing v with
  | zero => simp [leBytes, ofLeBytes, Nat.mod_one]
  | succ n ih =>
    have h : v % 256 ^ (n + 1) = v % 256 + 256 * (v / 256 % 256 ^ n) := by rw [Nat.pow_succ', Nat.mod_mul]
    rw [h, leBytes, ofLeBytes, ih, BitVec.toNat_ofNat]

/-- The number that bytes spell has those bytes. -/
theorem leBytes_ofLeBytes (bs : List Byte) : leBytes bs.length (ofLeBytes bs) = bs := by
  induction bs with
  | nil => rfl
  | cons b bs ih =>
    have := b.isLt
    simp only [ofLeBytes, List.length_cons, leBytes]
    congr 1
    · apply BitVec.eq_of_toNat_eq
      simp only [BitVec.toNat_ofNat]
      omega
    · rw [show (b.toNat + 256 * ofLeBytes bs) / 256 = ofLeBytes bs by omega, ih]

/-- The bytes of a bit vector spell the bit vector. -/
theorem ofNat_ofLeBytes_leBytes (n : Nat) (v : BitVec (8 * n)) :
    BitVec.ofNat (8 * n) (ofLeBytes (leBytes n v.toNat)) = v := by
  apply BitVec.eq_of_toNat_eq
  have h : (256 : Nat) ^ n = 2 ^ (8 * n) := by rw [Nat.pow_mul]
  rw [ofLeBytes_leBytes, BitVec.toNat_ofNat, h, Nat.mod_mod, Nat.mod_eq_of_lt v.isLt]

/-- The `k`-th byte of a bit vector is its bits `8k + 7` to `8k`. -/
theorem ofNat_div_eq_extractLsb' {w : Nat} (v : BitVec w) (k : Nat) :
    BitVec.ofNat 8 (v.toNat / 256 ^ k) = v.extractLsb' (8 * k) 8 := by
  apply BitVec.eq_of_toNat_eq
  have h : (256 : Nat) ^ k = 2 ^ (8 * k) := by rw [Nat.pow_mul]
  rw [BitVec.toNat_ofNat, BitVec.extractLsb'_toNat, Nat.shiftRight_eq_div_pow, h]

end Sys2Proof.Machine
end

