-- ==== Sys2Proof/Laws/Memory.lean ====
section
/-!
SUPPORT. Memory: its canonical form is kept by every operation, a byte reads as what was last written to it,
and what the accesses `memRead` and `memWrite` answer.
-/
namespace Sys2Proof.Machine

/-! ## The canonical form -/

/-- The canonical form, as a property of the list: addresses strictly rising, no byte listed that reads as an unlisted
one. -/
theorem Memory.wf_iff (m : Memory) :
    Memory.wf m = true ↔ m.Pairwise (fun c d => c.1 < d.1) ∧ ∀ c ∈ m, c.2 ≠ Config.unlistedByte := by
  induction m with
  | nil => simp [Memory.wf]
  | cons c m ih =>
    cases m with
    | nil => simp [Memory.wf]
    | cons d m =>
      rw [Memory.wf]
      simp only [Bool.and_eq_true, decide_eq_true_eq, bne_iff_ne, ih]
      constructor
      · rintro ⟨⟨hlt, hne⟩, hp, hall⟩
        refine ⟨List.pairwise_cons.2 ⟨fun e he => ?_, hp⟩, ?_⟩
        · rcases List.mem_cons.1 he with rfl | he
          · exact hlt
          · exact lt_trans hlt ((List.pairwise_cons.1 hp).1 e he)
        · intro e he
          rcases List.mem_cons.1 he with rfl | he
          · exact hne
          · exact hall e he
      · rintro ⟨hp, hall⟩
        have hp' := List.pairwise_cons.1 hp
        exact ⟨⟨hp'.1 d (List.mem_cons_self ..), hall c (List.mem_cons_self ..)⟩, hp'.2,
          fun e he => hall e (List.mem_cons_of_mem _ he)⟩

theorem Memory.wf_tail {c : Host.Cell} {m : Memory} (h : Memory.wf (c :: m) = true) : Memory.wf m = true := by
  rw [Memory.wf_iff] at h ⊢
  exact ⟨(List.pairwise_cons.1 h.1).2, fun d hd => h.2 d (List.mem_cons_of_mem _ hd)⟩

theorem Memory.head_lt {c : Host.Cell} {m : Memory} (h : Memory.wf (c :: m) = true) : ∀ d ∈ m, c.1 < d.1 :=
  (List.pairwise_cons.1 ((Memory.wf_iff _).1 h).1).1

theorem Memory.head_ne {c : Host.Cell} {m : Memory} (h : Memory.wf (c :: m) = true) : c.2 ≠ Config.unlistedByte :=
  ((Memory.wf_iff _).1 h).2 c (List.mem_cons_self ..)

/-- A byte below every listed one reads as unlisted. -/
theorem Memory.read_of_lt {m : Memory} {x : Nat} (h : ∀ c ∈ m, x < c.1) : Memory.read m x = Config.unlistedByte := by
  induction m with
  | nil => rfl
  | cons c m ih =>
    have hc : x ≠ c.1 := Nat.ne_of_lt (h c (List.mem_cons_self ..))
    rw [Memory.read, if_neg hc]
    exact ih fun d hd => h d (List.mem_cons_of_mem _ hd)

/-- The cells after a write are among the old ones and the written one. -/
theorem Memory.mem_write {m : Memory} {a : Nat} {v : Byte} {c : Host.Cell} (h : c ∈ Memory.write m a v) :
    c ∈ m ∨ c = (a, v) ∧ v ≠ Config.unlistedByte := by
  induction m with
  | nil =>
    simp only [Memory.write] at h
    split at h
    · exact .inl h
    · exact .inr ⟨by simpa using h, ‹_›⟩
  | cons d m ih =>
    rw [Memory.write] at h
    split at h
    · split at h
      · exact .inl h
      · rcases List.mem_cons.1 h with rfl | h
        · exact .inr ⟨rfl, ‹_›⟩
        · exact .inl h
    · split at h
      · split at h
        · exact .inl (List.mem_cons_of_mem _ h)
        · rcases List.mem_cons.1 h with rfl | h
          · exact .inr ⟨rfl, ‹_›⟩
          · exact .inl (List.mem_cons_of_mem _ h)
      · rcases List.mem_cons.1 h with rfl | h
        · exact .inl (List.mem_cons_self ..)
        · rcases ih h with h | h
          · exact .inl (List.mem_cons_of_mem _ h)
          · exact .inr h

/-- A write keeps the canonical form. -/
theorem Memory.wf_write {m : Memory} (h : Memory.wf m = true) (a : Nat) (v : Byte) :
    Memory.wf (Memory.write m a v) = true := by
  induction m with
  | nil =>
    rw [Memory.write]
    split
    · rfl
    · simpa [Memory.wf] using ‹_›
  | cons c m ih =>
    obtain ⟨hp, hall⟩ := (Memory.wf_iff _).1 h
    obtain ⟨hlt, hp'⟩ := List.pairwise_cons.1 hp
    rw [Memory.write]
    split
    · split
      · exact h
      · rename_i hac hv
        rw [Memory.wf_iff]
        refine ⟨List.pairwise_cons.2 ⟨fun d hd => ?_, hp⟩, fun d hd => ?_⟩
        · rcases List.mem_cons.1 hd with rfl | hd
          · exact hac
          · exact lt_trans hac (hlt d hd)
        · rcases List.mem_cons.1 hd with rfl | hd
          · exact hv
          · exact hall d hd
    · split
      · rename_i hac
        split
        · exact Memory.wf_tail h
        · rename_i hv
          rw [Memory.wf_iff]
          refine ⟨List.pairwise_cons.2 ⟨fun d hd => by simpa [hac] using hlt d hd, hp'⟩, fun d hd => ?_⟩
          rcases List.mem_cons.1 hd with rfl | hd
          · exact hv
          · exact hall d (List.mem_cons_of_mem _ hd)
      · rename_i hna hne
        have hw := ih (Memory.wf_tail h)
        rw [Memory.wf_iff] at hw ⊢
        refine ⟨List.pairwise_cons.2 ⟨fun d hd => ?_, hw.1⟩, fun d hd => ?_⟩
        · rcases Memory.mem_write hd with hd | ⟨rfl, -⟩
          · exact hlt d hd
          · show c.1 < a
            omega
        · rcases List.mem_cons.1 hd with rfl | hd
          · exact hall _ (List.mem_cons_self ..)
          · exact hw.2 d hd

/-- Read after write. -/
theorem Memory.read_write {m : Memory} (h : Memory.wf m = true) (a x : Nat) (v : Byte) :
    Memory.read (Memory.write m a v) x = if x = a then v else Memory.read m x := by
  induction m with
  | nil =>
    rw [Memory.write]
    split
    · rename_i hv
      subst hv
      split <;> rfl
    · rfl
  | cons c m ih =>
    obtain ⟨k, b⟩ := c
    have hlt : ∀ d ∈ m, k < d.1 := Memory.head_lt h
    rw [Memory.write]
    split
    · rename_i hak
      have hread : ∀ y, y ≤ a → Memory.read ((k, b) :: m) y = Config.unlistedByte := fun y hy =>
        Memory.read_of_lt fun d hd => by
          rcases List.mem_cons.1 hd with rfl | hd
          · show y < k
            omega
          · have := hlt d hd
            omega
      split
      · rename_i hv
        split
        · rename_i hx
          rw [hread x (by omega), hv]
        · rfl
      · rfl
    · split
      · rename_i hak
        subst hak
        split
        · rename_i hv
          by_cases hx : x = a
          · rw [if_pos hx, hx, Memory.read_of_lt hlt, hv]
          · rw [if_neg hx, Memory.read, if_neg hx]
        · by_cases hx : x = a
          · rw [if_pos hx, Memory.read, if_pos hx]
          · rw [if_neg hx, Memory.read, if_neg hx, Memory.read, if_neg hx]
      · rename_i hna hne
        rw [Memory.read, Memory.read, ih (Memory.wf_tail h)]
        by_cases hxk : x = k
        · rw [if_pos hxk, if_pos hxk, if_neg (by omega)]
        · rw [if_neg hxk, if_neg hxk]

/-! ## Runs of bytes -/

theorem Memory.wf_writeBytes {m : Memory} (h : Memory.wf m = true) (a : Nat) (bs : List Byte) :
    Memory.wf (Memory.writeBytes m a bs) = true := by
  induction bs generalizing m a with
  | nil => exact h
  | cons b bs ih => exact ih (Memory.wf_write h a b) (a + 1)

/-- A byte outside the stored run reads as before. -/
theorem Memory.read_writeBytes_outside {m : Memory} (h : Memory.wf m = true) (a x : Nat) (bs : List Byte)
    (hx : x < a ∨ a + bs.length ≤ x) : Memory.read (Memory.writeBytes m a bs) x = Memory.read m x := by
  induction bs generalizing m a with
  | nil => rfl
  | cons b bs ih =>
    rw [List.length_cons] at hx
    rw [Memory.writeBytes, ih (Memory.wf_write h a b) (a + 1) (by omega), Memory.read_write h, if_neg (by omega)]

/-- A byte of the stored run reads as stored. -/
theorem Memory.read_writeBytes_inside {m : Memory} (h : Memory.wf m = true) (a k : Nat) (bs : List Byte)
    (hk : k < bs.length) : Memory.read (Memory.writeBytes m a bs) (a + k) = bs[k] := by
  induction bs generalizing m a k with
  | nil => simp at hk
  | cons b bs ih =>
    cases k with
    | zero =>
      rw [Memory.writeBytes, Memory.read_writeBytes_outside (Memory.wf_write h a b) _ _ _ (by omega),
        Memory.read_write h, if_pos (Nat.add_zero a)]
      rfl
    | succ k =>
      rw [List.length_cons] at hk
      rw [Memory.writeBytes, show a + (k + 1) = a + 1 + k by omega, ih (Memory.wf_write h a b) (a + 1) k (by omega)]
      rfl

/-- Every cell after a store is an old one or lies in the stored run. -/
theorem Memory.mem_writeBytes {m : Memory} {a : Nat} {bs : List Byte} {c : Host.Cell}
    (h : c ∈ Memory.writeBytes m a bs) : c ∈ m ∨ a ≤ c.1 ∧ c.1 < a + bs.length := by
  induction bs generalizing m a with
  | nil => exact .inl h
  | cons b bs ih =>
    rw [List.length_cons]
    rcases ih h with h | h
    · rcases Memory.mem_write h with h | ⟨rfl, -⟩
      · exact .inl h
      · exact .inr ⟨Nat.le_refl _, by show a < _; omega⟩
    · exact .inr ⟨by omega, by omega⟩

@[simp] theorem Memory.length_readBytes (m : Memory) (a n : Nat) : (Memory.readBytes m a n).length = n := by
  induction n generalizing a with
  | zero => rfl
  | succ n ih => simp [Memory.readBytes, ih]

theorem Memory.getElem_readBytes (m : Memory) (a n k : Nat) (h : k < (Memory.readBytes m a n).length) :
    (Memory.readBytes m a n)[k] = Memory.read m (a + k) := by
  induction n generalizing a k with
  | zero => simp [Memory.readBytes] at h
  | succ n ih =>
    cases k with
    | zero => rfl
    | succ k =>
      simp only [Memory.readBytes, List.getElem_cons_succ]
      rw [ih]
      congr 1
      omega

/-- Two memories that agree on a run of bytes read the same run. -/
theorem Memory.readBytes_congr {m m' : Memory} {a n : Nat}
    (h : ∀ k < n, Memory.read m (a + k) = Memory.read m' (a + k)) :
    Memory.readBytes m a n = Memory.readBytes m' a n := by
  apply List.ext_getElem (by simp)
  intro k h1 h2
  rw [Memory.length_readBytes] at h1
  rw [Memory.getElem_readBytes, Memory.getElem_readBytes, h k h1]

/-- What a store leaves: its bytes, and every other byte as before. -/
theorem stored_storeBytes {s : State} (h : Memory.wf s.mem = true) (a : Quad) (n : Nat) (v : BitVec (8 * n)) :
    Stored a n v s (storeBytes s a n v) := by
  constructor
  · intro k hk
    rw [storeBytes_mem, Memory.read_writeBytes_inside h _ _ _ (by simpa using hk), getElem_leBytes,
      ofNat_div_eq_extractLsb']
  · intro x hx
    rw [storeBytes_mem, Memory.read_writeBytes_outside h _ _ _ (by simpa using hx)]

/-- What is stored is read back. -/
theorem memValue_storeBytes {s : State} (h : Memory.wf s.mem = true) (a : Quad) (n : Nat) (v : BitVec (8 * n)) :
    memValue (storeBytes s a n v) a n = v := by
  have hb : Memory.readBytes (storeBytes s a n v).mem a.toNat n = leBytes n v.toNat := by
    apply List.ext_getElem (by simp)
    intro k h1 h2
    rw [Memory.length_readBytes] at h1
    rw [Memory.getElem_readBytes, storeBytes_mem, Memory.read_writeBytes_inside h _ _ _ (by simpa using h1)]
  rw [memValue, hb, ofNat_ofLeBytes_leBytes]

/-! ## Accesses -/

theorem admitsAll_iff (s : State) (k : Access) (a n : Nat) :
    admitsAll s k a n = true ↔ ∀ j < n, admits s k (a + j) = true := by
  induction n generalizing a with
  | zero => simp [admitsAll]
  | succ n ih =>
    rw [admitsAll, Bool.and_eq_true, ih]
    constructor
    · rintro ⟨h0, h⟩ j hj
      cases j with
      | zero => exact h0
      | succ j => simpa [Nat.add_assoc, Nat.add_comm 1] using h j (by omega)
    · intro h
      refine ⟨h 0 (by omega), fun j hj => ?_⟩
      simpa [Nat.add_assoc, Nat.add_comm 1] using h (j + 1) (by omega)

theorem touchesCode_eq_false_iff (s : State) (a n : Nat) :
    touchesCode s a n = false ↔ ∀ j < n, admits s .fetch (a + j) = false := by
  induction n generalizing a with
  | zero => simp [touchesCode]
  | succ n ih =>
    rw [touchesCode, Bool.or_eq_false_iff, ih]
    constructor
    · rintro ⟨h0, h⟩ j hj
      cases j with
      | zero => exact h0
      | succ j => simpa [Nat.add_assoc, Nat.add_comm 1] using h j (by omega)
    · intro h
      refine ⟨h 0 (by omega), fun j hj => ?_⟩
      simpa [Nat.add_assoc, Nat.add_comm 1] using h (j + 1) (by omega)

theorem misaligned_eq_false_iff (s : State) (a : Quad) (n : Nat) :
    misaligned s a.toNat n = false ↔ AlignedFor s a n := by
  unfold misaligned
  rw [← Bool.not_eq_true]
  simp only [Bool.and_eq_true, Bool.or_eq_true, beq_iff_eq, bne_iff_ne, AlignedFor, AlignmentChecked]
  tauto

/-- When a read completes, and what it then answers. -/
theorem memRead_of_readable {s : State} {a : Quad} {n : Nat} (h : Readable s a n) :
    memRead s a n = .ok (memValue s a n) := by
  rw [memRead, (admitsAll_iff ..).2 h.1, (misaligned_eq_false_iff ..).2 h.2]
  rfl

/-- When a write completes, and what it then answers. -/
theorem memWrite_of_writable {s : State} {a : Quad} {n : Nat} (h : Writable s a n) (v : BitVec (8 * n)) :
    memWrite s a n v = .ok (storeBytes s a n v) := by
  rw [memWrite, (touchesCode_eq_false_iff ..).2 h.2.1, (admitsAll_iff ..).2 h.1, (misaligned_eq_false_iff ..).2 h.2.2]
  rfl

/-- Everything a read can answer. -/
theorem memRead_cases (s : State) (a : Quad) (n : Nat) :
    (Readable s a n ∧ memRead s a n = .ok (memValue s a n)) ∨
      (¬ Admitted s .read a n ∧ memRead s a n = .error (.refusal .outsideLaunchMemory)) ∨
      (Admitted s .read a n ∧ ¬ AlignedFor s a n ∧ memRead s a n = .error (.fault .alignmentCheck)) := by
  by_cases h1 : Admitted s .read a n
  · by_cases h2 : AlignedFor s a n
    · exact .inl ⟨⟨h1, h2⟩, memRead_of_readable ⟨h1, h2⟩⟩
    · have hm : misaligned s a.toNat n = true := by
        rw [← misaligned_eq_false_iff, Bool.not_eq_false] at h2
        exact h2
      refine .inr (.inr ⟨h1, h2, ?_⟩)
      rw [memRead, (admitsAll_iff ..).2 h1, hm]
      rfl
  · have ha : admitsAll s .read a.toNat n = false := by
      rw [Admitted, ← admitsAll_iff, Bool.not_eq_true] at h1
      exact h1
    refine .inr (.inl ⟨h1, ?_⟩)
    rw [memRead, ha]
    rfl

/-- Everything a write can answer. -/
theorem memWrite_cases (s : State) (a : Quad) (n : Nat) (v : BitVec (8 * n)) :
    (Writable s a n ∧ memWrite s a n v = .ok (storeBytes s a n v)) ∨
      (¬ OffCode s a n ∧ memWrite s a n v = .error (.refusal .writeToCode)) ∨
      (OffCode s a n ∧ ¬ Admitted s .write a n ∧ memWrite s a n v = .error (.refusal .outsideLaunchMemory)) ∨
      (OffCode s a n ∧ Admitted s .write a n ∧ ¬ AlignedFor s a n ∧
        memWrite s a n v = .error (.fault .alignmentCheck)) := by
  by_cases h0 : OffCode s a n
  · have ht := (touchesCode_eq_false_iff ..).2 h0
    by_cases h1 : Admitted s .write a n
    · have ha := (admitsAll_iff ..).2 h1
      by_cases h2 : AlignedFor s a n
      · exact .inl ⟨⟨h1, h0, h2⟩, memWrite_of_writable ⟨h1, h0, h2⟩ v⟩
      · have hm : misaligned s a.toNat n = true := by
          rw [← misaligned_eq_false_iff, Bool.not_eq_false] at h2
          exact h2
        refine .inr (.inr (.inr ⟨h0, h1, h2, ?_⟩))
        rw [memWrite, ht, ha, hm]
        rfl
    · have ha : admitsAll s .write a.toNat n = false := by
        rw [Admitted, ← admitsAll_iff, Bool.not_eq_true] at h1
        exact h1
      refine .inr (.inr (.inl ⟨h0, h1, ?_⟩))
      rw [memWrite, ht, ha]
      rfl
  · have ht : touchesCode s a.toNat n = true := by
      rw [OffCode, ← touchesCode_eq_false_iff, Bool.not_eq_false] at h0
      exact h0
    refine .inr (.inl ⟨h0, ?_⟩)
    rw [memWrite, ht]
    rfl

/-- A read that answers a value was readable. -/
theorem memRead_ok {s : State} {a : Quad} {n : Nat} {v : BitVec (8 * n)} (h : memRead s a n = .ok v) :
    Readable s a n ∧ v = memValue s a n := by
  rcases memRead_cases s a n with ⟨hr, e⟩ | ⟨-, e⟩ | ⟨-, -, e⟩ <;> rw [e] at h <;> cases h
  exact ⟨hr, rfl⟩

/-- A write that answers a state was writable. -/
theorem memWrite_ok {s t : State} {a : Quad} {n : Nat} {v : BitVec (8 * n)} (h : memWrite s a n v = .ok t) :
    Writable s a n ∧ t = storeBytes s a n v := by
  rcases memWrite_cases s a n v with ⟨hw, e⟩ | ⟨-, e⟩ | ⟨-, -, e⟩ | ⟨-, -, -, e⟩ <;> rw [e] at h <;> cases h
  exact ⟨hw, rfl⟩

/-- Every memory operation of the machine keeps the canonical form: a store. -/
theorem wf_storeBytes {s : State} (h : Memory.wf s.mem = true) (a : Quad) (n : Nat) (v : BitVec (8 * n)) :
    Memory.wf (storeBytes s a n v).mem = true := by
  rw [storeBytes_mem]
  exact Memory.wf_writeBytes h _ _

theorem wf_memWrite {s t : State} (h : Memory.wf s.mem = true) {a : Quad} {n : Nat} {v : BitVec (8 * n)}
    (hw : memWrite s a n v = .ok t) : Memory.wf t.mem = true := by
  rw [(memWrite_ok hw).2]
  exact wf_storeBytes h a n v

/-- Every memory operation of the machine keeps the canonical form: the placing of code. -/
theorem wf_placeCode {s : State} (h : Memory.wf s.mem = true) (a : Nat) (bs : List Byte) :
    Memory.wf (placeCode s a bs).mem = true :=
  Memory.wf_writeBytes h a bs

/-- The canonical form holds at reset. -/
theorem wf_reset : Memory.wf State.reset.mem = true := rfl

end Sys2Proof.Machine
end

