-- ==== Sys2Proof/Laws/Registers.lean ====
section
/-!
SUPPORT. Registers: a register reads as what was last written to it, and a write leaves the other registers alone.
-/
namespace Sys2Proof.Machine

/-! ## Register files -/

@[simp] theorem GprFile.get_set (g : GprFile) (r q : Gpr) (v : Quad) :
    (g.set r v).get q = if q = r then v else g.get q := by
  cases r <;> cases q <;> rfl

@[simp] theorem SegFile.get_set {α : Type} (f : SegFile α) (r q : SegReg) (v : α) :
    (f.set r v).get q = if q = r then v else f.get q := by
  cases r <;> cases q <;> rfl

/-- Two register files that agree on every register are equal. -/
theorem GprFile.ext_get {g g' : GprFile} (h : ∀ r, g.get r = g'.get r) : g = g' := by
  cases g
  cases g'
  rw [GprFile.mk.injEq]
  exact ⟨h .rax, h .rcx, h .rdx, h .rbx, h .rsp, h .rbp, h .rsi, h .rdi, h .r8, h .r9, h .r10, h .r11, h .r12, h .r13,
    h .r14, h .r15⟩

/-! ## Partial writes -/

/-- The bits of a register after a write: the written ones, and above them the old ones for 8 and 16 bits, zeros for
32. -/
theorem getLsbD_mergeLow (w : Width) (old : Quad) (v : BitVec w.bits) (i : Nat) :
    (mergeLow w old v).getLsbD i =
      if i < w.bits then v.getLsbD i else (w == .b8 || w == .b16) && old.getLsbD i := by
  by_cases hi : i < w.bits
  · rw [if_pos hi]
    cases w
    · exact (BitVec.getLsbD_append (x := old.extractLsb' 8 56) (y := v.setWidth 8)).trans (by
        rw [if_pos (show i < 8 from hi)]
        exact congrArg (BitVec.getLsbD · i) (BitVec.setWidth_eq v))
    · exact (BitVec.getLsbD_append (x := old.extractLsb' 16 48) (y := v.setWidth 16)).trans (by
        rw [if_pos (show i < 16 from hi)]
        exact congrArg (BitVec.getLsbD · i) (BitVec.setWidth_eq v))
    all_goals
      simp only [Width.bits, Width.bytes] at hi
      simp only [mergeLow, BitVec.getLsbD_setWidth, Bool.and_eq_right_iff_imp, decide_eq_true_eq]
      omega
  · rw [if_neg hi]
    have h64 : 64 ≤ i → old.getLsbD i = false := fun h => BitVec.getLsbD_of_ge _ _ h
    cases w
    · refine (BitVec.getLsbD_append (x := old.extractLsb' 8 56) (y := v.setWidth 8)).trans ?_
      simp only [Width.bits, Width.bytes] at hi
      rw [if_neg hi, BitVec.getLsbD_extractLsb', show 8 + (i - 8) = i by omega]
      by_cases h : i < 64
      · simp [show i - 8 < 56 by omega]
      · simp [h64 (by omega)]
    · refine (BitVec.getLsbD_append (x := old.extractLsb' 16 48) (y := v.setWidth 16)).trans ?_
      simp only [Width.bits, Width.bytes] at hi
      rw [if_neg hi, BitVec.getLsbD_extractLsb', show 16 + (i - 16) = i by omega]
      by_cases h : i < 64
      · simp [show i - 16 < 48 by omega]
      · simp [h64 (by omega)]
    all_goals
      rw [mergeLow, BitVec.getLsbD_setWidth, BitVec.getLsbD_of_ge v i (by omega)]
      simp

/-- The bits of a register after a write of its bits 15:8. -/
theorem getLsbD_mergeHigh (old : Quad) (v : Byte) (i : Nat) :
    (mergeHigh old v).getLsbD i = if 8 ≤ i ∧ i < 16 then v.getLsbD (i - 8) else old.getLsbD i := by
  have h64 : 64 ≤ i → old.getLsbD i = false := fun h => BitVec.getLsbD_of_ge _ _ h
  refine (BitVec.getLsbD_append (x := (old.extractLsb' 16 48 ++ v : BitVec (48 + 8))) (y := old.extractLsb' 0 8)).trans ?_
  rw [BitVec.getLsbD_append, BitVec.getLsbD_extractLsb', BitVec.getLsbD_extractLsb']
  by_cases h8 : i < 8
  · rw [if_pos h8, if_neg (by omega)]
    simp [h8]
  · rw [if_neg h8]
    by_cases h16 : i < 16
    · rw [if_pos (by omega), if_pos (by omega)]
    · rw [if_neg (by omega), if_neg (by omega), show 16 + (i - 8 - 8) = i by omega]
      by_cases h : i < 64
      · simp [show i - 8 - 8 < 48 by omega]
      · simp [h64 (by omega)]

/-- The written part of a register reads as written. -/
theorem setWidth_mergeLow (w : Width) (old : Quad) (v : BitVec w.bits) : (mergeLow w old v).setWidth w.bits = v := by
  apply BitVec.eq_of_getLsbD_eq
  intro i hi
  simp [getLsbD_mergeLow, hi]

/-- A byte written to bits 15:8 reads back from there. -/
theorem setWidth_shift_mergeHigh (old : Quad) (v : Byte) : ((mergeHigh old v) >>> 8).setWidth 8 = v := by
  apply BitVec.eq_of_getLsbD_eq
  intro i hi
  rw [BitVec.getLsbD_setWidth, BitVec.getLsbD_ushiftRight, getLsbD_mergeHigh, if_pos (by omega)]
  simp [hi]

/-! ## Register access -/

/-- The 64 bits that a write of `v` at width `w` leaves in the register that `r` is part of. -/
def writtenGpr (w : Width) (r : Reg8) (v : BitVec w.bits) (s : State) : Quad :=
  match r with
  | .lo g => mergeLow w (s.gpr.get g) v
  | .hi h => mergeHigh (s.gpr.get (highGpr h)) (v.setWidth 8)

theorem writeReg_gpr (w : Width) (r : Reg8) (v : BitVec w.bits) (s : State) :
    (writeReg w r v s).gpr = s.gpr.set (wholeGpr r) (writtenGpr w r v s) := by
  cases r <;> rfl

theorem get_writeReg (w : Width) (r : Reg8) (v : BitVec w.bits) (s : State) (q : Gpr) :
    (writeReg w r v s).gpr.get q = if q = wholeGpr r then writtenGpr w r v s else s.gpr.get q := by
  rw [writeReg_gpr, GprFile.get_set]

/-- A write leaves every other general register alone. -/
theorem gprSameBut_writeReg (w : Width) (r : Reg8) (v : BitVec w.bits) (s : State) :
    GprSameBut [wholeGpr r] s (writeReg w r v s) := by
  intro q hq
  rw [get_writeReg, if_neg (by simpa using hq)]

/-- A high byte stands only in byte instructions. -/
def highOnlyByte (w : Width) : Reg8 → Prop
  | .lo _ => True
  | .hi _ => w = .b8

/-- A register reads as what was written to it. -/
theorem readReg_writeReg (w : Width) (r : Reg8) (v : BitVec w.bits) (s : State) (h : highOnlyByte w r) :
    readReg w r (writeReg w r v s) = v := by
  cases r with
  | lo g =>
    have hg : (writeReg w (.lo g) v s).gpr.get g = mergeLow w (s.gpr.get g) v := by simp [writeReg]
    rw [readReg, hg, setWidth_mergeLow]
  | hi g =>
    cases h
    have hg : (writeReg .b8 (.hi g) v s).gpr.get (highGpr g) = mergeHigh (s.gpr.get (highGpr g)) (v.setWidth 8) := by
      simp [writeReg]
    rw [readReg, hg]
    exact (setWidth_shift_mergeHigh _ _).trans (BitVec.setWidth_eq v)

/-- What a register reads depends on the general registers alone. -/
theorem readReg_congr {s t : State} (h : t.gpr = s.gpr) (w : Width) (r : Reg8) : readReg w r t = readReg w r s := by
  cases r <;> simp only [readReg, h]

theorem readAddrReg_congr {s t : State} (hg : t.gpr = s.gpr) (hl : t.launch = s.launch) (r : Gpr) :
    readAddrReg r t = readAddrReg r s := by
  rw [readAddrReg, readAddrReg, hg, hl]

/-- A write is what the claims call written. -/
theorem regWritten_of_gpr {w : Width} {r : Reg8} {v : BitVec w.bits} {s t : State}
    (hg : t.gpr = (writeReg w r v s).gpr) (h : highOnlyByte w r) : RegWritten w r v s t := by
  refine ⟨hg, ?_, fun q hq => ?_⟩
  · rw [readReg_congr hg, readReg_writeReg w r v s h]
  · rw [hg]
    exact gprSameBut_writeReg w r v s q hq

/-! ## Addresses -/

@[simp] theorem truncAddr_truncAddr (md : Mode) (a : Quad) : truncAddr md (truncAddr md a) = truncAddr md a := by
  cases md with
  | long64 => rfl
  | prot32 =>
    apply BitVec.eq_of_getLsbD_eq
    intro i hi
    simp only [truncAddr, BitVec.getLsbD_setWidth]
    by_cases h : i < 32 <;> simp [h]

/-- An address of PROT32 has 32 bits. -/
theorem truncAddr_prot32_lt (a : Quad) : (truncAddr .prot32 a).toNat < 2 ^ 32 := by
  simp only [truncAddr, BitVec.toNat_setWidth]
  omega

end Sys2Proof.Machine
end

