-- ==== Sys2Proof/Laws/Operations.lean ====
section
/-!
SUPPORT. For each shared operation one lemma that says when it answers a state and which one: later proofs cite it instead
of unfolding the operation.
-/
namespace Sys2Proof.Machine

/-! ## Sequencing -/

theorem bind_eq_ok_iff {α β : Type} {x : Res α} {f : α → Res β} {b : β} :
    (x >>= f) = .ok b ↔ ∃ a, x = .ok a ∧ f a = .ok b := by
  cases x with
  | ok a =>
    constructor
    · exact fun h => ⟨a, rfl, h⟩
    · rintro ⟨_, h, h'⟩
      cases h
      exact h'
  | error e =>
    constructor
    · intro h
      cases h
    · rintro ⟨_, h, _⟩
      cases h

theorem bind_eq_error_iff {α β : Type} {x : Res α} {f : α → Res β} {e : Stop} :
    (x >>= f) = .error e ↔ x = .error e ∨ ∃ a, x = .ok a ∧ f a = .error e := by
  cases x with
  | ok a =>
    constructor
    · exact fun h => .inr ⟨a, rfl, h⟩
    · rintro (h | ⟨_, h, h'⟩)
      · cases h
      · cases h
        exact h'
  | error e' =>
    constructor
    · exact fun h => .inl (by cases h; rfl)
    · rintro (h | ⟨_, h, _⟩)
      · cases h
        rfl
      · cases h

@[simp] theorem raise_ne_ok {α : Type} (f : Fault) (a : α) : (raise f : Res α) ≠ .ok a := by
  intro h
  cases h

@[simp] theorem refuse_ne_ok {α : Type} (r : Refusal) (a : α) : (refuse r : Res α) ≠ .ok a := by
  intro h
  cases h

/-! ## Outcomes -/

theorem toOutcome_eq_next_iff {r : Res State} {t : State} : toOutcome r = .next t ↔ r = .ok t := by
  cases r with
  | ok s => simp [toOutcome]
  | error e => cases e <;> simp [toOutcome]

theorem toOutcome_eq_fault_iff {r : Res State} {f : Fault} : toOutcome r = .fault f ↔ r = .error (.fault f) := by
  cases r with
  | ok s => simp [toOutcome]
  | error e => cases e <;> simp [toOutcome]

theorem toOutcome_eq_refused_iff {r : Res State} {q : Refusal} :
    toOutcome r = .refused q ↔ r = .error (.refusal q) := by
  cases r with
  | ok s => simp [toOutcome]
  | error e => cases e <;> simp [toOutcome]

/-- An instruction that does not write `pc` ends at the next instruction. -/
theorem finish_eq_next_iff {r : Res State} {t : State} : finish r = .next t ↔ ∃ u, r = .ok u ∧ t = advance u := by
  cases r with
  | ok s => simp [finish, toOutcome, Except.map, eq_comm]
  | error e => cases e <;> simp [finish, toOutcome, Except.map]

theorem finish_eq_fault_iff {r : Res State} {f : Fault} : finish r = .fault f ↔ r = .error (.fault f) := by
  cases r with
  | ok s => simp [finish, toOutcome, Except.map]
  | error e => cases e <;> simp [finish, toOutcome, Except.map]

theorem finish_eq_refused_iff {r : Res State} {q : Refusal} : finish r = .refused q ↔ r = .error (.refusal q) := by
  cases r with
  | ok s => simp [finish, toOutcome, Except.map]
  | error e => cases e <;> simp [finish, toOutcome, Except.map]

theorem finish_ok (s : State) : finish (.ok s) = .next (advance s) := rfl

/-! ## Operands -/

theorem memRead_eq_ok_iff {s : State} {a : Quad} {n : Nat} {v : BitVec (8 * n)} :
    memRead s a n = .ok v ↔ Readable s a n ∧ v = memValue s a n :=
  ⟨memRead_ok, fun h => by rw [memRead_of_readable h.1, h.2]⟩

theorem memWrite_eq_ok_iff {s t : State} {a : Quad} {n : Nat} {v : BitVec (8 * n)} :
    memWrite s a n v = .ok t ↔ Writable s a n ∧ t = storeBytes s a n v :=
  ⟨memWrite_ok, fun h => by rw [memWrite_of_writable h.1, h.2]⟩

theorem readRm_eq_ok_iff {w : Width} {rm : Rm Reg8} {s : State} {v : BitVec w.bits} :
    readRm w rm s = .ok v ↔ RmReadable w rm s ∧ v = rmValue w rm s := by
  cases rm with
  | reg r => simp [readRm, RmReadable, rmValue, eq_comm]
  | mem m => exact memRead_eq_ok_iff

theorem writeRm_eq_ok_iff {w : Width} {rm : Rm Reg8} {s t : State} {v : BitVec w.bits} :
    writeRm w rm v s = .ok t ↔ RmWritable w rm s ∧ t = storeRm w rm v s := by
  cases rm with
  | reg r => simp [writeRm, RmWritable, storeRm, eq_comm]
  | mem m => exact memWrite_eq_ok_iff

/-- What a write of an r/m operand leaves is what the claims call written. -/
theorem rmWritten_of_storeRm {w : Width} {rm : Rm Reg8} {v : BitVec w.bits} {s t : State}
    (hwf : Memory.wf s.mem = true) (hrm : ∀ r, rm = .reg r → highOnlyByte w r)
    (hg : t.gpr = (storeRm w rm v s).gpr) (hm : t.mem = (storeRm w rm v s).mem) : RmWritten w rm v s t := by
  cases rm with
  | reg r => exact ⟨regWritten_of_gpr hg (hrm r rfl), fun x => by rw [hm, storeRm, writeReg_mem]⟩
  | mem m =>
    have h := stored_storeBytes hwf (operandAddr s m) w.bytes v
    exact ⟨hg, fun k hk => by rw [hm]; exact h.1 k hk, fun x hx => by rw [hm]; exact h.2 x hx⟩

/-- A far pointer is read when all its bytes are admitted and both parts pass the alignment check. -/
theorem readFarPointer_eq_ok_iff {w : Width} {s : State} {a : Quad} {p : BitVec 16 × BitVec w.bits} :
    readFarPointer w s a = .ok p ↔
      Admitted s .read a (w.bytes + 2) ∧ Readable s a w.bytes ∧ Readable s (a + BitVec.ofNat 64 w.bytes) 2 ∧
        p = (memValue s (a + BitVec.ofNat 64 w.bytes) 2, memValue s a w.bytes) := by
  have hall := admitsAll_iff s .read a.toNat (w.bytes + 2)
  unfold readFarPointer
  cases h : admitsAll s .read a.toNat (w.bytes + 2) with
  | false =>
    rw [h] at hall
    exact ⟨fun e => absurd e (by simp), fun e => absurd (hall.2 e.1) (by simp)⟩
  | true =>
    simp only [Bool.not_true, Bool.false_eq_true, if_false, bind_eq_ok_iff, memRead_eq_ok_iff]
    constructor
    · rintro ⟨off, ⟨ho, rfl⟩, sel, ⟨hs, rfl⟩, e⟩
      exact ⟨hall.1 h, ho, hs, (Except.ok.inj e).symm⟩
    · rintro ⟨-, ho, hs, rfl⟩
      exact ⟨_, ⟨ho, rfl⟩, _, ⟨hs, rfl⟩, rfl⟩

/-! ## The stack -/

theorem push_eq_ok_iff {w : Width} {v : BitVec w.bits} {s t : State} :
    push w v s = .ok t ↔
      Writable s (pushAddr s w.bytes) w.bytes ∧
        t = writeAddrReg .rsp (readAddrReg .rsp s - BitVec.ofNat 64 w.bytes)
          (storeBytes s (pushAddr s w.bytes) w.bytes v) := by
  simp only [push, bind_eq_ok_iff, memWrite_eq_ok_iff]
  constructor
  · rintro ⟨u, ⟨hw, rfl⟩, h⟩
    exact ⟨hw, (Except.ok.inj h).symm⟩
  · rintro ⟨hw, rfl⟩
    exact ⟨_, ⟨hw, rfl⟩, rfl⟩

theorem pop_eq_ok_iff {w : Width} {s t : State} {v : BitVec w.bits} :
    pop w s = .ok (v, t) ↔
      Readable s (popAddr s) w.bytes ∧ v = memValue s (popAddr s) w.bytes ∧
        t = writeAddrReg .rsp (readAddrReg .rsp s + BitVec.ofNat 64 w.bytes) s := by
  simp only [pop, bind_eq_ok_iff, memRead_eq_ok_iff]
  constructor
  · rintro ⟨u, ⟨hr, rfl⟩, h⟩
    cases h
    exact ⟨hr, rfl, rfl⟩
  · rintro ⟨hr, rfl, rfl⟩
    exact ⟨_, ⟨hr, rfl⟩, rfl⟩

/-! ## Arithmetic -/

theorem aluRm_eq_ok_iff {op : AluOp} {w : Width} {dst : Rm Reg8} {b : BitVec w.bits} {s t : State} :
    aluRm op w dst b s = .ok t ↔
      RmReadable w dst s ∧ RmWritable w dst s ∧
        t = withFlags (storeRm w dst (aluResult op (rmValue w dst s) b (carry s)).1 s)
          (setStatus s.rflags (aluResult op (rmValue w dst s) b (carry s)).2) := by
  simp only [aluRm, bind_eq_ok_iff, readRm_eq_ok_iff, writeRm_eq_ok_iff]
  constructor
  · rintro ⟨a, ⟨hr, rfl⟩, u, ⟨hw, rfl⟩, h⟩
    exact ⟨hr, hw, (Except.ok.inj h).symm⟩
  · rintro ⟨hr, hw, rfl⟩
    exact ⟨_, ⟨hr, rfl⟩, _, ⟨hw, rfl⟩, rfl⟩

theorem aluReg_eq_ok_iff {op : AluOp} {w : Width} {dst : Reg8} {src : Rm Reg8} {s t : State} :
    aluReg op w dst src s = .ok t ↔
      RmReadable w src s ∧
        t = withFlags (writeReg w dst (aluResult op (readReg w dst s) (rmValue w src s) (carry s)).1 s)
          (setStatus s.rflags (aluResult op (readReg w dst s) (rmValue w src s) (carry s)).2) := by
  simp only [aluReg, bind_eq_ok_iff, readRm_eq_ok_iff]
  constructor
  · rintro ⟨b, ⟨hr, rfl⟩, h⟩
    exact ⟨hr, (Except.ok.inj h).symm⟩
  · rintro ⟨hr, rfl⟩
    exact ⟨_, ⟨hr, rfl⟩, rfl⟩

/-- What MUL leaves, from the product. -/
def mulLeaves (w : Width) (p : Nat) (s : State) : State :=
  drawFlags
    (withFlags (writePair w (BitVec.ofNat w.bits (p / 2 ^ w.bits)) (BitVec.ofNat w.bits p) s)
      (setFlag (setFlag s.rflags .cf (decide (p / 2 ^ w.bits ≠ 0))) .of (decide (p / 2 ^ w.bits ≠ 0))))
    [.sf, .zf, .af, .pf]

theorem mulOp_eq_ok_iff {w : Width} {src : Rm Reg8} {s t : State} :
    mulOp w src s = .ok t ↔
      RmReadable w src s ∧ t = mulLeaves w ((readReg w (.lo .rax) s).toNat * (rmValue w src s).toNat) s := by
  simp only [mulOp, bind_eq_ok_iff, readRm_eq_ok_iff]
  constructor
  · rintro ⟨b, ⟨hr, rfl⟩, h⟩
    exact ⟨hr, (Except.ok.inj h).symm⟩
  · rintro ⟨hr, rfl⟩
    exact ⟨_, ⟨hr, rfl⟩, rfl⟩

theorem divOp_eq_ok_iff {w : Width} {src : Rm Reg8} {s t : State} :
    divOp w src s = .ok t ↔
      RmReadable w src s ∧ (rmValue w src s).toNat ≠ 0 ∧ (readPair w s).toNat / (rmValue w src s).toNat < 2 ^ w.bits ∧
        t = divResult w (BitVec.ofNat w.bits ((readPair w s).toNat / (rmValue w src s).toNat))
          (BitVec.ofNat w.bits ((readPair w s).toNat % (rmValue w src s).toNat)) s := by
  simp only [divOp, bind_eq_ok_iff, readRm_eq_ok_iff]
  constructor
  · rintro ⟨b, ⟨hr, rfl⟩, h⟩
    split at h
    · cases h
    · split at h
      · cases h
      · exact ⟨hr, ‹_›, Nat.lt_of_not_le ‹_›, (Except.ok.inj h).symm⟩
  · rintro ⟨hr, h0, hq, rfl⟩
    exact ⟨_, ⟨hr, rfl⟩, by rw [if_neg h0, if_neg (Nat.not_le.2 hq)]⟩

theorem idivOp_eq_ok_iff {w : Width} {src : Rm Reg8} {s t : State} :
    idivOp w src s = .ok t ↔
      RmReadable w src s ∧ (rmValue w src s).toInt ≠ 0 ∧
        -2 ^ (w.bits - 1) ≤ (readPair w s).toInt.tdiv (rmValue w src s).toInt ∧
        (readPair w s).toInt.tdiv (rmValue w src s).toInt ≤ 2 ^ (w.bits - 1) - 1 ∧
        t = divResult w (BitVec.ofInt w.bits ((readPair w s).toInt.tdiv (rmValue w src s).toInt))
          (BitVec.ofInt w.bits ((readPair w s).toInt.tmod (rmValue w src s).toInt)) s := by
  simp only [idivOp, bind_eq_ok_iff, readRm_eq_ok_iff]
  constructor
  · rintro ⟨b, ⟨hr, rfl⟩, h⟩
    split at h
    · cases h
    · split at h
      · cases h
      · rename_i h0 hq
        exact ⟨hr, h0, Int.not_lt.1 fun hc => hq (.inl hc), Int.not_lt.1 fun hc => hq (.inr hc),
          (Except.ok.inj h).symm⟩
  · rintro ⟨hr, h0, hlo, hhi, rfl⟩
    refine ⟨_, ⟨hr, rfl⟩, ?_⟩
    rw [if_neg h0, if_neg]
    rintro (hc | hc)
    · exact absurd hlo (Int.not_le.2 hc)
    · exact absurd hhi (Int.not_le.2 hc)

/-! ## Bit test -/

/-- What a bit instruction leaves in its base. -/
def bitStore (act : BitAction) (w : Width) (base : Rm Reg8) (off : Nat) (s : State) : State :=
  if act = .test then s
  else
    storeRm w base
      (setBit (rmValue w base s) (off % w.bits) (bitAfter act ((rmValue w base s).getLsbD (off % w.bits)))) s

theorem bitOp_eq_ok_iff {act : BitAction} {w : Width} {base : Rm Reg8} {off : Nat} {s t : State} :
    bitOp act w base off s = .ok t ↔
      RmReadable w base s ∧ (act ≠ .test → RmWritable w base s) ∧
        t = bitFlags (bitStore act w base off s) ((rmValue w base s).getLsbD (off % w.bits)) := by
  unfold bitOp bitStore
  by_cases ha : act = .test
  · simp only [ha, if_true, bind_eq_ok_iff, readRm_eq_ok_iff]
    constructor
    · rintro ⟨v, ⟨hr, rfl⟩, u, hu, h⟩
      cases hu
      exact ⟨hr, fun hc => absurd rfl hc, (Except.ok.inj h).symm⟩
    · rintro ⟨hr, -, rfl⟩
      exact ⟨_, ⟨hr, rfl⟩, _, rfl, rfl⟩
  · simp only [if_neg ha, bind_eq_ok_iff, readRm_eq_ok_iff, writeRm_eq_ok_iff]
    constructor
    · rintro ⟨v, ⟨hr, rfl⟩, u, ⟨hw, rfl⟩, h⟩
      exact ⟨hr, fun _ => hw, (Except.ok.inj h).symm⟩
    · rintro ⟨hr, hw, rfl⟩
      exact ⟨_, ⟨hr, rfl⟩, _, ⟨hw ha, rfl⟩, rfl⟩

theorem bitRegOp_eq_ok_iff {act : BitAction} {w : Width} {base : Rm Gpr} {off : Gpr} {s t : State} :
    bitRegOp act w base off s = .ok t ↔
      ∃ r, base = .reg r ∧ bitOp act w (.reg (.lo r)) (readReg w (.lo off) s).toNat s = .ok t := by
  cases base with
  | reg r => simp [bitRegOp]
  | mem m => simp [bitRegOp]

/-! ## Data movement -/

theorem movToReg_eq_ok_iff {w : Width} {dst : Reg8} {src : Rm Reg8} {s t : State} :
    movToReg w dst src s = .ok t ↔ RmReadable w src s ∧ t = writeReg w dst (rmValue w src s) s := by
  simp only [movToReg, bind_eq_ok_iff, readRm_eq_ok_iff]
  constructor
  · rintro ⟨b, ⟨hr, rfl⟩, h⟩
    exact ⟨hr, (Except.ok.inj h).symm⟩
  · rintro ⟨hr, rfl⟩
    exact ⟨_, ⟨hr, rfl⟩, rfl⟩

theorem movFromSeg_eq_ok_iff {w : Width} {dst : Rm Gpr} {src : SegField} {s t : State} :
    movFromSeg w dst src s = .ok t ↔
      ∃ r, src = .sreg r ∧
        ((∃ d, dst = .reg d ∧ t = writeReg w (.lo d) ((s.selector.get r).setWidth w.bits) s) ∨
          ∃ m, dst = .mem m ∧ Writable s (operandAddr s m) 2 ∧
            t = storeBytes s (operandAddr s m) 2 (s.selector.get r)) := by
  cases src with
  | sreg r =>
    cases dst with
    | reg d => simp [movFromSeg, eq_comm]
    | mem m =>
      simp only [movFromSeg, SegField.sreg.injEq, reduceCtorEq, false_and, exists_false, false_or, Rm.mem.injEq]
      rw [memWrite_eq_ok_iff]
      constructor
      · rintro ⟨h, rfl⟩
        exact ⟨r, rfl, m, rfl, h, rfl⟩
      · rintro ⟨_, rfl, _, rfl, h, rfl⟩
        exact ⟨h, rfl⟩
  | reserved6 => simp [movFromSeg]
  | reserved7 => simp [movFromSeg]

theorem loadFromRm_eq_ok_iff {r : SegReg} {src : Rm Gpr} {s t : State} :
    loadFromRm r src s = .ok t ↔
      ¬ (r = .ss ∧ getFlag s.rflags .tf = true) ∧ RmReadable .b16 (wide src) s ∧
        ∃ base, descLookup s r (rmValue .b16 (wide src) s) = .ok base ∧
          t = loadSegment s r (rmValue .b16 (wide src) s) base := by
  unfold loadFromRm
  split
  · simp_all
  · rename_i hss
    rw [bind_eq_ok_iff]
    constructor
    · rintro ⟨sel, hs, h⟩
      obtain ⟨hr, rfl⟩ := (readRm_eq_ok_iff (w := .b16)).1 hs
      split at h
      · exact ⟨hss, hr, _, ‹_›, (Except.ok.inj h).symm⟩
      · cases h
      · cases h
    · rintro ⟨-, hr, base, hb, rfl⟩
      refine ⟨_, (readRm_eq_ok_iff (w := .b16)).2 ⟨hr, rfl⟩, ?_⟩
      rw [hb]

theorem movToSeg_eq_ok_iff {dst : SegField} {src : Rm Gpr} {s t : State} :
    movToSeg dst src s = .ok t ↔ ∃ r, dst = .sreg r ∧ r ≠ .cs ∧ loadFromRm r src s = .ok t := by
  cases dst with
  | sreg r => cases r <;> simp [movToSeg]
  | reserved6 => simp [movToSeg]
  | reserved7 => simp [movToSeg]

/-- What CMOVcc leaves. -/
def cmovLeaves (c : Cond) (w : Width) (dst : Gpr) (v : BitVec w.bits) (s : State) : State :=
  if condHolds c s.rflags then writeReg w (.lo dst) v s
  else if s.launch.mode = .long64 ∧ w = .b32 then writeReg w (.lo dst) (readReg w (.lo dst) s) s
  else s

theorem cmovOp_eq_ok_iff {c : Cond} {w : Width} {dst : Gpr} {src : Rm Gpr} {s t : State} :
    cmovOp c w dst src s = .ok t ↔
      RmReadable w (wide src) s ∧ t = cmovLeaves c w dst (rmValue w (wide src) s) s := by
  simp only [cmovOp, bind_eq_ok_iff, readRm_eq_ok_iff, cmovLeaves]
  constructor
  · rintro ⟨v, ⟨hr, rfl⟩, h⟩
    refine ⟨hr, ?_⟩
    split at h
    · cases h
      rw [if_pos ‹_›]
    · split at h
      · cases h
        rw [if_neg ‹_›, if_pos ‹_›]
      · cases h
        rw [if_neg ‹_›, if_neg ‹_›]
  · rintro ⟨hr, rfl⟩
    refine ⟨_, ⟨hr, rfl⟩, ?_⟩
    split
    · rfl
    · split <;> rfl

/-! ## Strings -/

theorem movsOp_eq_ok_iff {w : Width} {seg : Option SegReg} {s t : State} :
    movsOp w seg s = .ok t ↔
      Readable s (stringSrc s seg) w.bytes ∧ Writable s (stringDst s) w.bytes ∧
        t = movePointer .rdi (stringDelta s w) (movePointer .rsi (stringDelta s w)
          (storeBytes s (stringDst s) w.bytes (memValue s (stringSrc s seg) w.bytes))) := by
  simp only [movsOp, bind_eq_ok_iff, memRead_eq_ok_iff, memWrite_eq_ok_iff]
  constructor
  · rintro ⟨v, ⟨hr, rfl⟩, u, ⟨hw, rfl⟩, h⟩
    exact ⟨hr, hw, (Except.ok.inj h).symm⟩
  · rintro ⟨hr, hw, rfl⟩
    exact ⟨_, ⟨hr, rfl⟩, _, ⟨hw, rfl⟩, rfl⟩

theorem cmpsOp_eq_ok_iff {w : Width} {seg : Option SegReg} {s t : State} :
    cmpsOp w seg s = .ok t ↔
      Readable s (stringSrc s seg) w.bytes ∧ Readable s (stringDst s) w.bytes ∧
        t = withFlags (movePointer .rdi (stringDelta s w) (movePointer .rsi (stringDelta s w) s))
          (setStatus s.rflags
            (subFlags (memValue s (stringSrc s seg) w.bytes) (memValue s (stringDst s) w.bytes) false).2) := by
  simp only [cmpsOp, bind_eq_ok_iff, memRead_eq_ok_iff]
  constructor
  · rintro ⟨a, ⟨hr, rfl⟩, b, ⟨hw, rfl⟩, h⟩
    exact ⟨hr, hw, (Except.ok.inj h).symm⟩
  · rintro ⟨hr, hw, rfl⟩
    exact ⟨_, ⟨hr, rfl⟩, _, ⟨hw, rfl⟩, rfl⟩

theorem scasOp_eq_ok_iff {w : Width} {s t : State} :
    scasOp w s = .ok t ↔
      Readable s (stringDst s) w.bytes ∧
        t = withFlags (movePointer .rdi (stringDelta s w) s)
          (setStatus s.rflags (subFlags (readReg w (.lo .rax) s) (memValue s (stringDst s) w.bytes) false).2) := by
  simp only [scasOp, bind_eq_ok_iff, memRead_eq_ok_iff]
  constructor
  · rintro ⟨b, ⟨hr, rfl⟩, h⟩
    exact ⟨hr, (Except.ok.inj h).symm⟩
  · rintro ⟨hr, rfl⟩
    exact ⟨_, ⟨hr, rfl⟩, rfl⟩

theorem lodsOp_eq_ok_iff {w : Width} {seg : Option SegReg} {s t : State} :
    lodsOp w seg s = .ok t ↔
      Readable s (stringSrc s seg) w.bytes ∧
        t = movePointer .rsi (stringDelta s w)
          (writeReg w (.lo .rax) (memValue s (stringSrc s seg) w.bytes) s) := by
  simp only [lodsOp, bind_eq_ok_iff, memRead_eq_ok_iff]
  constructor
  · rintro ⟨b, ⟨hr, rfl⟩, h⟩
    exact ⟨hr, (Except.ok.inj h).symm⟩
  · rintro ⟨hr, rfl⟩
    exact ⟨_, ⟨hr, rfl⟩, rfl⟩

theorem stosOp_eq_ok_iff {w : Width} {s t : State} :
    stosOp w s = .ok t ↔
      Writable s (stringDst s) w.bytes ∧
        t = movePointer .rdi (stringDelta s w) (storeBytes s (stringDst s) w.bytes (readReg w (.lo .rax) s)) := by
  simp only [stosOp, bind_eq_ok_iff, memWrite_eq_ok_iff]
  constructor
  · rintro ⟨u, ⟨hw, rfl⟩, h⟩
    exact ⟨hw, (Except.ok.inj h).symm⟩
  · rintro ⟨hw, rfl⟩
    exact ⟨_, ⟨hw, rfl⟩, rfl⟩

/-! ## Flags -/

theorem setFlagOp_eq_ok_iff {f : Flag} {b : Bool} {s t : State} :
    setFlagOp f b s = .ok t ↔ t = withFlags s (setFlag s.rflags f b) := by
  simp [setFlagOp, eq_comm]

theorem lahfOp_eq_ok_iff {s t : State} :
    lahfOp s = .ok t ↔ lahfMissing s = false ∧ t = writeReg .b8 (.hi .ah) (s.rflags.setWidth 8) s := by
  cases h : lahfMissing s with
  | true => simp [lahfOp, h]
  | false => exact ⟨fun e => ⟨rfl, by simpa [lahfOp, h] using e.symm⟩, fun e => by simp [lahfOp, h, e.2]⟩

theorem sahfOp_eq_ok_iff {s t : State} :
    sahfOp s = .ok t ↔ lahfMissing s = false ∧ t = withFlags s (sahfFlags s.rflags (readReg .b8 (.hi .ah) s)) := by
  cases h : lahfMissing s with
  | true => simp [sahfOp, h]
  | false => exact ⟨fun e => ⟨rfl, by simpa [sahfOp, h] using e.symm⟩, fun e => by simp [sahfOp, h, e.2]⟩

theorem popfOp_eq_ok_iff {sz : OpSize} {s t : State} :
    popfOp sz s = .ok t ↔
      Readable s (popAddr s) sz.width.bytes ∧
        t = loadFlags sz (memValue s (popAddr s) sz.width.bytes)
          (writeAddrReg .rsp (readAddrReg .rsp s + BitVec.ofNat 64 sz.width.bytes) s) := by
  simp only [popfOp, bind_eq_ok_iff]
  constructor
  · rintro ⟨⟨v, u⟩, hp, h⟩
    obtain ⟨hr, rfl, rfl⟩ := pop_eq_ok_iff.1 hp
    exact ⟨hr, (Except.ok.inj h).symm⟩
  · rintro ⟨hr, rfl⟩
    exact ⟨_, pop_eq_ok_iff.2 ⟨hr, rfl, rfl⟩, rfl⟩

theorem popOp_eq_ok_iff {w : Width} {r : Gpr} {s t : State} :
    popOp w r s = .ok t ↔
      Readable s (popAddr s) w.bytes ∧
        t = writeReg w (.lo r) (memValue s (popAddr s) w.bytes)
          (writeAddrReg .rsp (readAddrReg .rsp s + BitVec.ofNat 64 w.bytes) s) := by
  simp only [popOp, bind_eq_ok_iff]
  constructor
  · rintro ⟨⟨v, u⟩, hp, h⟩
    obtain ⟨hr, rfl, rfl⟩ := pop_eq_ok_iff.1 hp
    exact ⟨hr, (Except.ok.inj h).symm⟩
  · rintro ⟨hr, rfl⟩
    exact ⟨_, pop_eq_ok_iff.2 ⟨hr, rfl, rfl⟩, rfl⟩

end Sys2Proof.Machine
end

