-- ==== Sys2Proof/Tests/Slice0.lean ====
section
/-!
SUPPORT. Tests: well-formedness refuses ill-formed terms; every constructor's decoding on a word written out from
spec/30_encoding.md R180; one step of each kind of instruction with the results of spec/95_test_vectors.md and of the
examples in the rules; and for each statement a concrete state that meets its premises.
-/
namespace Sys2Proof.Tests

open Sys2Proof Sys2Proof.Machine

/-! ## Well-formedness -/

/-- `[r]` with nothing else. -/
def at_ (r : Gpr) : Mem := ⟨none, .reg r, none, .none⟩

/-- R8 does not exist in PROT32. -/
theorem test_gprOk_refuses : gprOk .prot32 .r8 = false ∧ (Instr.push .w32 .r8).wellFormed .prot32 = false := by decide

/-- SPL does not exist in PROT32. -/
theorem test_reg8Ok_refuses : reg8Ok .prot32 (.lo .rsp) = false ∧
    (Instr.movR8Imm8 (.lo .rsp) 1).wellFormed .prot32 = false := by decide

/-- There is no 64-bit operand size in PROT32. -/
theorem test_sizeOk_refuses : sizeOk .prot32 .w64 = false ∧ (Instr.stos .w64).wellFormed .prot32 = false := by decide

/-- There is no 64-bit push in PROT32 and no 32-bit push in LONG64. -/
theorem test_stackSizeOk_refuses : (Instr.push .w64 .rax).wellFormed .prot32 = false ∧
    (Instr.popf .w32).wellFormed .long64 = false := by decide

/-- An ES override has no effect in LONG64, so no term carries it. -/
theorem test_segOk_refuses : segOk .long64 (some .es) = false ∧
    (Instr.movsb (some .es)).wellFormed .long64 = false := by decide

/-- EBP needs a displacement, no base needs 32 bits of it, and RIP stands in LONG64 only. -/
theorem test_baseOk_refuses : baseOk .prot32 (.reg .rbp) .none = false ∧ baseOk .long64 (.reg .r13) .none = false ∧
    baseOk .prot32 .absent (.d8 1) = false ∧ baseOk .prot32 .rip (.d32 0) = false ∧
    baseOk .long64 .rip (.d8 0) = false ∧ baseOk .prot32 (.reg .r9) .none = false ∧
    (Instr.mulRm .w32 (.mem (at_ .rbp))).wellFormed .prot32 = false := by decide

/-- ESP is no index, and nothing stands beside RIP. -/
theorem test_indexOk_refuses : indexOk .long64 (.reg .rax) (some (.rsp, .x1)) = false ∧
    indexOk .long64 .rip (some (.rax, .x1)) = false ∧ indexOk .prot32 .absent (some (.r8, .x2)) = false ∧
    (Instr.divRm8 (.mem ⟨none, .reg .rax, some (.rsp, .x1), .none⟩)).wellFormed .prot32 = false := by decide

/-- Each part of a memory operand is checked in both kinds of r/m operand. -/
theorem test_memOk_refuses : rmOk .prot32 (.mem (at_ .r8)) = false ∧ rm8Ok .prot32 (.mem (at_ .r8)) = false ∧
    rmOk .prot32 (.reg .r15) = false ∧ rm8Ok .prot32 (.reg (.lo .rdi)) = false ∧
    memOk .long64 ⟨some .ds, .reg .rax, none, .none⟩ = false := by decide

/-- AH cannot stand beside SPL, nor beside a base that needs REX. -/
theorem test_pairOk_refuses : pairOk (.hi .ah) (.reg (.lo .rsp)) = false ∧ pairOk (.lo .rsp) (.reg (.hi .ah)) = false ∧
    (Instr.movRm8R8 (.mem (at_ .r8)) (.hi .ah)).wellFormed .long64 = false := by decide

/-! ## Decoding -/

/-- The decoder reads exactly these instructions from these words. -/
def reads (md : Mode) (l : List (List Byte × Instr)) : Bool :=
  l.all fun p => decide (decode md p.1 = .ok (p.2, []))

/-- ADD: opcodes 00 to 05, 80 /0, 81 /0, 83 /0. -/
theorem test_decode_add : reads .prot32
    [([0x00, 0xCC], .addRm8R8 (.reg (.hi .ah)) (.lo .rcx)), ([0x01, 0x1E], .addRmR .w32 (.mem (at_ .rsi)) .rbx),
      ([0x02, 0xC7], .addR8Rm8 (.lo .rax) (.reg (.hi .bh))), ([0x66, 0x03, 0xCA], .addRRm .w16 .rcx (.reg .rdx)),
      ([0x04, 0x01], .addAlImm8 1), ([0x05, 0x00, 0x00, 0x00, 0x80], .addAccImm (.w32 0x80000000)),
      ([0x80, 0xC3, 0x7F], .addRm8Imm8 (.reg (.lo .rbx)) 0x7F),
      ([0x66, 0x81, 0xC1, 0x34, 0x12], .addRmImm (.reg .rcx) (.w16 0x1234)),
      ([0x83, 0xC0, 0x0E], .addRmSimm8 .w32 (.reg .rax) 14)] = true := by decide

/-- ADC: opcodes 10 to 15, 80 /2, 81 /2, 83 /2. -/
theorem test_decode_adc : reads .long64
    [([0x40, 0x10, 0xC4], .adcRm8R8 (.reg (.lo .rsp)) (.lo .rax)), ([0x4C, 0x11, 0xC8], .adcRmR .w64 (.reg .rax) .r9),
      ([0x12, 0x2B], .adcR8Rm8 (.hi .ch) (.mem (at_ .rbx))), ([0x41, 0x13, 0x04, 0x24], .adcRRm .w32 .rax (.mem (at_ .r12))),
      ([0x14, 0xFF], .adcAlImm8 0xFF), ([0x48, 0x15, 0x01, 0x00, 0x00, 0x80], .adcAccImm (.w64 0x80000001)),
      ([0x80, 0xD4, 0x01], .adcRm8Imm8 (.reg (.hi .ah)) 1),
      ([0x48, 0x81, 0xD2, 0xFF, 0xFF, 0xFF, 0x7F], .adcRmImm (.reg .rdx) (.w64 0x7FFFFFFF)),
      ([0x83, 0xD2, 0x00], .adcRmSimm8 .w32 (.reg .rdx) 0)] = true := by decide

/-- SBB: opcodes 18 to 1D, 80 /3, 81 /3, 83 /3. -/
theorem test_decode_sbb : reads .prot32
    [([0x18, 0xD3], .sbbRm8R8 (.reg (.lo .rbx)) (.lo .rdx)), ([0x19, 0xC0], .sbbRmR .w32 (.reg .rax) .rax),
      ([0x1A, 0x45, 0xFF], .sbbR8Rm8 (.lo .rax) (.mem ⟨none, .reg .rbp, none, .d8 0xFF⟩)),
      ([0x1B, 0x3D, 0x00, 0x30, 0x00, 0x00], .sbbRRm .w32 .rdi (.mem ⟨none, .absent, none, .d32 0x3000⟩)),
      ([0x1C, 0x05], .sbbAlImm8 5), ([0x66, 0x1D, 0x02, 0x01], .sbbAccImm (.w16 0x0102)),
      ([0x80, 0xD9, 0x08], .sbbRm8Imm8 (.reg (.lo .rcx)) 8),
      ([0x81, 0xDB, 0x04, 0x03, 0x02, 0x01], .sbbRmImm (.reg .rbx) (.w32 0x01020304)),
      ([0x83, 0xD8, 0xFF], .sbbRmSimm8 .w32 (.reg .rax) 0xFF)] = true := by decide

/-- SUB: opcodes 28 to 2D, 80 /5, 81 /5, 83 /5. -/
theorem test_decode_sub : reads .prot32
    [([0x28, 0xE0], .subRm8R8 (.reg (.lo .rax)) (.hi .ah)), ([0x29, 0xD8], .subRmR .w32 (.reg .rax) .rbx),
      ([0x2A, 0xF1], .subR8Rm8 (.hi .dh) (.reg (.lo .rcx))),
      ([0x2B, 0x04, 0xB5, 0x00, 0x01, 0x00, 0x00],
        .subRRm .w32 .rax (.mem ⟨none, .absent, some (.rsi, .x4), .d32 0x100⟩)),
      ([0x2C, 0x01], .subAlImm8 1), ([0x2D, 0x01, 0x00, 0x00, 0x00], .subAccImm (.w32 1)),
      ([0x80, 0xEB, 0x01], .subRm8Imm8 (.reg (.lo .rbx)) 1),
      ([0x81, 0x2C, 0xCB, 0x01, 0x00, 0x00, 0x00],
        .subRmImm (.mem ⟨none, .reg .rbx, some (.rcx, .x8), .none⟩) (.w32 1)),
      ([0x83, 0xE8, 0x01], .subRmSimm8 .w32 (.reg .rax) 1)] = true := by decide

/-- MUL, DIV, IDIV: F6 and F7 with /4, /6, /7. -/
theorem test_decode_mul_div : reads .prot32
    [([0xF6, 0xE3], .mulRm8 (.reg (.lo .rbx))), ([0xF7, 0xE3], .mulRm .w32 (.reg .rbx)),
      ([0xF6, 0xF7], .divRm8 (.reg (.hi .bh))), ([0xF7, 0xF3], .divRm .w32 (.reg .rbx)),
      ([0xF6, 0x3E], .idivRm8 (.mem (at_ .rsi))), ([0x66, 0xF7, 0xFB], .idivRm .w16 (.reg .rbx))] = true := by decide

/-- BT, BTS, BTR, BTC: 0F A3, AB, B3, BB and 0F BA /4 to /7. -/
theorem test_decode_bit : reads .prot32
    [([0x0F, 0xA3, 0xC8], .btRmR .w32 (.reg .rax) .rcx), ([0x0F, 0xAB, 0x0B], .btsRmR .w32 (.mem (at_ .rbx)) .rcx),
      ([0x66, 0x0F, 0xB3, 0xD1], .btrRmR .w16 (.reg .rcx) .rdx), ([0x0F, 0xBB, 0xC8], .btcRmR .w32 (.reg .rax) .rcx),
      ([0x0F, 0xBA, 0xE0, 0x09], .btRmImm8 .w32 (.reg .rax) 9), ([0x0F, 0xBA, 0xE8, 0x0A], .btsRmImm8 .w32 (.reg .rax) 10),
      ([0x0F, 0xBA, 0xF0, 0x09], .btrRmImm8 .w32 (.reg .rax) 9),
      ([0x0F, 0xBA, 0x3B, 0x1F], .btcRmImm8 .w32 (.mem (at_ .rbx)) 31)] = true := by decide

/-- MOV: 88 to 8B, B0+r, B8+r, C6 /0, C7 /0. -/
theorem test_decode_mov : reads .long64
    [([0x88, 0x23], .movRm8R8 (.mem (at_ .rbx)) (.hi .ah)), ([0x64, 0x89, 0x03], .movRmR .w32 (.mem ⟨some .fs, .reg .rbx, none, .none⟩) .rax),
      ([0x8A, 0x1D, 0x10, 0x00, 0x00, 0x00], .movR8Rm8 (.lo .rbx) (.mem ⟨none, .rip, none, .d32 0x10⟩)),
      ([0x4E, 0x8B, 0x44, 0x8B, 0x04], .movRRm .w64 .r8 (.mem ⟨none, .reg .rbx, some (.r9, .x4), .d8 4⟩)),
      ([0xB4, 0x12], .movR8Imm8 (.hi .ah) 0x12), ([0x41, 0xB4, 0x12], .movR8Imm8 (.lo .r12) 0x12),
      ([0x48, 0xB8, 1, 2, 3, 4, 5, 6, 7, 8], .movRImm .rax (.w64 0x0807060504030201)),
      ([0xB9, 0x05, 0x00, 0x00, 0x00], .movRImm .rcx (.w32 5)), ([0x66, 0xBA, 0x34, 0x12], .movRImm .rdx (.w16 0x1234)),
      ([0xC6, 0x45, 0x00, 0x41], .movRm8Imm8 (.mem ⟨none, .reg .rbp, none, .d8 0⟩) 0x41),
      ([0xC7, 0x03, 0x78, 0x56, 0x34, 0x12], .movRmImm (.mem (at_ .rbx)) (.w32 0x12345678))] = true := by decide

/-- MOV to and from segment registers: 8C, 8E. -/
theorem test_decode_mov_segment : reads .prot32
    [([0x8C, 0xD8], .movRmSreg .w32 (.reg .rax) (.sreg .ds)), ([0x8C, 0x33], .movRmSreg .w32 (.mem (at_ .rbx)) .reserved6),
      ([0x8E, 0xDB], .movSregRm (.sreg .ds) (.reg .rbx)), ([0x8E, 0xC9], .movSregRm (.sreg .cs) (.reg .rcx))] = true := by
  decide

/-- CMOVcc and SETcc: 0F 40+cc, 0F 90+cc. -/
theorem test_decode_cmov_setcc : reads .prot32
    [([0x0F, 0x44, 0xC3], .cmovcc .e .w32 .rax (.reg .rbx)), ([0x66, 0x0F, 0x4F, 0x0B], .cmovcc .g .w16 .rcx (.mem (at_ .rbx))),
      ([0x0F, 0x92, 0xC0], .setcc .b (.reg (.lo .rax))), ([0x0F, 0x9E, 0xFF], .setcc .le (.reg (.hi .bh)))] = true := by
  decide

/-- Jcc, LOOPNE, LOOPE, LOOP: 70+cc, 0F 80+cc, E0 to E2. -/
theorem test_decode_branches : reads .prot32
    [([0x70, 0x01], .jccRel8 .o 1), ([0x75, 0xF9], .jccRel8 .ne 0xF9), ([0x0F, 0x8D, 0x04, 0x03, 0x02, 0x81], .jccRel32 .ge 0x81020304),
      ([0xE0, 0xFE], .loopne 0xFE), ([0xE1, 0xFE], .loope 0xFE), ([0xE2, 0xFE], .loop 0xFE)] = true := by decide

/-- The string instructions: A4 to A7, AA to AF. -/
theorem test_decode_strings : reads .prot32
    [([0xA4], .movsb none), ([0x66, 0xA5], .movs .w16 none), ([0x2E, 0xA6], .cmpsb (some .cs)), ([0xA7], .cmps .w32 none),
      ([0xAA], .stosb), ([0xAB], .stos .w32), ([0x64, 0xAC], .lodsb (some .fs)), ([0xAD], .lods .w32 none), ([0xAE], .scasb),
      ([0xAF], .scas .w32)] = true := by decide

/-- PUSH, POP, PUSHF, POPF in both modes: 50+r, 58+r, 9C, 9D. -/
theorem test_decode_stack : reads .prot32
    [([0x54], .push .w32 .rsp), ([0x66, 0x5B], .pop .w16 .rbx), ([0x9C], .pushf .w32), ([0x66, 0x9D], .popf .w16)] = true ∧
    reads .long64 [([0x41, 0x57], .push .w64 .r15), ([0x58], .pop .w64 .rax), ([0x48, 0x9C], .pushf .w64), ([0x9D], .popf .w64)] = true := by
  decide

/-- One-byte instructions without operands, and CPUID. -/
theorem test_decode_flags_and_named : reads .long64
    [([0x9E], .sahf), ([0x48, 0x9F], .lahf), ([0xF5], .cmc), ([0xF8], .clc), ([0xF9], .stc), ([0xFC], .cld), ([0xFD], .std),
      ([0xCF], .iret), ([0x0F, 0xA2], .cpuid)] = true := by decide

/-- The host's reading of table words: the bytes of the word, then zeros. -/
theorem test_decodeTableWord : decodeTableWord 8 0x05 = some (.addAccImm (.w32 0)) ∧
    decodeTableWord 16 0xBA0F = none ∧ decodeTableWord 24 0xE0BA0F = some (.btRmImm8 .w32 (.reg .rax) 0) := by decide

/-! ## Steps -/

/-- A state in a mode with registers, flags and memory; everything else as at reset. -/
def mk (md : Mode) (g : GprFile) (fl : Quad) (m : Memory) : State :=
  { State.reset with
    gpr := g, rflags := fl, mem := m, pcNext := 0x1010, launch := { Launch.default with mode := md } }

/-- What a function reads in the next state. -/
def after {α : Type} (o : Host.Outcome State Fault Refusal) (f : State → α) : Option α :=
  match o with
  | .next t => some (f t)
  | .fault _ => none
  | .refused _ => none

/-- Registers with a value in RAX, RBX, RCX, RDX. -/
def regs (a b c d : Quad) : GprFile := { GprFile.zero with rax := a, rbx := b, rcx := c, rdx := d }

/-- R252: `83 C0 0E`, ADD EAX, 14. -/
theorem test_add_immediate : after (exec (.addRmSimm8 .w32 (.reg .rax) 14) (mk .prot32 (regs 0xFFFFFFF8 0 0 0) 2 []))
    (fun t => (t.gpr.rax, t.rflags, t.pc)) = some (6, 0x17, 0x1010) := by decide

/-- 95_test_vectors.md 2.1: `00 CC`, ADD AH, CL wraps. -/
theorem test_add_high_byte : after (exec (.addRm8R8 (.reg (.hi .ah)) (.lo .rcx)) (mk .prot32 (regs 0xF000 0 0x10 0) 2 []))
    (fun t => (t.gpr.rax, t.rflags)) = some (0, 0x47) := by decide

/-- 95_test_vectors.md 2.1: `83 D0 FF`, ADC EAX, -1 with CF 1. -/
theorem test_adc_wraps : after (exec (.adcRmSimm8 .w32 (.reg .rax) 0xFF) (mk .prot32 (regs 0x12345678 0 0 0) 3 []))
    (fun t => (t.gpr.rax, t.rflags)) = some (0x12345678, 0x17) := by decide

/-- R254: `29 D8`, SUB EAX, EBX. -/
theorem test_sub_borrows : after (exec (.subRmR .w32 (.reg .rax) .rbx) (mk .prot32 (regs 0 1 0 0) 2 []))
    (fun t => (t.gpr.rax, t.rflags)) = some (0xFFFFFFFF, 0x97) := by decide

/-- 95_test_vectors.md 2.1: `83 E8 01`, SUB EAX, 1 overflows. -/
theorem test_sub_overflows : after (exec (.subRmSimm8 .w32 (.reg .rax) 1) (mk .prot32 (regs 0x80000000 0 0 0) 2 []))
    (fun t => (t.gpr.rax, t.rflags)) = some (0x7FFFFFFF, 0x816) := by decide

/-- R255: `19 C0`, SBB EAX, EAX with CF 1. -/
theorem test_sbb_self : after (exec (.sbbRmR .w32 (.reg .rax) .rax) (mk .prot32 (regs 5 0 0 0) 3 []))
    (fun t => (t.gpr.rax, t.rflags)) = some (0xFFFFFFFF, 0x97) := by decide

/-- R256: `F7 E3`, MUL EBX. -/
theorem test_mul : after (exec (.mulRm .w32 (.reg .rbx)) (mk .prot32 (regs 0x80000000 4 0 0) 2 []))
    (fun t => (t.gpr.rax, t.gpr.rdx, t.draws)) = some (0, 2, 4) := by decide

/-- R256: MUL BL writes AX only. -/
theorem test_mul_byte : after (exec (.mulRm8 (.reg (.lo .rbx))) (mk .prot32 (regs 0xFFFF10FF 0xFF 0 7) 2 []))
    (fun t => (t.gpr.rax, t.gpr.rdx)) = some (0xFFFFFE01, 7) := by decide

/-- R257: `F7 F3`, DIV EBX. -/
theorem test_div : after (exec (.divRm .w32 (.reg .rbx)) (mk .prot32 (regs 0 2 0 1) 2 []))
    (fun t => (t.gpr.rax, t.gpr.rdx)) = some (0x80000000, 0) := by decide

/-- R257: the quotient 2^32 does not fit. -/
theorem test_div_overflow : exec (.divRm .w32 (.reg .rbx)) (mk .prot32 (regs 0 2 0 2) 2 []) = .fault .divideError := rfl

/-- R258: `F7 FB`, IDIV EBX, -7 by 2. -/
theorem test_idiv : after (exec (.idivRm .w32 (.reg .rbx)) (mk .prot32 (regs 0xFFFFFFF9 2 0 0xFFFFFFFF) 2 []))
    (fun t => (t.gpr.rax, t.gpr.rdx)) = some (0xFFFFFFFD, 0xFFFFFFFF) := by decide

/-- R258: -2^31 by -1 does not fit. -/
theorem test_idiv_overflow : exec (.idivRm .w32 (.reg .rbx)) (mk .prot32 (regs 0x80000000 0xFFFFFFFF 0 0xFFFFFFFF) 2 []) =
    .fault .divideError := rfl

/-- R261: `0F BA E8 0A`, BTS EAX, 10. -/
theorem test_bts : after (exec (.btsRmImm8 .w32 (.reg .rax) 10) (mk .prot32 (regs 2 0 0 0) 2 [])) (fun t => t.gpr.rax) =
    some 0x402 := by decide

/-- R262: `0F BA F0 09`, BTR EAX, 9. -/
theorem test_btr : after (exec (.btrRmImm8 .w32 (.reg .rax) 9) (mk .prot32 (regs 0x202 0 0 0) 2 [])) (fun t => t.gpr.rax) =
    some 2 := by decide

/-- R263: `0F BB C8`, BTC EAX, ECX with offset 37. -/
theorem test_btc : after (exec (.btcRmR .w32 (.reg .rax) .rcx) (mk .prot32 (regs 0 0 0x25 0) 2 [])) (fun t => t.gpr.rax) =
    some 0x20 := by decide

/-- R260: `0F BA E0 09`, BT EAX, 9 copies the bit into CF. -/
theorem test_bt : after (exec (.btRmImm8 .w32 (.reg .rax) 9) (mk .prot32 (regs 0x202 0 0 0) 2 []))
    (fun t => (t.gpr.rax, getFlag t.rflags .cf)) = some (0x202, true) := by
  have h : ∀ s : State, getFlag (drawFlags s [.of, .sf, .af, .pf]).rflags .cf = getFlag s.rflags .cf :=
    fun s => getFlag_drawFlags_of_ne s _ .cf (by decide)
  exact congrArg (fun b => some ((0x202 : Quad), b)) (h _)

/-- R291: `26 89 03`, the source's MOV ES:[EBX], EAX. -/
theorem test_mov_store : after (exec (.movRmR .w32 (.mem ⟨some .es, .reg .rbx, none, .none⟩) .rax)
    (mk .prot32 (regs 0xDEADBEEF 0x3000 0 0) 2 [])) (fun t => t.mem) =
    some [(0x3000, 0xEF), (0x3001, 0xBE), (0x3002, 0xAD), (0x3003, 0xDE)] := by decide

/-- R292: `8B 44 8B 04`, MOV EAX, [EBX+ECX*4+4]. -/
theorem test_mov_load : after (exec (.movRRm .w32 .rax (.mem ⟨none, .reg .rbx, some (.rcx, .x4), .d8 4⟩))
    (mk .prot32 (regs 0 0x1000 2 0) 2 [(0x100C, 0x63)])) (fun t => t.gpr.rax) = some 0x63 := by decide

/-- R293: in LONG64 `B8+r id` zero-extends. -/
theorem test_mov_immediate : after (exec (.movRImm .rax (.w32 0xFFFFFFFF)) (mk .long64 (regs 0xFFFFFFFFFFFFFFFF 0 0 0) 2 []))
    (fun t => t.gpr.rax) = some 0xFFFFFFFF := by decide

/-- R295: `8C D8`, MOV EAX, DS. -/
theorem test_mov_from_segment : after (exec (.movRmSreg .w32 (.reg .rax) (.sreg .ds))
    { mk .prot32 (regs 0xFFFFFFFF 0 0 0) 2 [] with selector := ⟨0, 0, 0, 0x23, 0, 0⟩ }) (fun t => t.gpr.rax) = some 0x23 := by
  decide

/-- R296: `8E DB`, MOV DS, BX. -/
theorem test_mov_to_segment : after (exec (.movSregRm (.sreg .ds) (.reg .rbx)) (mk .prot32 (regs 0 0x23 0 0) 2 []))
    (fun t => (t.selector.ds, t.segBase.ds)) = some (0x23, 0) := by decide

/-- R297: a false condition still clears bits 63:32 of a 32-bit destination in LONG64. -/
theorem test_cmov_false : after (exec (.cmovcc .e .w32 .rax (.reg .rbx)) (mk .long64 (regs 0x1122334455667788 7 0 0) 2 []))
    (fun t => t.gpr.rax) = some 0x55667788 := by decide

/-- R297: `0F 44 C3`, CMOVE EAX, EBX with ZF 1. -/
theorem test_cmov_true : after (exec (.cmovcc .e .w32 .rax (.reg .rbx)) (mk .prot32 (regs 1 7 0 0) 0x42 []))
    (fun t => t.gpr.rax) = some 7 := by decide

/-- R298: `0F 92 C0`, SETB AL with CF 1. -/
theorem test_setcc : after (exec (.setcc .b (.reg (.lo .rax))) (mk .prot32 (regs 0xFFFFFF00 0 0 0) 3 []))
    (fun t => t.gpr.rax) = some 0xFFFFFF01 := by decide

/-- R321: `75 F9` at 100EH. -/
theorem test_jcc : after (exec (.jccRel8 .ne 0xF9) (mk .prot32 GprFile.zero 2 [])) (fun t => t.pc) = some 0x1009 ∧
    after (exec (.jccRel8 .ne 0xF9) (mk .prot32 GprFile.zero 0x42 [])) (fun t => t.pc) = some 0x1010 := by decide

/-- R322: the 32-bit displacement is sign-extended. -/
theorem test_jcc_near : after (exec (.jccRel32 .e 0xFFFFFFFA) { mk .long64 GprFile.zero 0x42 [] with pcNext := 0x401006 })
    (fun t => t.pc) = some 0x401000 := by decide

/-- R323: entered with count 0 the loop branches. -/
theorem test_loop : after (exec (.loop 0xFE) (mk .prot32 GprFile.zero 2 [])) (fun t => (t.gpr.rcx, t.pc)) =
    some (0xFFFFFFFF, 0x100E) := by decide

/-- R324: `E1 FE` with ECX 5, ZF 0. -/
theorem test_loope : after (exec (.loope 0xFE) (mk .prot32 (regs 0 0 5 0) 2 [])) (fun t => (t.gpr.rcx, t.pc)) =
    some (4, 0x1010) := by decide

/-- R325: `E0 FE` with ECX 1, ZF 0. -/
theorem test_loopne : after (exec (.loopne 0xFE) (mk .prot32 (regs 0 0 1 0) 2 [])) (fun t => (t.gpr.rcx, t.pc)) =
    some (0, 0x1010) := by decide

/-- Registers with values in RAX, RSI, RDI. -/
def strRegs (a si di : Quad) : GprFile := { GprFile.zero with rax := a, rsi := si, rdi := di }

/-- R341: MOVSB. -/
theorem test_movs : after (exec (.movsb none) (mk .prot32 (strRegs 0 0x3000 0x3010) 2 [(0x3000, 0x41)]))
    (fun t => (t.mem, t.gpr.rsi, t.gpr.rdi)) = some ([(0x3000, 0x41), (0x3010, 0x41)], 0x3001, 0x3011) := by decide

/-- R342: CMPSB of 41H and 42H. -/
theorem test_cmps : after (exec (.cmpsb none) (mk .prot32 (strRegs 0 0x3000 0x3010) 2 [(0x3000, 0x41), (0x3010, 0x42)]))
    (fun t => (t.rflags, t.gpr.rsi, t.gpr.rdi)) = some (0x97, 0x3001, 0x3011) := by decide

/-- R343: SCASB of equal bytes. -/
theorem test_scas : after (exec .scasb (mk .prot32 (strRegs 0 0 0x3000) 2 [])) (fun t => (t.rflags, t.gpr.rdi)) =
    some (0x46, 0x3001) := by decide

/-- R344: LODSD with DF 1. -/
theorem test_lods : after (exec (.lods .w32 none) (mk .prot32 (strRegs 0 0x3000 0) 0x402
    [(0x3000, 0x44), (0x3001, 0x33), (0x3002, 0x22), (0x3003, 0x11)])) (fun t => (t.gpr.rax, t.gpr.rsi)) =
    some (0x11223344, 0x2FFC) := by decide

/-- R345: STOSD. -/
theorem test_stos : after (exec (.stos .w32) (mk .prot32 (strRegs 0xCAFEF00D 0 0x3020) 2 []))
    (fun t => (t.mem, t.gpr.rdi)) = some ([(0x3020, 0x0D), (0x3021, 0xF0), (0x3022, 0xFE), (0x3023, 0xCA)], 0x3024) := by decide

/-- R222 to R226. -/
theorem test_flag_instructions : [Instr.stc, .clc, .cmc, .std, .cld].map
      (fun i => after (exec i (mk .prot32 GprFile.zero 3 [])) (fun t => t.rflags)) =
    [some 3, some 2, some 2, some 0x403, some 3] := by decide

/-- R227: LAHF. -/
theorem test_lahf : after (exec .lahf (mk .prot32 (regs 0x12345678 0 0 0) 0x8D7 [])) (fun t => t.gpr.rax) =
    some 0x1234D778 := by decide

/-- R228: SAHF of FFH. -/
theorem test_sahf : after (exec .sahf (mk .prot32 (regs 0xFF00 0 0 0) 2 [])) (fun t => t.rflags) = some 0xD7 := by decide

/-- Registers with a value in RSP. -/
def spRegs (sp : Quad) : GprFile := { GprFile.zero with rsp := sp }

/-- R229: PUSHFD. -/
theorem test_pushf : after (exec (.pushf .w32) (mk .prot32 (spRegs 0x3000) 0x246 [])) (fun t => (t.gpr.rsp, t.mem)) =
    some (0x2FFC, [(0x2FFC, 0x46), (0x2FFD, 0x02)]) := by decide

/-- R230: at CPL 3 with IOPL 0, POPF with 16 bits changes neither IF nor IOPL. -/
theorem test_popf : after (exec (.popf .w16) (mk .prot32 (spRegs 0x3000) 2 [(0x3000, 0xFF), (0x3001, 0xFF)]))
    (fun t => (t.rflags, t.gpr.rsp)) = some (0x4DD7, 0x3002) := by decide

/-- R232: PUSH ESP stores the old ESP. -/
theorem test_push_esp : after (exec (.push .w32 .rsp) (mk .prot32 (spRegs 0x3000) 2 [])) (fun t => (t.gpr.rsp, t.mem)) =
    some (0x2FFC, [(0x2FFD, 0x30)]) := by decide

/-- R233: POP ESP ends as the popped value. -/
theorem test_pop_esp : after (exec (.pop .w32 .rsp) (mk .prot32 (spRegs 0x3000) 2 [(0x3001, 0x55)])) (fun t => t.gpr.rsp) =
    some 0x5500 := by decide

/-- R360, R361: IRET and CPUID. -/
theorem test_named_only : exec .iret State.reset = .refused (.namedOnly "IRET") ∧
    exec .cpuid State.reset = .refused (.namedOnly "CPUID") := ⟨rfl, rfl⟩

/-- R119: a far pointer is the offset and then the selector. R126: at FFFFFFFCH its selector would wrap. -/
theorem test_far_pointer :
    readFarPointer .b32 (mk .prot32 GprFile.zero 2 [(0x3000, 0x78), (0x3002, 0x34), (0x3004, 0x1B), (0x3005, 0x02)]) 0x3000 =
        .ok (0x021B, 0x00340078) ∧
      readFarPointer .b32 State.reset 0xFFFFFFFC = .error (.refusal .outsideLaunchMemory) := ⟨rfl, rfl⟩

/-- The host's placement of a word: the next step of reset runs it. -/
theorem test_withFetchWord : after (step (State.reset.withFetchWord 24 0x0EC083)) (fun t => (t.gpr.rax, t.pc)) =
    some (14, 0x1003) := by decide

/-! ## Premises of the statements -/

theorem witness_DecodeEncodeRoundTrip :
    (Instr.addRmImm (.mem ⟨some .ss, .reg .rbp, some (.rdi, .x8), .d32 0xFFFFFFFF⟩) (.w16 0xFFFF)).wellFormed .prot32 = true ∧
      (Instr.movRRm .w64 .r15 (.mem ⟨some .gs, .reg .r13, some (.r12, .x1), .d8 0x80⟩)).wellFormed .long64 = true := by
  decide

theorem witness_DecodedInstructionIsWellFormed :
    decode .prot32 [0x26, 0x89, 0x03, 0x90] = .ok (.movRmR .w32 (.mem ⟨some .es, .reg .rbx, none, .none⟩) .rax, [0x90]) := by
  decide

theorem witness_RexChangesByteRegisters : isRex 0x40 = true ∧ (0x40 : Byte).getLsbD 0 = false ∧ isRex 0x4E = true ∧
    (0x4E : Byte).getLsbD 0 = false := by decide

/-- One premise for each clause: prefixes and REX before a refused byte, a repeated 66, two overrides, a byte after REX,
and the first and last branch of each range after 66 and a segment override. -/
theorem witness_PrefixesRefused :
    ([0x66#8, 0x26#8].all takenPrefix = true ∧ RexPart .prot32 [] ∧ RexPart .long64 [0x48]) ∧
      2 ≤ [0x66#8, 0x2E#8, 0x66#8].count 0x66 ∧ 2 ≤ [0x64#8, 0x65#8].countP (fun x => (segmentPrefix x).isSome) ∧
      (isLegacyPrefix 0x66 = true ∧ isRex 0x40 = true ∧ isRex 0x4F = true) ∧ (0x66 : Byte) ∈ [0x66#8, 0x26#8] ∧
      (0x70 ≤ (0x70#8).toNat ∧ (0x7F#8).toNat ≤ 0x7F) ∧ (0x80 ≤ (0x80#8).toNat ∧ (0x8F#8).toNat ≤ 0x8F) :=
  ⟨⟨by decide, .inl rfl, .inr ⟨rfl, 0x48, by decide, rfl⟩⟩, by decide⟩

/-- The combinations of the review: REX between an override and 66, and branches with 66 before an override or REX. -/
theorem test_refused_prefix_combinations :
    ([(Mode.long64, [0x26#8, 0x48, 0x66, 0x50]), (.prot32, [0x66, 0x26, 0x75, 0x02]), (.prot32, [0x26, 0x66, 0x75, 0x02]),
        (.long64, [0x66, 0x48, 0x75, 0x02])].all fun x => decide (decode x.1 x.2 = .error .prefixRefused)) = true := by decide

/-- The first unlisted byte after a listed run, the last before the next, and the same after 0F; the extensions beside the
listed ones. -/
theorem witness_UnlistedOpcodesRefused :
    (PrefixesTaken [0x66, 0x26] ∧ PrefixesTaken [] ∧ RexPart .prot32 [] ∧ RexPart .long64 [0x4F]) ∧
    (∀ op ∈ [0x06#8, 0x0E#8, 0x16#8, 0x17#8, 0xFE#8, 0xFF#8],
      isLegacyPrefix op = false ∧ isRex op = false ∧ ∀ r ∈ oneByteOpcodes, op.toNat < r.1 ∨ r.2 < op.toNat) ∧
      (isLegacyPrefix 0x40 = false ∧ ∀ r ∈ oneByteOpcodes, (0x40#8).toNat < r.1 ∨ r.2 < (0x40#8).toNat) ∧
      (∀ op ∈ [0x3F#8, 0x50#8, 0x7F#8, 0xA0#8, 0xBC#8], ∀ r ∈ twoByteOpcodes, op.toNat < r.1 ∨ r.2 < op.toNat) ∧
      (((0xC8#8).extractLsb' 3 3).toNat ∉ [0, 2, 3, 5] ∧ ((0xE0#8).extractLsb' 3 3).toNat ∉ [0, 2, 3, 5] ∧
        ((0xF0#8).extractLsb' 3 3).toNat ∉ [0, 2, 3, 5]) ∧
      ((0xC8#8).extractLsb' 3 3).toNat ≠ 0 ∧
      (((0xE8#8).extractLsb' 3 3).toNat ∉ [4, 6, 7] ∧ ((0xD8#8).extractLsb' 3 3).toNat ∉ [4, 6, 7]) ∧
      ((0xD8#8).extractLsb' 3 3).toNat ∉ [4, 5, 6, 7] :=
  ⟨⟨⟨by decide, by decide, by decide⟩, ⟨by decide, by decide, by decide⟩, .inl rfl, .inr ⟨rfl, 0x4F, by decide, rfl⟩⟩, by decide⟩

/-- The reset state with code at 1000H, flags and registers. -/
def prog (fl : Quad) (g : GprFile) (code : List Byte) : State :=
  { State.reset with rflags := fl, gpr := g, mem := Memory.writeBytes [] 0x1000 code }

/-- A launch state other than reset: LONG64, all ones in a register, FS with a base, a byte in memory. -/
theorem witness_ResetSatisfiesInv :
    isLaunch { mk .long64 (regs 0xFFFFFFFFFFFFFFFF 0 0 0) 0xCD7 [(0x3000, 5)] with
      segBase := ⟨0, 0, 0, 0, 0xFFFF800000000000, 0⟩ } := by
  refine ⟨⟨rfl, by decide, by decide⟩, (fun h => by cases h), ⟨by decide, by decide⟩, ?_, rfl, by decide, ?_⟩
  · intro r h
    cases r <;> first | rfl | simp [isFsGs, mk] at h
  · intro a
    simp [admits, mk, State.reset, Launch.default, Launch.defaultRegions, Region.allows, Region.covers]
    omega

theorem witness_StepRunsDecodedInstruction :
    (prog 2 GprFile.zero [0x83, 0xC0, 0x0E]).pc ≠ (prog 2 GprFile.zero [0x83, 0xC0, 0x0E]).launch.endAddr ∧
      decode .prot32 (fetchWindow (prog 2 GprFile.zero [0x83, 0xC0, 0x0E])) =
        .ok (.addRmSimm8 .w32 (.reg .rax) 14, List.replicate 12 0) := by decide

theorem witness_StepRunsEncodedInstruction :
    (Instr.addRmSimm8 .w32 (.reg .rax) 14).wellFormed .prot32 = true ∧
      encode .prot32 (.addRmSimm8 .w32 (.reg .rax) 14) = [0x83, 0xC0, 0x0E] ∧
      ∀ k (h : k < 3), admits (prog 2 GprFile.zero [0x83, 0xC0, 0x0E]) .fetch (0x1000 + k) = true ∧
        Memory.read (prog 2 GprFile.zero [0x83, 0xC0, 0x0E]).mem (0x1000 + k) = [0x83#8, 0xC0#8, 0x0E#8][k] := by decide

theorem witness_RunEndsAndFetchRefusal :
    { State.reset with pc := 0x2000 }.pc = State.reset.launch.endAddr ∧
      ({ State.reset with pc := 0x2001 }.pc ≠ State.reset.launch.endAddr ∧
        admits { State.reset with pc := 0x2001 } .fetch (linear { State.reset with pc := 0x2001 } .cs 0x2001).toNat = false) := by
  decide

/-- With TF set: an instruction that completes, one that faults, one that is refused. -/
theorem witness_SingleStepTraps :
    getFlag (prog 0x102 GprFile.zero []).rflags .tf = true ∧
      (fetchDecode (prog 0x102 GprFile.zero [0xF9]) = .ok (.stc, 1) ∧
        ∃ t, exec .stc (beginInstr (prog 0x102 GprFile.zero [0xF9]) 1) = .next t) ∧
      (fetchDecode (prog 0x102 GprFile.zero [0xF7, 0xF3]) = .ok (.divRm .w32 (.reg .rbx), 2) ∧
        exec (.divRm .w32 (.reg .rbx)) (beginInstr (prog 0x102 GprFile.zero [0xF7, 0xF3]) 2) = .fault .divideError) ∧
      (fetchDecode (prog 0x102 GprFile.zero [0xCF]) = .ok (.iret, 1) ∧
        exec .iret (beginInstr (prog 0x102 GprFile.zero [0xCF]) 1) = .refused (.namedOnly "IRET")) :=
  ⟨by decide, ⟨by decide, _, rfl⟩, ⟨by decide, rfl⟩, by decide, rfl⟩

/-- A step that stores two bytes, from a state that satisfies the invariant: for StepKeepsInv, StoresStayInWritableMemory
and StepKeepsModeAndSystem. -/
theorem witness_StepKeepsInv : Inv (prog 2 (regs 0x1234 0x3000 0 0) [0x66, 0x89, 0x03]) ∧
    ∃ t, Leads (prog 2 (regs 0x1234 0x3000 0 0) [0x66, 0x89, 0x03]) t ∧
      Memory.read t.mem 0x3001 ≠ Memory.read (prog 2 (regs 0x1234 0x3000 0 0) [0x66, 0x89, 0x03]).mem 0x3001 := by
  refine ⟨⟨by decide, by decide, by decide, by decide, ?_, ?_, by decide, ?_⟩, _, .inl rfl, by decide⟩
  · intro _ r
    cases r <;> decide
  · intro _ r h
    cases r <;> first | rfl | cases h
  · intro _ r
    cases r <;> decide

/-- Two register sets that agree on CR0.AM. -/
theorem witness_StepReadsNoSystemRegisterButAm :
    { SysRegs.zero with cr0 := 0x80040001, cr4 := 0x200000 }.cr0.getLsbD 18 =
      { SysRegs.zero with cr0 := 0x40000 }.cr0.getLsbD 18 := by decide

/-- Instructions that complete: STC, which is none of POPF, STD and CLD, with CPL 3 above IOPL 0, and with VIF and VIP set;
STD; POPF. -/
theorem witness_FlagsChangeOnlyAsAllowed :
    (∃ t, exec .stc (mk .prot32 GprFile.zero 0x180002 []) = .next t ∧ getFlag t.rflags .vif = true ∧
        getFlag t.rflags .vip = true) ∧
      (∃ t, exec .std (mk .prot32 GprFile.zero 2 []) = .next t) ∧
      (∃ t, exec (.popf .w16) (mk .prot32 (spRegs 0x3000) 2 []) = .next t) ∧
      State.reset.launch.cpl ≠ 0 ∧ iopl 2 < State.reset.launch.cpl :=
  ⟨⟨_, rfl, by decide, by decide⟩, ⟨_, rfl⟩, ⟨_, rfl⟩, by decide, by decide⟩

/-- The lookup answers with a fault or not at all. -/
def withLookup (r : DescResult) (s : State) : State := { s with launch := { s.launch with descDefault := r } }

/-- Each fault that FaultSources speaks of is raised. -/
theorem witness_FaultSources :
    exec (.divRm8 (.reg (.lo .rbx))) State.reset = .fault .divideError ∧
      exec (.idivRm8 (.reg (.lo .rbx))) State.reset = .fault .divideError ∧
      exec (.movSregRm .reserved7 (.reg .rax)) State.reset = .fault .invalidOpcode ∧
      exec (.movRmSreg .w32 (.reg .rax) .reserved6) State.reset = .fault .invalidOpcode ∧
      exec .lahf { State.reset with launch := { Launch.default with mode := .long64, lahf64 := false } } = .fault .invalidOpcode ∧
      exec (.movSregRm (.sreg .ds) (.reg .rax)) (withLookup (.fault (.notPresent 8)) State.reset) =
        .fault (.segmentNotPresent 8) ∧
      exec (.movSregRm (.sreg .ss) (.reg .rax)) (withLookup (.fault (.stackSegment 8)) State.reset) = .fault (.stackFault 8) ∧
      exec (.movSregRm (.sreg .gs) (.reg .rax)) (withLookup (.fault (.generalProtection 8)) State.reset) =
        .fault (.generalProtection 8) :=
  ⟨rfl, rfl, rfl, rfl, rfl, rfl, rfl, rfl⟩

/-- Alignment checking on: CR0.AM and AC set, at CPL 3. -/
def checked (s : State) : State := { s with sys := { s.sys with cr0 := 0x40000 }, rflags := s.rflags ||| 0x40000 }

theorem witness_AlignmentFaultOnlyWhenEnabled :
    exec (.movRmR .w32 (.mem (at_ .rbx)) .rax) (checked (mk .prot32 (regs 0 0x3001 0 0) 2 [])) = .fault .alignmentCheck ∧
      step (checked (prog 2 (regs 0 0x3001 0 0) [0x89, 0x03])) = .fault .alignmentCheck := ⟨rfl, rfl⟩

/-- Completing instructions that draw 4, 4, 6, 6, 2 and 0 bits. -/
theorem witness_FreeBitsDrawn :
    [Instr.mulRm8 (.reg (.lo .rbx)), .btRmImm8 .w16 (.reg .rax) 0, .divRm8 (.reg (.lo .rbx)), .idivRm .w16 (.reg .rbx),
        .popf .w32, .popf .w16].map
      (fun i => after (exec i (mk .prot32 { spRegs 0x3000 with rbx := 1 } 2 [])) (fun t => t.draws)) =
    [some 4, some 4, some 6, some 6, some 2, some 0] := by decide

theorem witness_PartialRegisterWrites : (mk .long64 GprFile.zero 2 []).launch.mode = .long64 ∧ Gpr.rcx ≠ Gpr.rax ∧
    Gpr.rcx ≠ highGpr .ah := by decide

/-- The last doubleword of the space: it is written and read back, and so is its last byte. -/
theorem witness_MemoryIsLittleEndian :
    Memory.wf State.reset.mem = true ∧ (∃ t, memWrite State.reset 0xFFFFFFFC 4 0x11223344#32 = .ok t) ∧
      Admitted State.reset .read 0xFFFFFFFC 4 ∧ Admitted State.reset .read (0xFFFFFFFC + BitVec.ofNat 64 3) 1 :=
  ⟨rfl, ⟨_, rfl⟩, by decide, by decide⟩

theorem witness_CanonicalMemoryIsUnique : Memory.wf [(0x10, 1), (0x20, 0xFF)] = true ∧
    ∀ x, Memory.read [(0x10, 1), (0x20, 0xFF)] x = Memory.read (Memory.write [(0x20, 0xFF)] 0x10 1) x :=
  ⟨by decide, fun _ => rfl⟩

/-- A state for each outcome of an access: below the last readable byte, past it, on code, and misaligned. -/
theorem witness_AccessOutcomes :
    (∃ j < 2, admits State.reset .read (0xFFFFFFFF + j) = false) ∧
      (∃ j < 2, admits State.reset .fetch (0xFFF + j) = true) ∧
      (∃ j < 2, admits State.reset .write (0xFFFFFFFF + j) = false) ∧
      (AlignmentChecked (checked State.reset) ∧ (0x3001 : Quad).toNat % 2 ≠ 0) :=
  ⟨⟨1, by decide, by decide⟩, ⟨1, by decide, by decide⟩, ⟨1, by decide, by decide⟩, by decide⟩

theorem witness_OperandSegments : (⟨some .gs, .reg .rsp, none, .none⟩ : Mem).seg = some .gs ∧
    ((at_ .rbp).seg = none ∧ (at_ .rbp).base = .reg .rbp) ∧ ((at_ .rsp).seg = none ∧ (at_ .rsp).base = .reg .rsp) ∧
    ((⟨none, .reg .rax, some (.rbp, .x1), .none⟩ : Mem).base ≠ .reg .rsp ∧ (at_ .rax).base ≠ .reg .rbp) := by decide

theorem witness_LinearAddresses : (mk .long64 GprFile.zero 2 []).launch.mode = .long64 ∧
    (mk .prot32 GprFile.zero 2 []).launch.mode = .prot32 ∧ SegReg.ss ≠ .fs ∧ SegReg.ss ≠ .gs := by decide

theorem witness_AdditionAndSubtractionFlagsMean : 0 < Width.b8.bits ∧ 0 < Width.b64.bits := by decide

/-- An aligned doubleword at EBX that is read and written with alignment checking on. -/
def memState : State := checked (mk .prot32 (regs 1 0x3000 0 0) 3 [(0x3000, 0xFF)])

/-- The same, but one byte higher: not aligned. -/
def oddState : State := checked (mk .prot32 (regs 1 0x3001 0 0) 3 [(0x3000, 0xFF)])

theorem memState_readable : Readable memState (operandAddr memState (at_ .rbx)) 4 := by decide

theorem memState_writable : Writable memState (operandAddr memState (at_ .rbx)) 4 := by decide

theorem oddState_misaligned : Admitted oddState .read (operandAddr oddState (at_ .rbx)) 4 ∧
    ¬ AlignedFor oddState (operandAddr oddState (at_ .rbx)) 4 := by decide

/-- A memory destination with a register source; ADC for the other operation. -/
theorem witness_AddAndAdcComplete :
    aluForm (.addRmR .w32 (.mem (at_ .rbx)) .rax) = some ⟨.add, .b32, .mem (at_ .rbx), .rm (.reg (.lo .rax))⟩ ∧
      aluForm (.adcRRm .w32 .rax (.mem (at_ .rbx))) = some ⟨.adc, .b32, .reg (.lo .rax), .rm (.mem (at_ .rbx))⟩ ∧
      Memory.wf memState.mem = true ∧ RmReadable .b32 (.mem (at_ .rbx)) memState ∧
      RmWritable .b32 (.mem (at_ .rbx)) memState ∧ RmReadable .b32 (.reg (.lo .rax)) memState ∧
      RmWritable .b32 (.reg (.lo .rax)) memState :=
  ⟨rfl, rfl, by decide, memState_readable, memState_writable, trivial, trivial⟩

theorem witness_SubAndSbbComplete :
    aluForm (.subRmImm (.mem (at_ .rbx)) (.w32 5)) = some ⟨.sub, .b32, .mem (at_ .rbx), .imm (5 : BitVec 32)⟩ ∧
      aluForm (.sbbRRm .w32 .rax (.mem (at_ .rbx))) = some ⟨.sbb, .b32, .reg (.lo .rax), .rm (.mem (at_ .rbx))⟩ ∧
      Memory.wf memState.mem = true ∧ RmReadable .b32 (.mem (at_ .rbx)) memState ∧
      RmWritable .b32 (.mem (at_ .rbx)) memState :=
  ⟨rfl, rfl, by decide, memState_readable, memState_writable⟩

theorem witness_ArithmeticAlignmentTrap :
    aluForm (.addRmR .w32 (.mem (at_ .rbx)) .rax) = some ⟨.add, .b32, .mem (at_ .rbx), .rm (.reg (.lo .rax))⟩ ∧
      aluForm (.subRRm .w32 .rax (.mem (at_ .rbx))) = some ⟨.sub, .b32, .reg (.lo .rax), .rm (.mem (at_ .rbx))⟩ ∧
      Admitted oddState .read (operandAddr oddState (at_ .rbx)) Width.b32.bytes ∧
      ¬ AlignedFor oddState (operandAddr oddState (at_ .rbx)) Width.b32.bytes :=
  ⟨rfl, rfl, oddState_misaligned.1, oddState_misaligned.2⟩

theorem witness_MulCompletes : mulForm (.mulRm .w32 (.mem (at_ .rbx))) = some (.b32, .mem (at_ .rbx)) ∧
    RmReadable .b32 (.mem (at_ .rbx)) memState := ⟨rfl, memState_readable⟩

/-- The divisor 0; the least quotient that does not fit a byte; the greatest that does. -/
theorem witness_DivCompletesOrFaults : divForm (.divRm8 (.reg (.lo .rbx))) = some (.b8, .reg (.lo .rbx)) ∧
    RmReadable .b8 (.reg (.lo .rbx)) State.reset ∧ (rmValue .b8 (.reg (.lo .rbx)) State.reset).toNat = 0 ∧
    (readPair .b8 (mk .prot32 (regs 0x200 2 0 0) 2 [])).toNat / 2 = 2 ^ 8 ∧
    (readPair .b8 (mk .prot32 (regs 0x1FF 2 0 0) 2 [])).toNat / 2 = 2 ^ 8 - 1 := ⟨rfl, trivial, by decide, by decide, by decide⟩

/-- The divisor 0; the quotients just outside and just inside the range of a byte, at both ends. -/
theorem witness_IdivCompletesOrFaults : idivForm (.idivRm8 (.reg (.lo .rbx))) = some (.b8, .reg (.lo .rbx)) ∧
    RmReadable .b8 (.reg (.lo .rbx)) State.reset ∧ (rmValue .b8 (.reg (.lo .rbx)) State.reset).toInt = 0 ∧
    [0xFF7F, 0x80, 0xFF80, 0x7F].map (fun a => (readPair .b8 (mk .prot32 (regs a 1 0 0) 2 [])).toInt.tdiv 1) =
      [-129, 128, -128, 127] := ⟨rfl, trivial, by decide, by decide⟩

/-- BT of a memory base, BTS of a memory base, BTC of a register with a register offset of 32 or more. -/
theorem witness_BitInstructionsComplete :
    (bitForm (.btRmImm8 .w32 (.mem (at_ .rbx)) 31) = some ⟨.test, .w32, .mem (at_ .rbx), .inr 31⟩ ∧
      RmReadable .b32 (.mem (at_ .rbx)) memState) ∧
      (bitForm (.btsRmImm8 .w32 (.mem (at_ .rbx)) 32) = some ⟨.set, .w32, .mem (at_ .rbx), .inr 32⟩ ∧
        ¬ (⟨.set, .w32, .mem (at_ .rbx), .inr 32⟩ : BitForm).isBitString ∧ RmWritable .b32 (.mem (at_ .rbx)) memState) ∧
      bitForm (.btcRmR .w16 (.reg .rax) .rbx) = some ⟨.complement, .w16, .reg .rax, .inl .rbx⟩ ∧
        ¬ (⟨.complement, .w16, .reg .rax, .inl .rbx⟩ : BitForm).isBitString :=
  ⟨⟨rfl, memState_readable⟩, ⟨rfl, (by rintro ⟨-, _, h⟩; cases h), memState_writable⟩, rfl,
    by rintro ⟨⟨_, h⟩, -⟩; cases h⟩

theorem witness_BitStringFormRefused :
    bitForm (.btRmR .w32 (.mem (at_ .rbx)) .rax) = some ⟨.test, .w32, .mem (at_ .rbx), .inl .rax⟩ ∧
      (⟨.test, .w32, .mem (at_ .rbx), .inl .rax⟩ : BitForm).isBitString := ⟨rfl, ⟨_, rfl⟩, _, rfl⟩

theorem witness_MovCompletes :
    moveForm (.movRmR .w32 (.mem (at_ .rbx)) .rax) = some ⟨.b32, .mem (at_ .rbx), .rm (.reg (.lo .rax))⟩ ∧
      moveForm (.movRRm .w32 .rax (.mem (at_ .rbx))) = some ⟨.b32, .reg (.lo .rax), .rm (.mem (at_ .rbx))⟩ ∧
      Memory.wf memState.mem = true ∧ RmReadable .b32 (.mem (at_ .rbx)) memState ∧
      RmWritable .b32 (.mem (at_ .rbx)) memState := ⟨rfl, rfl, by decide, memState_readable, memState_writable⟩

theorem witness_MovFromSegmentCompletes : Memory.wf memState.mem = true ∧
    Writable memState (operandAddr memState (at_ .rbx)) 2 := by decide

/-- SS without single-step, and FS in LONG64. -/
theorem witness_MovToSegmentCompletes :
    (getFlag State.reset.rflags .tf = false ∧ descLookup State.reset .ss (rmValue .b16 (wide (.reg .rax)) State.reset) = .ok 0) ∧
      (descLookup (withLookup (.ok 0xFFFFFFFF) (mk .long64 GprFile.zero 2 [])) .fs 0 = .ok 0xFFFFFFFF ∧
        RmReadable .b16 (wide (.reg .rax)) State.reset) := ⟨by decide, by decide, trivial⟩

/-- Single-step; a fault of the lookup; an unknown selector. -/
theorem witness_MovToSegmentStops : getFlag (mk .prot32 GprFile.zero 0x102 []).rflags .tf = true ∧
    descLookup (withLookup (.fault (.notPresent 8)) State.reset) .ds 0 = .fault (.notPresent 8) ∧
    descLookup (withLookup .unknown State.reset) .es 0 = .unknown ∧ getFlag State.reset.rflags .tf = false ∧
    RmReadable .b16 (wide (.reg .rax)) State.reset := ⟨by decide, by decide, by decide, by decide, trivial⟩

/-- A readable source with the condition true and false (B and AE with CF 1); a misaligned one. -/
theorem witness_CmovCompletes : RmReadable .b32 (wide (.mem (at_ .rbx))) memState ∧ condHolds .b memState.rflags = true ∧
    condHolds .ae memState.rflags = false ∧ Admitted oddState .read (operandAddr oddState (at_ .rbx)) OpSize.w32.width.bytes ∧
    ¬ AlignedFor oddState (operandAddr oddState (at_ .rbx)) OpSize.w32.width.bytes :=
  ⟨memState_readable, by decide, by decide, oddState_misaligned.1, oddState_misaligned.2⟩

theorem witness_SetccCompletes : Memory.wf oddState.mem = true ∧
    Writable oddState (operandAddr oddState (at_ .rbx)) 1 := by decide

theorem witness_ConditionCodes : (0 : BitVec 4).getLsbD 0 = false ∧ (14 : BitVec 4).getLsbD 0 = false := by decide

theorem witness_JccCompletes : condHolds .e 0x42 = true ∧ condHolds .e 2 = false := by decide

/-- LOOP counts from 0 and is taken, from 1 and is not. -/
theorem witness_LoopsComplete : Instr.loop 0xFE = .loop 0xFE ∧ loopCount (mk .prot32 (regs 0 0 0 0) 2 []) = 0xFFFFFFFF ∧
    loopCount (mk .prot32 (regs 0 0 1 0) 2 []) = 0 := by decide

/-- String operands at 3000H and at the last doubleword of the space, with alignment checking on. -/
def strState : State := checked (mk .prot32 (strRegs 0x11 0x3000 0xFFFFFFFC) 2 [])

theorem witness_MovsCompletes : movsForm (.movs .w32 (some .fs)) = some (.b32, some .fs) ∧ Memory.wf strState.mem = true ∧
    Readable strState (linear strState .fs (truncAddr .prot32 (strState.gpr.get .rsi))) 4 ∧
    Writable strState (linear strState .es (truncAddr .prot32 (strState.gpr.get .rdi))) 4 := by decide

theorem witness_CmpsCompletes : cmpsForm (.cmps .w16 none) = some (.b16, none) ∧
    Readable strState (linear strState .ds (truncAddr .prot32 (strState.gpr.get .rsi))) 2 ∧
    Readable strState (linear strState .es (truncAddr .prot32 (strState.gpr.get .rdi))) 2 := by decide

theorem witness_ScasCompletes : scasForm (.scas .w32) = some .b32 ∧
    Readable strState (linear strState .es (truncAddr .prot32 (strState.gpr.get .rdi))) 4 := by decide

theorem witness_LodsCompletes : lodsForm (.lods .w32 none) = some (.b32, none) ∧
    Readable strState (linear strState .ds (truncAddr .prot32 (strState.gpr.get .rsi))) 4 := by decide

theorem witness_StosCompletes : stosForm .stosb = some .b8 ∧ Memory.wf strState.mem = true ∧
    Writable strState (linear strState .es (truncAddr .prot32 (strState.gpr.get .rdi))) 1 := by decide

/-- A stack pointer of 0, below which the last doubleword of the space lies. -/
def stackState (sp : Quad) : State := checked (mk .prot32 (spRegs sp) 2 [])

theorem witness_PushCompletes : Memory.wf (stackState 0).mem = true ∧ stackSlot (stackState 0) 4 = 0xFFFFFFFC ∧
    Writable (stackState 0) (stackSlot (stackState 0) 4) 4 := by decide

/-- For POP EBX and for POP ESP. -/
theorem witness_PopCompletes : Gpr.rbx ≠ .rsp ∧
    Readable (stackState 0xFFFFFFFC) (linear (stackState 0xFFFFFFFC) .ss (truncAddr .prot32 0xFFFFFFFC)) 4 := by decide

theorem witness_PushfCompletes : Memory.wf (stackState 0).mem = true ∧ reservedOk (stackState 0).rflags = true ∧
    Writable (stackState 0) (stackSlot (stackState 0) 4) 4 := by decide

/-- CPL 3 with IOPL 0 and 3, and CPL 0. -/
theorem witness_PopfCompletes :
    Readable (stackState 0x3000) (linear (stackState 0x3000) .ss (truncAddr .prot32 0x3000)) 4 ∧
      ¬ State.reset.launch.cpl ≤ iopl 2 ∧ State.reset.launch.cpl ≤ iopl 0x3002 ∧
      { Launch.default with cpl := 0 }.cpl = 0 := by decide

/-- A misaligned slot below the stack pointer, and a misaligned item at it. -/
theorem witness_StackAlignmentTraps :
    (OffCode (stackState 0x3002) (stackSlot (stackState 0x3002) 4) 4 ∧
      Admitted (stackState 0x3002) .write (stackSlot (stackState 0x3002) 4) 4 ∧
      ¬ AlignedFor (stackState 0x3002) (stackSlot (stackState 0x3002) 4) 4) ∧
      Admitted (stackState 0x3002) .read (linear (stackState 0x3002) .ss (truncAddr .prot32 0x3002)) 4 ∧
      ¬ AlignedFor (stackState 0x3002) (linear (stackState 0x3002) .ss (truncAddr .prot32 0x3002)) 4 := by decide

/-- PROT32; LONG64 with LAHF64 and without it; and the reserved flag bits at reset. -/
theorem witness_LahfLoadsFlags_and_SahfStoresFlags : State.reset.launch.mode = .prot32 ∧
    reservedOk State.reset.rflags = true ∧ (mk .long64 GprFile.zero 2 []).launch.lahf64 = true ∧
    ({ Launch.default with mode := .long64, lahf64 := false }.mode = .long64 ∧
      { Launch.default with mode := .long64, lahf64 := false }.lahf64 = false) := by decide

theorem witness_FlagInstructionsComplete : (0xF5#8, Instr.cmc, Flag.cf, !getFlag State.reset.rflags .cf) ∈
    [(0xF9#8, Instr.stc, Flag.cf, true), (0xF8#8, .clc, .cf, false), (0xF5#8, .cmc, .cf, !getFlag State.reset.rflags .cf),
      (0xFD#8, .std, .df, true), (0xFC#8, .cld, .df, false)] := by decide

end Sys2Proof.Tests
end

section
/-!
SUPPORT. Every instruction runs one of the model's shared operations: `performs_exec` says which, once, so that a fact
about all instructions is a fact about the shared operations. No operation raises `#DB` of itself, so a state that a step
leads to is the one it started from or the one that the decoded instruction leaves (`leads_cases`).
-/
namespace Sys2Proof.Machine

/-! ## The shared operations behind the instructions -/

/-- `r` is what one of the shared operations of the model gives in the state `s`. -/
inductive Performs (s : State) : Res State → Prop where
  | aluRm {op : AluOp} {w : Width} {dst : Rm Reg8} {b : BitVec w.bits} : Performs s (aluRm op w dst b s)
  | aluReg {op : AluOp} {w : Width} {dst : Reg8} {src : Rm Reg8} : Performs s (aluReg op w dst src s)
  | mul {w : Width} {src : Rm Reg8} : Performs s (mulOp w src s)
  | div {w : Width} {src : Rm Reg8} : Performs s (divOp w src s)
  | idiv {w : Width} {src : Rm Reg8} : Performs s (idivOp w src s)
  | bit {act : BitAction} {w : Width} {base : Rm Reg8} {off : Nat} : Performs s (bitOp act w base off s)
  | bitReg {act : BitAction} {w : Width} {base : Rm Gpr} {off : Gpr} : Performs s (bitRegOp act w base off s)
  | writeReg {w : Width} {r : Reg8} {v : BitVec w.bits} : Performs s (.ok (writeReg w r v s))
  | writeRm {w : Width} {dst : Rm Reg8} {v : BitVec w.bits} : Performs s (writeRm w dst v s)
  | movToReg {w : Width} {dst : Reg8} {src : Rm Reg8} : Performs s (movToReg w dst src s)
  | movFromSeg {w : Width} {dst : Rm Gpr} {src : SegField} : Performs s (movFromSeg w dst src s)
  | movToSeg {dst : SegField} {src : Rm Gpr} : Performs s (movToSeg dst src s)
  | cmov {c : Cond} {w : Width} {dst : Gpr} {src : Rm Gpr} : Performs s (cmovOp c w dst src s)
  | branch {n : Nat} {taken : Bool} {rel : BitVec n} : Performs s (.ok (branchIf taken rel s))
  | loop {also : Bool} {rel : BitVec 8} : Performs s (.ok (loopOp also rel s))
  | movs {w : Width} {seg : Option SegReg} : Performs s (movsOp w seg s)
  | cmps {w : Width} {seg : Option SegReg} : Performs s (cmpsOp w seg s)
  | scas {w : Width} : Performs s (scasOp w s)
  | lods {w : Width} {seg : Option SegReg} : Performs s (lodsOp w seg s)
  | stos {w : Width} : Performs s (stosOp w s)
  | push {w : Width} {v : BitVec w.bits} : Performs s (push w v s)
  | pop {w : Width} {r : Gpr} : Performs s (popOp w r s)
  | popf {sz : OpSize} : Performs s (popfOp sz s)
  | setFlag {f : Flag} {b : Bool} : Performs s (setFlagOp f b s)
  | lahf : Performs s (lahfOp s)
  | sahf : Performs s (sahfOp s)
  | refuse {q : Refusal} : Performs s (refuse q)

/-- Every instruction performs a shared operation, and then goes on at `pc_next` unless the operation has written `pc`. -/
theorem performs_exec (i : Instr) (s : State) :
    ∃ r, Performs s r ∧ (exec i s = finish r ∨ exec i s = toOutcome r) :=
  match i with
  | .addRm8R8 .. | .addRmR .. | .addRm8Imm8 .. | .addRmImm .. | .addRmSimm8 ..
  | .adcRm8R8 .. | .adcRmR .. | .adcRm8Imm8 .. | .adcRmImm .. | .adcRmSimm8 ..
  | .sbbRm8R8 .. | .sbbRmR .. | .sbbRm8Imm8 .. | .sbbRmImm .. | .sbbRmSimm8 ..
  | .subRm8R8 .. | .subRmR .. | .subRm8Imm8 .. | .subRmImm .. | .subRmSimm8 .. =>
    ⟨_, .aluRm, .inl rfl⟩
  | .addAlImm8 .. | .adcAlImm8 .. | .sbbAlImm8 .. | .subAlImm8 .. => ⟨_, .aluRm (dst := .reg (.lo .rax)), .inl rfl⟩
  | .addAccImm imm | .adcAccImm imm | .sbbAccImm imm | .subAccImm imm =>
    ⟨_, .aluRm (w := imm.size.width) (dst := .reg (.lo .rax)), .inl rfl⟩
  | .addR8Rm8 .. | .addRRm .. | .adcR8Rm8 .. | .adcRRm .. | .sbbR8Rm8 .. | .sbbRRm .. | .subR8Rm8 .. | .subRRm .. =>
    ⟨_, .aluReg, .inl rfl⟩
  | .mulRm8 .. | .mulRm .. => ⟨_, .mul, .inl rfl⟩
  | .divRm8 .. | .divRm .. => ⟨_, .div, .inl rfl⟩
  | .idivRm8 .. | .idivRm .. => ⟨_, .idiv, .inl rfl⟩
  | .btRmImm8 .. | .btsRmImm8 .. | .btrRmImm8 .. | .btcRmImm8 .. => ⟨_, .bit, .inl rfl⟩
  | .btRmR .. | .btsRmR .. | .btrRmR .. | .btcRmR .. => ⟨_, .bitReg, .inl rfl⟩
  | .movR8Imm8 .. | .movRImm .. => ⟨_, .writeReg, .inl rfl⟩
  | .movRm8R8 .. | .movRmR .. | .movRm8Imm8 .. | .movRmImm .. | .setcc .. => ⟨_, .writeRm, .inl rfl⟩
  | .movR8Rm8 .. | .movRRm .. => ⟨_, .movToReg, .inl rfl⟩
  | .movRmSreg .. => ⟨_, .movFromSeg, .inl rfl⟩
  | .movSregRm .. => ⟨_, .movToSeg, .inl rfl⟩
  | .cmovcc .. => ⟨_, .cmov, .inl rfl⟩
  | .jccRel8 .. | .jccRel32 .. => ⟨_, .branch, .inr rfl⟩
  | .loop .. | .loope .. | .loopne .. => ⟨_, .loop, .inr rfl⟩
  | .movsb .. | .movs .. => ⟨_, .movs, .inl rfl⟩
  | .cmpsb .. | .cmps .. => ⟨_, .cmps, .inl rfl⟩
  | .scasb | .scas .. => ⟨_, .scas, .inl rfl⟩
  | .lodsb .. | .lods .. => ⟨_, .lods, .inl rfl⟩
  | .stosb | .stos .. => ⟨_, .stos, .inl rfl⟩
  | .push .. | .pushf .. => ⟨_, .push, .inl rfl⟩
  | .pop .. => ⟨_, .pop, .inl rfl⟩
  | .popf .. => ⟨_, .popf, .inl rfl⟩
  | .cmc | .clc | .stc | .cld | .std => ⟨_, .setFlag, .inl rfl⟩
  | .lahf => ⟨_, .lahf, .inl rfl⟩
  | .sahf => ⟨_, .sahf, .inl rfl⟩
  | .iret | .cpuid => ⟨_, .refuse, .inl rfl⟩

/-- A completed instruction leaves what its shared operation leaves, with `pc` moved to `pc_next` or as it is. -/
theorem exec_eq_next_cases {i : Instr} {s t : State} (h : exec i s = .next t) :
    ∃ u, Performs s (.ok u) ∧ (t = advance u ∨ t = u) := by
  obtain ⟨r, hr, he | he⟩ := performs_exec i s
  · obtain ⟨u, rfl, ht⟩ := finish_eq_next_iff.1 (he.symm.trans h)
    exact ⟨u, hr, .inl ht⟩
  · obtain rfl := toOutcome_eq_next_iff.1 (he.symm.trans h)
    exact ⟨t, hr, .inr rfl⟩

/-! ## No operation raises `#DB` -/

/-- The result is not the single-step trap. -/
def NoTrap {α : Type} (r : Res α) : Prop := ∀ u, r ≠ .error (.fault (.debug u))

theorem noTrap_ok {α : Type} {a : α} : NoTrap (.ok a : Res α) := fun _ h => by cases h

theorem noTrap_refuse {α : Type} {q : Refusal} : NoTrap (refuse q : Res α) := fun _ h => by cases h

theorem noTrap_raise {α : Type} {f : Fault} (hf : ∀ u, f ≠ .debug u) : NoTrap (raise f : Res α) := fun u h => by
  cases h
  exact hf u rfl

theorem noTrap_bind {α β : Type} {x : Res α} {f : α → Res β} (hx : NoTrap x) (hf : ∀ a, NoTrap (f a)) :
    NoTrap (x >>= f) := fun u h => by
  obtain h | ⟨a, -, h⟩ := bind_eq_error_iff.1 h
  · exact hx u h
  · exact hf a u h

theorem noTrap_ite {α : Type} {p : Prop} [Decidable p] {x y : Res α} (hx : NoTrap x) (hy : NoTrap y) :
    NoTrap (if p then x else y) := by
  split
  · exact hx
  · exact hy

theorem noTrap_memRead {s : State} {a : Quad} {n : Nat} : NoTrap (memRead s a n) :=
  noTrap_ite noTrap_refuse (noTrap_ite (noTrap_raise (by simp)) noTrap_ok)

theorem noTrap_memWrite {s : State} {a : Quad} {n : Nat} {v : BitVec (8 * n)} : NoTrap (memWrite s a n v) :=
  noTrap_ite noTrap_refuse (noTrap_ite noTrap_refuse (noTrap_ite (noTrap_raise (by simp)) noTrap_ok))

theorem noTrap_readRm {w : Width} {rm : Rm Reg8} {s : State} : NoTrap (readRm w rm s) := by
  cases rm with
  | reg r => exact noTrap_ok
  | mem m => exact noTrap_memRead

theorem noTrap_writeRm {w : Width} {rm : Rm Reg8} {v : BitVec w.bits} {s : State} : NoTrap (writeRm w rm v s) := by
  cases rm with
  | reg r => exact noTrap_ok
  | mem m => exact noTrap_memWrite

theorem noTrap_pop {w : Width} {s : State} : NoTrap (pop w s) :=
  noTrap_bind noTrap_memRead fun _ => noTrap_ok

theorem noTrap_bitOp {act : BitAction} {w : Width} {base : Rm Reg8} {off : Nat} {s : State} :
    NoTrap (bitOp act w base off s) :=
  noTrap_bind noTrap_readRm fun _ =>
    noTrap_ite (noTrap_bind noTrap_ok fun _ => noTrap_ok) (noTrap_bind noTrap_writeRm fun _ => noTrap_ok)

theorem noTrap_bitRegOp {act : BitAction} {w : Width} {base : Rm Gpr} {off : Gpr} {s : State} :
    NoTrap (bitRegOp act w base off s) := by
  cases base with
  | reg r => exact noTrap_bitOp
  | mem m => exact noTrap_refuse

theorem noTrap_movFromSeg {w : Width} {dst : Rm Gpr} {src : SegField} {s : State} :
    NoTrap (movFromSeg w dst src s) := by
  cases src with
  | sreg r =>
    cases dst with
    | reg d => exact noTrap_ok
    | mem m => exact noTrap_memWrite
  | reserved6 => exact noTrap_raise (by simp)
  | reserved7 => exact noTrap_raise (by simp)

/-- A descriptor lookup reports `#NP`, `#SS` or `#GP`. -/
theorem SegFault.toFault_ne_debug (e : SegFault) (u : State) : e.toFault ≠ .debug u := by
  cases e <;> exact nofun

theorem noTrap_loadFromRm {r : SegReg} {src : Rm Gpr} {s : State} : NoTrap (loadFromRm r src s) := by
  refine noTrap_ite noTrap_refuse (noTrap_bind noTrap_readRm fun sel => ?_)
  split
  · exact noTrap_ok
  · exact noTrap_raise (SegFault.toFault_ne_debug _)
  · exact noTrap_refuse

theorem noTrap_movToSeg {dst : SegField} {src : Rm Gpr} {s : State} : NoTrap (movToSeg dst src s) := by
  cases dst with
  | sreg r =>
    cases r with
    | cs => exact noTrap_raise (by simp)
    | es | ss | ds | fs | gs => exact noTrap_loadFromRm
  | reserved6 => exact noTrap_raise (by simp)
  | reserved7 => exact noTrap_raise (by simp)

theorem Performs.noTrap {s : State} {r : Res State} (h : Performs s r) : NoTrap r := by
  cases h with
  | aluRm => exact noTrap_bind noTrap_readRm fun _ => noTrap_bind noTrap_writeRm fun _ => noTrap_ok
  | aluReg | mul | movToReg => exact noTrap_bind noTrap_readRm fun _ => noTrap_ok
  | div | idiv =>
    exact noTrap_bind noTrap_readRm fun _ =>
      noTrap_ite (noTrap_raise (by simp)) (noTrap_ite (noTrap_raise (by simp)) noTrap_ok)
  | bit => exact noTrap_bitOp
  | bitReg => exact noTrap_bitRegOp
  | writeReg | branch | loop | setFlag => exact noTrap_ok
  | writeRm => exact noTrap_writeRm
  | movFromSeg => exact noTrap_movFromSeg
  | movToSeg => exact noTrap_movToSeg
  | cmov =>
    exact noTrap_bind noTrap_readRm fun _ => noTrap_ite noTrap_ok (noTrap_ite noTrap_ok noTrap_ok)
  | movs => exact noTrap_bind noTrap_memRead fun _ => noTrap_bind noTrap_memWrite fun _ => noTrap_ok
  | cmps => exact noTrap_bind noTrap_memRead fun _ => noTrap_bind noTrap_memRead fun _ => noTrap_ok
  | scas | lods => exact noTrap_bind noTrap_memRead fun _ => noTrap_ok
  | stos | push => exact noTrap_bind noTrap_memWrite fun _ => noTrap_ok
  | pop | popf => exact noTrap_bind noTrap_pop fun _ => noTrap_ok
  | lahf | sahf => exact noTrap_ite (noTrap_raise (by simp)) noTrap_ok
  | refuse => exact noTrap_refuse

/-- No instruction raises `#DB` of itself (60_exceptions.md R382). -/
theorem exec_ne_debug (i : Instr) (s u : State) : exec i s ≠ .fault (.debug u) := by
  intro h
  obtain ⟨r, hr, he | he⟩ := performs_exec i s
  · exact hr.noTrap u (finish_eq_fault_iff.1 (he.symm.trans h))
  · exact hr.noTrap u (toOutcome_eq_fault_iff.1 (he.symm.trans h))

/-! ## What a step leads to -/

theorem noTrap_fetchDecode {s : State} : NoTrap (fetchDecode s) := by
  unfold fetchDecode
  split
  · exact noTrap_ok
  · exact noTrap_refuse
  · exact noTrap_refuse
  · exact noTrap_ite (noTrap_raise (by simp)) noTrap_refuse

/-- Single-step keeps the state of a completed instruction and makes no other one a trap. -/
theorem singleStep_leads {tf : Bool} {o : Host.Outcome State Fault Refusal} {t : State}
    (ho : ∀ u, o ≠ .fault (.debug u)) (h : singleStep tf o = .next t ∨ singleStep tf o = .fault (.debug t)) :
    o = .next t := by
  cases o with
  | next u => cases tf <;> simp_all [singleStep]
  | fault f => simp_all [singleStep]
  | refused q => simp_all [singleStep]

/-- A step leads to the state it started from, when the run is complete, or to the state that the instruction at `pc`
leaves. -/
theorem leads_cases {s t : State} (h : Leads s t) :
    (completed s = true ∧ t = s) ∨
      ∃ i len, completed s = false ∧ fetchDecode s = .ok (i, len) ∧ exec i (beginInstr s len) = .next t := by
  unfold Leads step at h
  cases hc : completed s with
  | true => exact .inl ⟨rfl, by simpa [hc, eq_comm] using h⟩
  | false =>
    match hd : fetchDecode s with
    | .ok (i, len) =>
      rw [hc, hd] at h
      exact .inr ⟨i, len, rfl, rfl, singleStep_leads (exec_ne_debug i _) h⟩
    | .error (.fault f) =>
      have hf : ∀ u, f ≠ .debug u := fun u e => noTrap_fetchDecode u (e ▸ hd)
      simp_all
    | .error (.refusal q) => simp_all

end Sys2Proof.Machine
end

section
/-!
SUPPORT. The launch parameters, the system and extension registers and CS: no operation of the model writes them
(spec/00_scope.md R7, spec/10_state.md R46), so no step changes them.
-/
namespace Sys2Proof.Machine

/-- What no step changes is in `t` what it was in `s`. -/
def SystemAndCsSame (s t : State) : Prop :=
  SystemSame s t ∧ t.selector.cs = s.selector.cs ∧ t.segBase.cs = s.segBase.cs

@[simp] theorem systemAndCsSame_iff {s t : State} :
    SystemAndCsSame s t ↔
      (t.launch = s.launch ∧ t.sys = s.sys ∧ t.fp = s.fp) ∧ t.selector.cs = s.selector.cs ∧ t.segBase.cs = s.segBase.cs :=
  .rfl

theorem SegFile.cs_set_of_ne {α : Type} {r : SegReg} (h : r ≠ .cs) (f : SegFile α) (v : α) : (f.set r v).cs = f.cs :=
  (SegFile.get_set f r .cs v).trans (if_neg h.symm)

/-- A load of a segment register other than CS keeps CS (10_state.md R46). -/
theorem systemAndCsSame_loadSegment {r : SegReg} (h : r ≠ .cs) (s : State) (sel : BitVec 16) (b : BitVec 32) :
    SystemAndCsSame s (loadSegment s r sel b) := by
  refine ⟨⟨rfl, rfl, rfl⟩, SegFile.cs_set_of_ne h .., ?_⟩
  rw [loadSegment_segBase]
  split
  · exact SegFile.cs_set_of_ne h ..
  · rfl

theorem systemAndCsSame_mulLeaves (w : Width) (p : Nat) (s : State) : SystemAndCsSame s (mulLeaves w p s) := by
  simp [mulLeaves]

theorem systemAndCsSame_divResult (w : Width) (q m : BitVec w.bits) (s : State) :
    SystemAndCsSame s (divResult w q m s) := by
  simp [divResult]

theorem systemAndCsSame_bitLeaves (act : BitAction) (w : Width) (base : Rm Reg8) (off : Nat) (b : Bool) (s : State) :
    SystemAndCsSame s (bitFlags (bitStore act w base off s) b) := by
  unfold bitStore
  split <;> simp

theorem systemAndCsSame_cmovLeaves (c : Cond) (w : Width) (dst : Gpr) (v : BitVec w.bits) (s : State) :
    SystemAndCsSame s (cmovLeaves c w dst v s) := by
  unfold cmovLeaves
  split
  · simp
  · split <;> simp

theorem bitOp_keeps_systemAndCs {act : BitAction} {w : Width} {base : Rm Reg8} {off : Nat} {s t : State}
    (h : bitOp act w base off s = .ok t) : SystemAndCsSame s t := by
  obtain ⟨-, -, rfl⟩ := bitOp_eq_ok_iff.1 h
  exact systemAndCsSame_bitLeaves ..

/-- Each operation writes memory, general registers, flags or `pc` only, but for MOV Sreg, which does not load CS. -/
theorem Performs.systemAndCsSame {s t : State} {r : Res State} (h : Performs s r) (ht : r = .ok t) :
    SystemAndCsSame s t := by
  cases h with
  | aluRm =>
    obtain ⟨-, -, rfl⟩ := aluRm_eq_ok_iff.1 ht
    simp
  | aluReg =>
    obtain ⟨-, rfl⟩ := aluReg_eq_ok_iff.1 ht
    simp
  | mul =>
    obtain ⟨-, rfl⟩ := mulOp_eq_ok_iff.1 ht
    exact systemAndCsSame_mulLeaves ..
  | div =>
    obtain ⟨-, -, -, rfl⟩ := divOp_eq_ok_iff.1 ht
    exact systemAndCsSame_divResult ..
  | idiv =>
    obtain ⟨-, -, -, -, rfl⟩ := idivOp_eq_ok_iff.1 ht
    exact systemAndCsSame_divResult ..
  | bit => exact bitOp_keeps_systemAndCs ht
  | bitReg =>
    obtain ⟨_, -, hb⟩ := bitRegOp_eq_ok_iff.1 ht
    exact bitOp_keeps_systemAndCs hb
  | writeReg | branch | loop =>
    cases ht
    simp
  | writeRm =>
    obtain ⟨-, rfl⟩ := writeRm_eq_ok_iff.1 ht
    simp
  | movToReg =>
    obtain ⟨-, rfl⟩ := movToReg_eq_ok_iff.1 ht
    simp
  | movFromSeg =>
    obtain ⟨_, -, ⟨_, -, rfl⟩ | ⟨_, -, -, rfl⟩⟩ := movFromSeg_eq_ok_iff.1 ht
    · simp
    · simp
  | movToSeg =>
    obtain ⟨r, -, hcs, hl⟩ := movToSeg_eq_ok_iff.1 ht
    obtain ⟨-, -, _, -, rfl⟩ := loadFromRm_eq_ok_iff.1 hl
    exact systemAndCsSame_loadSegment hcs ..
  | cmov =>
    obtain ⟨-, rfl⟩ := cmovOp_eq_ok_iff.1 ht
    exact systemAndCsSame_cmovLeaves ..
  | movs =>
    obtain ⟨-, -, rfl⟩ := movsOp_eq_ok_iff.1 ht
    simp
  | cmps =>
    obtain ⟨-, -, rfl⟩ := cmpsOp_eq_ok_iff.1 ht
    simp
  | scas =>
    obtain ⟨-, rfl⟩ := scasOp_eq_ok_iff.1 ht
    simp
  | lods =>
    obtain ⟨-, rfl⟩ := lodsOp_eq_ok_iff.1 ht
    simp
  | stos =>
    obtain ⟨-, rfl⟩ := stosOp_eq_ok_iff.1 ht
    simp
  | push =>
    obtain ⟨-, rfl⟩ := push_eq_ok_iff.1 ht
    simp
  | pop =>
    obtain ⟨-, rfl⟩ := popOp_eq_ok_iff.1 ht
    simp
  | popf =>
    obtain ⟨-, rfl⟩ := popfOp_eq_ok_iff.1 ht
    simp
  | setFlag =>
    obtain rfl := setFlagOp_eq_ok_iff.1 ht
    simp
  | lahf =>
    obtain ⟨-, rfl⟩ := lahfOp_eq_ok_iff.1 ht
    simp
  | sahf =>
    obtain ⟨-, rfl⟩ := sahfOp_eq_ok_iff.1 ht
    simp
  | refuse => cases ht

theorem exec_keeps_systemAndCs {i : Instr} {s t : State} (h : exec i s = .next t) : SystemAndCsSame s t := by
  obtain ⟨u, hu, rfl | rfl⟩ := exec_eq_next_cases h
  · simpa using hu.systemAndCsSame rfl
  · exact hu.systemAndCsSame rfl

/-- Settles O15: a step leads to its own state or to what an instruction leaves, and no instruction writes what the
statement names. -/
theorem stepKeepsModeAndSystem : Obligations.StepKeepsModeAndSystem := by
  intro s t h
  obtain ⟨-, rfl⟩ | ⟨i, len, -, -, he⟩ := leads_cases h
  · exact ⟨⟨rfl, rfl, rfl⟩, rfl, rfl⟩
  · exact systemAndCsSame_iff.2 (by simpa using exec_keeps_systemAndCs he)

end Sys2Proof.Machine
end

section
/-!
SUPPORT. A step of an unfinished run, the state right after reset, and launch states (spec/10_state.md R39, R51,
spec/70_reset_and_hazards.md R430, R431).
-/
namespace Sys2Proof.Machine

theorem fetchDecode_of_decode {s : State} {i : Instr} {rest : List Byte}
    (h : decode s.launch.mode (fetchWindow s) = .ok (i, rest)) :
    fetchDecode s = .ok (i, (fetchWindow s).length - rest.length) := by
  rw [fetchDecode, h]

theorem completed_eq_false {s : State} (h : s.pc ≠ s.launch.endAddr) : completed s = false :=
  beq_eq_false_iff_ne.2 h

/-- An unfinished run executes what the fetch decodes, and sees to single-step (60_exceptions.md R388, R408). -/
theorem step_of_fetchDecode {s : State} {i : Instr} {len : Nat} (hpc : s.pc ≠ s.launch.endAddr)
    (h : fetchDecode s = .ok (i, len)) : step s = singleStep (getFlag s.rflags .tf) (exec i (beginInstr s len)) := by
  simp [step, completed_eq_false hpc, h]

/-- Settles O7: the step lemma, for what the decoder reads in the fetch window. -/
theorem stepRunsDecodedInstruction : Obligations.StepRunsDecodedInstruction :=
  fun _ _ _ hpc h => step_of_fetchDecode hpc (fetchDecode_of_decode h)

/-- Settles O11: by evaluation, flag by flag. -/
theorem resetFlags : Obligations.ResetFlags :=
  ⟨by decide, by decide, fun f => by cases f <;> decide, by decide⟩

theorem isLaunch_reset : isLaunch State.reset := by
  refine ⟨⟨rfl, by decide, by decide⟩, fun _ r => ?_, ⟨by decide, by decide⟩, fun r _ => ?_, rfl, nofun, fun a => ?_⟩
  · cases r <;> decide
  · cases r <;> rfl
  · simp [admits, State.reset, Launch.default, Launch.defaultRegions, Region.allows, Region.covers]
    omega

theorem lt_spaceSize_of_admits {s : State} {k : Access} {a : Nat} (h : admits s k a = true) :
    a < spaceSize s.launch.mode := by
  simp only [admits, Bool.and_eq_true, decide_eq_true_eq] at h
  exact h.1

theorem inv_of_isLaunch {s : State} (h : isLaunch s) : Inv s := by
  obtain ⟨⟨hpc, hentry, -⟩, hgpr, ⟨hres, hvm⟩, hbase, hwf, hcells, -⟩ := h
  exact
    { memCanonical := hwf
      memInSpace := fun c hc => by
        obtain h | h | h := hcells c hc
        all_goals exact lt_spaceSize_of_admits h
      reserved := hres
      vmClear := hvm
      gprNarrow := fun hm r => (hgpr hm r).1
      gprAbsent := fun hm r => (hgpr hm r).2
      pcNarrow := fun hm => by simpa [hpc, hm, spaceSize, Mode.addrBits] using hentry
      baseNarrow := fun hm r => by simp [hbase r (.inl hm)] }

/-- Settles O12: reset is a launch state, and each part of a launch state gives its part of the invariant. -/
theorem resetSatisfiesInv : Obligations.ResetSatisfiesInv :=
  ⟨inv_of_isLaunch isLaunch_reset, isLaunch_reset, fun _ => inv_of_isLaunch⟩

end Sys2Proof.Machine
end

section
/-!
SUPPORT. Partial register writes as masks on the 64 bits of a register (spec/10_state.md R29 to R32).
-/
namespace Sys2Proof.Machine

/-- The `n` low bits of a word. -/
theorem getLsbD_lowMask (n i : Nat) : (BitVec.ofNat 64 (2 ^ n - 1)).getLsbD i = (decide (i < 64) && decide (i < n)) := by
  rw [BitVec.getLsbD_ofNat, Nat.testBit_two_pow_sub_one]

/-- A write of 8 or 16 bits replaces the low bits and leaves the others (10_state.md R31). -/
theorem mergeLow_eq_mask {w : Width} (hw : w = .b8 ∨ w = .b16) (old : Quad) (v : BitVec w.bits) :
    mergeLow w old v = (old &&& ~~~BitVec.ofNat 64 (2 ^ w.bits - 1)) ||| v.setWidth 64 := by
  have hkeep : (w == .b8 || w == .b16) = true := by simpa using hw
  apply BitVec.eq_of_getLsbD_eq
  intro i hi
  rw [getLsbD_mergeLow, BitVec.getLsbD_or, BitVec.getLsbD_and, BitVec.getLsbD_not, getLsbD_lowMask, hkeep]
  by_cases h : i < w.bits
  · simp [h, hi]
  · simp [h, hi, BitVec.getLsbD_of_ge v i (by omega)]

/-- A write of a legacy high byte replaces bits 15:8 and leaves the others (10_state.md R31). -/
theorem mergeHigh_eq_mask (old : Quad) (v : Byte) :
    mergeHigh old v = (old &&& ~~~(BitVec.ofNat 64 (2 ^ 8 - 1) <<< 8)) ||| (v.setWidth 64 <<< 8) := by
  apply BitVec.eq_of_getLsbD_eq
  intro i hi
  rw [getLsbD_mergeHigh, BitVec.getLsbD_or, BitVec.getLsbD_and, BitVec.getLsbD_not, BitVec.getLsbD_shiftLeft,
    BitVec.getLsbD_shiftLeft, BitVec.getLsbD_setWidth, getLsbD_lowMask]
  by_cases h8 : i < 8
  · simp [h8, hi]
  · by_cases h16 : i < 16
    · simp [h8, h16, hi, show 8 ≤ i by omega, show i - 8 < 8 by omega, show i - 8 < 64 by omega]
    · simp [h8, h16, hi, show ¬ i - 8 < 8 by omega, BitVec.getLsbD_of_ge v (i - 8) (by omega)]

theorem get_writeReg_lo_self (w : Width) (r : Gpr) (v : BitVec w.bits) (s : State) :
    (writeReg w (.lo r) v s).gpr.get r = mergeLow w (s.gpr.get r) v :=
  (get_writeReg ..).trans (if_pos rfl)

theorem get_writeReg_hi_self (h : HiByte) (v : Byte) (s : State) :
    (writeReg .b8 (.hi h) v s).gpr.get (highGpr h) = mergeHigh (s.gpr.get (highGpr h)) v :=
  (get_writeReg ..).trans ((if_pos rfl).trans (congrArg (mergeHigh _) (BitVec.setWidth_eq v)))

/-- Settles O21, width by width. -/
theorem partialRegisterWrites : Obligations.PartialRegisterWrites := by
  intro s r q h
  refine ⟨fun v => ?_, fun v => ⟨?_, fun _ => ?_⟩, fun v => ?_, fun v => ?_, fun v => ?_, fun w v hq => ?_, fun v hq => ?_⟩
  · rw [get_writeReg_lo_self]
    exact BitVec.setWidth_eq v
  · rw [get_writeReg_lo_self]
    exact setWidth_mergeLow .b32 _ v
  · exact get_writeReg_lo_self ..
  · rw [get_writeReg_lo_self]
    exact mergeLow_eq_mask (.inr rfl) _ v
  · rw [get_writeReg_lo_self]
    exact mergeLow_eq_mask (.inl rfl) _ v
  · rw [get_writeReg_hi_self]
    exact mergeHigh_eq_mask _ v
  · exact (get_writeReg ..).trans (if_neg hq)
  · exact (get_writeReg ..).trans (if_neg hq)

end Sys2Proof.Machine
end

section
/-!
SUPPORT. What the six status flags of a sum and of a difference mean (spec/10_state.md R58 to R63): OF by the signs of
the operands and of the result, and so by the signed range.
-/
namespace Sys2Proof.Machine

/-- PF counts the low eight bits (10_state.md R59). -/
theorem parityFlag_eq_true_iff {w : Nat} (r : BitVec w) :
    parityFlag r = true ↔ ((List.range 8).countP fun k => r.getLsbD k) % 2 = 0 := by
  have hcount : popcount8 (r.setWidth 8) = (List.range 8).countP fun k => r.getLsbD k := by
    simp [popcount8, List.range_succ, List.countP_cons, Bool.toNat, Bool.cond_eq_ite]
    ac_rfl
  rw [parityFlag, hcount, beq_iff_eq]

theorem beq_zero_iff {w : Nat} (r : BitVec w) : (r == 0) = true ↔ r.toNat = 0 := by
  simp [BitVec.toNat_eq]

/-- OF of a sum: the operands have one sign and the result the other (10_state.md R63). -/
theorem addFlags_of_iff_signs {w : Nat} (a b : BitVec w) (c : Bool) :
    (addFlags a b c).2.of = true ↔
      (a.toInt < 0 ↔ b.toInt < 0) ∧ ¬ ((addFlags a b c).1.toInt < 0 ↔ a.toInt < 0) := by
  simp [addFlags, BitVec.msb_eq_toInt, decide_eq_decide]

/-- OF of a difference: the operands have two signs, and the result does not have that of the first
(10_state.md R63). -/
theorem subFlags_of_iff_signs {w : Nat} (a b : BitVec w) (c : Bool) :
    (subFlags a b c).2.of = true ↔
      ¬ (a.toInt < 0 ↔ b.toInt < 0) ∧ ¬ ((subFlags a b c).1.toInt < 0 ↔ a.toInt < 0) := by
  simp [subFlags, BitVec.msb_eq_toInt, decide_eq_decide]

/-- The signed sum, reduced to the width. -/
theorem toInt_addFlags {w : Nat} (a b : BitVec w) (c : Bool) :
    (addFlags a b c).1.toInt = (a.toInt + b.toInt + (c.toNat : Int)).bmod (2 ^ w) := by
  calc (addFlags a b c).1.toInt
    _ = ((a.toNat : Int) + b.toNat + c.toNat).bmod (2 ^ w) := by simp [addFlags, BitVec.toInt_ofNat']
    _ = (a.toInt + b.toInt + (c.toNat : Int)).bmod (2 ^ w) := by
      rw [← Int.bmod_add_bmod, Int.add_bmod (a.toNat : Int), ← BitVec.toInt_eq_toNat_bmod,
        ← BitVec.toInt_eq_toNat_bmod, Int.bmod_add_bmod]

/-- The signed difference, reduced to the width. -/
theorem toInt_subFlags {w : Nat} (a b : BitVec w) (c : Bool) :
    (subFlags a b c).1.toInt = (a.toInt - b.toInt - (c.toNat : Int)).bmod (2 ^ w) := by
  calc (subFlags a b c).1.toInt
    _ = ((a.toNat : Int) - b.toNat - c.toNat).bmod (2 ^ w) := BitVec.toInt_ofInt _
    _ = (a.toInt - b.toInt - (c.toNat : Int)).bmod (2 ^ w) := by
      rw [← Int.bmod_sub_bmod, Int.sub_bmod (a.toNat : Int), ← BitVec.toInt_eq_toNat_bmod,
        ← BitVec.toInt_eq_toNat_bmod, Int.bmod_sub_bmod]

/-- The sign that a signed value `x` takes when it is reduced to a width whose top bit weighs `n`. -/
theorem bmod_neg_iff_of_half {x : Int} {n : Nat} (hlo : -(2 * n) ≤ x) (hhi : x < 2 * n) :
    x.bmod (n * 2) < 0 ↔ -n ≤ x ∧ x < 0 ∨ n ≤ x := by
  rw [Int.bmod_neg_iff (by omega) (by omega)]
  omega

/-- A sum overflows exactly when it does not fit as a signed number (10_state.md R63). -/
theorem addFlags_of_iff_overflow {w : Nat} (hw : 0 < w) (a b : BitVec w) (c : Bool) :
    (addFlags a b c).2.of = true ↔
      a.toInt + b.toInt + (c.toNat : Int) < -2 ^ (w - 1) ∨ 2 ^ (w - 1) ≤ a.toInt + b.toInt + (c.toNat : Int) := by
  have ha := And.intro a.le_toInt a.toInt_lt
  have hb := And.intro b.le_toInt b.toInt_lt
  have hc := c.toNat_le
  have hpow : (2 : Int) ^ (w - 1) = ((2 ^ (w - 1) : Nat) : Int) := by push_cast; rfl
  rw [addFlags_of_iff_signs, toInt_addFlags, ← Nat.two_pow_pred_mul_two hw,
    bmod_neg_iff_of_half (by omega) (by omega)]
  omega

/-- A difference overflows exactly when it does not fit as a signed number (10_state.md R63). -/
theorem subFlags_of_iff_overflow {w : Nat} (hw : 0 < w) (a b : BitVec w) (c : Bool) :
    (subFlags a b c).2.of = true ↔
      a.toInt - b.toInt - (c.toNat : Int) < -2 ^ (w - 1) ∨ 2 ^ (w - 1) ≤ a.toInt - b.toInt - (c.toNat : Int) := by
  have ha := And.intro a.le_toInt a.toInt_lt
  have hb := And.intro b.le_toInt b.toInt_lt
  have hc := c.toNat_le
  have hpow : (2 : Int) ^ (w - 1) = ((2 ^ (w - 1) : Nat) : Int) := by push_cast; rfl
  rw [subFlags_of_iff_signs, toInt_subFlags, ← Nat.two_pow_pred_mul_two hw,
    bmod_neg_iff_of_half (by omega) (by omega)]
  omega

/-- Settles O28: sum, carries, sign, zero and parity as defined, and overflow by the signs. -/
theorem additionFlagsMean : Obligations.AdditionFlagsMean := fun _ a b c hw =>
  ⟨BitVec.toNat_ofNat .., decide_eq_true_iff, decide_eq_true_iff, addFlags_of_iff_overflow hw a b c,
    BitVec.msb_eq_getLsbD_last (addFlags a b c).1, beq_zero_iff _, parityFlag_eq_true_iff _⟩

/-- The unsigned difference, reduced to the width. -/
theorem toNat_subFlags {w : Nat} (a b : BitVec w) (c : Bool) :
    ((subFlags a b c).1.toNat : Int) = ((a.toNat : Int) - b.toNat - c.toNat) % 2 ^ w := by
  have hpos : (0 : Int) < 2 ^ w := by positivity
  simp [subFlags, BitVec.toNat_ofInt, Int.emod_nonneg _ hpos.ne']

/-- Settles O29: difference, borrows, sign, zero and parity as defined, and overflow by the signs. -/
theorem subtractionFlagsMean : Obligations.SubtractionFlagsMean := fun _ a b c hw =>
  ⟨toNat_subFlags a b c, decide_eq_true_iff, decide_eq_true_iff, subFlags_of_iff_overflow hw a b c,
    BitVec.msb_eq_getLsbD_last (subFlags a b c).1, beq_zero_iff _, parityFlag_eq_true_iff _⟩

end Sys2Proof.Machine
end

section
/-!
SUPPORT. The registers of a mode (spec/10_state.md R27, R32, R35): in PROT32 a write of at most 32 bits to one of the first
eight registers keeps what `launchRegisters` says, and the destinations of the instructions of the mode are such.
-/
namespace Sys2Proof.Machine

/-! ## Registers that the mode has -/

/-- A 64-bit word is below `2 ^ 32` when its upper half is 0. -/
theorem toNat_lt_iff_upper_zero (v : Quad) : v.toNat < 2 ^ 32 ↔ ∀ j, 32 ≤ j → v.getLsbD j = false :=
  ⟨fun h j hj => Nat.testBit_lt_two_pow (Nat.lt_of_lt_of_le h (Nat.pow_le_pow_right (by decide) hj)),
    fun h => Nat.lt_pow_two_of_testBit _ fun j hj => h j hj⟩

/-- A write of at most 32 bits does not fill an empty upper half. -/
theorem mergeLow_lt {w : Width} (hw : w ≠ .b64) {old : Quad} (h : old.toNat < 2 ^ 32) (v : BitVec w.bits) :
    (mergeLow w old v).toNat < 2 ^ 32 := by
  have hbits : w.bits ≤ 32 := by cases w <;> simp_all [Width.bits, Width.bytes]
  rw [toNat_lt_iff_upper_zero] at h ⊢
  intro j hj
  rw [getLsbD_mergeLow, if_neg (by omega), h j hj, Bool.and_false]

theorem mergeHigh_lt {old : Quad} (h : old.toNat < 2 ^ 32) (v : Byte) : (mergeHigh old v).toNat < 2 ^ 32 := by
  rw [toNat_lt_iff_upper_zero] at h ⊢
  intro j hj
  rw [getLsbD_mergeHigh, if_neg (by omega), h j hj]

/-- In PROT32 a write to the destination stays inside the registers of the mode: it is not 64 bits wide, and a register
among R8 to R15 is not named (10_state.md R27, R32). -/
def DestFits (md : Mode) (w : Width) (dst : Rm Reg8) : Prop :=
  md = .prot32 → w ≠ .b64 ∧ ∀ r, dst = .reg r → (wholeGpr r).isExtended = false

theorem launchRegisters_congr {s t : State} (hl : t.launch = s.launch) (hg : t.gpr = s.gpr) :
    launchRegisters t ↔ launchRegisters s := by
  rw [launchRegisters, launchRegisters, hl, hg]

/-- The registers stay those of the mode when one of them takes a value of the mode. -/
theorem launchRegisters_of_set {s t : State} {r : Gpr} {v : Quad} (h : launchRegisters s) (hl : t.launch = s.launch)
    (hg : t.gpr = s.gpr.set r v) (hfit : s.launch.mode = .prot32 → v.toNat < 2 ^ 32 ∧ r.isExtended = false) :
    launchRegisters t := by
  intro hm q
  rw [hl] at hm
  obtain ⟨hv, hr⟩ := hfit hm
  rw [hg, GprFile.get_set]
  split
  · rename_i hq
    exact ⟨hv, fun hx => absurd (hq ▸ hx) (by simp [hr])⟩
  · exact h hm q

theorem launchRegisters_writeReg {w : Width} {r : Reg8} {s : State} (hfit : DestFits s.launch.mode w (.reg r))
    (h : launchRegisters s) (v : BitVec w.bits) : launchRegisters (writeReg w r v s) := by
  refine launchRegisters_of_set h (by simp) (writeReg_gpr ..) fun hm => ?_
  obtain ⟨hw, hr⟩ := hfit hm
  refine ⟨?_, hr r rfl⟩
  cases r with
  | lo g => exact mergeLow_lt hw (h hm g).1 v
  | hi g => exact mergeHigh_lt (h hm _).1 _

theorem launchRegisters_writeAddrReg {r : Gpr} {s : State} (hr : r.isExtended = false) (h : launchRegisters s)
    (v : Quad) : launchRegisters (writeAddrReg r v s) :=
  launchRegisters_of_set h rfl rfl fun hm => ⟨hm ▸ truncAddr_prot32_lt _, hr⟩

theorem launchRegisters_movePointer {r : Gpr} {s : State} (hr : r.isExtended = false) (h : launchRegisters s)
    (d : Quad) : launchRegisters (movePointer r d s) :=
  launchRegisters_writeAddrReg hr h _

theorem launchRegisters_writePair {w : Width} {s : State} (hfit : DestFits s.launch.mode w (.reg (.lo .rax)))
    (h : launchRegisters s) (hi lo : BitVec w.bits) : launchRegisters (writePair w hi lo s) := by
  refine launchRegisters_writeReg (fun hm => ⟨(hfit (by simpa using hm)).1, fun r hr => ?_⟩)
    (launchRegisters_writeReg hfit h lo) hi
  cases hr
  cases w <;> rfl

theorem launchRegisters_storeRm {w : Width} {dst : Rm Reg8} {s : State} (hfit : DestFits s.launch.mode w dst)
    (h : launchRegisters s) (v : BitVec w.bits) : launchRegisters (storeRm w dst v s) := by
  cases dst with
  | reg r => exact launchRegisters_writeReg hfit h v
  | mem m => exact h

/-! ## Destinations of the instructions of a mode -/

theorem widthFits_of_sizeOk {md : Mode} {sz : OpSize} (h : sizeOk md sz = true) (hm : md = .prot32) :
    sz.width ≠ .b64 := by
  subst hm
  cases sz <;> simp_all [sizeOk, OpSize.width]

theorem isExtended_of_gprOk {r : Gpr} (h : gprOk .prot32 r = true) : r.isExtended = false := by
  simpa [gprOk] using h

theorem isExtended_of_reg8Ok {r : Reg8} (h : reg8Ok .prot32 r = true) : (wholeGpr r).isExtended = false := by
  cases r with
  | lo r => cases r <;> first | rfl | cases h
  | hi r => cases r <;> rfl

theorem destFits_of_reg8Ok {md : Mode} {r : Reg8} (h : reg8Ok md r = true) : DestFits md .b8 (.reg r) := by
  rintro rfl
  exact ⟨by simp, fun _ hr => by cases hr; exact isExtended_of_reg8Ok h⟩

theorem destFits_of_rm8Ok {md : Mode} {d : Rm Reg8} (h : rm8Ok md d = true) : DestFits md .b8 d := by
  cases d with
  | reg r => exact destFits_of_reg8Ok h
  | mem m => exact fun _ => ⟨by simp, by simp⟩

theorem destFits_of_gprOk {md : Mode} {w : Width} {r : Gpr} (hw : md = .prot32 → w ≠ .b64) (h : gprOk md r = true) :
    DestFits md w (.reg (.lo r)) := by
  rintro rfl
  exact ⟨hw rfl, fun _ hr => by cases hr; exact isExtended_of_gprOk h⟩

theorem destFits_of_rmOk {md : Mode} {w : Width} {d : Rm Gpr} (hw : md = .prot32 → w ≠ .b64) (h : rmOk md d = true) :
    DestFits md w (wide d) := by
  cases d with
  | reg r => exact destFits_of_gprOk hw h
  | mem m => exact fun hm => ⟨hw hm, by simp [wide]⟩

theorem destFits_pair {md : Mode} {d : Rm Reg8} {r : Reg8} (h : (rm8Ok md d && reg8Ok md r && pairOk r d) = true) :
    DestFits md .b8 d ∧ DestFits md .b8 (.reg r) := by
  simp only [Bool.and_eq_true] at h
  obtain ⟨⟨hd, hr⟩, -⟩ := h
  exact ⟨destFits_of_rm8Ok hd, destFits_of_reg8Ok hr⟩

theorem destFits_sized {md : Mode} {sz : OpSize} {d : Rm Gpr} (h : (sizeOk md sz && rmOk md d) = true) :
    DestFits md sz.width (wide d) :=
  destFits_of_rmOk (widthFits_of_sizeOk (Bool.and_eq_true_iff.1 h).1) (Bool.and_eq_true_iff.1 h).2

theorem destFits_sized_pair {md : Mode} {sz : OpSize} {d : Rm Gpr} {r : Gpr}
    (h : (sizeOk md sz && rmOk md d && gprOk md r) = true) :
    DestFits md sz.width (wide d) ∧ DestFits md sz.width (.reg (.lo r)) := by
  obtain ⟨hd, hr⟩ := Bool.and_eq_true_iff.1 h
  exact ⟨destFits_sized hd, destFits_of_gprOk (widthFits_of_sizeOk (Bool.and_eq_true_iff.1 hd).1) hr⟩

/-- The accumulator exists in both modes. -/
theorem destFits_acc {md : Mode} {w : Width} (hw : md = .prot32 → w ≠ .b64) : DestFits md w (.reg (.lo .rax)) :=
  fun hm => ⟨hw hm, fun _ hr => by cases hr; rfl⟩

theorem widthFits_b8 {md : Mode} (_ : md = .prot32) : Width.b8 ≠ .b64 := by simp

theorem destFits_acc_sized {md : Mode} {sz : OpSize} {b : Bool} (h : (sizeOk md sz && b) = true) :
    DestFits md sz.width (.reg (.lo .rax)) :=
  destFits_acc (widthFits_of_sizeOk (Bool.and_eq_true_iff.1 h).1)

theorem destFits_sized_gpr {md : Mode} {sz : OpSize} {r : Gpr} (h : (sizeOk md sz && gprOk md r) = true) :
    DestFits md sz.width (.reg (.lo r)) :=
  destFits_of_gprOk (widthFits_of_sizeOk (Bool.and_eq_true_iff.1 h).1) (Bool.and_eq_true_iff.1 h).2

theorem widthFits_of_stackSizeOk {md : Mode} {sz : OpSize} (h : stackSizeOk md sz = true) (hm : md = .prot32) :
    sz.width ≠ .b64 := by
  subst hm
  cases sz <;> simp_all [stackSizeOk, OpSize.width]

theorem destFits_stack_gpr {md : Mode} {sz : OpSize} {r : Gpr} (h : (stackSizeOk md sz && gprOk md r) = true) :
    DestFits md sz.width (.reg (.lo r)) :=
  destFits_of_gprOk (widthFits_of_stackSizeOk (Bool.and_eq_true_iff.1 h).1) (Bool.and_eq_true_iff.1 h).2

end Sys2Proof.Machine
end

section
/-!
SUPPORT. Which bits of RFLAGS a change of flags keeps: a write of listed flags (`FlagsSameBut`) and a pop into the flags
(spec/40_flag_control.md R230, R231).
-/
namespace Sys2Proof.Machine

/-! ## Flags -/

theorem FlagsSameBut.mono {fs gs : List Flag} {s t : State} (h : FlagsSameBut fs s t) (hsub : fs ⊆ gs) :
    FlagsSameBut gs s t :=
  fun j hj => h j fun f hf => hj f (hsub hf)

theorem FlagsSameBut.getFlag_eq {fs : List Flag} {s t : State} (h : FlagsSameBut fs s t) {g : Flag} (hg : g ∉ fs) :
    getFlag t.rflags g = getFlag s.rflags g :=
  h g.bit fun _ hf hb => hg (Flag.bit_injective hb ▸ hf)

theorem iopl_congr {fl fl' : Quad} (h12 : fl'.getLsbD 12 = fl.getLsbD 12) (h13 : fl'.getLsbD 13 = fl.getLsbD 13) :
    iopl fl' = iopl fl := by
  apply BitVec.eq_of_getLsbD_eq
  intro j hj
  rw [iopl, iopl, BitVec.getLsbD_extractLsb', BitVec.getLsbD_extractLsb']
  obtain rfl | rfl : j = 0 ∨ j = 1 := by omega
  · rw [h12]
  · rw [h13]

/-- IOPL is no one-bit flag. -/
theorem FlagsSameBut.iopl_eq {fs : List Flag} {s t : State} (h : FlagsSameBut fs s t) : iopl t.rflags = iopl s.rflags :=
  iopl_congr (h 12 fun f _ => by cases f <;> decide) (h 13 fun f _ => by cases f <;> decide)

theorem reservedOk_congr {fl fl' : Quad} (h : ∀ j, reservedMask.getLsbD j = true → fl'.getLsbD j = fl.getLsbD j) :
    reservedOk fl' = reservedOk fl := by
  have hand : fl' &&& reservedMask = fl &&& reservedMask := by
    apply BitVec.eq_of_getLsbD_eq
    intro j _
    rw [BitVec.getLsbD_and, BitVec.getLsbD_and]
    cases hm : reservedMask.getLsbD j with
    | true => rw [h j hm]
    | false => simp
  rw [reservedOk, reservedOk, hand]

/-- No flag is a reserved bit. -/
theorem Flag.bit_not_reserved (f : Flag) : reservedMask.getLsbD f.bit = false := by
  cases f <;> decide

theorem FlagsSameBut.reservedOk_eq {fs : List Flag} {s t : State} (h : FlagsSameBut fs s t) :
    reservedOk t.rflags = reservedOk s.rflags :=
  reservedOk_congr fun j hj => h j fun f _ hb => by
    rw [← hb, f.bit_not_reserved] at hj
    cases hj

theorem flagsSameBut_of_rflags_eq {fs : List Flag} {s t : State} (h : t.rflags = s.rflags) : FlagsSameBut fs s t :=
  fun j _ => by rw [h]

theorem flagsSameBut_setStatus {s t : State} {f : StatusFlags} (h : t.rflags = setStatus s.rflags f) :
    FlagsSameBut statusFlags s t := fun j hj => by
  rw [h, getLsbD_setStatus_of_ne _ _ _ hj]

theorem flagsSameBut_setFlag {s t : State} {f : Flag} {b : Bool} (h : t.rflags = setFlag s.rflags f b) :
    FlagsSameBut [f] s t := fun j hj => by
  rw [h, getLsbD_setFlag, if_neg fun hc => hj f (List.mem_singleton_self f) hc.symm]

theorem FlagsSameBut.trans {fs : List Flag} {s t u : State} (h : FlagsSameBut fs s t) (h' : FlagsSameBut fs t u) :
    FlagsSameBut fs s u :=
  fun j hj => (h' j hj).trans (h j hj)

theorem flagsSameBut_drawFlags (s : State) (fs : List Flag) : FlagsSameBut fs s (drawFlags s fs) :=
  fun j hj => getLsbD_drawFlags_of_ne s fs j hj

/-! ## POPF -/

/-- The bits that a pop into the flags takes from the stack (40_flag_control.md R230). -/
def loadMask (sz : OpSize) (s : State) : Quad :=
  match sz with
  | .w16 => popfMask16 s.launch.cpl (iopl s.rflags)
  | .w32 | .w64 => popfMask s.launch.cpl (iopl s.rflags) s.launch.idToggle

theorem getLsbD_mergeBits (fl v mask : Quad) (j : Nat) :
    (mergeBits fl v mask).getLsbD j = if mask.getLsbD j then v.getLsbD j else fl.getLsbD j := by
  by_cases hj : j < 64
  · rw [mergeBits, BitVec.getLsbD_or, BitVec.getLsbD_and, BitVec.getLsbD_and, BitVec.getLsbD_not]
    cases mask.getLsbD j <;> simp [hj]
  · have hge : ∀ x : Quad, x.getLsbD j = false := fun x => BitVec.getLsbD_of_ge _ _ (by omega)
    simp [hge]

/-- Beside the bits of the mask, a pop into the flags changes RF, VIF and VIP only (40_flag_control.md R231). -/
theorem getLsbD_loadFlags {sz : OpSize} {v : BitVec sz.width.bits} {s : State} {j : Nat}
    (hm : (loadMask sz s).getLsbD j = false) (hj : ∀ f ∈ [Flag.rf, .vif, .vip], j ≠ f.bit) :
    (loadFlags sz v s).rflags.getLsbD j = s.rflags.getLsbD j := by
  simp only [List.mem_cons, List.not_mem_nil, or_false, forall_eq_or_imp, forall_eq] at hj
  obtain ⟨hrf, hvif, hvip⟩ := hj
  cases sz with
  | w16 => rw [loadFlags, withFlags_rflags, getLsbD_mergeBits]; exact if_neg (by simpa [loadMask] using hm)
  | w32 | w64 =>
    simp only [loadFlags, drawKeepOrClear_rflags, withFlags_rflags, getLsbD_setFlag, hrf, hvif, hvip, if_false,
      getLsbD_mergeBits]
    exact if_neg (by simpa [loadMask] using hm)

/-- The reserved bits, VM, VIF and VIP. -/
def notPopped : Quad := reservedMask ||| 0x1A0000

/-- No pop into the flags takes a reserved bit, VM, VIF or VIP from the stack (40_flag_control.md R230). -/
theorem loadMask_and_notPopped (sz : OpSize) (s : State) : loadMask sz s &&& notPopped = 0#64 := by
  cases sz <;> simp only [loadMask, popfMask, popfMask16] <;> split_ifs <;> rfl

theorem loadMask_of_notPopped {j : Nat} (h : notPopped.getLsbD j = true) (sz : OpSize) (s : State) :
    (loadMask sz s).getLsbD j = false := by
  have hand : (loadMask sz s &&& notPopped).getLsbD j = (0#64).getLsbD j := by rw [loadMask_and_notPopped]
  rwa [BitVec.getLsbD_and, h, Bool.and_true, BitVec.getLsbD_zero] at hand

/-- IOPL is taken from the stack at CPL 0 only (10_state.md R71). -/
theorem loadMask_iopl {s : State} (h : s.launch.cpl ≠ 0) (sz : OpSize) :
    (loadMask sz s).getLsbD 12 = false ∧ (loadMask sz s).getLsbD 13 = false := by
  cases sz <;> simp only [loadMask, popfMask, popfMask16, if_neg h] <;> split_ifs <;> decide

/-- IF is taken from the stack at CPL up to IOPL only (10_state.md R71). -/
theorem loadMask_intf {s : State} (h : iopl s.rflags < s.launch.cpl) (sz : OpSize) :
    (loadMask sz s).getLsbD Flag.intf.bit = false := by
  have h0 : s.launch.cpl ≠ 0 := by bv_omega
  have hle : ¬ s.launch.cpl ≤ iopl s.rflags := by bv_omega
  cases sz with
  | w16 =>
    simp only [loadMask, popfMask16, if_neg h0, if_neg hle]
    decide
  | w32 | w64 =>
    simp only [loadMask, popfMask, if_neg h0, if_neg hle]
    split <;> decide

theorem getFlag_of_drawKeepOrClear {s : State} {f g : Flag} (h : getFlag (drawKeepOrClear s f).rflags g = true) :
    getFlag s.rflags g = true := by
  rw [drawKeepOrClear_rflags, getFlag_setFlag] at h
  split at h
  · next hg => exact hg ▸ (Bool.and_eq_true_iff.1 h).1
  · exact h

section
variable {sz : OpSize} {v : BitVec sz.width.bits} {s : State}

theorem reservedOk_loadFlags : reservedOk (loadFlags sz v s).rflags = reservedOk s.rflags := by
  refine reservedOk_congr fun j hj => getLsbD_loadFlags (loadMask_of_notPopped ?_ sz s) fun f _ hb => ?_
  · rw [notPopped, BitVec.getLsbD_or, hj, Bool.true_or]
  · rw [hb, f.bit_not_reserved] at hj
    cases hj

theorem getFlag_loadFlags_vm : getFlag (loadFlags sz v s).rflags .vm = getFlag s.rflags .vm :=
  getLsbD_loadFlags (loadMask_of_notPopped (by decide) sz s) (by decide)

theorem iopl_loadFlags (h : s.launch.cpl ≠ 0) : iopl (loadFlags sz v s).rflags = iopl s.rflags :=
  iopl_congr (getLsbD_loadFlags (loadMask_iopl h sz).1 (by decide))
    (getLsbD_loadFlags (loadMask_iopl h sz).2 (by decide))

theorem getFlag_loadFlags_intf (h : iopl s.rflags < s.launch.cpl) :
    getFlag (loadFlags sz v s).rflags .intf = getFlag s.rflags .intf :=
  getLsbD_loadFlags (loadMask_intf h sz) (by decide)

/-- VIF and VIP keep their value or become 0 (40_flag_control.md R230). -/
theorem getFlag_of_loadFlags {f : Flag} (hf : f = .vif ∨ f = .vip) (h : getFlag (loadFlags sz v s).rflags f = true) :
    getFlag s.rflags f = true := by
  have hm : (loadMask sz s).getLsbD f.bit = false := by
    obtain rfl | rfl := hf <;> exact loadMask_of_notPopped (by decide) sz s
  have hmerge : getFlag (mergeBits s.rflags (v.setWidth 64) (loadMask sz s)) f = getFlag s.rflags f := by
    rw [getFlag, getLsbD_mergeBits, hm]
    rfl
  have hrf : f ≠ .rf := by obtain rfl | rfl := hf <;> decide
  rw [← hmerge]
  cases sz with
  | w16 => exact h
  | w32 | w64 =>
    have hdrawn := getFlag_of_drawKeepOrClear (getFlag_of_drawKeepOrClear h)
    rwa [withFlags_rflags, getFlag_setFlag, if_neg hrf] at hdrawn
end

end Sys2Proof.Machine
end

section
/-!
SUPPORT. What an instruction may change, said once for flags, registers, memory, segment bases and `pc` (`exec_effect`).
-/
namespace Sys2Proof.Machine

/-! ## What an operation changes -/

/-- How the flags may change under an instruction: POPF loads them, STD and CLD write DF, and the others write at most the
six status flags (10_state.md R64, R67). -/
inductive FlagsChange (i : Instr) (s t : State) : Prop where
  | status (h : FlagsSameBut statusFlags s t)
  | direction (hi : i = .std ∨ i = .cld) (h : FlagsSameBut [.df] s t)
  | popf (sz : OpSize) (v : BitVec sz.width.bits) (hi : i = .popf sz) (h : t.rflags = (loadFlags sz v s).rflags)

/-- How memory may change: not at all, or by one store that completes. -/
def MemoryChange (s t : State) : Prop :=
  t.mem = s.mem ∨ ∃ a n v, Writable s a n ∧ t.mem = (storeBytes s a n v).mem

/-- How the hidden segment bases may change: not at all, or by one load of a 32-bit base. -/
def BasesChange (s t : State) : Prop :=
  t.segBase = s.segBase ∨ ∃ r, ∃ b : BitVec 32, t.segBase = s.segBase.set r (b.setWidth 64)

/-- Where the program counter may be before the instruction ends: where it was, at the next instruction, or at a branch
target. -/
def PcChange (s t : State) : Prop :=
  t.pcNext = s.pcNext ∧ (t.pc = s.pc ∨ t.pc = s.pcNext ∨ ∃ a, t.pc = truncAddr s.launch.mode a)

/-- What an instruction that completes may change, part by part; the registers stay those of the mode when the
instruction is one of the mode. What is not written is as it was, unless an operation says otherwise. -/
structure Effect (i : Instr) (s t : State) : Prop where
  flags : FlagsChange i s t := by exact .status (flagsSameBut_of_rflags_eq (by simp))
  registers : i.wellFormed s.launch.mode = true → launchRegisters s → launchRegisters t
  memory : MemoryChange s t := by exact .inl (by simp)
  bases : BasesChange s t := by exact .inl (by simp)
  pc : PcChange s t := by exact ⟨by simp, .inl (by simp)⟩

theorem memoryChange_store {s t : State} {a : Quad} {n : Nat} (h : Writable s a n) (v : BitVec (8 * n))
    (ht : t.mem = (storeBytes s a n v).mem) : MemoryChange s t :=
  .inr ⟨a, n, v, h, ht⟩

theorem memoryChange_storeRm {w : Width} {dst : Rm Reg8} {v : BitVec w.bits} {s t : State} (h : RmWritable w dst s)
    (ht : t.mem = (storeRm w dst v s).mem) : MemoryChange s t := by
  cases dst with
  | reg r => exact .inl (by simpa [storeRm] using ht)
  | mem m => exact memoryChange_store h v ht

theorem launchRegisters_drawFlags {s : State} {fs : List Flag} :
    launchRegisters (drawFlags s fs) ↔ launchRegisters s :=
  launchRegisters_congr (by simp) (by simp)

theorem flagsSameBut_drawStatus {s t : State} {fs : List Flag} (h : FlagsSameBut statusFlags s t)
    (hfs : fs ⊆ statusFlags) : FlagsSameBut statusFlags s (drawFlags t fs) :=
  h.trans ((flagsSameBut_drawFlags t fs).mono hfs)

/-- A write of one status flag. -/
theorem flagsSameBut_setStatusFlag {s t : State} {f : Flag} {b : Bool} (hf : f ∈ statusFlags)
    (h : t.rflags = setFlag s.rflags f b) : FlagsSameBut statusFlags s t :=
  (flagsSameBut_setFlag h).mono (by simpa using hf)

/-- The destination stays inside the registers of the mode when the instruction is one of the mode. -/
abbrev InstrFits (i : Instr) (s : State) (w : Width) (dst : Rm Reg8) : Prop :=
  i.wellFormed s.launch.mode = true → DestFits s.launch.mode w dst

section
variable {i : Instr} {s t : State} {w : Width}

theorem effect_ok {u : State} (hu : Effect i s u) (h : (.ok u : Res State) = .ok t) : Effect i s t := by
  cases h
  exact hu

theorem effect_aluRm {op : AluOp} {dst : Rm Reg8} {b : BitVec w.bits} (hfit : InstrFits i s w dst)
    (h : aluRm op w dst b s = .ok t) : Effect i s t := by
  obtain ⟨-, hw, rfl⟩ := aluRm_eq_ok_iff.1 h
  exact
    { flags := .status (flagsSameBut_setStatus rfl)
      registers := fun hi hr => launchRegisters_storeRm (hfit hi) hr _
      memory := memoryChange_storeRm hw rfl }

theorem effect_aluReg {op : AluOp} {dst : Reg8} {src : Rm Reg8} (hfit : InstrFits i s w (.reg dst))
    (h : aluReg op w dst src s = .ok t) : Effect i s t := by
  obtain ⟨-, rfl⟩ := aluReg_eq_ok_iff.1 h
  exact
    { flags := .status (flagsSameBut_setStatus rfl)
      registers := fun hi hr => launchRegisters_writeReg (hfit hi) hr _ }

theorem effect_mulOp {src : Rm Reg8} (hfit : InstrFits i s w (.reg (.lo .rax))) (h : mulOp w src s = .ok t) :
    Effect i s t := by
  obtain ⟨-, rfl⟩ := mulOp_eq_ok_iff.1 h
  unfold mulLeaves
  exact
    { flags := by
        refine .status (flagsSameBut_drawStatus ?_ (by decide))
        exact (flagsSameBut_setStatusFlag (t := withFlags s _) (by decide) rfl).trans
          (flagsSameBut_setStatusFlag (by decide) rfl)
      registers := fun hi hr => launchRegisters_drawFlags.2 (launchRegisters_writePair (hfit hi) hr _ _) }

theorem effect_divResult (hfit : InstrFits i s w (.reg (.lo .rax))) (q m : BitVec w.bits) :
    Effect i s (divResult w q m s) := by
  unfold divResult
  exact
    { flags := .status (flagsSameBut_drawStatus (flagsSameBut_of_rflags_eq (by simp)) (by decide))
      registers := fun hi hr => launchRegisters_drawFlags.2 (launchRegisters_writePair (hfit hi) hr _ _) }

theorem effect_divOp {src : Rm Reg8} (hfit : InstrFits i s w (.reg (.lo .rax))) (h : divOp w src s = .ok t) :
    Effect i s t := by
  obtain ⟨-, -, -, rfl⟩ := divOp_eq_ok_iff.1 h
  exact effect_divResult hfit ..

theorem effect_idivOp {src : Rm Reg8} (hfit : InstrFits i s w (.reg (.lo .rax))) (h : idivOp w src s = .ok t) :
    Effect i s t := by
  obtain ⟨-, -, -, -, rfl⟩ := idivOp_eq_ok_iff.1 h
  exact effect_divResult hfit ..

theorem flagsSameBut_bitFlags (h : t.rflags = s.rflags) (b : Bool) : FlagsSameBut statusFlags s (bitFlags t b) :=
  flagsSameBut_drawStatus (flagsSameBut_setStatusFlag (f := .cf) (by decide) (by rw [withFlags_rflags, h])) (by decide)

theorem launchRegisters_bitFlags {b : Bool} : launchRegisters (bitFlags s b) ↔ launchRegisters s :=
  launchRegisters_congr (by simp) (by simp)

theorem effect_bitOp {act : BitAction} {base : Rm Reg8} {off : Nat} (hfit : InstrFits i s w base)
    (h : bitOp act w base off s = .ok t) : Effect i s t := by
  obtain ⟨-, hw, rfl⟩ := bitOp_eq_ok_iff.1 h
  unfold bitStore
  split
  · exact
      { flags := .status (flagsSameBut_bitFlags rfl _)
        registers := fun _ hr => launchRegisters_bitFlags.2 hr }
  · exact
      { flags := .status (flagsSameBut_bitFlags (by simp) _)
        registers := fun hi hr => launchRegisters_bitFlags.2 (launchRegisters_storeRm (hfit hi) hr _)
        memory := memoryChange_storeRm (hw ‹_›) (bitFlags_mem ..) }

theorem effect_bitRegOp {act : BitAction} {base : Rm Gpr} {off : Gpr} (hfit : InstrFits i s w (wide base))
    (h : bitRegOp act w base off s = .ok t) : Effect i s t := by
  obtain ⟨r, rfl, hb⟩ := bitRegOp_eq_ok_iff.1 h
  exact effect_bitOp hfit hb

theorem effect_writeReg {r : Reg8} {v : BitVec w.bits} (hfit : InstrFits i s w (.reg r)) :
    Effect i s (writeReg w r v s) where
  registers hi hr := launchRegisters_writeReg (hfit hi) hr _

theorem effect_writeRm {dst : Rm Reg8} {v : BitVec w.bits} (hfit : InstrFits i s w dst)
    (h : writeRm w dst v s = .ok t) : Effect i s t := by
  obtain ⟨hw, rfl⟩ := writeRm_eq_ok_iff.1 h
  exact
    { registers := fun hi hr => launchRegisters_storeRm (hfit hi) hr _
      memory := memoryChange_storeRm hw rfl }

theorem effect_movToReg {dst : Reg8} {src : Rm Reg8} (hfit : InstrFits i s w (.reg dst))
    (h : movToReg w dst src s = .ok t) : Effect i s t := by
  obtain ⟨-, rfl⟩ := movToReg_eq_ok_iff.1 h
  exact effect_writeReg hfit

theorem effect_movFromSeg {dst : Rm Gpr} {src : SegField} (hfit : InstrFits i s w (wide dst))
    (h : movFromSeg w dst src s = .ok t) : Effect i s t := by
  obtain ⟨_, -, ⟨_, rfl, rfl⟩ | ⟨_, rfl, hw, rfl⟩⟩ := movFromSeg_eq_ok_iff.1 h
  · exact effect_writeReg hfit
  · exact
      { registers := fun _ hr => hr
        memory := memoryChange_store hw _ rfl }

theorem effect_movToSeg {dst : SegField} {src : Rm Gpr} (h : movToSeg dst src s = .ok t) : Effect i s t := by
  obtain ⟨r, -, -, hl⟩ := movToSeg_eq_ok_iff.1 h
  obtain ⟨-, -, b, -, rfl⟩ := loadFromRm_eq_ok_iff.1 hl
  exact
    { registers := fun _ hr => hr
      bases := by
        rw [BasesChange, loadSegment_segBase]
        split
        · exact .inr ⟨r, b, rfl⟩
        · exact .inl rfl }

theorem effect_cmovOp {c : Cond} {dst : Gpr} {src : Rm Gpr} (hfit : InstrFits i s w (.reg (.lo dst)))
    (h : cmovOp c w dst src s = .ok t) : Effect i s t := by
  obtain ⟨-, rfl⟩ := cmovOp_eq_ok_iff.1 h
  unfold cmovLeaves
  split
  · exact effect_writeReg hfit
  · split
    · exact effect_writeReg hfit
    · exact { registers := fun _ hr => hr }

theorem effect_branchIf {n : Nat} {taken : Bool} {rel : BitVec n} : Effect i s (branchIf taken rel s) where
  registers _ hr := hr
  pc := by
    refine ⟨rfl, .inr ?_⟩
    rw [branchIf_pc]
    split
    · exact .inr ⟨_, rfl⟩
    · exact .inl rfl

theorem effect_loopOp {also : Bool} {rel : BitVec 8} : Effect i s (loopOp also rel s) where
  registers _ hr := launchRegisters_writeAddrReg (r := .rcx) rfl hr _
  pc := (effect_branchIf (i := i) (s := writeAddrReg .rcx (loopCount s) s)).pc

theorem effect_movsOp {seg : Option SegReg} (h : movsOp w seg s = .ok t) : Effect i s t := by
  obtain ⟨-, hw, rfl⟩ := movsOp_eq_ok_iff.1 h
  exact
    { registers := fun _ hr =>
        launchRegisters_movePointer (r := .rdi) rfl (launchRegisters_movePointer (r := .rsi) rfl hr _) _
      memory := memoryChange_store hw _ rfl }

theorem effect_cmpsOp {seg : Option SegReg} (h : cmpsOp w seg s = .ok t) : Effect i s t := by
  obtain ⟨-, -, rfl⟩ := cmpsOp_eq_ok_iff.1 h
  exact
    { flags := .status (flagsSameBut_setStatus rfl)
      registers := fun _ hr =>
        launchRegisters_movePointer (r := .rdi) rfl (launchRegisters_movePointer (r := .rsi) rfl hr _) _ }

theorem effect_scasOp (h : scasOp w s = .ok t) : Effect i s t := by
  obtain ⟨-, rfl⟩ := scasOp_eq_ok_iff.1 h
  exact
    { flags := .status (flagsSameBut_setStatus rfl)
      registers := fun _ hr => launchRegisters_movePointer (r := .rdi) rfl hr _ }

theorem effect_lodsOp {seg : Option SegReg} (hfit : InstrFits i s w (.reg (.lo .rax))) (h : lodsOp w seg s = .ok t) :
    Effect i s t := by
  obtain ⟨-, rfl⟩ := lodsOp_eq_ok_iff.1 h
  exact
    { registers := fun hi hr => launchRegisters_movePointer (r := .rsi) rfl (launchRegisters_writeReg (hfit hi) hr _) _ }

theorem effect_stosOp (h : stosOp w s = .ok t) : Effect i s t := by
  obtain ⟨hw, rfl⟩ := stosOp_eq_ok_iff.1 h
  exact
    { registers := fun _ hr => launchRegisters_movePointer (r := .rdi) rfl hr _
      memory := memoryChange_store hw _ rfl }

theorem effect_push {v : BitVec w.bits} (h : push w v s = .ok t) : Effect i s t := by
  obtain ⟨hw, rfl⟩ := push_eq_ok_iff.1 h
  exact
    { registers := fun _ hr => launchRegisters_writeAddrReg (r := .rsp) rfl hr _
      memory := memoryChange_store hw _ rfl }

theorem effect_popOp {r : Gpr} (hfit : InstrFits i s w (.reg (.lo r))) (h : popOp w r s = .ok t) : Effect i s t := by
  obtain ⟨-, rfl⟩ := popOp_eq_ok_iff.1 h
  exact
    { registers := fun hi hr =>
        launchRegisters_writeReg (s := writeAddrReg .rsp _ s) (hfit hi) (launchRegisters_writeAddrReg rfl hr _) _ }

theorem effect_setFlagOp {f : Flag} {b : Bool} (hf : f ∈ statusFlags ∨ f = .df ∧ (i = .std ∨ i = .cld))
    (h : setFlagOp f b s = .ok t) : Effect i s t := by
  obtain rfl := setFlagOp_eq_ok_iff.1 h
  refine { flags := ?_, registers := fun _ hr => hr }
  obtain hf | ⟨rfl, hi⟩ := hf
  · exact .status (flagsSameBut_setStatusFlag hf rfl)
  · exact .direction hi (flagsSameBut_setFlag rfl)

theorem effect_lahfOp (h : lahfOp s = .ok t) : Effect i s t := by
  obtain ⟨-, rfl⟩ := lahfOp_eq_ok_iff.1 h
  exact effect_writeReg fun _ _ => ⟨by simp, fun _ hr => by cases hr; rfl⟩

theorem effect_sahfOp (h : sahfOp s = .ok t) : Effect i s t := by
  obtain ⟨-, rfl⟩ := sahfOp_eq_ok_iff.1 h
  refine { flags := .status fun j hj => ?_, registers := fun _ hr => hr }
  have hne : ∀ f ∈ statusFlags, j ≠ f.bit := fun f hf hc => hj f hf hc.symm
  rw [withFlags_rflags, sahfFlags]
  simp only [getLsbD_setFlag]
  rw [if_neg (hne .cf (by decide)), if_neg (hne .pf (by decide)), if_neg (hne .af (by decide)),
    if_neg (hne .zf (by decide)), if_neg (hne .sf (by decide))]

theorem effect_popfOp {sz : OpSize} (h : popfOp sz s = .ok t) : Effect (.popf sz) s t := by
  obtain ⟨-, rfl⟩ := popfOp_eq_ok_iff.1 h
  exact
    { flags := .popf sz (memValue s (popAddr s) sz.width.bytes) rfl (by cases sz <;> rfl)
      registers := fun _ hr =>
        (launchRegisters_congr (s := writeAddrReg .rsp _ s) (by simp) (loadFlags_gpr ..)).2
          (launchRegisters_writeAddrReg rfl hr _) }

end

/-- Every instruction performs an operation whose effect is one that the instruction may have, and then goes on at
`pc_next` unless the operation has written `pc`. -/
theorem effect_exec (i : Instr) (s : State) :
    ∃ r : Res State, (∀ t, r = .ok t → Effect i s t) ∧ (exec i s = finish r ∨ exec i s = toOutcome r) :=
  match i with
  | .addRm8R8 .. | .adcRm8R8 .. | .sbbRm8R8 .. | .subRm8R8 .. =>
    ⟨_, fun _ => effect_aluRm fun hi => (destFits_pair hi).1, .inl rfl⟩
  | .addRmR .. | .adcRmR .. | .sbbRmR .. | .subRmR .. =>
    ⟨_, fun _ => effect_aluRm fun hi => (destFits_sized_pair hi).1, .inl rfl⟩
  | .addRm8Imm8 .. | .adcRm8Imm8 .. | .sbbRm8Imm8 .. | .subRm8Imm8 .. =>
    ⟨_, fun _ => effect_aluRm destFits_of_rm8Ok, .inl rfl⟩
  | .addRmImm .. | .adcRmImm .. | .sbbRmImm .. | .subRmImm ..
  | .addRmSimm8 .. | .adcRmSimm8 .. | .sbbRmSimm8 .. | .subRmSimm8 .. =>
    ⟨_, fun _ => effect_aluRm destFits_sized, .inl rfl⟩
  | .addAlImm8 .. | .adcAlImm8 .. | .sbbAlImm8 .. | .subAlImm8 .. =>
    ⟨_, fun _ => effect_aluRm (dst := .reg (.lo .rax)) fun _ => destFits_acc widthFits_b8, .inl rfl⟩
  | .addAccImm imm | .adcAccImm imm | .sbbAccImm imm | .subAccImm imm =>
    ⟨_, fun _ => effect_aluRm (w := imm.size.width) (dst := .reg (.lo .rax)) fun hi => destFits_acc (widthFits_of_sizeOk hi),
      .inl rfl⟩
  | .addR8Rm8 .. | .adcR8Rm8 .. | .sbbR8Rm8 .. | .subR8Rm8 .. =>
    ⟨_, fun _ => effect_aluReg fun hi => (destFits_pair hi).2, .inl rfl⟩
  | .addRRm .. | .adcRRm .. | .sbbRRm .. | .subRRm .. =>
    ⟨_, fun _ => effect_aluReg fun hi => (destFits_sized_pair hi).2, .inl rfl⟩
  | .mulRm8 .. => ⟨_, fun _ => effect_mulOp fun _ => destFits_acc widthFits_b8, .inl rfl⟩
  | .divRm8 .. => ⟨_, fun _ => effect_divOp fun _ => destFits_acc widthFits_b8, .inl rfl⟩
  | .idivRm8 .. => ⟨_, fun _ => effect_idivOp fun _ => destFits_acc widthFits_b8, .inl rfl⟩
  | .mulRm .. => ⟨_, fun _ => effect_mulOp fun hi => destFits_acc_sized hi, .inl rfl⟩
  | .divRm .. => ⟨_, fun _ => effect_divOp fun hi => destFits_acc_sized hi, .inl rfl⟩
  | .idivRm .. => ⟨_, fun _ => effect_idivOp fun hi => destFits_acc_sized hi, .inl rfl⟩
  | .btRmImm8 .. | .btsRmImm8 .. | .btrRmImm8 .. | .btcRmImm8 .. => ⟨_, fun _ => effect_bitOp destFits_sized, .inl rfl⟩
  | .btRmR .. | .btsRmR .. | .btrRmR .. | .btcRmR .. =>
    ⟨_, fun _ => effect_bitRegOp fun hi => (destFits_sized_pair hi).1, .inl rfl⟩
  | .movR8Imm8 .. => ⟨_, fun _ => effect_ok (effect_writeReg destFits_of_reg8Ok), .inl rfl⟩
  | .movRImm .. => ⟨_, fun _ => effect_ok (effect_writeReg destFits_sized_gpr), .inl rfl⟩
  | .movRm8R8 .. => ⟨_, fun _ => effect_writeRm fun hi => (destFits_pair hi).1, .inl rfl⟩
  | .movRmR .. => ⟨_, fun _ => effect_writeRm fun hi => (destFits_sized_pair hi).1, .inl rfl⟩
  | .movRm8Imm8 .. | .setcc .. => ⟨_, fun _ => effect_writeRm destFits_of_rm8Ok, .inl rfl⟩
  | .movRmImm .. => ⟨_, fun _ => effect_writeRm destFits_sized, .inl rfl⟩
  | .movR8Rm8 .. => ⟨_, fun _ => effect_movToReg fun hi => (destFits_pair hi).2, .inl rfl⟩
  | .movRRm .. => ⟨_, fun _ => effect_movToReg fun hi => (destFits_sized_pair hi).2, .inl rfl⟩
  | .movRmSreg .. => ⟨_, fun _ => effect_movFromSeg destFits_sized, .inl rfl⟩
  | .movSregRm .. => ⟨_, fun _ => effect_movToSeg, .inl rfl⟩
  | .cmovcc .. => ⟨_, fun _ => effect_cmovOp fun hi => (destFits_sized_pair hi).2, .inl rfl⟩
  | .jccRel8 .. | .jccRel32 .. => ⟨_, fun _ => effect_ok effect_branchIf, .inr rfl⟩
  | .loop .. | .loope .. | .loopne .. => ⟨_, fun _ => effect_ok effect_loopOp, .inr rfl⟩
  | .movsb .. | .movs .. => ⟨_, fun _ => effect_movsOp, .inl rfl⟩
  | .cmpsb .. | .cmps .. => ⟨_, fun _ => effect_cmpsOp, .inl rfl⟩
  | .scasb | .scas .. => ⟨_, fun _ => effect_scasOp, .inl rfl⟩
  | .lodsb .. => ⟨_, fun _ => effect_lodsOp fun _ => destFits_acc widthFits_b8, .inl rfl⟩
  | .lods .. => ⟨_, fun _ => effect_lodsOp fun hi => destFits_acc_sized hi, .inl rfl⟩
  | .stosb | .stos .. => ⟨_, fun _ => effect_stosOp, .inl rfl⟩
  | .push .. | .pushf .. => ⟨_, fun _ => effect_push, .inl rfl⟩
  | .pop .. => ⟨_, fun _ => effect_popOp destFits_stack_gpr, .inl rfl⟩
  | .popf .. => ⟨_, fun _ => effect_popfOp, .inl rfl⟩
  | .cmc | .clc | .stc => ⟨_, fun _ => effect_setFlagOp (.inl (by decide)), .inl rfl⟩
  | .cld => ⟨_, fun _ => effect_setFlagOp (.inr ⟨rfl, .inr rfl⟩), .inl rfl⟩
  | .std => ⟨_, fun _ => effect_setFlagOp (.inr ⟨rfl, .inl rfl⟩), .inl rfl⟩
  | .lahf => ⟨_, fun _ => effect_lahfOp, .inl rfl⟩
  | .sahf => ⟨_, fun _ => effect_sahfOp, .inl rfl⟩
  | .iret | .cpuid => ⟨_, fun _ ht => absurd ht (refuse_ne_ok _ _), .inl rfl⟩

/-- What an instruction that completes leaves: the effect of its operation, with `pc` moved to `pc_next` or as it is. -/
theorem exec_effect {i : Instr} {s t : State} (h : exec i s = .next t) :
    ∃ u, Effect i s u ∧ (t = advance u ∨ t = u) := by
  obtain ⟨r, hr, he | he⟩ := effect_exec i s
  · obtain ⟨u, hu, ht⟩ := finish_eq_next_iff.1 (he.symm.trans h)
    exact ⟨u, hr u hu, .inl ht⟩
  · exact ⟨t, hr t (toOutcome_eq_next_iff.1 (he.symm.trans h)), .inr rfl⟩

theorem FlagsChange.congr {i : Instr} {s t u : State} (h : FlagsChange i s u) (ht : t.rflags = u.rflags) :
    FlagsChange i s t := by
  cases h with
  | status h => exact .status fun j hj => by rw [ht, h j hj]
  | direction hi h => exact .direction hi fun j hj => by rw [ht, h j hj]
  | popf sz v hi h => exact .popf sz v hi (ht.trans h)

theorem exec_flagsChange {i : Instr} {s t : State} (h : exec i s = .next t) : FlagsChange i s t := by
  obtain ⟨u, hu, rfl | rfl⟩ := exec_effect h
  · exact hu.flags.congr rfl
  · exact hu.flags

/-- The flags that an instruction other than POPF may change. -/
def arithmeticFlags : List Flag := [.of, .sf, .zf, .af, .pf, .cf, .df]

theorem FlagsChange.cases {i : Instr} {s t : State} (h : FlagsChange i s t) :
    FlagsSameBut arithmeticFlags s t ∨ ∃ sz v, i = .popf sz ∧ t.rflags = (loadFlags sz v s).rflags := by
  cases h with
  | status h => exact .inl (h.mono (by decide))
  | direction hi h => exact .inl (h.mono (by decide))
  | popf sz v hi h => exact .inr ⟨sz, v, hi, h⟩

/-- Settles O17: POPF by the bits of its mask, and the others by the flags that they write. -/
theorem flagsChangeOnlyAsAllowed : Obligations.FlagsChangeOnlyAsAllowed := by
  intro i s t he
  have hflags := exec_flagsChange he
  have hdf : (∀ sz, i ≠ .popf sz) → i ≠ .std → i ≠ .cld → getFlag t.rflags .df = getFlag s.rflags .df := by
    intro hp hstd hcld
    cases hflags with
    | status h => exact h.getFlag_eq (by decide)
    | direction hi _ => exact absurd hi (by simp [hstd, hcld])
    | popf sz _ hi _ => exact absurd hi (hp sz)
  obtain h | ⟨sz, v, rfl, h⟩ := hflags.cases
  · have hkeep : ∀ f, f ∉ arithmeticFlags → getFlag t.rflags f = getFlag s.rflags f := fun _ hf => h.getFlag_eq hf
    exact ⟨fun _ => h, hdf, fun _ => h.iopl_eq, fun _ => hkeep _ (by decide), hkeep _ (by decide),
      fun hv => hkeep .vif (by decide) ▸ hv, fun hv => hkeep .vip (by decide) ▸ hv⟩
  · rw [h] at hdf ⊢
    exact ⟨fun hp => absurd rfl (hp sz), hdf, iopl_loadFlags, getFlag_loadFlags_intf, getFlag_loadFlags_vm,
      getFlag_of_loadFlags (.inl rfl), getFlag_of_loadFlags (.inr rfl)⟩

end Sys2Proof.Machine
end

section
/-!
SUPPORT. What the decoder answers is an instruction of the mode (`wellFormed_of_decode`; spec/30_encoding.md R163 to R183):
each parser, and each shape of opcode row, reads operands that the mode has.
-/
namespace Sys2Proof

/-! ## Parsers -/

/-- Whatever the parser reads satisfies `P`. -/
def Parses {α : Type} (P : α → Prop) (x : Parsed α) : Prop := ∀ a rest, x = .ok (a, rest) → P a

theorem parses_ok {α : Type} {P : α → Prop} {a : α} {rest : List Byte} (h : P a) : Parses P (.ok (a, rest)) := by
  rintro _ _ ⟨⟩
  exact h

theorem parses_error {α : Type} {P : α → Prop} {e : DecodeError} : Parses P (.error e : Parsed α) := nofun

theorem parses_andThen {α β : Type} {P : α → Prop} {Q : β → Prop} {x : Parsed α} {f : α → List Byte → Parsed β}
    (hx : Parses P x) (hf : ∀ a rest, P a → Parses Q (f a rest)) : Parses Q (andThen x f) := by
  cases x with
  | error e => exact parses_error
  | ok p => exact hf p.1 p.2 (hx p.1 p.2 rfl)

/-- A parser that reads something reads it. -/
theorem parses_any {α : Type} (x : Parsed α) : Parses (fun _ => True) x := fun _ _ _ => trivial

theorem parses_ite {α : Type} {P : α → Prop} {c : Prop} [Decidable c] {x y : Parsed α} (hx : c → Parses P x)
    (hy : ¬ c → Parses P y) : Parses P (if c then x else y) := by
  split
  · exact hx ‹_›
  · exact hy ‹_›

/-! ## Registers, sizes and segments -/

/-- A REX byte stands in LONG64 only (30_encoding.md R164). -/
def DecodeCtx.Ok (cx : DecodeCtx) : Prop := cx.mode = .prot32 → cx.rex = none

section
variable {cx : DecodeCtx}

theorem rexBit_prot32 (hcx : cx.Ok) (hm : cx.mode = .prot32) (k : Nat) : rexBit cx k = false := by
  rw [rexBit, hcx hm]

theorem gprOk_ofNum (hcx : cx.Ok) (k : Nat) (n : BitVec 3) : gprOk cx.mode (Gpr.ofNum (extend (rexBit cx k) n)) = true := by
  cases hm : cx.mode with
  | long64 => rfl
  | prot32 =>
    rw [rexBit_prot32 hcx hm]
    revert n
    decide

theorem reg8Ok_ofNum (hcx : cx.Ok) (k : Nat) (n : BitVec 3) :
    reg8Ok cx.mode (Reg8.ofNum cx.rex.isSome (extend (rexBit cx k) n)) = true := by
  cases hm : cx.mode with
  | long64 => rfl
  | prot32 =>
    rw [rexBit_prot32 hcx hm, hcx hm]
    revert n
    decide

theorem sizeOk_opSize (hcx : cx.Ok) : sizeOk cx.mode (opSize cx) = true := by
  cases hm : cx.mode with
  | long64 => rfl
  | prot32 =>
    rw [opSize, rexBit_prot32 hcx hm]
    cases cx.opsize <;> rfl

theorem stackSizeOk_stackSize : stackSizeOk cx.mode (stackSize cx) = true := by
  rw [stackSize]
  cases cx.opsize <;> cases cx.mode <;> rfl

theorem segOk_segOverride : segOk cx.mode (segOverride cx) = true := by
  rw [segOverride]
  split
  · assumption
  · cases cx.mode <;> rfl

/-! ## Memory operands -/

theorem baseOk_reg {md : Mode} {r : Gpr} {d : Disp} (h : gprOk md r = true)
    (hd : d = .none → r ≠ .rbp ∧ r ≠ .r13) : baseOk md (.reg r) d = true := by
  cases r <;> cases d <;> simp_all [baseOk]

theorem indexOk_of_ne_rip {md : Mode} {base : Base} {index : Option (Gpr × Scale)} (hb : base ≠ .rip)
    (h : ∀ r sc, index = some (r, sc) → r ≠ .rsp ∧ gprOk md r = true) : indexOk md base index = true := by
  cases index with
  | none => cases base <;> rfl
  | some p =>
    obtain ⟨hr, hok⟩ := h p.1 p.2 rfl
    cases base with
    | rip => exact absurd rfl hb
    | absent | reg _ =>
      obtain ⟨r, sc⟩ := p
      cases r <;> simp_all [indexOk]

/-- No index is ESP/RSP: the number 4 names none (30_encoding.md R174). -/
theorem sibIndex_ok (hcx : cx.Ok) {sib : Byte} {r : Gpr} {sc : Scale} (h : sibIndex cx sib = some (r, sc)) :
    r ≠ .rsp ∧ gprOk cx.mode r = true := by
  unfold sibIndex at h
  simp only [Option.ite_none_left_eq_some, Option.some.injEq, Prod.mk.injEq] at h
  obtain ⟨h4, rfl, -⟩ := h
  refine ⟨?_, gprOk_ofNum hcx 1 _⟩
  generalize extend (rexBit cx 1) (sib.extractLsb' 3 3) = n at h4
  revert n
  decide

/-- Without a REX byte no index is among R8 to R15. -/
theorem isExtended_ofNum_extend (n : BitVec 3) : (Gpr.ofNum (extend false n)).isExtended = false := by
  revert n
  decide

/-- A memory operand of the mode, which names R8 to R15 only under a REX byte (30_encoding.md R167). -/
def MemParsed (cx : DecodeCtx) (m : Mem) : Prop :=
  memOk cx.mode m = true ∧ (cx.rex = none → m.baseExtended = false ∧ m.indexExtended = false)

theorem rexBit_none (h : cx.rex = none) (k : Nat) : rexBit cx k = false := by
  rw [rexBit, h]

theorem indexExtended_sibIndex (h : cx.rex = none) (sg : Option SegReg) (b : Base) (sib : Byte) (d : Disp) :
    (Mem.mk sg b (sibIndex cx sib) d).indexExtended = false := by
  simp only [Mem.indexExtended, sibIndex]
  split
  · rename_i heq
    simp only [Option.ite_none_left_eq_some, Option.some.injEq, Prod.mk.injEq] at heq
    obtain ⟨-, rfl, -⟩ := heq
    rw [rexBit_none h, isExtended_ofNum_extend]
  · rfl

/-- No displacement is read only under `mod` 0 (30_encoding.md R172). -/
theorem parses_parseDisp (mod : BitVec 2) (bs : List Byte) :
    Parses (fun d => d = .none → mod = 0) (parseDisp mod bs) := by
  refine parses_ite (fun h => parses_ok fun _ => h) fun _ => parses_ite (fun _ => ?_) fun _ => ?_
  · exact parses_andThen (parses_any _) fun _ _ _ => parses_ok nofun
  · exact parses_andThen (parses_any _) fun _ _ _ => parses_ok nofun

/-- A base register beside which no displacement stands is not EBP/RBP or R13 when its low number is not 5. -/
theorem ofNum_extend_ne {b : Bool} {n : BitVec 3} (h : n ≠ 5) :
    Gpr.ofNum (extend b n) ≠ .rbp ∧ Gpr.ofNum (extend b n) ≠ .r13 := by
  revert b n
  decide

theorem memParsed_reg (hcx : cx.Ok) {n : BitVec 3} {index : Option (Gpr × Scale)} {d : Disp}
    (hd : d = .none → n ≠ 5) (hx : ∀ r sc, index = some (r, sc) → r ≠ .rsp ∧ gprOk cx.mode r = true)
    (hx' : cx.rex = none → ∀ sg b d, (Mem.mk sg b index d).indexExtended = false) :
    MemParsed cx ⟨segOverride cx, .reg (Gpr.ofNum (extend (rexBit cx 0) n)), index, d⟩ := by
  refine ⟨?_, fun h => ⟨?_, hx' h _ _ _⟩⟩
  · rw [memOk, segOk_segOverride, baseOk_reg (gprOk_ofNum hcx 0 n) fun h => ofNum_extend_ne (hd h),
      indexOk_of_ne_rip (by simp) hx]
    rfl
  · rw [rexBit_none h]
    exact isExtended_ofNum_extend n

theorem parses_parseMem (hcx : cx.Ok) (mod : BitVec 2) (rm : BitVec 3) (bs : List Byte) :
    Parses (MemParsed cx) (parseMem cx mod rm bs) := by
  refine parses_ite (fun _ => ?_) fun _ => parses_ite (fun _ => ?_) fun hrm => ?_
  · refine parses_andThen (parses_any _) fun sib rest _ => parses_ite (fun _ => ?_) fun hbase => ?_
    · refine parses_andThen (parses_any _) fun v _ _ => parses_ok ⟨?_, fun h => ⟨rfl, indexExtended_sibIndex h ..⟩⟩
      rw [memOk, segOk_segOverride, indexOk_of_ne_rip (by simp) fun _ _ => sibIndex_ok hcx]
      rfl
    · refine parses_andThen (parses_parseDisp mod rest) fun d _ hd => parses_ok ?_
      exact memParsed_reg hcx (fun h h5 => hbase ⟨hd h, h5⟩) (fun _ _ => sibIndex_ok hcx)
        fun h _ _ _ => indexExtended_sibIndex h ..
  · refine parses_andThen (parses_any _) fun v _ _ => ?_
    split
    · exact parses_ok ⟨by simp [memOk, segOk_segOverride, baseOk, indexOk], fun _ => ⟨rfl, rfl⟩⟩
    · rename_i hm
      refine parses_ok ⟨?_, fun _ => ⟨rfl, rfl⟩⟩
      rw [memOk, segOk_segOverride, hm]
      rfl
  · refine parses_andThen (parses_parseDisp mod bs) fun d _ hd => parses_ok ?_
    exact memParsed_reg hcx (fun h h5 => hrm ⟨hd h, h5⟩) nofun fun _ _ _ _ => rfl

/-! ## ModRM -/

/-- An r/m operand of the mode: a register by its three bits and REX.B, or a memory operand. -/
def RmParsed (cx : DecodeCtx) : Rm (BitVec 4) → Prop
  | .reg n => ∃ lo, n = extend (rexBit cx 0) lo
  | .mem m => MemParsed cx m

theorem parses_parseModRm (hcx : cx.Ok) (bs : List Byte) : Parses (fun p => RmParsed cx p.2) (parseModRm cx bs) := by
  refine parses_andThen (parses_any _) fun b rest _ => parses_ite (fun _ => parses_ok ⟨_, rfl⟩) fun _ => ?_
  exact parses_andThen (parses_parseMem hcx _ _ _) fun m _ hm => parses_ok hm

theorem rmOk_rmGpr (hcx : cx.Ok) {m : Rm (BitVec 4)} (h : RmParsed cx m) : rmOk cx.mode (rmGpr m) = true := by
  cases m with
  | reg n =>
    obtain ⟨lo, rfl⟩ := h
    exact gprOk_ofNum hcx 0 lo
  | mem m => exact h.1

theorem rm8Ok_rmReg8 (hcx : cx.Ok) {m : Rm (BitVec 4)} (h : RmParsed cx m) : rm8Ok cx.mode (rmReg8 cx m) = true := by
  cases m with
  | reg n =>
    obtain ⟨lo, rfl⟩ := h
    exact reg8Ok_ofNum hcx 0 lo
  | mem m => exact h.1

/-- A byte register is a legacy high byte without a REX byte only, and needs one only under one (10_state.md R33). -/
theorem isHigh_ofNum (n : BitVec 4) : (Reg8.ofNum true n).isHigh = false := rfl

theorem needsRex_ofNum (n : BitVec 3) : (Reg8.ofNum false (extend false n)).needsRex = false := by
  revert n
  decide

theorem rm8IsHigh_rmReg8 (h : cx.rex.isSome = true) (m : Rm (BitVec 4)) : rm8IsHigh (rmReg8 cx m) = false := by
  rw [rmReg8, h]
  cases m <;> rfl

theorem rm8NeedsRex_rmReg8 (hr : cx.rex = none) {m : Rm (BitVec 4)} (h : RmParsed cx m) :
    rm8NeedsRex (rmReg8 cx m) = false := by
  cases m with
  | reg n =>
    obtain ⟨lo, rfl⟩ := h
    rw [rmReg8, hr, rexBit_none hr]
    exact needsRex_ofNum lo
  | mem m =>
    obtain ⟨hb, hx⟩ := h.2 hr
    show (m.baseExtended || m.indexExtended) = false
    rw [hb, hx]
    rfl

theorem pairOk_parsed {m : Rm (BitVec 4)} (h : RmParsed cx m) (k : Nat) (n : BitVec 3) :
    pairOk (Reg8.ofNum cx.rex.isSome (extend (rexBit cx k) n)) (rmReg8 cx m) = true := by
  cases hr : cx.rex with
  | some b =>
    rw [pairOk, rm8IsHigh_rmReg8 (by rw [hr]; rfl)]
    simp [isHigh_ofNum]
  | none =>
    rw [pairOk, rm8NeedsRex_rmReg8 hr h, rexBit_none hr, Option.isSome_none, needsRex_ofNum]
    simp

/-! ## The shapes of the opcode rows -/

/-- What the parser reads is an instruction of the mode. -/
abbrev ParsesWellFormed (cx : DecodeCtx) (x : Parsed Instr) : Prop := Parses (fun i => i.wellFormed cx.mode = true) x

variable {bs : List Byte}

theorem parses_rm8R8 (hcx : cx.Ok) {mk : Rm Reg8 → Reg8 → Instr}
    (h : ∀ m r, (rm8Ok cx.mode m && reg8Ok cx.mode r && pairOk r m) = true → (mk m r).wellFormed cx.mode = true) :
    ParsesWellFormed cx (parseRm8R8 cx mk bs) :=
  parses_andThen (parses_parseModRm hcx bs) fun p _ hp => parses_ok <| h _ _ <| by
    rw [rm8Ok_rmReg8 hcx hp, reg8Ok_ofNum hcx, pairOk_parsed hp]
    rfl

theorem parses_rmR (hcx : cx.Ok) {mk : OpSize → Rm Gpr → Gpr → Instr}
    (h : ∀ sz m r, (sizeOk cx.mode sz && rmOk cx.mode m && gprOk cx.mode r) = true →
      (mk sz m r).wellFormed cx.mode = true) :
    ParsesWellFormed cx (parseRmR cx mk bs) :=
  parses_andThen (parses_parseModRm hcx bs) fun p _ hp => parses_ok <| h _ _ _ <| by
    rw [sizeOk_opSize hcx, rmOk_rmGpr hcx hp, gprOk_ofNum hcx]
    rfl

theorem parses_rmSeg (hcx : cx.Ok) {mk : Rm Gpr → SegField → Instr}
    (h : ∀ m f, rmOk cx.mode m = true → (mk m f).wellFormed cx.mode = true) :
    ParsesWellFormed cx (parseRmSeg cx mk bs) :=
  parses_andThen (parses_parseModRm hcx bs) fun _ _ hp => parses_ok <| h _ _ <| rmOk_rmGpr hcx hp

theorem parses_imm8 {mk : Byte → Instr} (h : ∀ v, (mk v).wellFormed cx.mode = true) :
    ParsesWellFormed cx (parseImm8 mk bs) :=
  parses_andThen (parses_any _) fun v _ _ => parses_ok (h v)

theorem parses_takeImmZ (hcx : cx.Ok) : Parses (fun imm => sizeOk cx.mode imm.size = true) (takeImmZ cx bs) := by
  have hsz := sizeOk_opSize hcx
  unfold takeImmZ
  split <;> rename_i h <;> rw [h] at hsz <;> exact parses_andThen (parses_any _) fun v _ _ => parses_ok hsz

theorem parses_immZ (hcx : cx.Ok) {mk : ImmZ → Instr}
    (h : ∀ imm, sizeOk cx.mode imm.size = true → (mk imm).wellFormed cx.mode = true) :
    ParsesWellFormed cx (parseImmZ cx mk bs) :=
  parses_andThen (parses_takeImmZ hcx) fun imm _ hi => parses_ok (h imm hi)

theorem parses_immV (hcx : cx.Ok) {mk : ImmV → Instr}
    (h : ∀ imm, sizeOk cx.mode imm.size = true → (mk imm).wellFormed cx.mode = true) :
    ParsesWellFormed cx (parseImmV cx mk bs) := by
  have hsz := sizeOk_opSize hcx
  unfold parseImmV
  split <;> rename_i hs <;> rw [hs] at hsz <;> exact parses_andThen (parses_any _) fun v _ _ => parses_ok (h _ hsz)

theorem parses_rel8 {mk : BitVec 8 → Instr} (h : ∀ v, (mk v).wellFormed cx.mode = true) :
    ParsesWellFormed cx (parseRel8 cx mk bs) :=
  parses_ite (fun _ => parses_error) fun _ => parses_andThen (parses_any _) fun v _ _ => parses_ok (h v)

theorem parses_rel32 {mk : BitVec 32 → Instr} (h : ∀ v, (mk v).wellFormed cx.mode = true) :
    ParsesWellFormed cx (parseRel32 cx mk bs) :=
  parses_ite (fun _ => parses_error) fun _ => parses_andThen (parses_any _) fun v _ _ => parses_ok (h v)

theorem parses_setcc (hcx : cx.Ok) (c : Cond) : ParsesWellFormed cx (parseSetcc cx c bs) :=
  parses_andThen (parses_parseModRm hcx bs) fun _ _ hp => parses_ok (rm8Ok_rmReg8 hcx hp)

/-- An opcode whose ModRM byte extends it. -/
theorem parses_group (hcx : cx.Ok) {listed : List Nat} {f : BitVec 3 × Rm (BitVec 4) → List Byte → Parsed Instr}
    (h : ∀ p rest, rm8Ok cx.mode (rmReg8 cx p.2) = true →
      (sizeOk cx.mode (opSize cx) && rmOk cx.mode (rmGpr p.2)) = true → ParsesWellFormed cx (f p rest)) :
    ParsesWellFormed cx (andThen (checkExt listed bs) fun _ bs => andThen (parseModRm cx bs) f) :=
  parses_andThen (parses_any _) fun _ bs _ => parses_andThen (parses_parseModRm hcx bs) fun p rest hp =>
    h p rest (rm8Ok_rmReg8 hcx hp) (by rw [sizeOk_opSize hcx, rmOk_rmGpr hcx hp]; rfl)

/-- A row whose `reg` extension is listed is an instruction of the mode when its operands are; another is refused. -/
theorem parses_group80 (hcx : cx.Ok) : ParsesWellFormed cx (parseGroup80 cx bs) := by
  refine parses_group hcx fun ⟨reg, rm⟩ rest h8 _ => ?_
  dsimp only
  split
  all_goals first | exact parses_error | exact parses_imm8 fun _ => h8

theorem parses_group81 (hcx : cx.Ok) : ParsesWellFormed cx (parseGroup81 cx bs) := by
  refine parses_group hcx fun ⟨reg, rm⟩ rest _ h => ?_
  have hrm := (Bool.and_eq_true_iff.1 h).2
  dsimp only
  split
  all_goals first | exact parses_error | exact parses_immZ hcx fun _ hi => Bool.and_eq_true_iff.2 ⟨hi, hrm⟩

theorem parses_group83 (hcx : cx.Ok) : ParsesWellFormed cx (parseGroup83 cx bs) := by
  refine parses_group hcx fun ⟨reg, rm⟩ rest _ h => ?_
  dsimp only
  split
  all_goals first | exact parses_error | exact parses_imm8 fun _ => h

theorem parses_groupC6 (hcx : cx.Ok) : ParsesWellFormed cx (parseGroupC6 cx bs) := by
  refine parses_group hcx fun ⟨reg, rm⟩ rest h8 _ => ?_
  dsimp only
  split
  · exact parses_imm8 fun _ => h8
  · exact parses_error

theorem parses_groupC7 (hcx : cx.Ok) : ParsesWellFormed cx (parseGroupC7 cx bs) := by
  refine parses_group hcx fun ⟨reg, rm⟩ rest _ h => ?_
  have hrm := (Bool.and_eq_true_iff.1 h).2
  dsimp only
  split
  · exact parses_immZ hcx fun _ hi => Bool.and_eq_true_iff.2 ⟨hi, hrm⟩
  · exact parses_error

theorem parses_groupF6 (hcx : cx.Ok) : ParsesWellFormed cx (parseGroupF6 cx bs) := by
  refine parses_group hcx fun ⟨reg, rm⟩ rest h8 _ => ?_
  dsimp only
  split
  all_goals first | exact parses_error | exact parses_ok h8

theorem parses_groupF7 (hcx : cx.Ok) : ParsesWellFormed cx (parseGroupF7 cx bs) := by
  refine parses_group hcx fun ⟨reg, rm⟩ rest _ h => ?_
  dsimp only
  split
  all_goals first | exact parses_error | exact parses_ok h

theorem parses_groupBA (hcx : cx.Ok) : ParsesWellFormed cx (parseGroupBA cx bs) := by
  refine parses_group hcx fun ⟨reg, rm⟩ rest _ h => ?_
  dsimp only
  split
  all_goals first | exact parses_error | exact parses_imm8 fun _ => h

theorem parses_decodeTwoByte (hcx : cx.Ok) (op : Byte) : ParsesWellFormed cx (decodeTwoByte cx op bs) := by
  unfold decodeTwoByte
  split
  all_goals first
    | exact parses_error
    | exact parses_rmR hcx fun _ _ _ h => h
    | exact parses_rel32 fun _ => rfl
    | exact parses_setcc hcx _
    | exact parses_groupBA hcx
    | exact parses_ok rfl

theorem parses_decodeOneByte (hcx : cx.Ok) (op : Byte) : ParsesWellFormed cx (decodeOneByte cx op bs) := by
  have hsz := sizeOk_opSize hcx
  have hseg := segOk_segOverride (cx := cx)
  have hstack := stackSizeOk_stackSize (cx := cx)
  have hgpr : gprOk cx.mode (opcodeGpr cx op) = true := gprOk_ofNum hcx 0 _
  have hreg8 : reg8Ok cx.mode (opcodeReg8 cx op) = true := reg8Ok_ofNum hcx 0 _
  unfold decodeOneByte
  split
  all_goals first
    | exact parses_error
    | exact parses_rm8R8 hcx fun _ _ h => h
    | exact parses_rmR hcx fun _ _ _ h => h
    | exact parses_imm8 fun _ => rfl
    | exact parses_imm8 fun _ => hreg8
    | exact parses_immZ hcx fun _ h => h
    | exact parses_immV hcx fun _ h => Bool.and_eq_true_iff.2 ⟨h, hgpr⟩
    | exact parses_rel8 fun _ => rfl
    | exact parses_rmSeg hcx fun _ _ h => Bool.and_eq_true_iff.2 ⟨hsz, h⟩
    | exact parses_rmSeg hcx fun _ _ h => h
    | exact parses_ok rfl
    | exact parses_ok hsz
    | exact parses_ok hseg
    | exact parses_ok hstack
    | exact parses_ok (Bool.and_eq_true_iff.2 ⟨hsz, hseg⟩)
    | exact parses_ok (Bool.and_eq_true_iff.2 ⟨hstack, hgpr⟩)
    | exact parses_group80 hcx
    | exact parses_group81 hcx
    | exact parses_group83 hcx
    | exact parses_groupC6 hcx
    | exact parses_groupC7 hcx
    | exact parses_groupF6 hcx
    | exact parses_groupF7 hcx

theorem parses_decodeOpcode (hcx : cx.Ok) : ParsesWellFormed cx (decodeOpcode cx bs) :=
  parses_andThen (parses_any _) fun _ _ _ => parses_ite
    (fun _ => parses_andThen (parses_any _) fun _ _ _ => parses_decodeTwoByte hcx _)
    fun _ => parses_decodeOneByte hcx _

/-- A REX byte is read in LONG64 only (30_encoding.md R164). -/
theorem parses_takeRex (md : Mode) : Parses (fun rex => md = .prot32 → rex = none) (takeRex md bs) := by
  cases bs with
  | nil => exact parses_error
  | cons b bs =>
    refine parses_ite (fun h => ?_) fun _ => parses_ok fun _ => rfl
    cases bs with
    | nil => exact parses_error
    | cons c bs =>
      have hmode (hm : md = .prot32) : False := nomatch hm.symm.trans h.1
      exact parses_ite (fun _ => parses_error) fun _ => parses_ok fun hm => (hmode hm).elim

/-- What the decoder answers is an instruction of the mode (10_state.md R27, R33; 30_encoding.md R181). -/
theorem wellFormed_of_decode {md : Mode} {i : Instr} {rest : List Byte} (h : decode md bs = .ok (i, rest)) :
    i.wellFormed md = true := by
  have hdecode : Parses (fun i => i.wellFormed md = true) (decode md bs) :=
    parses_andThen (parses_any _) fun p _ _ => parses_andThen (parses_takeRex md) fun rex _ hrex =>
      parses_decodeOpcode (cx := ⟨md, p.opsize, p.seg, rex⟩) hrex
  exact hdecode i rest h

end

end Sys2Proof
end

section
/-!
SUPPORT. Every step keeps the invariant: part by part from what an instruction may change (`Effect`), for the instructions
of the mode, which are those that the decoder answers.
-/
namespace Sys2Proof.Machine

/-! ## The parts of the invariant -/

theorem MemoryChange.memCanonical {s t : State} (h : MemoryChange s t) (hs : Memory.wf s.mem = true) :
    Memory.wf t.mem = true := by
  obtain h | ⟨a, n, v, -, h⟩ := h
  · rwa [h]
  · rw [h]
    exact wf_storeBytes hs a n v

/-- A store that completes stays inside the address space (20_memory.md R101, R126). -/
theorem MemoryChange.memInSpace {s t : State} (h : MemoryChange s t) (hs : ∀ c ∈ s.mem, c.1 < spaceSize s.launch.mode) :
    ∀ c ∈ t.mem, c.1 < spaceSize s.launch.mode := by
  obtain h | ⟨a, n, v, ⟨hadm, -⟩, h⟩ := h
  · rwa [h]
  · intro c hc
    rw [h, storeBytes_mem] at hc
    obtain hc | ⟨hlo, hhi⟩ := Memory.mem_writeBytes hc
    · exact hs c hc
    · rw [length_leBytes] at hhi
      have := lt_spaceSize_of_admits (hadm (c.1 - a.toNat) (by omega))
      omega

/-- A loaded base has 32 bits (42_data_movement.md R296). -/
theorem BasesChange.narrow {s t : State} (h : BasesChange s t) (hs : ∀ r, (s.segBase.get r).toNat < 2 ^ 32)
    (r : SegReg) :
    (t.segBase.get r).toNat < 2 ^ 32 := by
  obtain h | ⟨q, b, h⟩ := h
  · rw [h]
    exact hs r
  · rw [h, SegFile.get_set]
    split
    · rw [BitVec.toNat_setWidth]
      exact Nat.lt_of_le_of_lt (Nat.mod_le _ _) b.isLt
    · exact hs r

/-- A pop into the flags keeps the reserved bits and VM, and so does what writes one-bit flags other than VM
(10_state.md R52, R74, R79). -/
theorem FlagsChange.fixed {i : Instr} {s t : State} (h : FlagsChange i s t) :
    reservedOk t.rflags = reservedOk s.rflags ∧ getFlag t.rflags .vm = getFlag s.rflags .vm := by
  obtain h | ⟨sz, v, -, h⟩ := h.cases
  · exact ⟨h.reservedOk_eq, h.getFlag_eq (by decide)⟩
  · rw [h]
    exact ⟨reservedOk_loadFlags, getFlag_loadFlags_vm⟩

/-- `pc` stays an address of the mode, when the next instruction is at one (10_state.md R37, R39). -/
theorem PcChange.narrow {s t : State} (h : PcChange s t) (hm : s.launch.mode = .prot32) (hpc : s.pc.toNat < 2 ^ 32)
    (hnext : s.pcNext.toNat < 2 ^ 32) : t.pc.toNat < 2 ^ 32 := by
  obtain ⟨-, h | h | ⟨a, h⟩⟩ := h
  · rwa [h]
  · rwa [h]
  · rw [h, hm]
    exact truncAddr_prot32_lt a

/-! ## Instructions and steps -/

theorem Inv.registers {s : State} (h : Inv s) : launchRegisters s :=
  fun hm r => ⟨h.gprNarrow hm r, h.gprAbsent hm r⟩

/-- The invariant is about what `beginInstr` and `advance` leave, but for `pc`. -/
theorem Inv.congr {s t : State} (h : Inv s) (hmem : t.mem = s.mem) (hl : t.launch = s.launch) (hf : t.rflags = s.rflags)
    (hg : t.gpr = s.gpr) (hb : t.segBase = s.segBase) (hpc : s.launch.mode = .prot32 → t.pc.toNat < 2 ^ 32) : Inv t where
  memCanonical := hmem ▸ h.memCanonical
  memInSpace := hmem ▸ hl ▸ h.memInSpace
  reserved := hf ▸ h.reserved
  vmClear := hf ▸ h.vmClear
  gprNarrow := hl ▸ hg ▸ h.gprNarrow
  gprAbsent := hl ▸ hg ▸ h.gprAbsent
  pcNarrow := hl ▸ hpc
  baseNarrow := hl ▸ hb ▸ h.baseNarrow

/-- What an instruction of the mode leaves satisfies the invariant, when `pc_next` is an address of the mode. -/
theorem Effect.inv {i : Instr} {s t : State} (h : Effect i s t) (hl : t.launch = s.launch)
    (hi : i.wellFormed s.launch.mode = true) (hs : Inv s) (hnext : s.launch.mode = .prot32 → s.pcNext.toNat < 2 ^ 32) :
    Inv t := by
  obtain ⟨hres, hvm⟩ := h.flags.fixed
  have hregs := h.registers hi hs.registers
  exact
    { memCanonical := h.memory.memCanonical hs.memCanonical
      memInSpace := hl ▸ h.memory.memInSpace hs.memInSpace
      reserved := hres.trans hs.reserved
      vmClear := hvm.trans hs.vmClear
      gprNarrow := fun hm r => (hregs hm r).1
      gprAbsent := fun hm r => (hregs hm r).2
      pcNarrow := fun hm => h.pc.narrow (hl ▸ hm) (hs.pcNarrow (hl ▸ hm)) (hnext (hl ▸ hm))
      baseNarrow := fun hm => h.bases.narrow (hs.baseNarrow (hl ▸ hm)) }

/-- An instruction of the mode keeps the invariant, when `pc_next` is an address of the mode. -/
theorem exec_keeps_inv {i : Instr} {s t : State} (hi : i.wellFormed s.launch.mode = true) (hs : Inv s)
    (hnext : s.launch.mode = .prot32 → s.pcNext.toNat < 2 ^ 32) (h : exec i s = .next t) : Inv t := by
  have hlaunch : t.launch = s.launch := (exec_keeps_systemAndCs h).1.1
  obtain ⟨u, hu, rfl | rfl⟩ := exec_effect h
  · have hinv := hu.inv hlaunch hi hs hnext
    refine hinv.congr rfl rfl rfl rfl rfl fun hm => ?_
    rw [advance_pc, hu.pc.1]
    exact hnext (hlaunch ▸ hm)
  · exact hu.inv hlaunch hi hs hnext

theorem wellFormed_of_fetchDecode {s : State} {i : Instr} {len : Nat} (h : fetchDecode s = .ok (i, len)) :
    i.wellFormed s.launch.mode = true := by
  unfold fetchDecode at h
  split at h
  · rename_i hd
    cases h
    exact wellFormed_of_decode hd
  · cases h
  · cases h
  · split at h <;> cases h

/-- Settles O13: a step leads to its own state or to what a decoded instruction, which is one of the mode, leaves. -/
theorem stepKeepsInv : Obligations.StepKeepsInv := by
  intro s t hs h
  obtain ⟨-, rfl⟩ | ⟨i, len, -, hd, he⟩ := leads_cases h
  · exact hs
  · have hbegin : Inv (beginInstr s len) := hs.congr rfl rfl rfl rfl rfl hs.pcNarrow
    refine exec_keeps_inv (s := beginInstr s len) (wellFormed_of_fetchDecode hd) hbegin (fun hm => ?_) he
    rw [beginInstr_pcNext, show s.launch.mode = .prot32 from hm]
    exact truncAddr_prot32_lt _

end Sys2Proof.Machine
end

section
/-!
SUPPORT. The encoder and the decoder together (spec/30_encoding.md R160 to R181): every well-formed instruction is read back
from its encoding, whatever bytes follow, and no encoding is longer than 15 bytes.
-/
namespace Sys2Proof

open Sys2Proof.Machine

/-! ## Numbers -/

@[simp] theorem Gpr.ofNum_num (r : Gpr) : Gpr.ofNum r.num = r := by
  cases r <;> rfl

@[simp] theorem SegField.ofNum_num (f : SegField) : SegField.ofNum f.num = f := by
  obtain (r | _ | _) := f
  · cases r <;> rfl
  · rfl
  · rfl

@[simp] theorem Scale.ofNum_num (sc : Scale) : Scale.ofNum sc.num = sc := by
  cases sc <;> rfl

/-- Bit 3 of the number is what REX extends (30_encoding.md R167). -/
theorem Gpr.num_bit3 (r : Gpr) : r.num.getLsbD 3 = r.isExtended := by
  cases r <;> rfl

theorem extend_bit3 (n : BitVec 4) : extend (n.getLsbD 3) (n.setWidth 3) = n := by
  revert n
  decide

/-- A byte register is read back from its number when a REX byte stands where it needs one and nowhere else
(10_state.md R33). -/
theorem Reg8.ofNum_num {hasRex : Bool} {r : Reg8} (hhigh : r.isHigh = true → hasRex = false)
    (hneeds : r.needsRex = true → hasRex = true) : Reg8.ofNum hasRex r.num = r := by
  cases hasRex with
  | true =>
    cases r with
    | lo r => exact congrArg Reg8.lo (Gpr.ofNum_num r)
    | hi r => exact absurd (hhigh rfl) (by simp)
  | false =>
    cases r with
    | lo r => cases r <;> first | rfl | exact absurd (hneeds rfl) (by simp)
    | hi r => cases r <;> rfl

/-! ## Little-endian fields -/

theorem takeLe_leBytes {n : Nat} (v : BitVec (8 * n)) (rest : List Byte) :
    takeLe n (leBytes n v.toNat ++ rest) = .ok (v, rest) := by
  rw [takeLe, if_neg (by simp), List.take_left' (length_leBytes ..), List.drop_left' (length_leBytes ..),
    ofNat_ofLeBytes_leBytes]

/-! ## Prefixes -/

/-- A byte with which an opcode begins: none of the legacy prefixes and no REX. -/
abbrev OpcodeByte (b : Byte) : Prop := isLegacyPrefix b = false ∧ isRex b = false

theorem not_isLegacyPrefix_of_isRex {b : Byte} (h : isRex b = true) : isLegacyPrefix b = false := by
  revert b
  decide

theorem takePrefixes_stop (p : Prefixes) {b : Byte} (h : isLegacyPrefix b = false) (bs : List Byte) :
    takePrefixes p (b :: bs) = .ok (p, b :: bs) := by
  simp only [isLegacyPrefix, Bool.or_eq_false_iff, beq_eq_false_iff_ne, Option.isSome_eq_false_iff,
    Option.isNone_iff_eq_none] at h
  obtain ⟨⟨h66, hseg⟩, href⟩ := h
  rw [takePrefixes, if_neg h66, hseg]
  exact if_neg (by simp [href])

theorem segmentPrefix_prefixByte (r : SegReg) : segmentPrefix r.prefixByte = some r := by
  cases r <;> rfl

theorem takePrefixes_segment {p : Prefixes} (hp : p.seg = none) (seg : Option SegReg) (bs : List Byte) :
    takePrefixes p ((seg.map SegReg.prefixByte).toList ++ bs) =
      takePrefixes (if seg.isSome then { p with seg := seg } else p) bs := by
  cases seg with
  | none => rfl
  | some r =>
    have h66 : r.prefixByte ≠ 0x66 := by cases r <;> decide
    show takePrefixes p (r.prefixByte :: bs) = _
    rw [takePrefixes, if_neg h66, segmentPrefix_prefixByte, hp]
    rfl

theorem takePrefixes_opsize (osz : Bool) (bs : List Byte) :
    takePrefixes ⟨false, none⟩ ((if osz then [0x66] else []) ++ bs) = takePrefixes ⟨osz, none⟩ bs := by
  cases osz <;> rfl

/-- The REX part, if there is one, is a REX byte, and the mode is LONG64 (30_encoding.md R164, R167). -/
def RexOk (md : Mode) (rex : Option Byte) : Prop := ∀ r, rex = some r → md = .long64 ∧ isRex r = true

theorem rexOk_none {md : Mode} : RexOk md none := nofun

theorem takeRex_toList {md : Mode} {rex : Option Byte} (hrex : RexOk md rex) {b : Byte} (hb : OpcodeByte b)
    (bs : List Byte) : takeRex md (rex.toList ++ b :: bs) = .ok (rex, b :: bs) := by
  obtain ⟨hleg, hnr⟩ := hb
  cases rex with
  | none =>
    show takeRex md (b :: bs) = _
    rw [takeRex.eq_def]
    exact if_neg (by simp [hnr])
  | some r =>
    obtain ⟨hm, hr⟩ := hrex r rfl
    show takeRex md (r :: b :: bs) = _
    simp [takeRex, hm, hr, hleg, hnr]

/-- The decoder takes the prefixes that the encoder writes, and goes on with the opcode (30_encoding.md R181). -/
theorem decode_encodePrefixes {md : Mode} (osz : Bool) (seg : Option SegReg) {rex : Option Byte} (hrex : RexOk md rex)
    {b : Byte} (hb : OpcodeByte b) (bs : List Byte) :
    decode md (encodePrefixes osz seg rex ++ b :: bs) = decodeOpcode ⟨md, osz, seg, rex⟩ (b :: bs) := by
  have hstop : ∀ p, takePrefixes p (rex.toList ++ b :: bs) = .ok (p, rex.toList ++ b :: bs) := by
    intro p
    cases rex with
    | none => exact takePrefixes_stop p hb.1 bs
    | some r => exact takePrefixes_stop p (not_isLegacyPrefix_of_isRex (hrex r rfl).2) (b :: bs)
  have hprefix : takePrefixes ⟨false, none⟩ (encodePrefixes osz seg rex ++ b :: bs) =
      .ok (⟨osz, seg⟩, rex.toList ++ b :: bs) := by
    rw [encodePrefixes, List.append_assoc, List.append_assoc, takePrefixes_opsize, takePrefixes_segment rfl, hstop]
    cases seg <;> rfl
  simp only [decode, hprefix, andThen, takeRex_toList hrex hb]

theorem decode_opcode (md : Mode) {b : Byte} (hb : OpcodeByte b) (bs : List Byte) :
    decode md (b :: bs) = decodeOpcode ⟨md, false, none, none⟩ (b :: bs) :=
  decode_encodePrefixes false none rexOk_none hb bs

/-! ## REX -/

theorem isRex_rexByte {force w r x b : Bool} {y : Byte} (h : rexByte force w r x b = some y) : isRex y = true := by
  obtain ⟨-, ⟨⟩⟩ := Option.ite_none_right_eq_some.1 h
  clear h
  revert w r x b
  decide

theorem isSome_rexByte (force w r x b : Bool) : (rexByte force w r x b).isSome = (force || w || r || x || b) := by
  cases h : (force || w || r || x || b) <;> simp [rexByte, h]

theorem rexOk_rexByte {md : Mode} {force w r x b : Bool}
    (h : md = .prot32 → force = false ∧ w = false ∧ r = false ∧ x = false ∧ b = false) :
    RexOk md (rexByte force w r x b) := by
  intro y hy
  cases md with
  | long64 => exact ⟨rfl, isRex_rexByte hy⟩
  | prot32 =>
    obtain ⟨rfl, rfl, rfl, rfl, rfl⟩ := h rfl
    cases hy

/-- The bits of the REX byte are those that were asked for (30_encoding.md R167). -/
theorem rexBit_rexByte (md : Mode) (osz : Bool) (seg : Option SegReg) (force w r x b : Bool) :
    rexBit ⟨md, osz, seg, rexByte force w r x b⟩ 0 = b ∧ rexBit ⟨md, osz, seg, rexByte force w r x b⟩ 1 = x ∧
      rexBit ⟨md, osz, seg, rexByte force w r x b⟩ 2 = r ∧ rexBit ⟨md, osz, seg, rexByte force w r x b⟩ 3 = w := by
  simp only [rexBit]
  revert force w r x b
  decide

/-! ## Memory operands -/

theorem parseDisp_encode (d : Disp) (rest : List Byte) : parseDisp d.mod (d.encode ++ rest) = .ok (d, rest) := by
  cases d with
  | none => rfl
  | d8 v => rfl
  | d32 v =>
    show parseDisp 2 _ = _
    rw [parseDisp, if_neg (by decide), if_neg (by decide)]
    exact congrArg (andThen · _) (takeLe_leBytes (n := 4) v rest)

/-- The fields of a byte that is written in fields of 2, 3 and 3 bits. -/
theorem fields_append (a : BitVec 2) (b c : BitVec 3) :
    (a ++ b ++ c : BitVec 8).extractLsb' 6 2 = a ∧ (a ++ b ++ c : BitVec 8).extractLsb' 3 3 = b ∧
      (a ++ b ++ c : BitVec 8).extractLsb' 0 3 = c := by
  revert a b c
  decide

theorem Gpr.ofNum_extend (r : Gpr) : Gpr.ofNum (extend r.isExtended (r.num.setWidth 3)) = r := by
  rw [← Gpr.num_bit3, extend_bit3, Gpr.ofNum_num]

theorem sibIndex_sibByte {cx : DecodeCtx} {index : Option (Gpr × Scale)} {b : Base} {sg : Option SegReg} {d : Disp}
    (hx : rexBit cx 1 = (Mem.mk sg b index d).indexExtended) (hsp : ∀ sc, index ≠ some (.rsp, sc)) (base : BitVec 3) :
    sibIndex cx (sibByte index base) = index := by
  cases index with
  | none =>
    obtain ⟨-, h3, -⟩ := fields_append 0#2 4#3 base
    rw [sibIndex, hx, sibByte, h3]
    show (if extend false 4#3 = 4 then none else _) = none
    exact if_pos (by decide)
  | some p =>
    obtain ⟨r, sc⟩ := p
    obtain ⟨h6, h3, -⟩ := fields_append sc.num (r.num.setWidth 3) base
    have hne : extend r.isExtended (r.num.setWidth 3) ≠ 4 := by
      cases r <;> first | decide | exact absurd rfl (hsp sc)
    rw [sibIndex, hx, sibByte, h3, h6, Scale.ofNum_num]
    show (if extend r.isExtended (r.num.setWidth 3) = 4 then none else _) = _
    rw [if_neg hne]
    exact congrArg (fun q => some (q, sc)) r.ofNum_extend

/-- What a memory operand asks of the prefixes: its segment override and, for R8 to R15, the bits B and X of REX
(30_encoding.md R163, R167). -/
structure MemPrefixed (cx : DecodeCtx) (m : Mem) : Prop where
  seg : cx.seg = m.seg
  base : rexBit cx 0 = m.baseExtended
  index : rexBit cx 1 = m.indexExtended

theorem MemPrefixed.segOverride_eq {cx : DecodeCtx} {m : Mem} (h : MemPrefixed cx m) (hm : memOk cx.mode m = true) :
    segOverride cx = m.seg := by
  simp only [memOk, Bool.and_eq_true] at hm
  obtain ⟨⟨hseg, -⟩, -⟩ := hm
  rw [segOverride, h.seg, if_pos hseg]

theorem num_ne_five {md : Mode} {r : Gpr} {d : Disp} (h : baseOk md (.reg r) d = true) (hd : d.mod = 0) :
    r.num.setWidth 3 ≠ 5#3 := by
  cases d with
  | none => cases r <;> first | decide | cases h
  | d8 v => cases hd
  | d32 v => cases hd

theorem Disp.eq_d32_of_baseOk {md : Mode} {b : Base} {d : Disp} (hb : b = .absent ∨ b = .rip)
    (h : baseOk md b d = true) : ∃ v, d = .d32 v := by
  obtain rfl | rfl := hb <;> cases d <;> first | exact ⟨_, rfl⟩ | cases h

section
variable {cx : DecodeCtx}

/-- Without SIB: the base register in the `rm` field. -/
theorem parseMem_rm {rm : BitVec 3} {d : Disp} (h4 : rm ≠ 4) (h5 : d.mod = 0 → rm ≠ 5) (rest : List Byte) :
    parseMem cx d.mod rm (d.encode ++ rest) =
      .ok (⟨segOverride cx, .reg (Gpr.ofNum (extend (rexBit cx 0) rm)), none, d⟩, rest) := by
  rw [parseMem, if_neg h4, if_neg fun h => h5 h.1 h.2, parseDisp_encode]
  rfl

/-- With SIB: the base register in the `base` field. -/
theorem parseMem_sib {sib : Byte} {d : Disp} (h5 : d.mod = 0 → sib.extractLsb' 0 3 ≠ 5) (rest : List Byte) :
    parseMem cx d.mod 4 (sib :: d.encode ++ rest) =
      .ok (⟨segOverride cx, .reg (Gpr.ofNum (extend (rexBit cx 0) (sib.extractLsb' 0 3))), sibIndex cx sib, d⟩,
        rest) := by
  rw [parseMem, if_pos rfl]
  show (if d.mod = 0 ∧ sib.extractLsb' 0 3 = 5#3 then _ else andThen (parseDisp d.mod (d.encode ++ rest)) _) = _
  rw [if_neg fun h => h5 h.1 h.2, parseDisp_encode]
  rfl

/-- With SIB and no base. -/
theorem parseMem_sib_absent {sib : Byte} (h5 : sib.extractLsb' 0 3 = 5) (v : BitVec 32) (rest : List Byte) :
    parseMem cx 0 4 (sib :: (Disp.d32 v).encode ++ rest) =
      .ok (⟨segOverride cx, .absent, sibIndex cx sib, .d32 v⟩, rest) := by
  rw [parseMem, if_pos rfl]
  show (if 0 = 0 ∧ sib.extractLsb' 0 3 = 5#3 then andThen (takeLe 4 (leBytes 4 v.toNat ++ rest)) _ else _) = _
  rw [if_pos ⟨rfl, h5⟩]
  exact congrArg (andThen · _) (takeLe_leBytes (n := 4) v rest)

/-- A displacement alone: without base in PROT32, relative to RIP in LONG64. -/
theorem parseMem_disp32 (v : BitVec 32) (rest : List Byte) :
    parseMem cx 0 5 ((Disp.d32 v).encode ++ rest) =
      .ok (⟨segOverride cx, if cx.mode = .prot32 then .absent else .rip, none, .d32 v⟩, rest) := by
  rw [parseMem, if_neg (by decide), if_pos ⟨rfl, rfl⟩]
  refine (congrArg (andThen · _) (takeLe_leBytes (n := 4) v rest)).trans ?_
  cases cx.mode <;> simp [andThen]

/-- A memory operand is read back from its encoding (30_encoding.md R172 to R174). -/
theorem parseMem_encodeMem {m : Mem} (h : MemPrefixed cx m) (hm : memOk cx.mode m = true) (rest : List Byte) :
    parseMem cx (encodeMem cx.mode m).1 (encodeMem cx.mode m).2.1 ((encodeMem cx.mode m).2.2 ++ rest) =
      .ok (m, rest) := by
  have hseg := h.segOverride_eq hm
  obtain ⟨-, hbase, hindex⟩ := h
  simp only [memOk, Bool.and_eq_true] at hm
  obtain ⟨⟨-, hbok⟩, hiok⟩ := hm
  have hsp : ∀ sc, m.index ≠ some (.rsp, sc) := fun sc hc => by
    rw [hc] at hiok
    cases hb : m.base <;> rw [hb] at hiok <;> cases hiok
  have hsib := sibIndex_sibByte (cx := cx) (index := m.index) hindex hsp
  obtain ⟨sg, base, index, d⟩ := m
  dsimp only at hseg hbok hiok hsp hsib
  cases base with
  | rip =>
    obtain ⟨v, rfl⟩ := Disp.eq_d32_of_baseOk (.inr rfl) hbok
    have hmode : cx.mode ≠ .prot32 := fun hc => by rw [hc] at hbok; cases hbok
    cases index with
    | none => exact (parseMem_disp32 v rest).trans (by rw [hseg, if_neg hmode])
    | some p => cases hiok
  | absent =>
    obtain ⟨v, rfl⟩ := Disp.eq_d32_of_baseOk (.inl rfl) hbok
    simp only [encodeMem]
    split
    · rename_i hc
      rw [parseMem_disp32, hseg, if_pos hc.1, hc.2]
    · rw [parseMem_sib_absent, hsib, hseg]
      cases index with
      | none => exact (fields_append 0#2 4#3 5#3).2.2
      | some p => exact (fields_append _ _ 5#3).2.2
  | reg r =>
    have hreg : Gpr.ofNum (extend (rexBit cx 0) (r.num.setWidth 3)) = r := by
      rw [hbase]
      exact r.ofNum_extend
    simp only [encodeMem]
    split
    · rename_i hc
      rw [parseMem_rm hc.2 (num_ne_five hbok), hseg, hreg, hc.1]
    · have hfield : (sibByte index (r.num.setWidth 3)).extractLsb' 0 3 = r.num.setWidth 3 := by
        cases index with
        | none => exact (fields_append 0#2 4#3 _).2.2
        | some p => exact (fields_append _ _ _).2.2
      rw [parseMem_sib (by rw [hfield]; exact num_ne_five hbok), hfield, hsib, hseg, hreg]

/-! ## ModRM -/

/-- The segment override of an r/m operand. -/
def rmSeg : Rm (BitVec 4) → Option SegReg
  | .reg _ => none
  | .mem m => m.seg

/-- Bit X of REX for an r/m operand. -/
def rmX : Rm (BitVec 4) → Bool
  | .reg _ => false
  | .mem m => m.indexExtended

/-- Bit B of REX for an r/m operand. -/
def rmB : Rm (BitVec 4) → Bool
  | .reg n => n.getLsbD 3
  | .mem m => m.baseExtended

/-- ModRM and the bytes of a memory operand after it. -/
def modRmBytes (md : Mode) (reg : BitVec 3) : Rm (BitVec 4) → List Byte
  | .reg n => [(3#2 ++ reg ++ n.setWidth 3 : BitVec 8)]
  | .mem m => ((encodeMem md m).1 ++ reg ++ (encodeMem md m).2.1 : BitVec 8) :: (encodeMem md m).2.2

/-- The REX byte of an instruction with ModRM. -/
def rmRex (force w : Bool) (reg : BitVec 4) (rm : Rm (BitVec 4)) : Option Byte :=
  rexByte force w (reg.getLsbD 3) (rmX rm) (rmB rm)

/-- An instruction with ModRM is prefixes, opcode, ModRM with what follows it, and immediate. -/
theorem encodeRm_eq (md : Mode) (osz force w : Bool) (op : List Byte) (reg : BitVec 4) (rm : Rm (BitVec 4))
    (imm : List Byte) :
    encodeRm md osz force w op reg rm imm =
      encodePrefixes osz (rmSeg rm) (rmRex force w reg rm) ++ (op ++ (modRmBytes md (reg.setWidth 3) rm ++ imm)) := by
  cases rm <;> simp [encodeRm, modRmBytes, rmSeg, rmRex, rmX, rmB]

/-- The r/m operand can be encoded in the mode; a register always. -/
def RmEncodable (md : Mode) : Rm (BitVec 4) → Prop
  | .reg _ => True
  | .mem m => memOk md m = true

theorem encodeMem_mod_ne {md : Mode} {m : Mem} : (encodeMem md m).1 ≠ 3#2 := by
  have hzero : 0#2 ≠ 3#2 := by decide
  have hdisp : m.disp.mod ≠ 3#2 := by cases m.disp <;> simp [Disp.mod]
  unfold encodeMem
  split
  · exact hzero
  · split <;> exact hzero
  · split <;> exact hdisp

/-- ModRM and its operand are read back (30_encoding.md R170). -/
theorem parseModRm_modRmBytes {rm : Rm (BitVec 4)} (hseg : cx.seg = rmSeg rm) (hb : rexBit cx 0 = rmB rm)
    (hx : rexBit cx 1 = rmX rm) (hrm : RmEncodable cx.mode rm) (reg : BitVec 3) (rest : List Byte) :
    parseModRm cx (modRmBytes cx.mode reg rm ++ rest) = .ok ((reg, rm), rest) := by
  cases rm with
  | reg n =>
    obtain ⟨h6, h3, h0⟩ := fields_append 3#2 reg (n.setWidth 3)
    show (if _ = 3#2 then _ else _) = _
    rw [if_pos h6, h3, h0, hb]
    exact congrArg (fun k => Except.ok ((reg, Rm.reg k), rest)) (extend_bit3 n)
  | mem m =>
    obtain ⟨h6, h3, h0⟩ := fields_append (encodeMem cx.mode m).1 reg (encodeMem cx.mode m).2.1
    show (if _ = 3#2 then _ else _) = _
    rw [if_neg (by rw [h6]; exact encodeMem_mod_ne), h6, h3, h0]
    exact congrArg (andThen · _) (parseMem_encodeMem ⟨hseg, hb, hx⟩ hrm rest)

end

/-- The opcode byte that the decoder meets after the prefixes. -/
def OpcodeStart (op : List Byte) : Prop := ∃ b tl, op = b :: tl ∧ OpcodeByte b

/-- What the prefixes of an instruction with ModRM say. -/
abbrev rmCtx (md : Mode) (osz force w : Bool) (reg : BitVec 4) (rm : Rm (BitVec 4)) : DecodeCtx :=
  ⟨md, osz, rmSeg rm, rmRex force w reg rm⟩

/-- The decoder goes on with the opcode of an instruction with ModRM. -/
theorem decode_encodeRm {md : Mode} {osz force w : Bool} {op : List Byte} {reg : BitVec 4} {rm : Rm (BitVec 4)}
    (hop : OpcodeStart op) (hrex : RexOk md (rmRex force w reg rm)) (imm rest : List Byte) :
    decode md (encodeRm md osz force w op reg rm imm ++ rest) =
      decodeOpcode (rmCtx md osz force w reg rm) (op ++ (modRmBytes md (reg.setWidth 3) rm ++ (imm ++ rest))) := by
  obtain ⟨b, tl, rfl, hb⟩ := hop
  simp only [encodeRm_eq, List.append_assoc, List.cons_append]
  exact decode_encodePrefixes osz (rmSeg rm) hrex hb _

theorem parseModRm_rmCtx {md : Mode} {osz force w : Bool} {reg : BitVec 4} {rm : Rm (BitVec 4)}
    (hrm : RmEncodable md rm) (r : BitVec 3) (rest : List Byte) :
    parseModRm (rmCtx md osz force w reg rm) (modRmBytes md r rm ++ rest) = .ok ((r, rm), rest) := by
  obtain ⟨hb, hx, -, -⟩ := rexBit_rexByte md osz (rmSeg rm) force w (reg.getLsbD 3) (rmX rm) (rmB rm)
  exact parseModRm_modRmBytes (cx := rmCtx md osz force w reg rm) rfl hb hx hrm r rest

/-! ## Operands of the instructions of a mode -/

/-- PROT32 has no register that REX extends. -/
theorem memOk_prot32 {m : Mem} (h : memOk .prot32 m = true) : m.indexExtended = false ∧ m.baseExtended = false := by
  simp only [memOk, Bool.and_eq_true] at h
  obtain ⟨⟨-, hb⟩, hi⟩ := h
  obtain ⟨sg, base, index, d⟩ := m
  constructor
  · cases index with
    | none => rfl
    | some p =>
      obtain ⟨r, sc⟩ := p
      cases base <;> cases r <;> first | rfl | cases hi
  · cases base with
    | reg r => cases r <;> cases d <;> first | rfl | cases hb
    | absent => rfl
    | rip => rfl

theorem rm_prot32_of_rmOk {m : Rm Gpr} (h : rmOk .prot32 m = true) :
    rmX (m.numbered Gpr.num) = false ∧ rmB (m.numbered Gpr.num) = false := by
  cases m with
  | reg r => exact ⟨rfl, r.num_bit3.trans (isExtended_of_gprOk h)⟩
  | mem m => exact memOk_prot32 h

theorem Reg8.num_bit3 {r : Reg8} (h : r.num.getLsbD 3 = true) : r.needsRex = true := by
  cases r with
  | lo r => cases r <;> first | rfl | cases h
  | hi r => cases r <;> cases h

/-- A byte operand that needs no REX byte asks for no bit of one. -/
theorem rm8_bits {m : Rm Reg8} (h : rm8NeedsRex m = false) :
    rmX (m.numbered Reg8.num) = false ∧ rmB (m.numbered Reg8.num) = false := by
  cases m with
  | reg r =>
    refine ⟨rfl, Bool.eq_false_iff.2 fun hc => ?_⟩
    rw [rm8NeedsRex, Reg8.num_bit3 hc] at h
    cases h
  | mem m =>
    obtain ⟨hb, hx⟩ := Bool.or_eq_false_iff.1 h
    exact ⟨hx, hb⟩

theorem needsRex_prot32 {r : Reg8} (h : reg8Ok .prot32 r = true) : r.needsRex = false := by
  simpa [reg8Ok] using h

theorem rm8NeedsRex_prot32 {m : Rm Reg8} (h : rm8Ok .prot32 m = true) : rm8NeedsRex m = false := by
  cases m with
  | reg r => exact needsRex_prot32 h
  | mem m =>
    obtain ⟨hx, hb⟩ := memOk_prot32 h
    exact Bool.or_eq_false_iff.2 ⟨hb, hx⟩

theorem is64_prot32 {sz : OpSize} (h : sizeOk .prot32 sz = true) : sz.is64 = false := by
  cases sz <;> first | rfl | cases h

theorem rmEncodable_of_rmOk {md : Mode} {m : Rm Gpr} (h : rmOk md m = true) : RmEncodable md (m.numbered Gpr.num) := by
  cases m with
  | reg r => trivial
  | mem m => exact h

theorem rmEncodable_of_rm8Ok {md : Mode} {m : Rm Reg8} (h : rm8Ok md m = true) :
    RmEncodable md (m.numbered Reg8.num) := by
  cases m with
  | reg r => trivial
  | mem m => exact h

@[simp] theorem rmGpr_numbered (m : Rm Gpr) : rmGpr (m.numbered Gpr.num) = m := by
  cases m with
  | reg r => exact congrArg Rm.reg r.ofNum_num
  | mem m => rfl

theorem rmReg8_numbered {cx : DecodeCtx} {m : Rm Reg8} (hhigh : rm8IsHigh m = true → cx.rex.isSome = false)
    (hneeds : rm8NeedsRex m = true → cx.rex.isSome = true) : rmReg8 cx (m.numbered Reg8.num) = m := by
  cases m with
  | reg r => exact congrArg Rm.reg (Reg8.ofNum_num hhigh hneeds)
  | mem m => rfl

theorem opSize_rmCtx (md : Mode) (sz : OpSize) (force : Bool) (reg : BitVec 4) (rm : Rm (BitVec 4)) :
    opSize (rmCtx md sz.is16 force sz.is64 reg rm) = sz := by
  obtain ⟨-, -, -, hw⟩ := rexBit_rexByte md sz.is16 (rmSeg rm) force sz.is64 (reg.getLsbD 3) (rmX rm) (rmB rm)
  rw [opSize, show rexBit (rmCtx md sz.is16 force sz.is64 reg rm) 3 = sz.is64 from hw]
  cases sz <;> rfl

/-! ## The shapes of the encodings -/

/-- The opcode `op` selects the parser `p` for what follows it. -/
def Selects (op : List Byte) (p : DecodeCtx → List Byte → Parsed Instr) : Prop :=
  ∀ cx bs, decodeOpcode cx (op ++ bs) = p cx bs

section
variable {md : Mode} {op : List Byte} {rest : List Byte}

theorem Reg8.needsRex_of_isHigh {r : Reg8} (h : r.isHigh = true) : r.needsRex = false := by
  cases r with
  | lo r => cases h
  | hi r => rfl

theorem rm8NeedsRex_of_isHigh {m : Rm Reg8} (h : rm8IsHigh m = true) : rm8NeedsRex m = false := by
  cases m with
  | reg r => exact Reg8.needsRex_of_isHigh h
  | mem m => cases h

/-- A byte instruction has a REX byte exactly when one is forced, since whatever needs one forces it. -/
theorem isSome_rmRex8 {force : Bool} {reg : BitVec 4} {m : Rm Reg8} (hreg : reg.getLsbD 3 = true → force = true)
    (hm : rm8NeedsRex m = true → force = true) :
    (rmRex force false reg (m.numbered Reg8.num)).isSome = force := by
  rw [rmRex, isSome_rexByte]
  cases force with
  | true => rfl
  | false =>
    obtain ⟨hx, hb⟩ := rm8_bits (Bool.eq_false_iff.2 fun hc => Bool.false_ne_true (hm hc))
    rw [hx, hb, Bool.eq_false_iff.2 fun hc => Bool.false_ne_true (hreg hc)]
    rfl

theorem rexOk_rmRex {force w : Bool} {reg : BitVec 4} {rm : Rm (BitVec 4)}
    (h : md = .prot32 → force = false ∧ w = false ∧ reg.getLsbD 3 = false ∧ rmX rm = false ∧ rmB rm = false) :
    RexOk md (rmRex force w reg rm) :=
  rexOk_rexByte h

theorem rexBit_reg (osz force w : Bool) (reg : BitVec 4) (rm : Rm (BitVec 4)) :
    rexBit (rmCtx md osz force w reg rm) 2 = reg.getLsbD 3 :=
  (rexBit_rexByte md osz (rmSeg rm) force w (reg.getLsbD 3) (rmX rm) (rmB rm)).2.2.1

/-- A byte instruction with two operands is read back. -/
theorem decode_encodeRm8R8 {mk : Rm Reg8 → Reg8 → Instr} {r : Reg8} {m : Rm Reg8} (hop : OpcodeStart op)
    (hsel : Selects op fun cx => parseRm8R8 cx mk) (h : (rm8Ok md m && reg8Ok md r && pairOk r m) = true) :
    decode md (encodeRm8R8 md op r m ++ rest) = .ok (mk m r, rest) := by
  simp only [Bool.and_eq_true] at h
  obtain ⟨⟨hm, hr⟩, hpair⟩ := h
  have hrex : (rmRex (r.needsRex || rm8NeedsRex m) false r.num (m.numbered Reg8.num)).isSome =
      (r.needsRex || rm8NeedsRex m) :=
    isSome_rmRex8 (fun h => by rw [Reg8.num_bit3 h, Bool.true_or]) fun h => by rw [h, Bool.or_true]
  have hprot : md = .prot32 → r.needsRex = false ∧ rm8NeedsRex m = false := by
    rintro rfl
    exact ⟨needsRex_prot32 hr, rm8NeedsRex_prot32 hm⟩
  simp only [pairOk, Bool.and_eq_true, Bool.not_eq_true', Bool.and_eq_false_imp] at hpair
  obtain ⟨hpr, hpm⟩ := hpair
  rw [encodeRm8R8, decode_encodeRm hop, hsel]
  · have hreg : Reg8.ofNum (r.needsRex || rm8NeedsRex m) r.num = r :=
      Reg8.ofNum_num (fun h => by rw [Reg8.needsRex_of_isHigh h, hpr h]; rfl) fun h => by rw [h, Bool.true_or]
    have hrm : rmReg8 (rmCtx md false (r.needsRex || rm8NeedsRex m) false r.num (m.numbered Reg8.num))
        (m.numbered Reg8.num) = m :=
      rmReg8_numbered (fun h => by rw [hrex, hpm h, rm8NeedsRex_of_isHigh h]; rfl) fun h => by rw [hrex, h, Bool.or_true]
    simp only [parseRm8R8, parseModRm_rmCtx (rmEncodable_of_rm8Ok hm), andThen, hrm, hrex, rexBit_reg, extend_bit3, hreg]
    rfl
  · refine rexOk_rmRex fun hmd => ?_
    obtain ⟨hr', hm'⟩ := hprot hmd
    have hreg := Bool.eq_false_iff.2 fun hc => Bool.eq_false_iff.1 hr' (Reg8.num_bit3 hc)
    exact ⟨by rw [hr', hm']; rfl, rfl, hreg, rm8_bits hm'⟩

/-- A word, doubleword or quadword instruction with two operands is read back. -/
theorem decode_encodeRmR {mk : OpSize → Rm Gpr → Gpr → Instr} {sz : OpSize} {r : Gpr} {m : Rm Gpr}
    (hop : OpcodeStart op) (hsel : Selects op fun cx => parseRmR cx mk)
    (h : (sizeOk md sz && rmOk md m && gprOk md r) = true) :
    decode md (encodeRmR md sz op r m ++ rest) = .ok (mk sz m r, rest) := by
  simp only [Bool.and_eq_true] at h
  obtain ⟨⟨hsz, hm⟩, hr⟩ := h
  rw [encodeRmR, decode_encodeRm hop, hsel]
  · simp only [parseRmR, parseModRm_rmCtx (rmEncodable_of_rmOk hm), andThen, opSize_rmCtx, rmGpr_numbered, rexBit_reg,
      extend_bit3, Gpr.ofNum_num]
    rfl
  · refine rexOk_rmRex fun hmd => ?_
    subst hmd
    exact ⟨rfl, is64_prot32 hsz, r.num_bit3.trans (isExtended_of_gprOk hr), rm_prot32_of_rmOk hm⟩

/-- The same with the register as the destination. -/
theorem decode_encodeR8Rm8 {mk : Reg8 → Rm Reg8 → Instr} {r : Reg8} {m : Rm Reg8} (hop : OpcodeStart op)
    (hsel : Selects op fun cx => parseRm8R8 cx fun m r => mk r m)
    (h : (rm8Ok md m && reg8Ok md r && pairOk r m) = true) :
    decode md (encodeRm8R8 md op r m ++ rest) = .ok (mk r m, rest) :=
  decode_encodeRm8R8 (mk := fun m r => mk r m) hop hsel h

/-- The same with the register as the destination. -/
theorem decode_encodeRRm {mk : OpSize → Gpr → Rm Gpr → Instr} {sz : OpSize} {r : Gpr} {m : Rm Gpr}
    (hop : OpcodeStart op) (hsel : Selects op fun cx => parseRmR cx fun sz m r => mk sz r m)
    (h : (sizeOk md sz && rmOk md m && gprOk md r) = true) :
    decode md (encodeRmR md sz op r m ++ rest) = .ok (mk sz r m, rest) :=
  decode_encodeRmR (mk := fun sz m r => mk sz r m) hop hsel h

/-- The `reg` field of an opcode extension, which REX does not extend. -/
theorem ext_field (ext : BitVec 3) : (ext.setWidth 4).setWidth 3 = ext ∧ (ext.setWidth 4).getLsbD 3 = false := by
  revert ext
  decide

/-- A listed opcode extension passes the look at ModRM. -/
theorem checkExt_modRmBytes {listed : List Nat} {ext : BitVec 3} (h : listed.contains ext.toNat = true)
    (rm : Rm (BitVec 4)) (rest : List Byte) :
    checkExt listed (modRmBytes md ext rm ++ rest) = .ok ((), modRmBytes md ext rm ++ rest) := by
  cases rm with
  | reg n => exact if_pos (by rw [(fields_append 3#2 ext (n.setWidth 3)).2.1]; exact h)
  | mem m => exact if_pos (by rw [(fields_append (encodeMem md m).1 ext (encodeMem md m).2.1).2.1]; exact h)

/-- The parser `p` looks at ModRM for one of the listed extensions and goes on with `f`. -/
def IsGroup (p : DecodeCtx → List Byte → Parsed Instr) (listed : List Nat)
    (f : DecodeCtx → BitVec 3 × Rm (BitVec 4) → List Byte → Parsed Instr) : Prop :=
  ∀ cx bs, p cx bs = andThen (checkExt listed bs) fun _ bs => andThen (parseModRm cx bs) (f cx)

theorem isGroup_modRmBytes {p : DecodeCtx → List Byte → Parsed Instr} {listed : List Nat}
    {f : DecodeCtx → BitVec 3 × Rm (BitVec 4) → List Byte → Parsed Instr} (hp : IsGroup p listed f) {ext : BitVec 3}
    (hext : listed.contains ext.toNat = true) {osz force w : Bool} {reg : BitVec 4} {rm : Rm (BitVec 4)}
    (hrm : RmEncodable md rm) (bs : List Byte) :
    p (rmCtx md osz force w reg rm) (modRmBytes md ext rm ++ bs) = f (rmCtx md osz force w reg rm) (ext, rm) bs := by
  rw [hp, checkExt_modRmBytes hext]
  show andThen (parseModRm _ (modRmBytes md ext rm ++ bs)) _ = _
  rw [parseModRm_rmCtx hrm]
  rfl

/-- The prefixes of a byte instruction with an opcode extension name its operand. -/
theorem rmReg8_ext {m : Rm Reg8} (osz : Bool) (ext : BitVec 3) :
    rmReg8 (rmCtx md osz (rm8NeedsRex m) false (ext.setWidth 4) (m.numbered Reg8.num)) (m.numbered Reg8.num) = m := by
  have hrex : (rmRex (rm8NeedsRex m) false (ext.setWidth 4) (m.numbered Reg8.num)).isSome = rm8NeedsRex m :=
    isSome_rmRex8 (fun h => by rw [(ext_field ext).2] at h; cases h) id
  exact rmReg8_numbered (fun h => hrex.trans (rm8NeedsRex_of_isHigh h)) fun h => hrex.trans h

theorem rexOk_ext8 {m : Rm Reg8} (hm : rm8Ok md m = true) (ext : BitVec 3) :
    RexOk md (rmRex (rm8NeedsRex m) false (ext.setWidth 4) (m.numbered Reg8.num)) :=
  rexOk_rmRex fun hmd => by
    subst hmd
    have hneeds := rm8NeedsRex_prot32 hm
    exact ⟨hneeds, rfl, (ext_field ext).2, rm8_bits hneeds⟩

theorem rexOk_ext {sz : OpSize} {m : Rm Gpr} (h : (sizeOk md sz && rmOk md m) = true) (ext : BitVec 3) :
    RexOk md (rmRex false sz.is64 (ext.setWidth 4) (m.numbered Gpr.num)) :=
  rexOk_rmRex fun hmd => by
    subst hmd
    obtain ⟨hsz, hm⟩ := Bool.and_eq_true_iff.1 h
    exact ⟨rfl, is64_prot32 hsz, (ext_field ext).2, rm_prot32_of_rmOk hm⟩

/-- A byte instruction with an opcode extension is read back when `f` reads what follows its operand. -/
theorem decode_encodeExt8 {p : DecodeCtx → List Byte → Parsed Instr} {listed : List Nat}
    {f : DecodeCtx → BitVec 3 × Rm (BitVec 4) → List Byte → Parsed Instr} {ext : BitVec 3} {m : Rm Reg8}
    {imm : List Byte} {i : Instr} (hop : OpcodeStart op) (hsel : Selects op p) (hp : IsGroup p listed f)
    (hext : listed.contains ext.toNat = true) (hm : rm8Ok md m = true)
    (hf : ∀ cx rm, rmReg8 cx rm = m → f cx (ext, rm) (imm ++ rest) = .ok (i, rest)) :
    decode md (encodeExt8 md op ext m imm ++ rest) = .ok (i, rest) := by
  rw [encodeExt8, decode_encodeRm hop (rexOk_ext8 hm ext), hsel, (ext_field ext).1,
    isGroup_modRmBytes hp hext (rmEncodable_of_rm8Ok hm)]
  exact hf _ _ (rmReg8_ext false ext)

/-- A word, doubleword or quadword instruction with an opcode extension is read back when `f` reads what follows its
operand. -/
theorem decode_encodeExt {p : DecodeCtx → List Byte → Parsed Instr} {listed : List Nat}
    {f : DecodeCtx → BitVec 3 × Rm (BitVec 4) → List Byte → Parsed Instr} {ext : BitVec 3} {sz : OpSize} {m : Rm Gpr}
    {imm : List Byte} {i : Instr} (hop : OpcodeStart op) (hsel : Selects op p) (hp : IsGroup p listed f)
    (hext : listed.contains ext.toNat = true) (h : (sizeOk md sz && rmOk md m) = true)
    (hf : ∀ cx rm, rmGpr rm = m → opSize cx = sz → f cx (ext, rm) (imm ++ rest) = .ok (i, rest)) :
    decode md (encodeExt md sz op ext m imm ++ rest) = .ok (i, rest) := by
  rw [encodeExt, decode_encodeRm hop (rexOk_ext h ext), hsel, (ext_field ext).1,
    isGroup_modRmBytes hp hext (rmEncodable_of_rmOk (Bool.and_eq_true_iff.1 h).2)]
  exact hf _ _ (rmGpr_numbered m) (opSize_rmCtx ..)

/-- SETcc is read back. -/
theorem decode_encodeSetcc {c : Cond} {m : Rm Reg8} (hop : OpcodeStart op)
    (hsel : Selects op fun cx => parseSetcc cx c) (hm : rm8Ok md m = true) :
    decode md (encodeExt8 md op 0 m [] ++ rest) = .ok (.setcc c m, rest) := by
  rw [encodeExt8, decode_encodeRm hop (rexOk_ext8 hm 0), hsel]
  simp only [parseSetcc, parseModRm_rmCtx (rmEncodable_of_rm8Ok hm), andThen, rmReg8_ext]
  rfl

/-- MOV r/m, Sreg is read back. -/
theorem decode_encodeMovRmSreg {sz : OpSize} {m : Rm Gpr} {f : SegField} (h : (sizeOk md sz && rmOk md m) = true) :
    decode md (encodeExt md sz [0x8C] f.num m [] ++ rest) = .ok (.movRmSreg sz m f, rest) := by
  have hsel : Selects [0x8C] fun cx => parseRmSeg cx fun m f => .movRmSreg (opSize cx) m f := fun _ _ => rfl
  rw [encodeExt, decode_encodeRm ⟨_, _, rfl, by decide⟩ (rexOk_ext h _), hsel, (ext_field _).1]
  simp only [parseRmSeg, parseModRm_rmCtx (rmEncodable_of_rmOk (Bool.and_eq_true_iff.1 h).2), andThen, opSize_rmCtx,
    rmGpr_numbered, SegField.ofNum_num]
  rfl

/-- MOV Sreg, r/m16 is read back. -/
theorem decode_encodeMovSregRm {m : Rm Gpr} {f : SegField} (hm : rmOk md m = true) :
    decode md (encodeRm md false false false [0x8E] (f.num.setWidth 4) (m.numbered Gpr.num) [] ++ rest) =
      .ok (.movSregRm f m, rest) := by
  have hsel : Selects [0x8E] fun cx => parseRmSeg cx fun m f => .movSregRm f m := fun _ _ => rfl
  have hrex : RexOk md (rmRex false false (f.num.setWidth 4) (m.numbered Gpr.num)) := rexOk_rmRex fun hmd => by
    subst hmd
    exact ⟨rfl, rfl, (ext_field _).2, rm_prot32_of_rmOk hm⟩
  rw [decode_encodeRm ⟨_, _, rfl, by decide⟩ hrex, hsel, (ext_field _).1]
  simp only [parseRmSeg, parseModRm_rmCtx (rmEncodable_of_rmOk hm), andThen, rmGpr_numbered, SegField.ofNum_num]
  rfl

/-! ## Immediates and opcodes without ModRM -/

/-- What the prefixes of a sized instruction without ModRM say. -/
abbrev sizedCtx (md : Mode) (sz : OpSize) (seg : Option SegReg) (b : Bool) : DecodeCtx :=
  ⟨md, sz.is16, seg, rexByte false sz.is64 false false b⟩

theorem rexOk_sized {sz : OpSize} (h : sizeOk md sz = true) : RexOk md (rexByte false sz.is64 false false false) :=
  rexOk_rexByte fun hmd => ⟨rfl, is64_prot32 (hmd ▸ h), rfl, rfl, rfl⟩

theorem opSize_sizedCtx (md : Mode) (sz : OpSize) (seg : Option SegReg) (b : Bool) :
    opSize (sizedCtx md sz seg b) = sz := by
  obtain ⟨-, -, -, hw⟩ := rexBit_rexByte md sz.is16 seg false sz.is64 false false b
  rw [opSize, hw]
  cases sz <;> rfl

theorem takeImmZ_encode {cx : DecodeCtx} {imm : ImmZ} (h : opSize cx = imm.size) :
    takeImmZ cx (imm.encode ++ rest) = .ok (imm, rest) := by
  unfold takeImmZ
  rw [h]
  cases imm with
  | w16 v => exact congrArg (andThen · _) (takeLe_leBytes (n := 2) v rest)
  | w32 v => exact congrArg (andThen · _) (takeLe_leBytes (n := 4) v rest)
  | w64 v => exact congrArg (andThen · _) (takeLe_leBytes (n := 4) v rest)

theorem parseImmZ_encode {cx : DecodeCtx} {imm : ImmZ} {mk : ImmZ → Instr} (h : opSize cx = imm.size) :
    parseImmZ cx mk (imm.encode ++ rest) = .ok (mk imm, rest) := by
  rw [parseImmZ, takeImmZ_encode h]
  rfl

theorem parseImmV_encode {cx : DecodeCtx} {imm : ImmV} {mk : ImmV → Instr} (h : opSize cx = imm.size) :
    parseImmV cx mk (imm.encode ++ rest) = .ok (mk imm, rest) := by
  unfold parseImmV
  rw [h]
  cases imm with
  | w16 v => exact congrArg (andThen · _) (takeLe_leBytes (n := 2) v rest)
  | w32 v => exact congrArg (andThen · _) (takeLe_leBytes (n := 4) v rest)
  | w64 v => exact congrArg (andThen · _) (takeLe_leBytes (n := 8) v rest)

/-- An instruction with the accumulator and an immediate `iz` is read back. -/
theorem decode_encodeAccImm {b : Byte} {mk : ImmZ → Instr} {imm : ImmZ} (hb : OpcodeByte b)
    (hsel : Selects [b] fun cx => parseImmZ cx mk) (h : sizeOk md imm.size = true) :
    decode md
        (encodePrefixes imm.size.is16 none (rexByte false imm.size.is64 false false false) ++ b :: imm.encode ++ rest) =
      .ok (mk imm, rest) := by
  rw [List.append_assoc, List.cons_append, decode_encodePrefixes _ _ (rexOk_sized h) hb]
  exact (hsel _ _).trans (parseImmZ_encode (opSize_sizedCtx md imm.size none false))

theorem segOverride_of_segOk {md : Mode} {seg : Option SegReg} (h : segOk md seg = true) (osz : Bool)
    (rex : Option Byte) : segOverride ⟨md, osz, seg, rex⟩ = seg :=
  if_pos h

/-- A string instruction with an odd opcode is read back. -/
theorem decode_encodeString {b : Byte} {sz : OpSize} {seg : Option SegReg} {mk : OpSize → Option SegReg → Instr}
    (hb : OpcodeByte b) (hsel : Selects [b] fun cx bs => .ok (mk (opSize cx) (segOverride cx), bs))
    (hsz : sizeOk md sz = true) (hseg : segOk md seg = true) :
    decode md (encodeString sz seg b ++ rest) = .ok (mk sz seg, rest) := by
  rw [encodeString, List.append_assoc, List.singleton_append, decode_encodePrefixes _ _ (rexOk_sized hsz) hb]
  exact (hsel (sizedCtx md sz seg false) rest).trans (by dsimp only; rw [opSize_sizedCtx, segOverride_of_segOk hseg])

/-- A string instruction on bytes is read back. -/
theorem decode_encodeStringByte {b : Byte} {seg : Option SegReg} {mk : Option SegReg → Instr} (hb : OpcodeByte b)
    (hsel : Selects [b] fun cx bs => .ok (mk (segOverride cx), bs)) (hseg : segOk md seg = true) :
    decode md (encodePrefixes false seg none ++ [b] ++ rest) = .ok (mk seg, rest) := by
  rw [List.append_assoc, List.singleton_append, decode_encodePrefixes _ _ rexOk_none hb]
  exact (hsel _ rest).trans (by dsimp only; rw [segOverride_of_segOk hseg])

theorem stackSize_of_stackSizeOk {sz : OpSize} (h : stackSizeOk md sz = true) (rex : Option Byte) :
    stackSize ⟨md, sz.is16, none, rex⟩ = sz := by
  cases md <;> cases sz <;> first | rfl | cases h

/-- A push or pop of the flags is read back. -/
theorem decode_encodeStackFlags {b : Byte} {sz : OpSize} {mk : OpSize → Instr} (hb : OpcodeByte b)
    (hsel : Selects [b] fun cx bs => .ok (mk (stackSize cx), bs)) (h : stackSizeOk md sz = true) :
    decode md (encodePrefixes sz.is16 none none ++ [b] ++ rest) = .ok (mk sz, rest) := by
  rw [List.append_assoc, List.singleton_append, decode_encodePrefixes _ _ rexOk_none hb]
  exact (hsel _ rest).trans (by dsimp only; rw [stackSize_of_stackSizeOk h])

/-! ## Register numbers in the opcode -/

/-- The eight opcodes from `op` on select the parser `p` for the register number in their low bits. -/
def SelectsReg (op : Byte) (p : BitVec 3 → DecodeCtx → List Byte → Parsed Instr) : Prop :=
  ∀ k : BitVec 3, OpcodeByte (op + k.setWidth 8) ∧ Selects [op + k.setWidth 8] (p k)

theorem forall_bitVec3 {P : BitVec 3 → Prop} (h0 : P 0) (h1 : P 1) (h2 : P 2) (h3 : P 3) (h4 : P 4) (h5 : P 5)
    (h6 : P 6) (h7 : P 7) (k : BitVec 3) : P k := by
  have hk : k = 0 ∨ k = 1 ∨ k = 2 ∨ k = 3 ∨ k = 4 ∨ k = 5 ∨ k = 6 ∨ k = 7 := by
    revert k
    decide
  obtain rfl | rfl | rfl | rfl | rfl | rfl | rfl | rfl := hk <;> assumption

theorem selectsReg_push :
    SelectsReg 0x50 fun k cx bs => .ok (.push (stackSize cx) (Gpr.ofNum (extend (rexBit cx 0) k)), bs) := by
  refine forall_bitVec3 ?_ ?_ ?_ ?_ ?_ ?_ ?_ ?_ <;> exact ⟨by decide, fun _ _ => rfl⟩

theorem selectsReg_pop :
    SelectsReg 0x58 fun k cx bs => .ok (.pop (stackSize cx) (Gpr.ofNum (extend (rexBit cx 0) k)), bs) := by
  refine forall_bitVec3 ?_ ?_ ?_ ?_ ?_ ?_ ?_ ?_ <;> exact ⟨by decide, fun _ _ => rfl⟩

theorem selectsReg_movR8Imm8 :
    SelectsReg 0xB0 fun k cx => parseImm8 (.movR8Imm8 (Reg8.ofNum cx.rex.isSome (extend (rexBit cx 0) k))) := by
  refine forall_bitVec3 ?_ ?_ ?_ ?_ ?_ ?_ ?_ ?_ <;> exact ⟨by decide, fun _ _ => rfl⟩

theorem selectsReg_movRImm :
    SelectsReg 0xB8 fun k cx => parseImmV cx (.movRImm (Gpr.ofNum (extend (rexBit cx 0) k))) := by
  refine forall_bitVec3 ?_ ?_ ?_ ?_ ?_ ?_ ?_ ?_ <;> exact ⟨by decide, fun _ _ => rfl⟩

/-- What the prefixes of an instruction with a register number in its opcode say. -/
abbrev opcodeCtx (md : Mode) (osz force w : Bool) (n : BitVec 4) : DecodeCtx :=
  ⟨md, osz, none, rexByte force w false false (n.getLsbD 3)⟩

theorem rexBit_opcodeCtx (osz force w : Bool) (n : BitVec 4) :
    rexBit (opcodeCtx md osz force w n) 0 = n.getLsbD 3 ∧ rexBit (opcodeCtx md osz force w n) 3 = w := by
  obtain ⟨hb, -, -, hw⟩ := rexBit_rexByte md osz none force w false false (n.getLsbD 3)
  exact ⟨hb, hw⟩

theorem decode_encodeOpcodeReg {o : Byte} {p : BitVec 3 → DecodeCtx → List Byte → Parsed Instr} {osz force w : Bool}
    {n : BitVec 4} (hsel : SelectsReg o p) (hrex : md = .prot32 → force = false ∧ w = false ∧ n.getLsbD 3 = false)
    (imm : List Byte) :
    decode md (encodeOpcodeReg osz force w o n imm ++ rest) =
      p (n.setWidth 3) (opcodeCtx md osz force w n) (imm ++ rest) := by
  obtain ⟨hb, hs⟩ := hsel (n.setWidth 3)
  have hrex' : RexOk md (rexByte force w false false (n.getLsbD 3)) := rexOk_rexByte fun hmd => by
    obtain ⟨hf, hw, hn⟩ := hrex hmd
    exact ⟨hf, hw, rfl, rfl, hn⟩
  rw [encodeOpcodeReg, List.append_assoc, List.cons_append, decode_encodePrefixes _ _ hrex' hb]
  exact hs _ _

theorem gpr_bit3_prot32 {r : Gpr} (h : gprOk md r = true) (hmd : md = .prot32) : r.num.getLsbD 3 = false := by
  subst hmd
  exact r.num_bit3.trans (isExtended_of_gprOk h)

theorem decode_encodePush {sz : OpSize} {r : Gpr} (h : (stackSizeOk md sz && gprOk md r) = true) :
    decode md (encodeOpcodeReg sz.is16 false false 0x50 r.num [] ++ rest) = .ok (.push sz r, rest) := by
  obtain ⟨hsz, hr⟩ := Bool.and_eq_true_iff.1 h
  rw [decode_encodeOpcodeReg selectsReg_push fun hmd => ⟨rfl, rfl, gpr_bit3_prot32 hr hmd⟩, stackSize_of_stackSizeOk hsz,
    (rexBit_opcodeCtx ..).1, extend_bit3, Gpr.ofNum_num]
  rfl

theorem decode_encodePop {sz : OpSize} {r : Gpr} (h : (stackSizeOk md sz && gprOk md r) = true) :
    decode md (encodeOpcodeReg sz.is16 false false 0x58 r.num [] ++ rest) = .ok (.pop sz r, rest) := by
  obtain ⟨hsz, hr⟩ := Bool.and_eq_true_iff.1 h
  rw [decode_encodeOpcodeReg selectsReg_pop fun hmd => ⟨rfl, rfl, gpr_bit3_prot32 hr hmd⟩, stackSize_of_stackSizeOk hsz,
    (rexBit_opcodeCtx ..).1, extend_bit3, Gpr.ofNum_num]
  rfl

theorem decode_encodeMovR8Imm8 {r : Reg8} {imm : Byte} (h : reg8Ok md r = true) :
    decode md (encodeOpcodeReg false r.needsRex false 0xB0 r.num [imm] ++ rest) = .ok (.movR8Imm8 r imm, rest) := by
  have hrex : (rexByte r.needsRex false false false (r.num.getLsbD 3)).isSome = r.needsRex := by
    rw [isSome_rexByte]
    cases hb : r.num.getLsbD 3 with
    | true => rw [Reg8.num_bit3 hb]; rfl
    | false => simp
  rw [decode_encodeOpcodeReg selectsReg_movR8Imm8 fun hmd => ?_, (rexBit_opcodeCtx ..).1, extend_bit3, hrex,
    Reg8.ofNum_num Reg8.needsRex_of_isHigh id]
  · rfl
  · subst hmd
    have hneeds := needsRex_prot32 h
    exact ⟨hneeds, rfl, Bool.eq_false_iff.2 fun hc => Bool.eq_false_iff.1 hneeds (Reg8.num_bit3 hc)⟩

theorem decode_encodeMovRImm {r : Gpr} {imm : ImmV} (h : (sizeOk md imm.size && gprOk md r) = true) :
    decode md (encodeOpcodeReg imm.size.is16 false imm.size.is64 0xB8 r.num imm.encode ++ rest) =
      .ok (.movRImm r imm, rest) := by
  obtain ⟨hsz, hr⟩ := Bool.and_eq_true_iff.1 h
  rw [decode_encodeOpcodeReg selectsReg_movRImm fun hmd => ⟨rfl, is64_prot32 (hmd ▸ hsz), gpr_bit3_prot32 hr hmd⟩,
    (rexBit_opcodeCtx ..).1, extend_bit3, Gpr.ofNum_num]
  exact parseImmV_encode (opSize_sizedCtx md imm.size none (r.num.getLsbD 3))

/-! ## Opcodes without prefixes -/

/-- An instruction without prefixes is what the parser of its opcode reads. -/
theorem decode_selects {b : Byte} {tl : List Byte} {p : DecodeCtx → List Byte → Parsed Instr} (hb : OpcodeByte b)
    (hsel : Selects (b :: tl) p) (bs : List Byte) :
    decode md (b :: tl ++ bs) = p ⟨md, false, none, none⟩ bs :=
  (decode_opcode md hb _).trans (hsel _ _)

theorem decode_encodeJccRel8 (c : Cond) (rel : BitVec 8) :
    decode md ([0x70#8 + c.num.setWidth 8, rel] ++ rest) = .ok (.jccRel8 c rel, rest) := by
  have hb : OpcodeByte (0x70#8 + c.num.setWidth 8) := by cases c <;> decide
  have hsel : Selects [0x70#8 + c.num.setWidth 8] fun cx => parseRel8 cx (.jccRel8 c) := by
    cases c <;> exact fun _ _ => rfl
  exact decode_selects hb hsel (rel :: rest)

theorem decode_encodeJccRel32 (c : Cond) (rel : BitVec 32) :
    decode md (0x0F :: (0x80#8 + c.num.setWidth 8) :: leBytes 4 rel.toNat ++ rest) = .ok (.jccRel32 c rel, rest) := by
  have hsel : Selects [0x0F, 0x80#8 + c.num.setWidth 8] fun cx => parseRel32 cx (.jccRel32 c) := by
    cases c <;> exact fun _ _ => rfl
  refine (decode_selects (by decide) hsel (leBytes 4 rel.toNat ++ rest)).trans ?_
  show (if false = true then _ else andThen (takeLe 4 (leBytes 4 rel.toNat ++ rest)) _) = _
  rw [if_neg Bool.false_ne_true]
  exact congrArg (andThen · _) (takeLe_leBytes (n := 4) rel rest)

end

/-- The opcode of an instruction with ModRM is one byte that is none of the prefixes, or 0F and one byte. -/
theorem opcodeStart_one {b : Byte} (h : OpcodeByte b) : OpcodeStart [b] := ⟨b, [], rfl, h⟩

theorem opcodeStart_two (b : Byte) : OpcodeStart [0x0F, b] := ⟨0x0F, [b], rfl, by decide⟩

/-- Every well-formed instruction is read back from its encoding, whatever bytes follow (30_encoding.md R160 to
R181). -/
theorem decode_encode (md : Mode) (i : Instr) (rest : List Byte) (h : i.wellFormed md = true) :
    decode md (encode md i ++ rest) = .ok (i, rest) := by
  cases i
  case addRm8R8 | adcRm8R8 | sbbRm8R8 | subRm8R8 | movRm8R8 =>
    exact decode_encodeRm8R8 (opcodeStart_one (by decide)) (fun _ _ => rfl) h
  case addR8Rm8 | adcR8Rm8 | sbbR8Rm8 | subR8Rm8 | movR8Rm8 =>
    exact decode_encodeR8Rm8 (opcodeStart_one (by decide)) (fun _ _ => rfl) h
  case addRmR | adcRmR | sbbRmR | subRmR | movRmR =>
    exact decode_encodeRmR (opcodeStart_one (by decide)) (fun _ _ => rfl) h
  case addRRm | adcRRm | sbbRRm | subRRm | movRRm =>
    exact decode_encodeRRm (opcodeStart_one (by decide)) (fun _ _ => rfl) h
  case btRmR | btsRmR | btrRmR | btcRmR => exact decode_encodeRmR (opcodeStart_two _) (fun _ _ => rfl) h
  case cmovcc c _ _ _ =>
    exact decode_encodeRRm (opcodeStart_two _) (by cases c <;> exact fun _ _ => rfl) h
  case addAlImm8 | adcAlImm8 | sbbAlImm8 | subAlImm8 => exact decode_opcode md (by decide) _
  case addAccImm | adcAccImm | sbbAccImm | subAccImm => exact decode_encodeAccImm (by decide) (fun _ _ => rfl) h
  case addRm8Imm8 | adcRm8Imm8 | sbbRm8Imm8 | subRm8Imm8 =>
    exact decode_encodeExt8 (p := parseGroup80) (opcodeStart_one (by decide)) (fun _ _ => rfl) (fun _ _ => rfl)
      (by decide) h (by rintro _ _ rfl; rfl)
  case addRmImm | adcRmImm | sbbRmImm | subRmImm =>
    exact decode_encodeExt (p := parseGroup81) (opcodeStart_one (by decide)) (fun _ _ => rfl) (fun _ _ => rfl)
      (by decide) h (by rintro _ _ rfl hsz; exact parseImmZ_encode hsz)
  case addRmSimm8 | adcRmSimm8 | sbbRmSimm8 | subRmSimm8 =>
    exact decode_encodeExt (p := parseGroup83) (opcodeStart_one (by decide)) (fun _ _ => rfl) (fun _ _ => rfl)
      (by decide) h (by rintro _ _ rfl rfl; rfl)
  case push => exact decode_encodePush h
  case pop => exact decode_encodePop h
  case jccRel8 => exact decode_encodeJccRel8 ..
  case jccRel32 => exact decode_encodeJccRel32 ..
  case movRmSreg => exact decode_encodeMovRmSreg h
  case movSregRm => exact decode_encodeMovSregRm h
  case pushf | popf => exact decode_encodeStackFlags (by decide) (fun _ _ => rfl) h
  case movsb | cmpsb | lodsb => exact decode_encodeStringByte (by decide) (fun _ _ => rfl) h
  case movs | cmps | lods =>
    exact decode_encodeString (by decide) (fun _ _ => rfl) (Bool.and_eq_true_iff.1 h).1 (Bool.and_eq_true_iff.1 h).2
  case stos =>
    exact decode_encodeString (mk := fun sz _ => .stos sz) (by decide) (fun _ _ => rfl) h (by cases md <;> rfl)
  case scas =>
    exact decode_encodeString (mk := fun sz _ => .scas sz) (by decide) (fun _ _ => rfl) h (by cases md <;> rfl)
  case movR8Imm8 => exact decode_encodeMovR8Imm8 h
  case movRImm => exact decode_encodeMovRImm h
  case movRm8Imm8 =>
    exact decode_encodeExt8 (p := parseGroupC6) (opcodeStart_one (by decide)) (fun _ _ => rfl) (fun _ _ => rfl)
      (by decide) h (by rintro _ _ rfl; rfl)
  case movRmImm =>
    exact decode_encodeExt (p := parseGroupC7) (opcodeStart_one (by decide)) (fun _ _ => rfl) (fun _ _ => rfl)
      (by decide) h (by rintro _ _ rfl hsz; exact parseImmZ_encode hsz)
  case mulRm8 | divRm8 | idivRm8 =>
    exact decode_encodeExt8 (p := parseGroupF6) (opcodeStart_one (by decide)) (fun _ _ => rfl) (fun _ _ => rfl)
      (by decide) h (by rintro _ _ rfl; rfl)
  case mulRm | divRm | idivRm =>
    exact decode_encodeExt (p := parseGroupF7) (opcodeStart_one (by decide)) (fun _ _ => rfl) (fun _ _ => rfl)
      (by decide) h (by rintro _ _ rfl rfl; rfl)
  case setcc c _ => exact decode_encodeSetcc (opcodeStart_two _) (by cases c <;> exact fun _ _ => rfl) h
  case btRmImm8 | btsRmImm8 | btrRmImm8 | btcRmImm8 =>
    exact decode_encodeExt (p := parseGroupBA) (opcodeStart_two _) (fun _ _ => rfl) (fun _ _ => rfl) (by decide) h
      (by rintro _ _ rfl rfl; rfl)
  case sahf | lahf | stosb | scasb | iret | loopne | loope | loop | cmc | clc | stc | cld | std | cpuid =>
    exact decode_opcode md (by decide) _

/-! ## Lengths -/

theorem length_encodePrefixes_le (osz : Bool) (seg : Option SegReg) (rex : Option Byte) :
    (encodePrefixes osz seg rex).length ≤ 3 := by
  cases osz <;> cases seg <;> cases rex <;> simp [encodePrefixes]

theorem length_disp_encode_le (d : Disp) : d.encode.length ≤ 4 := by
  cases d <;> simp [Disp.encode]

theorem length_encodeMem_le (md : Mode) (m : Mem) : (encodeMem md m).2.2.length ≤ 5 := by
  have hd := length_disp_encode_le m.disp
  unfold encodeMem
  split
  · exact hd.trans (by decide)
  · split
    · exact hd.trans (by decide)
    · exact Nat.succ_le_succ hd
  · split
    · exact hd.trans (by decide)
    · exact Nat.succ_le_succ hd

theorem length_modRmBytes_le (md : Mode) (reg : BitVec 3) (rm : Rm (BitVec 4)) : (modRmBytes md reg rm).length ≤ 6 := by
  cases rm with
  | reg n => exact Nat.le_add_left 1 5
  | mem m => exact Nat.succ_le_succ (length_encodeMem_le md m)

/-- Prefixes, opcode, ModRM, SIB and displacement, immediate (30_encoding.md R160). -/
theorem length_encodeRm_le (md : Mode) (osz force w : Bool) (op : List Byte) (reg : BitVec 4) (rm : Rm (BitVec 4))
    (imm : List Byte) : (encodeRm md osz force w op reg rm imm).length ≤ 9 + op.length + imm.length := by
  have hp := length_encodePrefixes_le osz (rmSeg rm) (rmRex force w reg rm)
  have hm := length_modRmBytes_le md (reg.setWidth 3) rm
  rw [encodeRm_eq, List.length_append, List.length_append, List.length_append]
  omega

theorem length_immZ_encode_le (imm : ImmZ) : imm.encode.length ≤ 4 := by
  cases imm <;> simp [ImmZ.encode]

theorem length_immV_encode_le (imm : ImmV) : imm.encode.length ≤ 8 := by
  cases imm <;> simp [ImmV.encode]

theorem length_encodeOpcodeReg_le (osz force w : Bool) (op : Byte) (n : BitVec 4) (imm : List Byte) :
    (encodeOpcodeReg osz force w op n imm).length ≤ 4 + imm.length := by
  have hp := length_encodePrefixes_le osz none (rexByte force w false false (n.getLsbD 3))
  rw [encodeOpcodeReg, List.length_append, List.length_cons]
  omega

/-- Opcode and immediate of an instruction with ModRM leave six bytes. -/
theorem length_encodeRm_le_fifteen {md : Mode} {osz force w : Bool} {op : List Byte} {reg : BitVec 4}
    {rm : Rm (BitVec 4)} {imm : List Byte} (h : op.length + imm.length ≤ 6) :
    (encodeRm md osz force w op reg rm imm).length ≤ 15 := by
  have := length_encodeRm_le md osz force w op reg rm imm
  omega

theorem length_encodeOpcodeReg_le_fifteen {osz force w : Bool} {op : Byte} {n : BitVec 4} {imm : List Byte}
    (h : imm.length ≤ 8) : (encodeOpcodeReg osz force w op n imm).length ≤ 15 := by
  have := length_encodeOpcodeReg_le osz force w op n imm
  omega

/-- Prefixes, opcode and immediate of an instruction without ModRM. -/
theorem length_encodePrefixes_append_le {osz : Bool} {seg : Option SegReg} {rex : Option Byte} {bs : List Byte}
    (h : bs.length ≤ 5) : (encodePrefixes osz seg rex ++ bs).length ≤ 15 := by
  have := length_encodePrefixes_le osz seg rex
  rw [List.length_append]
  omega

/-- No encoding is longer than 15 bytes (30_encoding.md R160). -/
theorem length_encode_le (md : Mode) (i : Instr) : (encode md i).length ≤ 15 := by
  cases i
  case addRmImm imm | adcRmImm imm | sbbRmImm imm | subRmImm imm | movRmImm imm =>
    exact length_encodeRm_le_fifteen (Nat.add_le_add (b := 2) (Nat.le_succ 1) (length_immZ_encode_le imm))
  case addAccImm imm | adcAccImm imm | sbbAccImm imm | subAccImm imm =>
    exact length_encodePrefixes_append_le (Nat.succ_le_succ (length_immZ_encode_le imm))
  case movRImm imm => exact length_encodeOpcodeReg_le_fifteen (length_immV_encode_le imm)
  case push | pop | movR8Imm8 => exact length_encodeOpcodeReg_le_fifteen (by simp)
  case pushf | popf | movsb | cmpsb | lodsb | movs | cmps | stos | lods | scas =>
    exact length_encodePrefixes_append_le (by simp)
  case addAlImm8 | adcAlImm8 | sbbAlImm8 | subAlImm8 | jccRel8 | jccRel32 | sahf | lahf | stosb | scasb | iret | loopne |
      loope | loop | cmc | clc | stc | cld | std | cpuid =>
    simp [encode]
  all_goals exact length_encodeRm_le_fifteen (by simp)

end Sys2Proof
end

section
/-!
SUPPORT. The step of a machine at whose fetch address an encoding stands (spec/10_state.md R39, R41, spec/20_memory.md R126,
spec/30_encoding.md R181), and the byte registers that a REX byte selects (spec/30_encoding.md R171).
-/
namespace Sys2Proof.Machine

/-- The fetch reads on over bytes that are admitted and stand in memory. -/
theorem fetchBytes_append {s : State} (bs : List Byte) {a n : Nat} (hlen : bs.length ≤ n)
    (h : ∀ k (hk : k < bs.length), admits s .fetch (a + k) = true ∧ Memory.read s.mem (a + k) = bs[k]) :
    fetchBytes s a n = bs ++ fetchBytes s (a + bs.length) (n - bs.length) := by
  induction bs generalizing a n with
  | nil => rfl
  | cons b bs ih =>
    obtain ⟨n, rfl⟩ : ∃ m, n = m + 1 := ⟨n - 1, by simp at hlen; omega⟩
    obtain ⟨hadmits, hread⟩ := h 0 (Nat.succ_pos _)
    have htail := ih (a := a + 1) (Nat.le_of_succ_le_succ hlen) fun k hk => by
      rw [Nat.add_assoc, Nat.add_comm 1 k]
      exact h (k + 1) (Nat.succ_lt_succ hk)
    rw [Nat.add_assoc, Nat.add_comm 1] at htail
    rw [Nat.add_zero] at hadmits hread
    rw [fetchBytes, if_pos hadmits, hread, htail, List.length_cons, Nat.add_sub_add_right]
    rfl

/-- Settles O8: the encoding fits the fetch window, and the decoder reads it back from there. -/
theorem stepRunsEncodedInstruction : Obligations.StepRunsEncodedInstruction := by
  intro s i hpc hwf h
  have hwindow := fetchBytes_append (encode s.launch.mode i) (length_encode_le s.launch.mode i) h
  have hdec := fetchDecode_of_decode ((congrArg (decode _) hwindow).trans (decode_encode _ i _ hwf))
  rw [fetchWindow, fetchAddr, maxLength, hwindow, List.length_append, Nat.add_sub_cancel_right] at hdec
  exact step_of_fetchDecode hpc hdec

end Sys2Proof.Machine

namespace Sys2Proof

open Sys2Proof.Machine

theorem opcodeByte_movHighByte (n : Fin 4) : OpcodeByte (BitVec.ofNat 8 (0xB4 + n.val)) := by
  revert n
  decide

/-- Opcodes B4 to B7 name byte registers 4 to 7, among which REX selects, when REX.B does not extend the number. -/
theorem decodeOpcode_movHighByte {cx : DecodeCtx} (hb : rexBit cx 0 = false) (n : Fin 4) (imm : Byte)
    (rest : List Byte) :
    decodeOpcode cx (BitVec.ofNat 8 (0xB4 + n.val) :: imm :: rest) =
      .ok (.movR8Imm8 (Reg8.ofNum cx.rex.isSome (BitVec.ofNat 4 (4 + n.val))) imm, rest) := by
  have hopcode : BitVec.ofNat 8 (0xB4 + n.val) = 0xB0 + (BitVec.ofNat 3 (4 + n.val)).setWidth 8 := by
    revert n
    decide
  have hnum : extend false (BitVec.ofNat 3 (4 + n.val)) = BitVec.ofNat 4 (4 + n.val) := by
    revert n
    decide
  rw [hopcode, ← hnum, ← hb]
  exact (selectsReg_movR8Imm8 _).2 cx (imm :: rest)

/-- Settles O4: the same opcode and number with `rex` absent and present. -/
theorem rexChangesByteRegisters : Obligations.RexChangesByteRegisters := by
  intro n imm rest rex hrex hbit
  have hhi : Reg8.ofNum false (BitVec.ofNat 4 (4 + n.val)) = .hi ([HiByte.ah, .ch, .dh, .bh].get n) := by
    revert n
    decide
  have hlo : Reg8.ofNum true (BitVec.ofNat 4 (4 + n.val)) = .lo ([Gpr.rsp, .rbp, .rsi, .rdi].get n) := by
    revert n
    decide
  have hnoRex (md : Mode) : decode md (BitVec.ofNat 8 (0xB4 + n.val) :: imm :: rest) =
      .ok (.movR8Imm8 (.hi ([HiByte.ah, .ch, .dh, .bh].get n)) imm, rest) := by
    rw [decode_opcode md (opcodeByte_movHighByte n), decodeOpcode_movHighByte rfl, ← hhi]
    rfl
  have hrexOk : RexOk .long64 (some rex) := by
    rintro _ ⟨⟩
    exact ⟨rfl, hrex⟩
  refine ⟨hnoRex _, hnoRex _, (decode_encodePrefixes false none hrexOk (opcodeByte_movHighByte n) _).trans ?_⟩
  rw [decodeOpcode_movHighByte (cx := ⟨.long64, false, none, some rex⟩) hbit, ← hlo]
  rfl

end Sys2Proof
end

section
/-!
SUPPORT. Memory as the accesses see it: a canonical memory is fixed by what it reads, what decides an access, the bytes of a
store, and where a step may store (spec/20_memory.md R120, R122, R126, R127, R132, R135).
-/
namespace Sys2Proof.Machine

/-! ## The canonical form -/

theorem Memory.read_cons_self (k : Nat) (b : Byte) (m : Memory) : Memory.read ((k, b) :: m) k = b :=
  if_pos rfl

theorem Memory.read_cons_of_ne {k x : Nat} (h : x ≠ k) (b : Byte) (m : Memory) :
    Memory.read ((k, b) :: m) x = Memory.read m x :=
  if_neg h

/-- The first cell of a canonical memory is listed for a reason: its byte does not read as an unlisted one. -/
theorem Memory.read_head_ne {c : Host.Cell} {m : Memory} (h : Memory.wf (c :: m) = true) :
    Memory.read (c :: m) c.1 ≠ Config.unlistedByte := by
  rw [Memory.read_cons_self]
  exact Memory.head_ne h

/-- In a canonical memory a byte below the first cell reads as an unlisted one. -/
theorem Memory.read_below_head {c : Host.Cell} {m : Memory} (h : Memory.wf (c :: m) = true) {x : Nat} (hx : x < c.1) :
    Memory.read (c :: m) x = Config.unlistedByte :=
  Memory.read_of_lt fun d hd => by
    obtain rfl | hd := List.mem_cons.1 hd
    · exact hx
    · exact hx.trans (Memory.head_lt h d hd)

/-- Of two canonical memories that read the same, neither starts below the other. -/
theorem Memory.head_le_of_read_eq {c d : Host.Cell} {m m' : Memory} (h : Memory.wf (c :: m) = true)
    (h' : Memory.wf (d :: m') = true) (hread : ∀ x, Memory.read (c :: m) x = Memory.read (d :: m') x) : c.1 ≤ d.1 := by
  by_contra hlt
  exact Memory.read_head_ne h' ((hread d.1).symm.trans (Memory.read_below_head h (Nat.lt_of_not_le hlt)))

/-- Canonical memories that read the same start with the same cell. -/
theorem Memory.head_eq_of_read_eq {c d : Host.Cell} {m m' : Memory} (h : Memory.wf (c :: m) = true)
    (h' : Memory.wf (d :: m') = true) (hread : ∀ x, Memory.read (c :: m) x = Memory.read (d :: m') x) : c = d := by
  have haddr : c.1 = d.1 :=
    Nat.le_antisymm (Memory.head_le_of_read_eq h h' hread) (Memory.head_le_of_read_eq h' h fun x => (hread x).symm)
  refine Prod.ext haddr ?_
  calc c.2
    _ = Memory.read (c :: m) c.1 := (Memory.read_cons_self ..).symm
    _ = Memory.read (d :: m') d.1 := haddr ▸ hread c.1
    _ = d.2 := Memory.read_cons_self ..

/-- After the same first cell, canonical memories that read the same go on reading the same. -/
theorem Memory.read_tail_eq {c : Host.Cell} {m m' : Memory} (h : Memory.wf (c :: m) = true)
    (h' : Memory.wf (c :: m') = true) (hread : ∀ x, Memory.read (c :: m) x = Memory.read (c :: m') x) (x : Nat) :
    Memory.read m x = Memory.read m' x := by
  by_cases hx : x = c.1
  · subst hx
    rw [Memory.read_of_lt (Memory.head_lt h), Memory.read_of_lt (Memory.head_lt h')]
  · rw [← Memory.read_cons_of_ne hx c.2 m, ← Memory.read_cons_of_ne hx c.2 m']
    exact hread x

/-- Settles O23, by induction on the first memory: both start with the same cell, or neither has one. -/
theorem canonicalMemoryIsUnique : Obligations.CanonicalMemoryIsUnique := by
  intro m m' h h' hread
  induction m generalizing m' with
  | nil =>
    cases m' with
    | nil => rfl
    | cons d m' => exact absurd (hread d.1).symm (Memory.read_head_ne h')
  | cons c m ih =>
    cases m' with
    | nil => exact absurd (hread c.1) (Memory.read_head_ne h)
    | cons d m' =>
      obtain rfl := Memory.head_eq_of_read_eq h h' hread
      rw [ih m' (Memory.wf_tail h) (Memory.wf_tail h') (Memory.read_tail_eq h h' hread)]

/-! ## What decides an access -/

theorem not_admitted_iff {s : State} {k : Access} {a : Quad} {n : Nat} :
    ¬ Admitted s k a n ↔ ∃ j < n, admits s k (a.toNat + j) = false := by
  simp [Admitted]

theorem not_offCode_iff {s : State} {a : Quad} {n : Nat} :
    ¬ OffCode s a n ↔ ∃ j < n, admits s .fetch (a.toNat + j) = true := by
  simp [OffCode]

/-- An access fails the alignment check (20_memory.md R122). -/
theorem not_alignedFor_iff {s : State} {a : Quad} {n : Nat} :
    ¬ AlignedFor s a n ↔ AlignmentChecked s ∧ (n = 2 ∨ n = 4 ∨ n = 8) ∧ a.toNat % n ≠ 0 := by
  simp only [AlignedFor, Classical.not_imp, ne_eq]

/-- Settles O24: what each outcome of a read and of a write says of the access. -/
theorem accessOutcomes : Obligations.AccessOutcomes := by
  intro s a n v
  simp only [← not_admitted_iff, ← not_offCode_iff, ← not_alignedFor_iff]
  constructor
  · obtain ⟨⟨hadm, hal⟩, h⟩ | ⟨hadm, h⟩ | ⟨hadm, hal, h⟩ := memRead_cases s a n
    · rw [h, if_neg (not_not_intro hadm), if_neg (not_not_intro hal)]
    · rw [h, if_pos hadm]
    · rw [h, if_neg (not_not_intro hadm), if_pos hal]
  · obtain ⟨⟨hadm, hoff, hal⟩, h⟩ | ⟨hoff, h⟩ | ⟨hoff, hadm, h⟩ | ⟨hoff, hadm, hal, h⟩ := memWrite_cases s a n v
    · rw [h, if_neg (not_not_intro hoff), if_neg (not_not_intro hadm), if_neg (not_not_intro hal)]
    · rw [h, if_pos hoff]
    · rw [h, if_neg (not_not_intro hoff), if_pos hadm]
    · rw [h, if_neg (not_not_intro hoff), if_neg (not_not_intro hadm), if_pos hal]

/-! ## Stores -/

/-- An admitted access does not wrap (20_memory.md R126). -/
theorem toNat_add_of_admitted {s : State} {k : Access} {a : Quad} {n j : Nat} (h : Admitted s k a n) (hj : j < n) :
    (a + BitVec.ofNat 64 j).toNat = a.toNat + j := by
  have hlt := lt_spaceSize_of_admits (h j hj)
  have hspace : spaceSize s.launch.mode ≤ 2 ^ 64 := by cases s.launch.mode <;> decide
  rw [BitVec.toNat_add, BitVec.toNat_ofNat, Nat.add_mod_mod, Nat.mod_eq_of_lt (by omega)]

/-- A single byte is read whatever the alignment checking (20_memory.md R122). -/
theorem memRead_byte {s : State} {a : Quad} (h : Admitted s .read a 1) :
    memRead s a 1 = .ok (Memory.read s.mem a.toNat) := by
  rw [memRead_of_readable ⟨h, fun _ hn => absurd hn (by decide)⟩]
  congr 1
  simp [memValue, Memory.readBytes, ofLeBytes]

/-- Settles O22: what `storeBytes` leaves, read back at once and byte by byte. -/
theorem memoryIsLittleEndian : Obligations.MemoryIsLittleEndian := by
  intro s t a n v hwf hwrite
  obtain ⟨⟨hadm, -, hal⟩, rfl⟩ := memWrite_ok hwrite
  have hstored := stored_storeBytes hwf a n v
  refine ⟨hstored, wf_storeBytes hwf a n v, fun hread => ?_, fun k hk hread => ?_⟩
  · rw [memRead_of_readable (s := storeBytes s a n v) ⟨hread, hal⟩, memValue_storeBytes hwf]
  · rw [memRead_byte (s := storeBytes s a n v) hread, toNat_add_of_admitted hadm hk]
    exact congrArg _ (hstored.1 k hk)

/-- A byte that an instruction changes lies in the store that completed (20_memory.md R126, R135). -/
theorem MemoryChange.admits_of_ne {s t : State} (h : MemoryChange s t) (hwf : Memory.wf s.mem = true) {x : Nat}
    (hx : Memory.read t.mem x ≠ Memory.read s.mem x) : admits s .write x = true ∧ admits s .fetch x = false := by
  obtain h | ⟨a, n, v, ⟨hadm, hoff, -⟩, h⟩ := h
  · rw [h] at hx
    exact absurd rfl hx
  · rw [h] at hx
    have hin : a.toNat ≤ x ∧ x < a.toNat + n := by
      by_contra hout
      exact hx ((stored_storeBytes hwf a n v).2 x (by omega))
    obtain ⟨j, rfl⟩ := Nat.exists_eq_add_of_le hin.1
    exact ⟨hadm j (by omega), hoff j (by omega)⟩

theorem exec_memoryChange {i : Instr} {s t : State} (h : exec i s = .next t) : MemoryChange s t := by
  obtain ⟨u, hu, rfl | rfl⟩ := exec_effect h
  · exact hu.memory
  · exact hu.memory

/-- Settles O14: a step leads to its own state or to what an instruction leaves, which changes memory by one store. -/
theorem storesStayInWritableMemory : Obligations.StoresStayInWritableMemory := by
  intro s t hwf h x hx
  obtain ⟨-, rfl⟩ | ⟨i, len, -, -, he⟩ := leads_cases h
  · exact absurd rfl hx
  · exact (exec_memoryChange he).admits_of_ne hwf hx

end Sys2Proof.Machine
end

section
/-!
SUPPORT. Addresses: effective addresses as sums of integers reduced to the address width, the segment of an operand and
linear addresses (spec/20_memory.md R108 to R118).
-/
namespace Sys2Proof.Machine

/-- An address is reduced modulo 2^32 or 2^64 (00_scope.md R9). -/
theorem toNat_truncAddr (md : Mode) (a : Quad) : (truncAddr md a).toNat = a.toNat % 2 ^ md.addrBits := by
  cases md with
  | prot32 =>
    rw [truncAddr, BitVec.toNat_setWidth, BitVec.toNat_setWidth]
    exact Nat.mod_eq_of_lt (by omega)
  | long64 => exact (Nat.mod_eq_of_lt a.isLt).symm

/-- The integer whose residue an address is, reduced to the address width. -/
theorem toNat_truncAddr_ofInt (md : Mode) (k : Int) :
    ((truncAddr md (BitVec.ofInt 64 k)).toNat : Int) = k % 2 ^ md.addrBits := by
  have hdvd : (2 : Int) ^ md.addrBits ∣ 2 ^ 64 := pow_dvd_pow 2 (by cases md <;> decide)
  have hresidue : ((BitVec.ofInt 64 k).toNat : Int) = k % 2 ^ 64 := by
    rw [BitVec.toNat_ofInt]
    exact Int.toNat_of_nonneg (Int.emod_nonneg _ (by decide))
  rw [toNat_truncAddr, Int.natCast_emod, hresidue, Nat.cast_pow, Nat.cast_ofNat, Int.emod_emod_of_dvd _ hdvd]

/-- Reduction before a subtraction changes nothing after it. -/
theorem truncAddr_truncAddr_sub (md : Mode) (a b : Quad) : truncAddr md (truncAddr md a - b) = truncAddr md (a - b) := by
  cases md with
  | prot32 =>
    simp only [truncAddr]
    bv_omega
  | long64 => rfl

/-- A register value at the address size (20_memory.md R114). -/
def addrRegInt (s : State) (r : Gpr) : Int := ((s.gpr.get r).toNat % 2 ^ s.launch.mode.addrBits : Nat)

theorem readAddrReg_eq_ofInt (s : State) (r : Gpr) : readAddrReg r s = BitVec.ofInt 64 (addrRegInt s r) := by
  rw [addrRegInt, ← toNat_truncAddr, BitVec.ofInt_natCast, BitVec.ofNat_toNat, BitVec.setWidth_eq]
  rfl

theorem scaleFactor_eq_ofInt (sc : Scale) : scaleFactor sc = BitVec.ofInt 64 (2 ^ sc.num.toNat) := by
  cases sc <;> rfl

/-- The base component as an integer (20_memory.md R112, R116). -/
def baseInt (s : State) : Base → Int
  | .absent => 0
  | .reg r => addrRegInt s r
  | .rip => s.pcNext.toNat

/-- The scaled index component as an integer (20_memory.md R112). -/
def indexInt (s : State) : Option (Gpr × Scale) → Int
  | none => 0
  | some (r, sc) => addrRegInt s r * 2 ^ sc.num.toNat

/-- The displacement as an integer (20_memory.md R112, R115). -/
def dispInt : Disp → Int
  | .none => 0
  | .d8 v => v.toInt
  | .d32 v => v.toInt

theorem baseValue_eq_ofInt (s : State) (b : Base) : baseValue s b = BitVec.ofInt 64 (baseInt s b) := by
  cases b with
  | absent => rfl
  | reg r => exact readAddrReg_eq_ofInt s r
  | rip => rw [baseValue, baseInt, BitVec.ofInt_natCast, BitVec.ofNat_toNat, BitVec.setWidth_eq]

theorem indexValue_eq_ofInt (s : State) (x : Option (Gpr × Scale)) : indexValue s x = BitVec.ofInt 64 (indexInt s x) := by
  match x with
  | none => rfl
  | some (r, sc) => rw [indexValue, indexInt, readAddrReg_eq_ofInt, scaleFactor_eq_ofInt, BitVec.ofInt_mul]

theorem dispValue_eq_ofInt (d : Disp) : dispValue d = BitVec.ofInt 64 (dispInt d) := by
  cases d <;> rfl

/-- The effective address is the sum of its components, reduced to the address width (20_memory.md R112). -/
theorem toNat_effectiveAddr (s : State) (m : Mem) :
    ((effectiveAddr s m).toNat : Int) =
      (baseInt s m.base + indexInt s m.index + dispInt m.disp) % 2 ^ s.launch.mode.addrBits := by
  rw [effectiveAddr, baseValue_eq_ofInt, indexValue_eq_ofInt, dispValue_eq_ofInt, ← BitVec.ofInt_add,
    ← BitVec.ofInt_add, toNat_truncAddr_ofInt]

/-- Settles O25: the sum of the components, for each combination of them. -/
theorem effectiveAddressSum : Obligations.EffectiveAddressSum := by
  intro s seg b x sc d e
  refine ⟨?_, ?_, ?_, ?_, ?_, ?_, ?_, ?_, ?_⟩
  all_goals simp [toNat_effectiveAddr, baseInt, indexInt, dispInt, addrRegInt]

/-- Settles O26, by the default segment of each base. -/
theorem operandSegments : Obligations.OperandSegments := by
  intro m
  refine ⟨fun r hseg => ?_, fun hseg hbase => ?_, fun hseg hsp hbp => ?_⟩
  · rw [operandSegment, hseg, Option.getD_some]
  · rw [operandSegment, hseg, Option.getD_none]
    obtain h | h := hbase <;> rw [h] <;> rfl
  · rw [operandSegment, hseg, Option.getD_none]
    unfold defaultSegment
    split
    · exact absurd ‹_› hsp
    · exact absurd ‹_› hbp
    all_goals rfl

theorem baseOf_prot32 {s : State} (h : s.launch.mode = .prot32) (r : SegReg) : baseOf s r = s.segBase.get r := by
  rw [baseOf, h]

/-- In LONG64 only FS and GS have a base (20_memory.md R110). -/
theorem baseOf_long64 {s : State} (h : s.launch.mode = .long64) (r : SegReg) :
    baseOf s r = if isFsGs r then s.segBase.get r else 0 := by
  rw [baseOf, h]

theorem isFsGs_iff (r : SegReg) : isFsGs r = true ↔ r = .fs ∨ r = .gs := by
  cases r <;> decide

theorem toNat_linear (s : State) (r : SegReg) (off : Quad) :
    (linear s r off).toNat = ((baseOf s r).toNat + off.toNat) % 2 ^ s.launch.mode.addrBits := by
  rw [linear, toNat_truncAddr, BitVec.toNat_add]
  exact Nat.mod_mod_of_dvd _ (pow_dvd_pow 2 (by cases s.launch.mode <;> decide))

/-- Settles O27: the base of the segment in each mode, and the sum reduced to the address width. -/
theorem linearAddresses : Obligations.LinearAddresses := by
  intro s r off
  refine ⟨fun hm hfs hgs => ?_, fun hm hr => ?_, fun hm => ?_⟩
  · rw [linear, hm, baseOf_long64 hm, if_neg fun h => ((isFsGs_iff r).1 h).elim hfs hgs]
    exact BitVec.zero_add off
  · rw [toNat_linear, baseOf_long64 hm, if_pos ((isFsGs_iff r).2 hr), hm]
    rfl
  · rw [toNat_linear, baseOf_prot32 hm, hm]
    rfl

end Sys2Proof.Machine
end

section
/-!
SUPPORT. Faults: which faults an operation can report, `#AC` among them only under alignment checking, and the operations
that a misaligned access stops (spec/20_memory.md R122, spec/60_exceptions.md R382, R386).
-/
namespace Sys2Proof.Machine

/-! ## Faults of the shared operations -/

/-- The faults of an operation in the state `s`: `#AC` when alignment is checked, `#DE`, `#UD`, and what a descriptor lookup
reports (60_exceptions.md R382). -/
inductive OperationFault (s : State) : Fault → Prop where
  | alignment (h : AlignmentChecked s) : OperationFault s .alignmentCheck
  | divide : OperationFault s .divideError
  | undefined : OperationFault s .invalidOpcode
  | segment (e : SegFault) : OperationFault s e.toFault

theorem OperationFault.alignmentChecked {s : State} (h : OperationFault s .alignmentCheck) : AlignmentChecked s := by
  generalize hf : Fault.alignmentCheck = f at h
  cases h with
  | alignment h => exact h
  | divide | undefined => cases hf
  | segment e => cases e <;> cases hf

/-- A fault that the result reports is one of an operation in the state `s`. -/
def FaultsOfOperation (s : State) {α : Type} (r : Res α) : Prop := ∀ f, r = .error (.fault f) → OperationFault s f

section
variable {s : State}

theorem faultsOfOperation_ok {α : Type} {a : α} : FaultsOfOperation s (.ok a : Res α) := fun _ h => by cases h

theorem faultsOfOperation_refuse {α : Type} {q : Refusal} : FaultsOfOperation s (refuse q : Res α) :=
  fun _ h => by cases h

theorem faultsOfOperation_raise {α : Type} {f : Fault} (hf : OperationFault s f) :
    FaultsOfOperation s (raise f : Res α) := fun _ h => by
  cases h
  exact hf

theorem faultsOfOperation_bind {α β : Type} {x : Res α} {k : α → Res β} (hx : FaultsOfOperation s x)
    (hk : ∀ a, FaultsOfOperation s (k a)) : FaultsOfOperation s (x >>= k) := fun f h => by
  obtain h | ⟨a, -, h⟩ := bind_eq_error_iff.1 h
  · exact hx f h
  · exact hk a f h

theorem faultsOfOperation_ite {α : Type} {p : Prop} [Decidable p] {x y : Res α} (hx : FaultsOfOperation s x)
    (hy : FaultsOfOperation s y) : FaultsOfOperation s (if p then x else y) := by
  split
  · exact hx
  · exact hy

/-- A read faults only where the alignment check fails (20_memory.md R122). -/
theorem faultsOfOperation_memRead {a : Quad} {n : Nat} : FaultsOfOperation s (memRead s a n) := fun f h => by
  obtain ⟨-, e⟩ | ⟨-, e⟩ | ⟨-, hal, e⟩ := memRead_cases s a n <;> rw [e] at h <;> cases h
  exact .alignment (not_alignedFor_iff.1 hal).1

/-- A write faults only where the alignment check fails (20_memory.md R122). -/
theorem faultsOfOperation_memWrite {a : Quad} {n : Nat} {v : BitVec (8 * n)} :
    FaultsOfOperation s (memWrite s a n v) := fun f h => by
  obtain ⟨-, e⟩ | ⟨-, e⟩ | ⟨-, -, e⟩ | ⟨-, -, hal, e⟩ := memWrite_cases s a n v <;> rw [e] at h <;> cases h
  exact .alignment (not_alignedFor_iff.1 hal).1

theorem faultsOfOperation_readRm {w : Width} {rm : Rm Reg8} : FaultsOfOperation s (readRm w rm s) := by
  cases rm with
  | reg r => exact faultsOfOperation_ok
  | mem m => exact faultsOfOperation_memRead

theorem faultsOfOperation_writeRm {w : Width} {rm : Rm Reg8} {v : BitVec w.bits} :
    FaultsOfOperation s (writeRm w rm v s) := by
  cases rm with
  | reg r => exact faultsOfOperation_ok
  | mem m => exact faultsOfOperation_memWrite

theorem faultsOfOperation_pop {w : Width} : FaultsOfOperation s (pop w s) :=
  faultsOfOperation_bind faultsOfOperation_memRead fun _ => faultsOfOperation_ok

theorem faultsOfOperation_bitOp {act : BitAction} {w : Width} {base : Rm Reg8} {off : Nat} :
    FaultsOfOperation s (bitOp act w base off s) :=
  faultsOfOperation_bind faultsOfOperation_readRm fun _ =>
    faultsOfOperation_ite (faultsOfOperation_bind faultsOfOperation_ok fun _ => faultsOfOperation_ok)
      (faultsOfOperation_bind faultsOfOperation_writeRm fun _ => faultsOfOperation_ok)

theorem faultsOfOperation_bitRegOp {act : BitAction} {w : Width} {base : Rm Gpr} {off : Gpr} :
    FaultsOfOperation s (bitRegOp act w base off s) := by
  cases base with
  | reg r => exact faultsOfOperation_bitOp
  | mem m => exact faultsOfOperation_refuse

theorem faultsOfOperation_movFromSeg {w : Width} {dst : Rm Gpr} {src : SegField} :
    FaultsOfOperation s (movFromSeg w dst src s) := by
  cases src with
  | sreg r =>
    cases dst with
    | reg d => exact faultsOfOperation_ok
    | mem m => exact faultsOfOperation_memWrite
  | reserved6 | reserved7 => exact faultsOfOperation_raise .undefined

theorem faultsOfOperation_loadFromRm {r : SegReg} {src : Rm Gpr} : FaultsOfOperation s (loadFromRm r src s) := by
  refine faultsOfOperation_ite faultsOfOperation_refuse (faultsOfOperation_bind faultsOfOperation_readRm fun sel => ?_)
  split
  · exact faultsOfOperation_ok
  · exact faultsOfOperation_raise (.segment _)
  · exact faultsOfOperation_refuse

theorem faultsOfOperation_movToSeg {dst : SegField} {src : Rm Gpr} : FaultsOfOperation s (movToSeg dst src s) := by
  cases dst with
  | sreg r =>
    cases r with
    | cs => exact faultsOfOperation_raise .undefined
    | es | ss | ds | fs | gs => exact faultsOfOperation_loadFromRm
  | reserved6 | reserved7 => exact faultsOfOperation_raise .undefined

theorem Performs.faultsOfOperation {r : Res State} (h : Performs s r) : FaultsOfOperation s r := by
  cases h with
  | aluRm =>
    exact faultsOfOperation_bind faultsOfOperation_readRm fun _ =>
      faultsOfOperation_bind faultsOfOperation_writeRm fun _ => faultsOfOperation_ok
  | aluReg | mul | movToReg => exact faultsOfOperation_bind faultsOfOperation_readRm fun _ => faultsOfOperation_ok
  | div | idiv =>
    exact faultsOfOperation_bind faultsOfOperation_readRm fun _ =>
      faultsOfOperation_ite (faultsOfOperation_raise .divide)
        (faultsOfOperation_ite (faultsOfOperation_raise .divide) faultsOfOperation_ok)
  | bit => exact faultsOfOperation_bitOp
  | bitReg => exact faultsOfOperation_bitRegOp
  | writeReg | branch | loop | setFlag => exact faultsOfOperation_ok
  | writeRm => exact faultsOfOperation_writeRm
  | movFromSeg => exact faultsOfOperation_movFromSeg
  | movToSeg => exact faultsOfOperation_movToSeg
  | cmov =>
    exact faultsOfOperation_bind faultsOfOperation_readRm fun _ =>
      faultsOfOperation_ite faultsOfOperation_ok (faultsOfOperation_ite faultsOfOperation_ok faultsOfOperation_ok)
  | movs =>
    exact faultsOfOperation_bind faultsOfOperation_memRead fun _ =>
      faultsOfOperation_bind faultsOfOperation_memWrite fun _ => faultsOfOperation_ok
  | cmps =>
    exact faultsOfOperation_bind faultsOfOperation_memRead fun _ =>
      faultsOfOperation_bind faultsOfOperation_memRead fun _ => faultsOfOperation_ok
  | scas | lods => exact faultsOfOperation_bind faultsOfOperation_memRead fun _ => faultsOfOperation_ok
  | stos | push => exact faultsOfOperation_bind faultsOfOperation_memWrite fun _ => faultsOfOperation_ok
  | pop | popf => exact faultsOfOperation_bind faultsOfOperation_pop fun _ => faultsOfOperation_ok
  | lahf | sahf => exact faultsOfOperation_ite (faultsOfOperation_raise .undefined) faultsOfOperation_ok
  | refuse => exact faultsOfOperation_refuse

end

/-! ## Faults of instructions and steps -/

/-- A fault of an instruction is one of an operation. -/
theorem exec_operationFault {i : Instr} {s : State} {f : Fault} (h : exec i s = .fault f) : OperationFault s f := by
  obtain ⟨r, hr, he | he⟩ := performs_exec i s
  · exact hr.faultsOfOperation f (finish_eq_fault_iff.1 (he.symm.trans h))
  · exact hr.faultsOfOperation f (toOutcome_eq_fault_iff.1 (he.symm.trans h))

/-- The fetch reports an instruction that is too long, and no other fault (30_encoding.md R160). -/
theorem fetchDecode_fault {s : State} {f : Fault} (h : fetchDecode s = .error (.fault f)) :
    f = .generalProtection 0 := by
  unfold fetchDecode at h
  split at h
  · cases h
  · cases h
  · cases h
  · split at h <;> cases h
    rfl

/-- A fault of a step is one of the fetch, one of the decoded instruction, or the single-step trap after it
(60_exceptions.md R388, R408). -/
theorem step_fault_cases {s : State} {f : Fault} (h : step s = .fault f) :
    f = .generalProtection 0 ∨ (∃ i len, exec i (beginInstr s len) = .fault f) ∨ ∃ t, f = .debug t := by
  unfold step at h
  split at h
  · cases h
  · split at h
    · cases h
      exact .inl (fetchDecode_fault ‹_›)
    · cases h
    · rename_i i len _
      unfold singleStep at h
      split at h
      · split at h <;> cases h
        exact .inr (.inr ⟨_, rfl⟩)
      · exact .inr (.inl ⟨i, len, ‹_ = _›.trans h⟩)
      · cases h

/-- Settles O19: no operation raises `#AC` of itself, and a read or write does only where alignment is checked. -/
theorem alignmentFaultOnlyWhenEnabled : Obligations.AlignmentFaultOnlyWhenEnabled := by
  rintro i s (h | h)
  · exact (exec_operationFault h).alignmentChecked
  · obtain hf | ⟨j, len, he⟩ | ⟨t, hf⟩ := step_fault_cases h
    · cases hf
    · exact (exec_operationFault he).alignmentChecked
    · cases hf

/-! ## Misaligned accesses -/

theorem memRead_of_misaligned {s : State} {a : Quad} {n : Nat} (hadm : Admitted s .read a n) (hal : ¬ AlignedFor s a n) :
    memRead s a n = .error (.fault .alignmentCheck) := by
  obtain ⟨⟨-, h⟩, -⟩ | ⟨h, -⟩ | ⟨-, -, e⟩ := memRead_cases s a n
  · exact absurd h hal
  · exact absurd hadm h
  · exact e

theorem memWrite_of_misaligned {s : State} {a : Quad} {n : Nat} (hoff : OffCode s a n) (hadm : Admitted s .write a n)
    (hal : ¬ AlignedFor s a n) (v : BitVec (8 * n)) : memWrite s a n v = .error (.fault .alignmentCheck) := by
  obtain ⟨⟨-, -, h⟩, -⟩ | ⟨h, -⟩ | ⟨-, h, -⟩ | ⟨-, -, -, e⟩ := memWrite_cases s a n v
  · exact absurd h hal
  · exact absurd hoff h
  · exact absurd hadm h
  · exact e

/-- An instruction whose first access fails stops as the access does. -/
theorem finish_bind_fault {α : Type} {x : Res α} {f : Fault} (h : x = .error (.fault f)) (k : α → Res State) :
    finish (x >>= k) = .fault f :=
  finish_eq_fault_iff.2 (bind_eq_error_iff.2 (.inl h))

/-- An arithmetic form runs `aluRm`, with a source that is not in memory, or `aluReg` (41_arithmetic.md R250). -/
theorem exec_of_aluForm {i : Instr} {f : AluForm} (h : aluForm i = some f) (s : State) :
    ((∀ m, f.src ≠ .rm (.mem m)) ∧ exec i s = finish (aluRm f.op f.w f.dst (f.src.value s) s)) ∨
      ∃ d src, f.dst = .reg d ∧ f.src = .rm src ∧ exec i s = finish (aluReg f.op f.w d src s) := by
  cases i
  case addRm8R8 | addRmR | adcRm8R8 | adcRmR | sbbRm8R8 | sbbRmR | subRm8R8 | subRmR
      | addAlImm8 | addAccImm | adcAlImm8 | adcAccImm | sbbAlImm8 | sbbAccImm | subAlImm8 | subAccImm
      | addRm8Imm8 | addRmImm | addRmSimm8 | adcRm8Imm8 | adcRmImm | adcRmSimm8
      | sbbRm8Imm8 | sbbRmImm | sbbRmSimm8 | subRm8Imm8 | subRmImm | subRmSimm8 =>
    cases h
    exact .inl ⟨by simp, rfl⟩
  case addR8Rm8 | addRRm | adcR8Rm8 | adcRRm | sbbR8Rm8 | sbbRRm | subR8Rm8 | subRRm =>
    cases h
    exact .inr ⟨_, _, rfl, rfl, rfl⟩
  all_goals cases h

/-- Settles O32: the memory operand is what the form reads first. -/
theorem arithmeticAlignmentTrap : Obligations.ArithmeticAlignmentTrap := by
  intro i f s m hform hmem hadm hal
  have hread : readRm f.w (.mem m) s = .error (.fault .alignmentCheck) := memRead_of_misaligned hadm hal
  obtain ⟨hsrc, he⟩ | ⟨d, x, hdst, hsrc, he⟩ := exec_of_aluForm hform s
  · rw [he, hmem.resolve_right (hsrc m)]
    exact finish_bind_fault hread _
  · obtain rfl : x = .mem m := by simpa [hdst, hsrc] using hmem
    exact he.trans (finish_bind_fault hread _)

/-- A push stores in the next stack slot (40_flag_control.md R220). -/
theorem pushAddr_eq_stackSlot (s : State) (n : Nat) : pushAddr s n = stackSlot s n := by
  rw [pushAddr, stackSlot, readAddrReg, truncAddr_truncAddr_sub]

/-- Settles O56: the slot is the first access of a push and of a pop. -/
theorem stackAlignmentTraps : Obligations.StackAlignmentTraps := by
  intro sz r s
  refine ⟨fun hoff hadm hal => ?_, fun hadm hal => ?_⟩
  · rw [← pushAddr_eq_stackSlot] at hoff hadm hal
    have hpush (v : BitVec sz.width.bits) : finish (push sz.width v s) = .fault .alignmentCheck :=
      finish_bind_fault (memWrite_of_misaligned hoff hadm hal v) _
    exact ⟨hpush _, hpush _⟩
  · have hpop : pop sz.width s = .error (.fault .alignmentCheck) :=
      bind_eq_error_iff.2 (.inl (memRead_of_misaligned hadm hal))
    exact ⟨finish_bind_fault hpop _, finish_bind_fault hpop _⟩

end Sys2Proof.Machine
end

section
/-!
SUPPORT. The ends of a run: END, and a first byte that cannot be fetched (spec/70_reset_and_hazards.md R432,
spec/20_memory.md R126).
-/
namespace Sys2Proof.Machine

theorem step_of_completed {s : State} (h : s.pc = s.launch.endAddr) : step s = .next s := by
  rw [step, completed, h, beq_self_eq_true, if_pos rfl]

theorem fetchWindow_eq_nil {s : State} (h : admits s .fetch (fetchAddr s).toNat = false) : fetchWindow s = [] := by
  rw [fetchWindow, maxLength, fetchBytes, h]
  rfl

/-- Every instruction has a first byte (30_encoding.md R160). -/
theorem decode_nil (md : Mode) : decode md [] = .error .truncated := rfl

/-- A first byte that is not admitted for fetch refuses the step (20_memory.md R126). -/
theorem fetchDecode_of_not_admitted {s : State} (h : admits s .fetch (fetchAddr s).toNat = false) :
    fetchDecode s = refuse .outsideLaunchMemory := by
  rw [fetchDecode, fetchWindow_eq_nil h, decode_nil]
  rfl

/-- Settles O9: the two ways in which a step executes nothing. -/
theorem runEndsAndFetchRefusal : Obligations.RunEndsAndFetchRefusal := by
  refine fun s => ⟨step_of_completed, fun hpc hfetch => ?_⟩
  simp [step, completed_eq_false hpc, fetchDecode_of_not_admitted hfetch, refuse]

end Sys2Proof.Machine
end

section
/-!
SUPPORT. The round trip of encoder and decoder, and words written out from the encoding tables
(spec/30_encoding.md R160 to R181).
-/
namespace Sys2Proof

/-- An encoding is not empty, since it is read back and an empty list is not (30_encoding.md R160). -/
theorem one_le_length_encode {md : Mode} {i : Instr} (h : i.wellFormed md = true) : 1 ≤ (encode md i).length := by
  have hdec := decode_encode md i [] h
  refine List.length_pos_iff.2 fun hnil => ?_
  rw [hnil, List.append_nil, Machine.decode_nil] at hdec
  cases hdec

/-- Settles O1: every shape of encoding is read back, and none is longer than its fields together. -/
theorem decodeEncodeRoundTrip : Obligations.DecodeEncodeRoundTrip := fun md i rest h =>
  ⟨decode_encode md i rest h, one_le_length_encode h, length_encode_le md i⟩

/-- Settles O3, by running the decoder on the words. -/
theorem sampleWordsDecode : Obligations.SampleWordsDecode :=
  ⟨rfl, rfl, rfl, rfl, rfl, rfl, rfl, rfl, rfl, rfl⟩

end Sys2Proof
end

section
/-!
SUPPORT. The legacy prefixes, one after another, and the REX byte after them: what the decoder takes, refuses and goes on
with (spec/30_encoding.md R163, R164, R167, R181).
-/
namespace Sys2Proof

open Sys2Proof.Machine

/-! ## The first of the legacy prefixes -/

theorem takePrefixes_cons_opsize (p : Prefixes) (bs : List Byte) :
    takePrefixes p (0x66 :: bs) =
      if p.opsize then .error .prefixRefused else takePrefixes { p with opsize := true } bs := by
  rw [takePrefixes, if_pos rfl]

theorem ne_opsize_of_segmentPrefix {b : Byte} {r : SegReg} (h : segmentPrefix b = some r) : b ≠ 0x66 := by
  rintro rfl
  cases h

theorem takePrefixes_cons_segment {b : Byte} {r : SegReg} (h : segmentPrefix b = some r) (p : Prefixes)
    (bs : List Byte) :
    takePrefixes p (b :: bs) =
      if p.seg.isSome then .error .prefixRefused else takePrefixes { p with seg := some r } bs := by
  rw [takePrefixes, if_neg (ne_opsize_of_segmentPrefix h), h]

theorem takePrefixes_cons_refused {b : Byte} (h : isRefusedPrefix b = true) (p : Prefixes) (bs : List Byte) :
    takePrefixes p (b :: bs) = .error .prefixRefused := by
  have hb : b ≠ 0x66 ∧ segmentPrefix b = none := by
    revert b
    decide
  rw [takePrefixes, if_neg hb.1, hb.2]
  exact if_pos h

/-- A byte is 66, a segment override, one of the refused prefixes, or none of them (30_encoding.md R163, R164). -/
theorem legacyPrefix_cases (b : Byte) :
    b = 0x66 ∨ (∃ r, segmentPrefix b = some r) ∨ isRefusedPrefix b = true ∨ isLegacyPrefix b = false := by
  by_cases h66 : b = 0x66
  · exact .inl h66
  · refine .inr ?_
    cases hseg : segmentPrefix b with
    | some r => exact .inl ⟨r, rfl⟩
    | none =>
      refine .inr ?_
      cases href : isRefusedPrefix b with
      | true => exact .inl rfl
      | false => exact .inr (by rw [isLegacyPrefix, beq_false_of_ne h66, hseg, href]; rfl)

/-! ## Runs of legacy prefixes -/

/-- From what `p` says, the decoder takes the prefixes `pre` and then knows `q`, whatever follows. -/
def Takes (p : Prefixes) (pre : List Byte) (q : Prefixes) : Prop :=
  ∀ bs, takePrefixes p (pre ++ bs) = takePrefixes q bs

theorem takes_nil (p : Prefixes) : Takes p [] p := fun _ => rfl

theorem takes_cons_opsize {p q : Prefixes} {pre : List Byte} (hp : p.opsize = false)
    (h : Takes { p with opsize := true } pre q) : Takes p (0x66 :: pre) q := fun bs =>
  (takePrefixes_cons_opsize p _).trans ((if_neg (by simp [hp])).trans (h bs))

theorem takes_cons_segment {p q : Prefixes} {b : Byte} {r : SegReg} {pre : List Byte} (hb : segmentPrefix b = some r)
    (hp : p.seg.isSome = false) (h : Takes { p with seg := some r } pre q) : Takes p (b :: pre) q := fun bs =>
  (takePrefixes_cons_segment hb p _).trans ((if_neg (by simp [hp])).trans (h bs))

/-- How many bytes 66 there are once `pre` stands after what `p` says. -/
def opsizeCount (p : Prefixes) (pre : List Byte) : Nat := p.opsize.toNat + pre.count 0x66

/-- How many segment overrides there are once `pre` stands after what `p` says. -/
def segmentCount (p : Prefixes) (pre : List Byte) : Nat :=
  p.seg.isSome.toNat + pre.countP fun b => (segmentPrefix b).isSome

theorem opsizeCount_cons_opsize (p : Prefixes) (pre : List Byte) :
    opsizeCount p (0x66 :: pre) = p.opsize.toNat + opsizeCount { p with opsize := true } pre := by
  rw [opsizeCount, opsizeCount, List.count_cons_self, Bool.toNat_true]
  omega

theorem opsizeCount_cons_of_ne {b : Byte} (h : b ≠ 0x66) (p : Prefixes) (pre : List Byte) :
    opsizeCount p (b :: pre) = opsizeCount p pre := by
  rw [opsizeCount, opsizeCount, List.count_cons_of_ne h]

theorem segmentCount_cons_opsize (p : Prefixes) (pre : List Byte) :
    segmentCount p (0x66 :: pre) = segmentCount p pre :=
  congrArg (p.seg.isSome.toNat + ·) (List.countP_cons_of_neg Bool.false_ne_true)

theorem segmentCount_cons_segment {b : Byte} {r : SegReg} (h : segmentPrefix b = some r) (p : Prefixes)
    (pre : List Byte) :
    segmentCount p (b :: pre) = p.seg.isSome.toNat + segmentCount { p with seg := some r } pre := by
  rw [segmentCount, segmentCount, List.countP_cons_of_pos (by rw [h]; rfl), Option.isSome_some, Bool.toNat_true]
  omega

theorem one_le_opsizeCount (seg : Option SegReg) (pre : List Byte) : 1 ≤ opsizeCount ⟨true, seg⟩ pre :=
  Nat.le_add_right ..

theorem one_le_segmentCount (o : Bool) (r : SegReg) (pre : List Byte) : 1 ≤ segmentCount ⟨o, some r⟩ pre :=
  Nat.le_add_right ..

/-- What stands in `p` is at most one of each of the two kinds. -/
theorem length_nil_le (p : Prefixes) : ([] : List Byte).length + p.opsize.toNat + p.seg.isSome.toNat ≤ 2 := by
  have ho := Bool.toNat_le p.opsize
  have hs := Bool.toNat_le p.seg.isSome
  rw [List.length_nil]
  omega

theorem takenPrefix_cases {b : Byte} (h : takenPrefix b = true) : b = 0x66 ∨ ∃ r, segmentPrefix b = some r := by
  simpa [takenPrefix, Option.isSome_iff_exists] using h

/-- Prefixes without a repetition are taken, and 66 among them is seen (30_encoding.md R164). -/
theorem exists_takes {pre : List Byte} (hpre : pre.all takenPrefix = true) {p : Prefixes}
    (ho : opsizeCount p pre ≤ 1) (hs : segmentCount p pre ≤ 1) :
    ∃ q, Takes p pre q ∧ (q.opsize = true ↔ p.opsize = true ∨ 0x66 ∈ pre) := by
  induction pre generalizing p with
  | nil => exact ⟨p, takes_nil p, by simp⟩
  | cons b pre ih =>
    obtain ⟨hb, hpre⟩ := Bool.and_eq_true_iff.1 hpre
    obtain rfl | ⟨r, hr⟩ := takenPrefix_cases hb
    · rw [opsizeCount_cons_opsize] at ho
      rw [segmentCount_cons_opsize] at hs
      have hone := one_le_opsizeCount p.seg pre
      obtain ⟨q, hq, hqo⟩ := ih hpre (p := { p with opsize := true }) (by omega) hs
      refine ⟨q, takes_cons_opsize (Bool.toNat_eq_zero.1 (by omega)) hq, ?_⟩
      exact hqo.trans (iff_of_true (.inl rfl) (.inr (.head _)))
    · have hne := ne_opsize_of_segmentPrefix hr
      rw [opsizeCount_cons_of_ne hne] at ho
      rw [segmentCount_cons_segment hr] at hs
      have hone := one_le_segmentCount p.opsize r pre
      obtain ⟨q, hq, hqo⟩ := ih hpre (p := { p with seg := some r }) ho (by omega)
      refine ⟨q, takes_cons_segment hr (Bool.toNat_eq_zero.1 (by omega)) hq, ?_⟩
      rw [hqo, List.mem_cons, or_iff_right (a := 0x66 = b) hne.symm]

/-- Prefixes with a repetition are refused, whatever follows (30_encoding.md R164). -/
theorem takePrefixes_repeated {pre : List Byte} (hpre : pre.all takenPrefix = true) {p : Prefixes}
    (h : 2 ≤ opsizeCount p pre ∨ 2 ≤ segmentCount p pre) (bs : List Byte) :
    takePrefixes p (pre ++ bs) = .error .prefixRefused := by
  induction pre generalizing p with
  | nil =>
    have ho : opsizeCount p [] ≤ 1 := Bool.toNat_le _
    have hs : segmentCount p [] ≤ 1 := Bool.toNat_le _
    omega
  | cons b pre ih =>
    obtain ⟨hb, hpre⟩ := Bool.and_eq_true_iff.1 hpre
    rw [List.cons_append]
    obtain rfl | ⟨r, hr⟩ := takenPrefix_cases hb
    · rw [takePrefixes_cons_opsize]
      refine ite_eq_left_iff.2 fun hp => ih hpre ?_
      rwa [opsizeCount_cons_opsize, segmentCount_cons_opsize, Bool.eq_false_iff.2 hp, Bool.toNat_false,
        Nat.zero_add] at h
    · rw [takePrefixes_cons_segment hr]
      refine ite_eq_left_iff.2 fun hp => ih hpre ?_
      rwa [opsizeCount_cons_of_ne (ne_opsize_of_segmentPrefix hr), segmentCount_cons_segment hr,
        Bool.eq_false_iff.2 hp, Bool.toNat_false, Nat.zero_add] at h

/-- What the decoder reads as legacy prefixes: at most one of each kind, up to a byte that is none or to the end of the
bytes (30_encoding.md R164, R181). -/
theorem takePrefixes_eq_ok {bs rest : List Byte} {p q : Prefixes} (h : takePrefixes p bs = .ok (q, rest)) :
    ∃ pre, bs = pre ++ rest ∧ Takes p pre q ∧ pre.length + p.opsize.toNat + p.seg.isSome.toNat ≤ 2 ∧
      ∀ b tl, rest = b :: tl → isLegacyPrefix b = false := by
  induction bs generalizing p with
  | nil =>
    cases h
    exact ⟨[], rfl, takes_nil q, length_nil_le q, nofun⟩
  | cons b bs ih =>
    obtain rfl | ⟨r, hr⟩ | href | hstop := legacyPrefix_cases b
    · rw [takePrefixes_cons_opsize, ite_eq_iff'] at h
      cases hp : p.opsize with
      | true => cases h.1 hp
      | false =>
        obtain ⟨pre, rfl, ht, hlen, hrest⟩ := ih (h.2 (Bool.eq_false_iff.1 hp))
        refine ⟨0x66 :: pre, rfl, takes_cons_opsize hp ht, ?_, hrest⟩
        simp only [List.length_cons, Bool.toNat_true, Bool.toNat_false] at hlen ⊢
        omega
    · rw [takePrefixes_cons_segment hr, ite_eq_iff'] at h
      cases hp : p.seg.isSome with
      | true => cases h.1 hp
      | false =>
        obtain ⟨pre, rfl, ht, hlen, hrest⟩ := ih (h.2 (Bool.eq_false_iff.1 hp))
        refine ⟨b :: pre, rfl, takes_cons_segment hr hp ht, ?_, hrest⟩
        simp only [List.length_cons, Bool.toNat_true, Bool.toNat_false, Option.isSome_some] at hlen ⊢
        omega
    · rw [takePrefixes_cons_refused href] at h
      cases h
    · rw [takePrefixes_stop p hstop] at h
      cases h
      refine ⟨[], rfl, takes_nil q, length_nil_le q, ?_⟩
      rintro _ _ ⟨⟩
      exact hstop

/-! ## REX -/

/-- The byte begins an opcode in the mode: it is none of the legacy prefixes and, in LONG64, no REX byte
(30_encoding.md R167). -/
def StartsOpcode (md : Mode) (b : Byte) : Prop := isLegacyPrefix b = false ∧ (md = .long64 → isRex b = false)

theorem OpcodeByte.startsOpcode {b : Byte} (h : OpcodeByte b) (md : Mode) : StartsOpcode md b := ⟨h.1, fun _ => h.2⟩

theorem rexPart_iff {md : Mode} {bs : List Byte} : RexPart md bs ↔ ∃ rex, RexOk md rex ∧ bs = rex.toList := by
  constructor
  · rintro (rfl | ⟨hmd, r, hr, rfl⟩)
    · exact ⟨none, rexOk_none, rfl⟩
    · refine ⟨some r, ?_, rfl⟩
      rintro _ ⟨⟩
      exact ⟨hmd, hr⟩
  · rintro ⟨rex, hrex, rfl⟩
    cases rex with
    | none => exact .inl rfl
    | some r => exact .inr ⟨(hrex r rfl).1, r, (hrex r rfl).2, rfl⟩

theorem takeRex_of_startsOpcode {md : Mode} {rex : Option Byte} (hrex : RexOk md rex) {b : Byte}
    (hb : StartsOpcode md b) (bs : List Byte) : takeRex md (rex.toList ++ b :: bs) = .ok (rex, b :: bs) := by
  obtain ⟨hleg, hnr⟩ := hb
  cases rex with
  | none =>
    show takeRex md (b :: bs) = _
    rw [takeRex.eq_def]
    exact if_neg fun ⟨hmd, hr⟩ => by simp [hnr hmd] at hr
  | some r => exact takeRex_toList hrex ⟨hleg, hnr (hrex r rfl).1⟩ bs

/-- A REX byte is refused when one of the legacy prefixes or another REX byte follows it (30_encoding.md R164). -/
theorem takeRex_followed {md : Mode} {r b : Byte} (hmd : md = .long64) (hr : isRex r = true)
    (hb : isLegacyPrefix b = true ∨ isRex b = true) (bs : List Byte) :
    takeRex md (r :: b :: bs) = .error .prefixRefused := by
  simp only [takeRex, if_pos (And.intro hmd hr), Bool.or_eq_true, if_pos hb]

/-- What the decoder reads as REX, and the opcode byte that follows. -/
theorem takeRex_eq_ok {md : Mode} {bs rest : List Byte} {rex : Option Byte} (h : takeRex md bs = .ok (rex, rest))
    (hleg : ∀ b tl, bs = b :: tl → isLegacyPrefix b = false) :
    RexOk md rex ∧ ∃ b tl, rest = b :: tl ∧ StartsOpcode md b ∧ bs = rex.toList ++ rest := by
  unfold takeRex at h
  split at h
  · cases h
  · rename_i b bs
    split at h
    · rename_i hrex
      split at h
      · cases h
      · rename_i c tl
        split at h
        · cases h
        · rename_i hc
          cases h
          simp only [Bool.or_eq_true, not_or, Bool.not_eq_true] at hc
          refine ⟨?_, c, tl, rfl, ⟨hc.1, fun _ => hc.2⟩, rfl⟩
          rintro _ ⟨⟩
          exact hrex
    · rename_i hrex
      cases h
      exact ⟨rexOk_none, b, bs, rfl, ⟨hleg b bs rfl, fun hmd => by simpa [hmd] using hrex⟩, rfl⟩

/-! ## All prefixes -/

/-- After legacy prefixes and REX the decoder goes on with the opcode (30_encoding.md R181). -/
theorem decode_of_takes {md : Mode} {pre : List Byte} {q : Prefixes} (hq : Takes ⟨false, none⟩ pre q)
    {rex : Option Byte} (hrex : RexOk md rex) {b : Byte} (hb : StartsOpcode md b) (bs : List Byte) :
    decode md (pre ++ rex.toList ++ b :: bs) = decodeOpcode ⟨md, q.opsize, q.seg, rex⟩ (b :: bs) := by
  have hstop : takePrefixes q (rex.toList ++ b :: bs) = .ok (q, rex.toList ++ b :: bs) := by
    cases rex with
    | none => exact takePrefixes_stop q hb.1 bs
    | some r => exact takePrefixes_stop q (not_isLegacyPrefix_of_isRex (hrex r rfl).2) _
  rw [List.append_assoc, decode, hq, hstop]
  show andThen (takeRex md (rex.toList ++ b :: bs)) _ = _
  rw [takeRex_of_startsOpcode hrex hb]
  rfl

/-- What the decoder answers, it answers after legacy prefixes and REX, from the opcode on (30_encoding.md R181). -/
theorem decode_eq_ok {md : Mode} {bs rest : List Byte} {i : Instr} (h : decode md bs = .ok (i, rest)) :
    ∃ pre q rex b tl, bs = pre ++ rex.toList ++ b :: tl ∧ pre.length ≤ 2 ∧ Takes ⟨false, none⟩ pre q ∧ RexOk md rex ∧
      StartsOpcode md b ∧ decodeOpcode ⟨md, q.opsize, q.seg, rex⟩ (b :: tl) = .ok (i, rest) := by
  unfold decode at h
  cases hp : takePrefixes ⟨false, none⟩ bs with
  | error e =>
    rw [hp] at h
    cases h
  | ok pr =>
    obtain ⟨q, bs₁⟩ := pr
    rw [hp] at h
    obtain ⟨pre, rfl, hq, hlen, hleg⟩ := takePrefixes_eq_ok hp
    cases hr : takeRex md bs₁ with
    | error e =>
      simp only [andThen, hr] at h
      cases h
    | ok pr =>
      obtain ⟨rex, bs₂⟩ := pr
      simp only [andThen, hr] at h
      obtain ⟨hrex, b, tl, rfl, hb, rfl⟩ := takeRex_eq_ok hr hleg
      exact ⟨pre, q, rex, b, tl, (List.append_assoc ..).symm, hlen, hq, hrex, hb, h⟩

end Sys2Proof
end

section
/-!
SUPPORT. How far the decoder reads: each parser answers from a bounded number of bytes at the head of its input, and what
stands after them plays no part (spec/30_encoding.md R160, R181).
-/
namespace Sys2Proof

open Sys2Proof.Machine

/-! ## Parsers that read a bounded head -/

/-- What the parser answers, it reads from at most `n` bytes at the head, whatever follows them. -/
def ReadsUpTo (n : Nat) {α : Type} (p : List Byte → Parsed α) : Prop :=
  ∀ bs a rest, p bs = .ok (a, rest) →
    ∃ pre, bs = pre ++ rest ∧ pre.length ≤ n ∧ ∀ other, p (pre ++ other) = .ok (a, other)

section
variable {α β : Type} {m n : Nat}

theorem readsUpTo_ok (a : α) : ReadsUpTo n fun bs => .ok (a, bs) := by
  rintro bs _ _ ⟨⟩
  exact ⟨[], rfl, Nat.zero_le n, fun _ => rfl⟩

theorem readsUpTo_error (e : DecodeError) : ReadsUpTo n fun _ => (.error e : Parsed α) := nofun

theorem ReadsUpTo.mono {p : List Byte → Parsed α} (h : ReadsUpTo m p) (hmn : m ≤ n) : ReadsUpTo n p :=
  fun bs a rest hp =>
    let ⟨pre, hbs, hlen, hother⟩ := h bs a rest hp
    ⟨pre, hbs, hlen.trans hmn, hother⟩

theorem andThen_eq_ok {x : Parsed α} {f : α → List Byte → Parsed β} {b : β} {rest : List Byte}
    (h : andThen x f = .ok (b, rest)) : ∃ a bs, x = .ok (a, bs) ∧ f a bs = .ok (b, rest) := by
  match x with
  | .ok (a, bs) => exact ⟨a, bs, rfl, h⟩
  | .error e => cases h

theorem readsUpTo_andThen {p : List Byte → Parsed α} {f : α → List Byte → Parsed β} (hp : ReadsUpTo m p)
    (hf : ∀ a, ReadsUpTo n (f a)) : ReadsUpTo (m + n) fun bs => andThen (p bs) f := by
  intro bs b rest h
  obtain ⟨a, mid, hpa, hfa⟩ := andThen_eq_ok h
  obtain ⟨pre, rfl, hlen, hother⟩ := hp _ _ _ hpa
  obtain ⟨pre', rfl, hlen', hother'⟩ := hf a _ _ _ hfa
  refine ⟨pre ++ pre', (List.append_assoc ..).symm, ?_, fun other => ?_⟩
  · rw [List.length_append]
    exact Nat.add_le_add hlen hlen'
  · show andThen (p (pre ++ pre' ++ other)) f = _
    rw [List.append_assoc, hother]
    exact hother' other

theorem readsUpTo_ite {c : Prop} [Decidable c] {p q : List Byte → Parsed α} (hp : ReadsUpTo n p)
    (hq : ReadsUpTo n q) : ReadsUpTo n fun bs => if c then p bs else q bs := by
  by_cases hc : c
  · simpa only [if_pos hc] using hp
  · simpa only [if_neg hc] using hq

end

/-- A parser that answers has read something, if it does not answer on no byte at all. -/
theorem ReadsUpTo.exists_cons {α : Type} {n : Nat} {p : List Byte → Parsed α} (hp : ReadsUpTo n p)
    (hnil : ∀ a, p [] ≠ .ok (a, [])) {bs : List Byte} {a : α} {rest : List Byte} (h : p bs = .ok (a, rest)) :
    ∃ b tl, bs = b :: tl ++ rest ∧ tl.length + 1 ≤ n ∧ ∀ other, p (b :: tl ++ other) = .ok (a, other) := by
  obtain ⟨pre, rfl, hlen, hother⟩ := hp _ _ _ h
  cases pre with
  | nil => exact absurd (hother []) (hnil a)
  | cons b tl => exact ⟨b, tl, rfl, hlen, hother⟩

/-! ## Fields -/

theorem readsUpTo_nextByte : ReadsUpTo 1 nextByte := by
  rintro (_ | ⟨b, bs⟩) _ _ h
  · cases h
  · cases h
    exact ⟨[b], rfl, Nat.le_refl 1, fun _ => rfl⟩

theorem readsUpTo_takeLe (n : Nat) : ReadsUpTo n (takeLe n) := by
  intro bs v rest h
  unfold takeLe at h
  split at h
  · cases h
  · cases h
    have htake : (bs.take n).length = n := List.length_take_of_le (by omega)
    refine ⟨bs.take n, (List.take_append_drop n bs).symm, htake.le, fun other => ?_⟩
    rw [takeLe, if_neg (by rw [List.length_append]; omega), List.take_left' htake, List.drop_left' htake]

/-- A parser that reads a field and makes something of it. -/
theorem readsUpTo_map {α β : Type} {n : Nat} {p : List Byte → Parsed α} (hp : ReadsUpTo n p) (f : α → β) :
    ReadsUpTo n fun bs => andThen (p bs) fun a bs => .ok (f a, bs) :=
  readsUpTo_andThen (n := 0) hp fun _ => readsUpTo_ok _

section
variable {cx : DecodeCtx}

theorem readsUpTo_parseDisp (mod : BitVec 2) : ReadsUpTo 4 (parseDisp mod) :=
  readsUpTo_ite (readsUpTo_ok _) <|
    readsUpTo_ite ((readsUpTo_map readsUpTo_nextByte _).mono (by decide)) (readsUpTo_map (readsUpTo_takeLe 4) _)

/-- SIB and displacement. -/
theorem readsUpTo_parseMem (mod : BitVec 2) (rm : BitVec 3) : ReadsUpTo 5 (parseMem cx mod rm) := by
  refine readsUpTo_ite ?_ (readsUpTo_ite ?_ ?_)
  · exact readsUpTo_andThen (n := 4) readsUpTo_nextByte fun sib =>
      readsUpTo_ite (readsUpTo_map (readsUpTo_takeLe 4) _) (readsUpTo_map (readsUpTo_parseDisp mod) _)
  · refine (readsUpTo_andThen (n := 0) (readsUpTo_takeLe 4) fun v => ?_).mono (by decide)
    cases cx.mode <;> exact readsUpTo_ok _
  · exact (readsUpTo_map (readsUpTo_parseDisp mod) _).mono (by decide)

/-- ModRM, SIB and displacement. -/
theorem readsUpTo_parseModRm : ReadsUpTo 6 (parseModRm cx) :=
  readsUpTo_andThen (n := 5) readsUpTo_nextByte fun _ =>
    readsUpTo_ite (readsUpTo_ok _) (readsUpTo_map (readsUpTo_parseMem _ _) _)

/-! ## The shapes of the opcode rows -/

theorem readsUpTo_parseRm8R8 (mk : Rm Reg8 → Reg8 → Instr) : ReadsUpTo 6 (parseRm8R8 cx mk) :=
  readsUpTo_map readsUpTo_parseModRm _

theorem readsUpTo_parseRmR (mk : OpSize → Rm Gpr → Gpr → Instr) : ReadsUpTo 6 (parseRmR cx mk) :=
  readsUpTo_map readsUpTo_parseModRm _

theorem readsUpTo_parseRmSeg (mk : Rm Gpr → SegField → Instr) : ReadsUpTo 6 (parseRmSeg cx mk) :=
  readsUpTo_map readsUpTo_parseModRm _

theorem readsUpTo_parseSetcc (c : Cond) : ReadsUpTo 6 (parseSetcc cx c) :=
  readsUpTo_map readsUpTo_parseModRm _

theorem readsUpTo_parseImm8 (mk : Byte → Instr) : ReadsUpTo 1 (parseImm8 mk) :=
  readsUpTo_map readsUpTo_nextByte _

theorem readsUpTo_takeImmZ : ReadsUpTo 4 (takeImmZ cx) := by
  unfold takeImmZ
  cases opSize cx with
  | w16 => exact (readsUpTo_map (readsUpTo_takeLe 2) _).mono (by decide)
  | w32 | w64 => exact readsUpTo_map (readsUpTo_takeLe 4) _

theorem readsUpTo_parseImmZ (mk : ImmZ → Instr) : ReadsUpTo 4 (parseImmZ cx mk) :=
  readsUpTo_map readsUpTo_takeImmZ _

theorem readsUpTo_parseImmV (mk : ImmV → Instr) : ReadsUpTo 8 (parseImmV cx mk) := by
  unfold parseImmV
  cases opSize cx with
  | w16 => exact (readsUpTo_map (readsUpTo_takeLe 2) _).mono (by decide)
  | w32 => exact (readsUpTo_map (readsUpTo_takeLe 4) _).mono (by decide)
  | w64 => exact readsUpTo_map (readsUpTo_takeLe 8) _

theorem readsUpTo_parseRel8 (mk : BitVec 8 → Instr) : ReadsUpTo 1 (parseRel8 cx mk) :=
  readsUpTo_ite (readsUpTo_error _) (readsUpTo_map readsUpTo_nextByte _)

theorem readsUpTo_parseRel32 (mk : BitVec 32 → Instr) : ReadsUpTo 4 (parseRel32 cx mk) :=
  readsUpTo_ite (readsUpTo_error _) (readsUpTo_map (readsUpTo_takeLe 4) _)

/-! ## Opcode extensions -/

theorem checkExt_listed {listed : List Nat} {b : Byte} (h : listed.contains (b.extractLsb' 3 3).toNat = true)
    (bs : List Byte) : checkExt listed (b :: bs) = .ok ((), b :: bs) :=
  if_pos h

theorem checkExt_unlisted {listed : List Nat} {b : Byte} (h : (b.extractLsb' 3 3).toNat ∉ listed) (bs : List Byte) :
    checkExt listed (b :: bs) = .error .opcodeRefused :=
  if_neg (mt List.contains_iff_mem.1 h)

theorem checkExt_eq_ok {listed : List Nat} {b : Byte} {bs rest : List Byte}
    (h : checkExt listed (b :: bs) = .ok ((), rest)) :
    rest = b :: bs ∧ listed.contains (b.extractLsb' 3 3).toNat = true := by
  by_cases hl : listed.contains (b.extractLsb' 3 3).toNat = true
  · rw [checkExt_listed hl] at h
    cases h
    exact ⟨rfl, hl⟩
  · rw [checkExt_unlisted (mt List.contains_iff_mem.2 hl)] at h
    cases h

/-- The look at ModRM reads nothing of its own: the parser after it reads the same byte. -/
theorem readsUpTo_isGroup {p : DecodeCtx → List Byte → Parsed Instr} {listed : List Nat}
    {f : DecodeCtx → BitVec 3 × Rm (BitVec 4) → List Byte → Parsed Instr} (hp : IsGroup p listed f)
    (hf : ∀ x, ReadsUpTo 4 (f cx x)) : ReadsUpTo 10 (p cx) := by
  intro bs i rest h
  rw [hp] at h
  obtain ⟨_, _, hcheck, hparse⟩ := andThen_eq_ok h
  cases bs with
  | nil => cases hcheck
  | cons c cs =>
    obtain ⟨rfl, hlisted⟩ := checkExt_eq_ok hcheck
    have hnil : andThen (parseModRm cx []) (f cx) = .error .truncated := rfl
    obtain ⟨b, tl, hbs, hlen, hother⟩ := (readsUpTo_andThen (readsUpTo_parseModRm (cx := cx)) hf).exists_cons
      (fun _ hok => nomatch hnil.symm.trans hok) hparse
    obtain ⟨rfl, rfl⟩ := List.cons.inj hbs
    refine ⟨c :: tl, rfl, hlen, fun other => ?_⟩
    rw [hp, List.cons_append, checkExt_listed hlisted]
    exact hother other

theorem readsUpTo_parseGroup80 : ReadsUpTo 10 (parseGroup80 cx) := by
  refine readsUpTo_isGroup (p := parseGroup80) (fun _ _ => rfl) fun ⟨reg, rm⟩ => ?_
  dsimp only
  split
  all_goals first | exact readsUpTo_error _ | exact (readsUpTo_parseImm8 _).mono (by decide)

theorem readsUpTo_parseGroup81 : ReadsUpTo 10 (parseGroup81 cx) := by
  refine readsUpTo_isGroup (p := parseGroup81) (fun _ _ => rfl) fun ⟨reg, rm⟩ => ?_
  dsimp only
  split
  all_goals first | exact readsUpTo_error _ | exact readsUpTo_parseImmZ _

theorem readsUpTo_parseGroup83 : ReadsUpTo 10 (parseGroup83 cx) := by
  refine readsUpTo_isGroup (p := parseGroup83) (fun _ _ => rfl) fun ⟨reg, rm⟩ => ?_
  dsimp only
  split
  all_goals first | exact readsUpTo_error _ | exact (readsUpTo_parseImm8 _).mono (by decide)

theorem readsUpTo_parseGroupC6 : ReadsUpTo 10 (parseGroupC6 cx) := by
  refine readsUpTo_isGroup (p := parseGroupC6) (fun _ _ => rfl) fun ⟨reg, rm⟩ => ?_
  dsimp only
  split
  all_goals first | exact readsUpTo_error _ | exact (readsUpTo_parseImm8 _).mono (by decide)

theorem readsUpTo_parseGroupC7 : ReadsUpTo 10 (parseGroupC7 cx) := by
  refine readsUpTo_isGroup (p := parseGroupC7) (fun _ _ => rfl) fun ⟨reg, rm⟩ => ?_
  dsimp only
  split
  all_goals first | exact readsUpTo_error _ | exact readsUpTo_parseImmZ _

theorem readsUpTo_parseGroupF6 : ReadsUpTo 10 (parseGroupF6 cx) := by
  refine readsUpTo_isGroup (p := parseGroupF6) (fun _ _ => rfl) fun ⟨reg, rm⟩ => ?_
  dsimp only
  split
  all_goals first | exact readsUpTo_error _ | exact readsUpTo_ok _

theorem readsUpTo_parseGroupF7 : ReadsUpTo 10 (parseGroupF7 cx) := by
  refine readsUpTo_isGroup (p := parseGroupF7) (fun _ _ => rfl) fun ⟨reg, rm⟩ => ?_
  dsimp only
  split
  all_goals first | exact readsUpTo_error _ | exact readsUpTo_ok _

theorem readsUpTo_parseGroupBA : ReadsUpTo 10 (parseGroupBA cx) := by
  refine readsUpTo_isGroup (p := parseGroupBA) (fun _ _ => rfl) fun ⟨reg, rm⟩ => ?_
  dsimp only
  split
  all_goals first | exact readsUpTo_error _ | exact (readsUpTo_parseImm8 _).mono (by decide)

/-! ## Opcodes -/

theorem readsUpTo_decodeTwoByte (op : Byte) : ReadsUpTo 10 (decodeTwoByte cx op) := by
  unfold decodeTwoByte
  split
  all_goals first
    | exact readsUpTo_error _
    | exact readsUpTo_ok _
    | exact (readsUpTo_parseRmR _).mono (by decide)
    | exact (readsUpTo_parseRel32 _).mono (by decide)
    | exact (readsUpTo_parseSetcc _).mono (by decide)
    | exact readsUpTo_parseGroupBA

theorem readsUpTo_decodeOneByte (op : Byte) : ReadsUpTo 10 (decodeOneByte cx op) := by
  unfold decodeOneByte
  split
  all_goals first
    | exact readsUpTo_error _
    | exact readsUpTo_ok _
    | exact (readsUpTo_parseRm8R8 _).mono (by decide)
    | exact (readsUpTo_parseRmR _).mono (by decide)
    | exact (readsUpTo_parseRmSeg _).mono (by decide)
    | exact (readsUpTo_parseImm8 _).mono (by decide)
    | exact (readsUpTo_parseImmZ _).mono (by decide)
    | exact (readsUpTo_parseImmV _).mono (by decide)
    | exact (readsUpTo_parseRel8 _).mono (by decide)
    | exact readsUpTo_parseGroup80
    | exact readsUpTo_parseGroup81
    | exact readsUpTo_parseGroup83
    | exact readsUpTo_parseGroupC6
    | exact readsUpTo_parseGroupC7
    | exact readsUpTo_parseGroupF6
    | exact readsUpTo_parseGroupF7

/-- One or two opcode bytes and what follows them. -/
theorem readsUpTo_decodeOpcode : ReadsUpTo 12 (decodeOpcode cx) :=
  readsUpTo_andThen (n := 11) readsUpTo_nextByte fun op =>
    readsUpTo_ite (readsUpTo_andThen (n := 10) readsUpTo_nextByte readsUpTo_decodeTwoByte)
      ((readsUpTo_decodeOneByte op).mono (by decide))

end

theorem decodeOpcode_nil (cx : DecodeCtx) : decodeOpcode cx [] = .error .truncated := rfl

theorem length_rex_le (rex : Option Byte) : rex.toList.length ≤ 1 := by
  cases rex <;> simp

/-- Settles O2: two legacy prefixes, REX and twelve bytes from the opcode on are the most that the decoder reads. -/
theorem decodedInstructionIsWellFormed : Obligations.DecodedInstructionIsWellFormed := by
  intro md bs i rest h
  refine ⟨wellFormed_of_decode h, ?_⟩
  obtain ⟨pre, q, rex, b, tl, rfl, hpre, hq, hrex, hb, hop⟩ := decode_eq_ok h
  obtain ⟨c, cs, hbs, hlen, hother⟩ := readsUpTo_decodeOpcode.exists_cons
    (fun _ hok => nomatch (decodeOpcode_nil _).symm.trans hok) hop
  obtain ⟨rfl, rfl⟩ := List.cons.inj hbs
  have hrexlen := length_rex_le rex
  refine ⟨pre ++ rex.toList ++ b :: cs, (List.append_assoc _ (b :: cs) rest).symm, ?_, ?_, fun other => ?_⟩
  · rw [List.length_append, List.length_cons]
    omega
  · simp only [List.length_append, List.length_cons]
    omega
  · rw [List.append_assoc _ _ other, List.cons_append, decode_of_takes hq hrex hb]
    exact hother other

end Sys2Proof
end

section
/-!
SUPPORT. The refusals of the decoder: prefixes and their combinations (spec/30_encoding.md R164), and opcodes and opcode
extensions that the admitted table does not list (spec/30_encoding.md R183).
-/
namespace Sys2Proof

open Sys2Proof.Machine

/-! ## Refused prefixes -/

theorem decode_of_takePrefixes_error {md : Mode} {bs : List Byte} {e : DecodeError}
    (h : takePrefixes ⟨false, none⟩ bs = .error e) : decode md bs = .error e := by
  rw [decode, h]
  rfl

/-- Nothing stands before the first byte, so the counts are those of the bytes themselves. -/
theorem opsizeCount_start (pre : List Byte) : opsizeCount ⟨false, none⟩ pre = pre.count 0x66 := Nat.zero_add _

theorem segmentCount_start (pre : List Byte) :
    segmentCount ⟨false, none⟩ pre = pre.countP fun b => (segmentPrefix b).isSome := Nat.zero_add _

theorem decode_repeated {pre : List Byte} (hpre : pre.all takenPrefix = true)
    (h : 2 ≤ pre.count 0x66 ∨ 2 ≤ pre.countP fun b => (segmentPrefix b).isSome) (md : Mode) (bs : List Byte) :
    decode md (pre ++ bs) = .error .prefixRefused := by
  rw [← opsizeCount_start, ← segmentCount_start] at h
  exact decode_of_takePrefixes_error (takePrefixes_repeated hpre h bs)

/-- Prefixes 66 and segment overrides are taken without a repetition, or refused for one, whatever follows
(30_encoding.md R164). -/
theorem takes_or_refused {pre : List Byte} (hpre : pre.all takenPrefix = true) (md : Mode) :
    (∃ q, Takes ⟨false, none⟩ pre q ∧ (q.opsize = true ↔ 0x66 ∈ pre)) ∨
      ∀ bs, decode md (pre ++ bs) = .error .prefixRefused := by
  by_cases h : 2 ≤ pre.count 0x66 ∨ 2 ≤ pre.countP fun b => (segmentPrefix b).isSome
  · exact .inr (decode_repeated hpre h md)
  · rw [← opsizeCount_start, ← segmentCount_start] at h
    obtain ⟨q, hq, hqo⟩ := exists_takes hpre (p := ⟨false, none⟩) (by omega) (by omega)
    exact .inl ⟨q, hq, by simpa using hqo⟩

theorem decode_rex_followed {md : Mode} {pre : List Byte} {q : Prefixes} (hq : Takes ⟨false, none⟩ pre q) {r b : Byte}
    (hmd : md = .long64) (hr : isRex r = true) (hb : isLegacyPrefix b = true ∨ isRex b = true) (bs : List Byte) :
    decode md (pre ++ r :: b :: bs) = .error .prefixRefused := by
  rw [decode, hq, takePrefixes_stop q (not_isLegacyPrefix_of_isRex hr)]
  show andThen (takeRex md (r :: b :: bs)) _ = _
  rw [takeRex_followed hmd hr hb]
  rfl

/-- The opcodes of the conditional branches: one for each condition, from 70 on and, after 0F, from 80 on
(43_control_transfer.md R320 to R322). -/
theorem eq_cond_opcode (b : Byte) :
    (0x70 ≤ b.toNat ∧ b.toNat ≤ 0x7F → b = 0x70#8 + (Cond.ofNum (b.setWidth 4)).num.setWidth 8) ∧
      (0x80 ≤ b.toNat ∧ b.toNat ≤ 0x8F → b = 0x80#8 + (Cond.ofNum (b.setWidth 4)).num.setWidth 8) := by
  revert b
  decide

theorem selects_jccRel8 (c : Cond) :
    OpcodeByte (0x70#8 + c.num.setWidth 8) ∧
      Selects [0x70#8 + c.num.setWidth 8] fun cx => parseRel8 cx (.jccRel8 c) := by
  cases c <;> exact ⟨by decide, fun _ _ => rfl⟩

theorem selects_jccRel32 (c : Cond) :
    Selects [0x0F, 0x80#8 + c.num.setWidth 8] fun cx => parseRel32 cx (.jccRel32 c) := by
  cases c <;> exact fun _ _ => rfl

/-- The opcodes of Jcc rel8, LOOPNE, LOOPE and LOOP select a branch with an 8-bit displacement. -/
theorem selects_branch8 {b : Byte} (hb : (0x70 ≤ b.toNat ∧ b.toNat ≤ 0x7F) ∨ b = 0xE0 ∨ b = 0xE1 ∨ b = 0xE2) :
    OpcodeByte b ∧ ∃ mk, Selects [b] fun cx => parseRel8 cx mk := by
  obtain hb | rfl | rfl | rfl := hb
  · rw [(eq_cond_opcode b).1 hb]
    exact ⟨(selects_jccRel8 _).1, _, (selects_jccRel8 _).2⟩
  · exact ⟨by decide, .loopne, fun _ _ => rfl⟩
  · exact ⟨by decide, .loope, fun _ _ => rfl⟩
  · exact ⟨by decide, .loop, fun _ _ => rfl⟩

/-- Settles O5: legacy prefixes are refused for a repetition, or taken, and then what follows them is refused. -/
theorem prefixesRefused : Obligations.PrefixesRefused := by
  intro md pre rexBytes rest hpre hpart
  obtain ⟨rex, hrex, rfl⟩ := rexPart_iff.1 hpart
  refine ⟨fun b hb => ?_, fun hrep => decode_repeated hpre hrep md rest, ?_⟩
  · obtain ⟨q, hq, -⟩ | href := takes_or_refused hpre md
    · refine decode_of_takePrefixes_error ((hq _).trans (takePrefixes_cons_refused ?_ q rest))
      simpa [isRefusedPrefix, or_assoc] using hb
    · exact href _
  · simp only [List.append_assoc]
    obtain ⟨q, hq, hqo⟩ | href := takes_or_refused hpre md
    · refine ⟨fun b hne hb => ?_, fun h66 b => ⟨fun hb => ?_, fun hb => ?_⟩⟩
      · cases rex with
        | none => exact absurd rfl hne
        | some r =>
          obtain ⟨hmd, hr⟩ := hrex r rfl
          exact decode_rex_followed hq hmd hr hb rest
      · obtain ⟨hop, mk, hsel⟩ := selects_branch8 hb
        rw [← List.append_assoc, decode_of_takes hq hrex (hop.startsOpcode md)]
        exact (hsel _ rest).trans (if_pos (hqo.2 h66))
      · rw [← List.append_assoc, decode_of_takes hq hrex (OpcodeByte.startsOpcode (by decide) md),
          (eq_cond_opcode b).2 hb]
        exact (selects_jccRel32 _ _ rest).trans (if_pos (hqo.2 h66))
    · exact ⟨fun _ _ _ => href _, fun _ _ => ⟨fun _ => href _, fun _ => href _⟩⟩

/-! ## Unlisted opcodes -/

/-- An opcode that no range of the table holds. -/
theorem any_range_eq_false {table : List (Nat × Nat)} {n : Nat} (h : ∀ r ∈ table, n < r.1 ∨ r.2 < n) :
    (table.any fun r => r.1 ≤ n && n ≤ r.2) = false := by
  simpa only [List.any_eq_false, Bool.and_eq_true, decide_eq_true_eq, not_and_or, not_le] using h

/-- Each arm of the decoder but the last is for an opcode of the table (30_encoding.md R183). -/
theorem decodeOneByte_unlisted {op : Byte} (h : ∀ r ∈ oneByteOpcodes, op.toNat < r.1 ∨ r.2 < op.toNat) (cx : DecodeCtx)
    (bs : List Byte) : decodeOneByte cx op bs = .error .opcodeRefused := by
  have hnone := any_range_eq_false h
  unfold decodeOneByte
  split
  all_goals first
    | rfl
    | rw [‹op.toNat = _›] at hnone; cases hnone

theorem decodeTwoByte_unlisted {op : Byte} (h : ∀ r ∈ twoByteOpcodes, op.toNat < r.1 ∨ r.2 < op.toNat) (cx : DecodeCtx)
    (bs : List Byte) : decodeTwoByte cx op bs = .error .opcodeRefused := by
  have hnone := any_range_eq_false h
  unfold decodeTwoByte
  split
  all_goals first
    | rfl
    | rw [‹op.toNat = _›] at hnone; cases hnone

theorem decodeOpcode_unlisted {op : Byte} (h : ∀ r ∈ oneByteOpcodes, op.toNat < r.1 ∨ r.2 < op.toNat) (cx : DecodeCtx)
    (bs : List Byte) : decodeOpcode cx (op :: bs) = .error .opcodeRefused := by
  have hne : op ≠ 0x0F := by
    rintro rfl
    exact absurd (h (0x0F, 0x15) (by decide)) (by decide)
  exact (if_neg hne).trans (decodeOneByte_unlisted h cx bs)

/-- An opcode whose extension the table does not list is refused (30_encoding.md R183). -/
theorem isGroup_unlisted {op : List Byte} {p : DecodeCtx → List Byte → Parsed Instr} {listed : List Nat}
    {f : DecodeCtx → BitVec 3 × Rm (BitVec 4) → List Byte → Parsed Instr} (hsel : Selects op p)
    (hp : IsGroup p listed f) {m : Byte} (hm : (m.extractLsb' 3 3).toNat ∉ listed) (cx : DecodeCtx) (bs : List Byte) :
    decodeOpcode cx (op ++ m :: bs) = .error .opcodeRefused := by
  rw [hsel, hp, checkExt_unlisted hm]
  rfl

/-- Settles O6: after the prefixes the opcode, or its extension, is looked up in vain. -/
theorem unlistedOpcodesRefused : Obligations.UnlistedOpcodesRefused := by
  intro md pre rexBytes rest hpre hpart
  obtain ⟨hall, hopsize, hseg⟩ := hpre
  obtain ⟨rex, hrex, rfl⟩ := rexPart_iff.1 hpart
  rw [← opsizeCount_start] at hopsize
  rw [← segmentCount_start] at hseg
  obtain ⟨q, hq, -⟩ := exists_takes hall hopsize hseg
  have hdec {b : Byte} (hb : StartsOpcode md b) (bs : List Byte) := decode_of_takes hq hrex hb bs
  have hopcode {b : Byte} (hb : OpcodeByte b) (bs : List Byte) := hdec (hb.startsOpcode md) bs
  refine ⟨fun op hleg hnr hop => ?_, fun op hop => ?_, fun m => ⟨?_, ?_, ?_, ?_⟩⟩
  · rw [hdec ⟨hleg, hnr⟩, decodeOpcode_unlisted hop]
  · rw [hopcode (by decide)]
    exact decodeTwoByte_unlisted hop _ rest
  · intro hm op hop
    fin_cases hop <;> rw [hopcode (by decide)]
    · exact isGroup_unlisted (op := [0x80]) (p := parseGroup80) (fun _ _ => rfl) (fun _ _ => rfl) hm _ rest
    · exact isGroup_unlisted (op := [0x81]) (p := parseGroup81) (fun _ _ => rfl) (fun _ _ => rfl) hm _ rest
    · exact isGroup_unlisted (op := [0x83]) (p := parseGroup83) (fun _ _ => rfl) (fun _ _ => rfl) hm _ rest
  · intro hm op hop
    rw [ne_eq, ← List.mem_singleton] at hm
    fin_cases hop <;> rw [hopcode (by decide)]
    · exact isGroup_unlisted (op := [0xC6]) (p := parseGroupC6) (fun _ _ => rfl) (fun _ _ => rfl) hm _ rest
    · exact isGroup_unlisted (op := [0xC7]) (p := parseGroupC7) (fun _ _ => rfl) (fun _ _ => rfl) hm _ rest
  · intro hm op hop
    fin_cases hop <;> rw [hopcode (by decide)]
    · exact isGroup_unlisted (op := [0xF6]) (p := parseGroupF6) (fun _ _ => rfl) (fun _ _ => rfl) hm _ rest
    · exact isGroup_unlisted (op := [0xF7]) (p := parseGroupF7) (fun _ _ => rfl) (fun _ _ => rfl) hm _ rest
  · intro hm
    rw [hopcode (by decide)]
    exact isGroup_unlisted (op := [0x0F, 0xBA]) (p := parseGroupBA) (fun _ _ => rfl) (fun _ _ => rfl) hm _ rest

end Sys2Proof
end

section
/-!
SUPPORT. Which instruction raises which fault, and where MOV Sreg stops (spec/60_exceptions.md R382 to R388,
spec/42_data_movement.md R296, spec/30_encoding.md R182).
-/
namespace Sys2Proof.Machine

/-! ## Results whose faults are known -/

/-- Every fault that the result reports satisfies `P`. -/
def FaultsIn (P : Fault → Prop) {α : Type} (r : Res α) : Prop := ∀ f, r = .error (.fault f) → P f

section
variable {P : Fault → Prop} {s : State}

theorem faultsIn_ok {α : Type} {a : α} : FaultsIn P (.ok a : Res α) := nofun

theorem faultsIn_refuse {α : Type} {q : Refusal} : FaultsIn P (refuse q : Res α) := fun _ h => by cases h

theorem faultsIn_raise {α : Type} {f : Fault} (hf : P f) : FaultsIn P (raise f : Res α) := fun _ h => by
  cases h
  exact hf

theorem faultsIn_bind {α β : Type} {x : Res α} {k : α → Res β} (hx : FaultsIn P x) (hk : ∀ a, FaultsIn P (k a)) :
    FaultsIn P (x >>= k) := fun f h => by
  obtain h | ⟨a, -, h⟩ := bind_eq_error_iff.1 h
  · exact hx f h
  · exact hk a f h

/-- An operation that makes something of what it reads or of the state that it writes. -/
theorem faultsIn_map {α β : Type} {x : Res α} {g : α → β} (hx : FaultsIn P x) :
    FaultsIn P (x >>= fun a => .ok (g a)) :=
  faultsIn_bind hx fun _ => faultsIn_ok

theorem faultsIn_ite {α : Type} {c : Prop} [Decidable c] {x y : Res α} (hx : c → FaultsIn P x)
    (hy : ¬ c → FaultsIn P y) : FaultsIn P (if c then x else y) := by
  split
  · exact hx ‹_›
  · exact hy ‹_›

variable (hac : P .alignmentCheck)
include hac

theorem faultsIn_memRead {a : Quad} {n : Nat} : FaultsIn P (memRead s a n) :=
  faultsIn_ite (fun _ => faultsIn_refuse) fun _ => faultsIn_ite (fun _ => faultsIn_raise hac) fun _ => faultsIn_ok

theorem faultsIn_memWrite {a : Quad} {n : Nat} {v : BitVec (8 * n)} : FaultsIn P (memWrite s a n v) :=
  faultsIn_ite (fun _ => faultsIn_refuse) fun _ => faultsIn_ite (fun _ => faultsIn_refuse) fun _ =>
    faultsIn_ite (fun _ => faultsIn_raise hac) fun _ => faultsIn_ok

theorem faultsIn_readRm {w : Width} {rm : Rm Reg8} : FaultsIn P (readRm w rm s) := by
  cases rm with
  | reg r => exact faultsIn_ok
  | mem m => exact faultsIn_memRead hac

theorem faultsIn_writeRm {w : Width} {rm : Rm Reg8} {v : BitVec w.bits} : FaultsIn P (writeRm w rm v s) := by
  cases rm with
  | reg r => exact faultsIn_ok
  | mem m => exact faultsIn_memWrite hac

/-! ## Operations that raise nothing but `#AC` -/

theorem faultsIn_aluRm {op : AluOp} {w : Width} {dst : Rm Reg8} {b : BitVec w.bits} :
    FaultsIn P (aluRm op w dst b s) :=
  faultsIn_bind (faultsIn_readRm hac) fun _ => faultsIn_map (faultsIn_writeRm hac)

theorem faultsIn_bitOp {act : BitAction} {w : Width} {base : Rm Reg8} {off : Nat} :
    FaultsIn P (bitOp act w base off s) :=
  faultsIn_bind (faultsIn_readRm hac) fun _ => faultsIn_ite
    (fun _ => faultsIn_map faultsIn_ok) fun _ => faultsIn_map (faultsIn_writeRm hac)

theorem faultsIn_bitRegOp {act : BitAction} {w : Width} {base : Rm Gpr} {off : Gpr} :
    FaultsIn P (bitRegOp act w base off s) := by
  cases base with
  | reg r => exact faultsIn_bitOp hac
  | mem m => exact faultsIn_refuse

theorem faultsIn_cmovOp {c : Cond} {w : Width} {dst : Gpr} {src : Rm Gpr} : FaultsIn P (cmovOp c w dst src s) :=
  faultsIn_bind (faultsIn_readRm hac) fun _ => faultsIn_ite (fun _ => faultsIn_ok) fun _ =>
    faultsIn_ite (fun _ => faultsIn_ok) fun _ => faultsIn_ok

theorem faultsIn_movsOp {w : Width} {seg : Option SegReg} : FaultsIn P (movsOp w seg s) :=
  faultsIn_bind (faultsIn_memRead hac) fun _ => faultsIn_map (faultsIn_memWrite hac)

theorem faultsIn_cmpsOp {w : Width} {seg : Option SegReg} : FaultsIn P (cmpsOp w seg s) :=
  faultsIn_bind (faultsIn_memRead hac) fun _ => faultsIn_map (faultsIn_memRead hac)

theorem faultsIn_pop {w : Width} : FaultsIn P (pop w s) :=
  faultsIn_map (faultsIn_memRead hac)

/-! ## Operations that raise faults of their own -/

theorem faultsIn_divOp {w : Width} {src : Rm Reg8} (hde : P .divideError) : FaultsIn P (divOp w src s) :=
  faultsIn_bind (faultsIn_readRm hac) fun _ => faultsIn_ite (fun _ => faultsIn_raise hde) fun _ =>
    faultsIn_ite (fun _ => faultsIn_raise hde) fun _ => faultsIn_ok

theorem faultsIn_idivOp {w : Width} {src : Rm Reg8} (hde : P .divideError) : FaultsIn P (idivOp w src s) :=
  faultsIn_bind (faultsIn_readRm hac) fun _ => faultsIn_ite (fun _ => faultsIn_raise hde) fun _ =>
    faultsIn_ite (fun _ => faultsIn_raise hde) fun _ => faultsIn_ok

theorem faultsIn_movFromSeg {w : Width} {dst : Rm Gpr} {src : SegField}
    (hud : src = .reserved6 ∨ src = .reserved7 → P .invalidOpcode) : FaultsIn P (movFromSeg w dst src s) := by
  cases src with
  | sreg r =>
    cases dst with
    | reg d => exact faultsIn_ok
    | mem m => exact faultsIn_memWrite hac
  | reserved6 => exact faultsIn_raise (hud (.inl rfl))
  | reserved7 => exact faultsIn_raise (hud (.inr rfl))

theorem faultsIn_loadFromRm {r : SegReg} {src : Rm Gpr} (hseg : ∀ e : SegFault, P e.toFault) :
    FaultsIn P (loadFromRm r src s) := by
  refine faultsIn_ite (fun _ => faultsIn_refuse) fun _ => faultsIn_bind (faultsIn_readRm hac) fun sel => ?_
  split
  · exact faultsIn_ok
  · exact faultsIn_raise (hseg _)
  · exact faultsIn_refuse

end

theorem movToSeg_sreg {r : SegReg} (h : r ≠ .cs) (src : Rm Gpr) (s : State) :
    movToSeg (.sreg r) src s = loadFromRm r src s := by
  cases r with
  | cs => exact absurd rfl h
  | es | ss | ds | fs | gs => rfl

/-! ## The fault table -/

/-- LAHF and SAHF do not exist in LONG64 without LAHF64 (30_encoding.md R182). -/
theorem lahfMissing_iff {s : State} : lahfMissing s = true ↔ s.launch.mode = .long64 ∧ s.launch.lahf64 = false := by
  simp [lahfMissing]

/-- The instruction is undefined in the state: a load of CS, a segment field that names no register, LAHF and SAHF where
they do not exist (30_encoding.md R182, 60_exceptions.md R385). -/
def UndefinedIn (i : Instr) (s : State) : Prop :=
  (∃ m, i = .movSregRm (.sreg .cs) m ∨ i = .movSregRm .reserved6 m ∨ i = .movSregRm .reserved7 m) ∨
    (∃ sz m, i = .movRmSreg sz m .reserved6 ∨ i = .movRmSreg sz m .reserved7) ∨
    ((i = .lahf ∨ i = .sahf) ∧ s.launch.mode = .long64 ∧ s.launch.lahf64 = false)

/-- The instruction can raise the fault in the state (60_exceptions.md R382 to R387). -/
def CanRaise (i : Instr) (s : State) : Fault → Prop
  | .alignmentCheck => True
  | .divideError => (divForm i).isSome = true ∨ (idivForm i).isSome = true
  | .invalidOpcode => UndefinedIn i s
  | .segmentNotPresent _ | .stackFault _ | .generalProtection _ => ∃ r m, i = .movSregRm (.sreg r) m ∧ r ≠ .cs
  | .pageFault _ | .debug _ => False

theorem canRaise_toFault {r : SegReg} (hr : r ≠ .cs) (m : Rm Gpr) (s : State) (e : SegFault) :
    CanRaise (.movSregRm (.sreg r) m) s e.toFault := by
  cases e <;> exact ⟨r, m, rfl, hr⟩

theorem faultsIn_movToSeg (dst : SegField) (src : Rm Gpr) (s : State) :
    FaultsIn (CanRaise (.movSregRm dst src) s) (movToSeg dst src s) := by
  cases dst with
  | sreg r =>
    by_cases hr : r = .cs
    · subst hr
      exact faultsIn_raise (.inl ⟨src, .inl rfl⟩)
    · rw [movToSeg_sreg hr]
      exact faultsIn_loadFromRm trivial (canRaise_toFault hr src s)
  | reserved6 => exact faultsIn_raise (.inl ⟨src, .inr (.inl rfl)⟩)
  | reserved7 => exact faultsIn_raise (.inl ⟨src, .inr (.inr rfl)⟩)

/-- Every instruction runs an operation whose faults it can raise. -/
theorem faultsIn_exec (i : Instr) (s : State) :
    ∃ r : Res State, FaultsIn (CanRaise i s) r ∧ (exec i s = finish r ∨ exec i s = toOutcome r) :=
  match i with
  | .addRm8R8 .. | .addRmR .. | .addRm8Imm8 .. | .addRmImm .. | .addRmSimm8 ..
  | .adcRm8R8 .. | .adcRmR .. | .adcRm8Imm8 .. | .adcRmImm .. | .adcRmSimm8 ..
  | .sbbRm8R8 .. | .sbbRmR .. | .sbbRm8Imm8 .. | .sbbRmImm .. | .sbbRmSimm8 ..
  | .subRm8R8 .. | .subRmR .. | .subRm8Imm8 .. | .subRmImm .. | .subRmSimm8 .. =>
    ⟨_, faultsIn_aluRm trivial, .inl rfl⟩
  | .addAlImm8 .. | .adcAlImm8 .. | .sbbAlImm8 .. | .subAlImm8 .. =>
    ⟨_, faultsIn_aluRm trivial (dst := .reg (.lo .rax)), .inl rfl⟩
  | .addAccImm imm | .adcAccImm imm | .sbbAccImm imm | .subAccImm imm =>
    ⟨_, faultsIn_aluRm trivial (w := imm.size.width) (dst := .reg (.lo .rax)), .inl rfl⟩
  | .addR8Rm8 .. | .addRRm .. | .adcR8Rm8 .. | .adcRRm .. | .sbbR8Rm8 .. | .sbbRRm .. | .subR8Rm8 .. | .subRRm .. =>
    ⟨aluReg _ _ _ _ s, faultsIn_map (faultsIn_readRm trivial), .inl rfl⟩
  | .mulRm8 .. | .mulRm .. => ⟨mulOp _ _ s, faultsIn_map (faultsIn_readRm trivial), .inl rfl⟩
  | .divRm8 .. | .divRm .. => ⟨_, faultsIn_divOp trivial (.inl rfl), .inl rfl⟩
  | .idivRm8 .. | .idivRm .. => ⟨_, faultsIn_idivOp trivial (.inr rfl), .inl rfl⟩
  | .btRmImm8 .. | .btsRmImm8 .. | .btrRmImm8 .. | .btcRmImm8 .. => ⟨_, faultsIn_bitOp trivial, .inl rfl⟩
  | .btRmR .. | .btsRmR .. | .btrRmR .. | .btcRmR .. => ⟨_, faultsIn_bitRegOp trivial, .inl rfl⟩
  | .movR8Imm8 .. | .movRImm .. => ⟨_, faultsIn_ok, .inl rfl⟩
  | .movRm8R8 .. | .movRmR .. | .movRm8Imm8 .. | .movRmImm .. | .setcc .. =>
    ⟨_, faultsIn_writeRm trivial, .inl rfl⟩
  | .movR8Rm8 .. | .movRRm .. => ⟨movToReg _ _ _ s, faultsIn_map (faultsIn_readRm trivial), .inl rfl⟩
  | .movRmSreg sz dst _ =>
    ⟨_, faultsIn_movFromSeg trivial fun h => .inr (.inl ⟨sz, dst, h.imp (by rintro rfl; rfl) (by rintro rfl; rfl)⟩),
      .inl rfl⟩
  | .movSregRm dst src => ⟨_, faultsIn_movToSeg dst src s, .inl rfl⟩
  | .cmovcc .. => ⟨_, faultsIn_cmovOp trivial, .inl rfl⟩
  | .jccRel8 .. | .jccRel32 .. | .loop .. | .loope .. | .loopne .. => ⟨_, faultsIn_ok, .inr rfl⟩
  | .movsb .. | .movs .. => ⟨_, faultsIn_movsOp trivial, .inl rfl⟩
  | .cmpsb .. | .cmps .. => ⟨_, faultsIn_cmpsOp trivial, .inl rfl⟩
  | .scasb | .scas .. => ⟨scasOp _ s, faultsIn_map (faultsIn_memRead trivial), .inl rfl⟩
  | .lodsb .. | .lods .. => ⟨lodsOp _ _ s, faultsIn_map (faultsIn_memRead trivial), .inl rfl⟩
  | .stosb | .stos .. => ⟨stosOp _ s, faultsIn_map (faultsIn_memWrite trivial), .inl rfl⟩
  | .push .. | .pushf .. => ⟨push _ _ s, faultsIn_map (faultsIn_memWrite trivial), .inl rfl⟩
  | .pop .. => ⟨popOp _ _ s, faultsIn_bind (faultsIn_pop trivial) fun _ => faultsIn_ok, .inl rfl⟩
  | .popf .. => ⟨popfOp _ s, faultsIn_bind (faultsIn_pop trivial) fun _ => faultsIn_ok, .inl rfl⟩
  | .cmc | .clc | .stc | .cld | .std => ⟨_, faultsIn_ok, .inl rfl⟩
  | .lahf =>
    ⟨lahfOp s, faultsIn_ite (fun h => faultsIn_raise (.inr (.inr ⟨.inl rfl, lahfMissing_iff.1 h⟩))) fun _ => faultsIn_ok,
      .inl rfl⟩
  | .sahf =>
    ⟨sahfOp s, faultsIn_ite (fun h => faultsIn_raise (.inr (.inr ⟨.inr rfl, lahfMissing_iff.1 h⟩))) fun _ => faultsIn_ok,
      .inl rfl⟩
  | .iret | .cpuid => ⟨_, faultsIn_refuse, .inl rfl⟩

/-- A fault of an instruction is one that it can raise. -/
theorem canRaise_of_exec {i : Instr} {s : State} {f : Fault} (h : exec i s = .fault f) : CanRaise i s f := by
  obtain ⟨r, hr, he | he⟩ := faultsIn_exec i s
  · exact hr f (finish_eq_fault_iff.1 (he.symm.trans h))
  · exact hr f (toOutcome_eq_fault_iff.1 (he.symm.trans h))

/-- An undefined instruction raises `#UD` (60_exceptions.md R385). -/
theorem exec_of_undefinedIn {i : Instr} {s : State} (h : UndefinedIn i s) : exec i s = .fault .invalidOpcode := by
  obtain ⟨m, rfl | rfl | rfl⟩ | ⟨sz, m, rfl | rfl⟩ | ⟨rfl | rfl, hmissing⟩ := h
  · rfl
  · rfl
  · rfl
  · rfl
  · rfl
  · exact finish_eq_fault_iff.2 (if_pos (lahfMissing_iff.2 hmissing))
  · exact finish_eq_fault_iff.2 (if_pos (lahfMissing_iff.2 hmissing))

/-- Settles O18: the fault table read for each fault, and the undefined instructions run. -/
theorem faultSources : Obligations.FaultSources := fun _ _ =>
  ⟨canRaise_of_exec, ⟨canRaise_of_exec, exec_of_undefinedIn⟩,
    fun _ h => h.elim canRaise_of_exec fun h => h.elim canRaise_of_exec canRaise_of_exec,
    fun _ => canRaise_of_exec, fun _ => canRaise_of_exec⟩

/-! ## Where MOV Sreg stops -/

/-- With its source readable, the load of a segment register stops where the lookup does not accept the selector
(42_data_movement.md R296). -/
theorem loadFromRm_stops {r : SegReg} {src : Rm Gpr} {s : State} (hss : r = .ss → getFlag s.rflags .tf = false)
    (hread : RmReadable .b16 (wide src) s) :
    (∀ e, descLookup s r (rmValue .b16 (wide src) s) = .fault e → loadFromRm r src s = raise e.toFault) ∧
      (descLookup s r (rmValue .b16 (wide src) s) = .unknown → loadFromRm r src s = refuse .unknownSelector) := by
  have htf : ¬ (r = .ss ∧ getFlag s.rflags .tf = true) := fun ⟨hr, h⟩ => Bool.eq_false_iff.1 (hss hr) h
  have hval : readRm .b16 (wide src) s = .ok (rmValue .b16 (wide src) s) := readRm_eq_ok_iff.2 ⟨hread, rfl⟩
  rw [loadFromRm, if_neg htf, hval]
  refine ⟨fun e he => ?_, fun hunknown => ?_⟩
  · simp only [bind, Except.bind, he]
  · simp only [bind, Except.bind, hunknown]

/-- Settles O41: `#UD` by the field, the refusal of SS before its source is read, and the answers of the lookup. -/
theorem movToSegmentStops : Obligations.MovToSegmentStops := by
  intro r src s
  refine ⟨rfl, rfl, rfl, fun htf => finish_eq_refused_iff.2 (if_pos ⟨rfl, htf⟩), fun hr hss hread => ?_⟩
  obtain ⟨hfault, hunknown⟩ := loadFromRm_stops hss hread
  rw [← movToSeg_sreg hr] at hfault hunknown
  exact ⟨fun e he => finish_eq_fault_iff.2 (hfault e he), fun hu => finish_eq_refused_iff.2 (hunknown hu)⟩

end Sys2Proof.Machine
end

section
/-!
SUPPORT. The free bits that an instruction draws (spec/70_reset_and_hazards.md R441): one for each flag that it leaves
undefined, in the order of `undefinedFlags`; two for VIF and VIP under POPFD and POPFQ (spec/40_flag_control.md R230); and no
other.
-/
namespace Sys2Proof.Machine

/-! ## Drawing a list of flags -/

/-- Each of the drawn flags holds the free bit at its place in the list. -/
theorem getFlag_drawFlags {fs : List Flag} (hfs : fs.Nodup) (s : State) {k : Nat} (hk : k < fs.length) :
    getFlag (drawFlags s fs).rflags fs[k] = Config.freeBit (s.draws + k) := by
  induction fs generalizing s k with
  | nil => cases hk
  | cons f fs ih =>
    obtain ⟨hf, hfs⟩ := List.nodup_cons.1 hfs
    cases k with
    | zero => exact (getFlag_drawFlags_of_ne (drawFlag s f) fs f hf).trans (getFlag_setFlag_self ..)
    | succ k =>
      refine (ih hfs (drawFlag s f) (Nat.lt_of_succ_lt_succ hk)).trans (congrArg Config.freeBit ?_)
      rw [drawFlag_draws]
      omega

/-! ## What an instruction draws -/

/-- What the instruction leaves undefined in `t` are free bits that no one drew before `s`, and it draws no other bit. -/
def DrawsFreeBits (i : Instr) (s t : State) : Prop :=
  (∀ k (h : k < (undefinedFlags i).length),
    getFlag t.rflags (undefinedFlags i)[k] = Config.freeBit (s.draws + k)) ∧
    (i = .popf .w32 ∨ i = .popf .w64 →
      getFlag t.rflags .vif = (getFlag s.rflags .vif && Config.freeBit s.draws) ∧
        getFlag t.rflags .vip = (getFlag s.rflags .vip && Config.freeBit (s.draws + 1))) ∧
    t.draws = s.draws + (undefinedFlags i).length + (if i = .popf .w32 ∨ i = .popf .w64 then 2 else 0)

/-- An operation that ends by drawing the flags that its instruction leaves undefined. -/
theorem drawsFreeBits_drawFlags {i : Instr} {s u : State} {fs : List Flag} (hi : undefinedFlags i = fs)
    (hpopf : ∀ sz, i ≠ .popf sz) (hfs : fs.Nodup) (hu : u.draws = s.draws) :
    DrawsFreeBits i s (drawFlags u fs) := by
  subst hi
  have hwide : ¬ (i = .popf .w32 ∨ i = .popf .w64) := fun h => h.elim (hpopf .w32) (hpopf .w64)
  refine ⟨fun k hk => ?_, fun h => absurd h hwide, ?_⟩
  · rw [getFlag_drawFlags hfs, hu]
  · rw [drawFlags_draws, hu, if_neg hwide]
    rfl

/-- The result, if it is a state, has drawn nothing since `s`. -/
def DrawsNothing (s : State) (r : Res State) : Prop := ∀ t, r = .ok t → t.draws = s.draws

/-! ## Operations that draw nothing -/

section
variable {s : State}

theorem drawsNothing_ok {u : State} (h : u.draws = s.draws) : DrawsNothing s (.ok u) := by
  rintro _ ⟨⟩
  exact h

theorem drawsNothing_refuse {q : Refusal} : DrawsNothing s (refuse q) := fun _ h => absurd h (refuse_ne_ok _ _)

theorem drawsNothing_raise {f : Fault} : DrawsNothing s (raise f) := fun _ h => absurd h (raise_ne_ok _ _)

theorem drawsNothing_ite {p : Prop} [Decidable p] {x y : Res State} (hx : DrawsNothing s x) (hy : DrawsNothing s y) :
    DrawsNothing s (if p then x else y) := by
  split
  · exact hx
  · exact hy

/-- Reading a value draws nothing. -/
theorem drawsNothing_bind {α : Type} {x : Res α} {k : α → Res State} (hk : ∀ a, DrawsNothing s (k a)) :
    DrawsNothing s (x >>= k) := fun t ht => by
  obtain ⟨a, -, ha⟩ := bind_eq_ok_iff.1 ht
  exact hk a t ha

/-- An update of what another operation leaves. -/
theorem drawsNothing_map {x : Res State} {g : State → State} (hx : DrawsNothing s x) (hg : ∀ u, (g u).draws = u.draws) :
    DrawsNothing s (x >>= fun u => .ok (g u)) := fun t ht => by
  obtain ⟨u, hu, hgu⟩ := bind_eq_ok_iff.1 ht
  cases hgu
  exact (hg u).trans (hx u hu)

theorem drawsNothing_memWrite {a : Quad} {n : Nat} {v : BitVec (8 * n)} : DrawsNothing s (memWrite s a n v) :=
  fun _ h => by rw [(memWrite_ok h).2, storeBytes_draws]

theorem drawsNothing_writeRm {w : Width} {dst : Rm Reg8} {v : BitVec w.bits} : DrawsNothing s (writeRm w dst v s) :=
  fun _ h => by rw [(writeRm_eq_ok_iff.1 h).2, storeRm_draws]

theorem drawsNothing_aluRm {op : AluOp} {w : Width} {dst : Rm Reg8} {b : BitVec w.bits} :
    DrawsNothing s (aluRm op w dst b s) :=
  drawsNothing_bind fun _ => drawsNothing_map drawsNothing_writeRm fun _ => rfl

theorem drawsNothing_aluReg {op : AluOp} {w : Width} {dst : Reg8} {src : Rm Reg8} :
    DrawsNothing s (aluReg op w dst src s) :=
  drawsNothing_bind fun _ => drawsNothing_ok (by simp)

theorem drawsNothing_movToReg {w : Width} {dst : Reg8} {src : Rm Reg8} : DrawsNothing s (movToReg w dst src s) :=
  drawsNothing_bind fun _ => drawsNothing_ok (by simp)

theorem drawsNothing_movFromSeg {w : Width} {dst : Rm Gpr} {src : SegField} : DrawsNothing s (movFromSeg w dst src s) :=
  fun _ h => by
    obtain ⟨_, -, ⟨_, -, rfl⟩ | ⟨_, -, -, rfl⟩⟩ := movFromSeg_eq_ok_iff.1 h
    · exact writeReg_draws ..
    · rfl

theorem drawsNothing_movToSeg {dst : SegField} {src : Rm Gpr} : DrawsNothing s (movToSeg dst src s) := fun _ h => by
  obtain ⟨_, -, -, hl⟩ := movToSeg_eq_ok_iff.1 h
  obtain ⟨-, -, _, -, rfl⟩ := loadFromRm_eq_ok_iff.1 hl
  rfl

theorem drawsNothing_cmovOp {c : Cond} {w : Width} {dst : Gpr} {src : Rm Gpr} : DrawsNothing s (cmovOp c w dst src s) :=
  drawsNothing_bind fun _ =>
    drawsNothing_ite (drawsNothing_ok rfl) (drawsNothing_ite (drawsNothing_ok rfl) (drawsNothing_ok rfl))

theorem drawsNothing_movsOp {w : Width} {seg : Option SegReg} : DrawsNothing s (movsOp w seg s) :=
  drawsNothing_bind fun _ => drawsNothing_map drawsNothing_memWrite fun _ => rfl

theorem drawsNothing_cmpsOp {w : Width} {seg : Option SegReg} : DrawsNothing s (cmpsOp w seg s) :=
  drawsNothing_bind fun _ => drawsNothing_bind fun _ => drawsNothing_ok rfl

theorem drawsNothing_scasOp {w : Width} : DrawsNothing s (scasOp w s) :=
  drawsNothing_bind fun _ => drawsNothing_ok rfl

theorem drawsNothing_lodsOp {w : Width} {seg : Option SegReg} : DrawsNothing s (lodsOp w seg s) :=
  drawsNothing_bind fun _ => drawsNothing_ok (by simp)

theorem drawsNothing_stosOp {w : Width} : DrawsNothing s (stosOp w s) :=
  drawsNothing_map drawsNothing_memWrite fun _ => rfl

theorem drawsNothing_push {w : Width} {v : BitVec w.bits} : DrawsNothing s (push w v s) :=
  drawsNothing_map drawsNothing_memWrite fun _ => rfl

theorem drawsNothing_popOp {w : Width} {r : Gpr} : DrawsNothing s (popOp w r s) := fun _ h => by
  rw [(popOp_eq_ok_iff.1 h).2, writeReg_draws, writeAddrReg_draws]

theorem drawsNothing_lahfOp : DrawsNothing s (lahfOp s) := drawsNothing_ite drawsNothing_raise (drawsNothing_ok rfl)

theorem drawsNothing_sahfOp : DrawsNothing s (sahfOp s) := drawsNothing_ite drawsNothing_raise (drawsNothing_ok rfl)

end

/-! ## Operations that draw -/

section
variable {i : Instr} {s t : State} {w : Width}

theorem drawsFreeBits_mulOp {src : Rm Reg8} (hi : undefinedFlags i = [.sf, .zf, .af, .pf])
    (hpopf : ∀ sz, i ≠ .popf sz) (h : mulOp w src s = .ok t) : DrawsFreeBits i s t := by
  obtain ⟨-, rfl⟩ := mulOp_eq_ok_iff.1 h
  exact drawsFreeBits_drawFlags hi hpopf (by decide) (by simp)

theorem drawsFreeBits_divResult (hi : undefinedFlags i = [.of, .sf, .zf, .af, .pf, .cf])
    (hpopf : ∀ sz, i ≠ .popf sz) (q m : BitVec w.bits) : DrawsFreeBits i s (divResult w q m s) :=
  drawsFreeBits_drawFlags hi hpopf (by decide) (writePair_draws ..)

theorem drawsFreeBits_divOp {src : Rm Reg8} (hi : undefinedFlags i = [.of, .sf, .zf, .af, .pf, .cf])
    (hpopf : ∀ sz, i ≠ .popf sz) (h : divOp w src s = .ok t) : DrawsFreeBits i s t := by
  obtain ⟨-, -, -, rfl⟩ := divOp_eq_ok_iff.1 h
  exact drawsFreeBits_divResult hi hpopf ..

theorem drawsFreeBits_idivOp {src : Rm Reg8} (hi : undefinedFlags i = [.of, .sf, .zf, .af, .pf, .cf])
    (hpopf : ∀ sz, i ≠ .popf sz) (h : idivOp w src s = .ok t) : DrawsFreeBits i s t := by
  obtain ⟨-, -, -, -, rfl⟩ := idivOp_eq_ok_iff.1 h
  exact drawsFreeBits_divResult hi hpopf ..

theorem draws_bitStore {act : BitAction} {base : Rm Reg8} {off : Nat} : (bitStore act w base off s).draws = s.draws := by
  unfold bitStore
  split
  · rfl
  · exact storeRm_draws ..

theorem drawsFreeBits_bitOp {act : BitAction} {base : Rm Reg8} {off : Nat} (hi : undefinedFlags i = [.of, .sf, .af, .pf])
    (hpopf : ∀ sz, i ≠ .popf sz) (h : bitOp act w base off s = .ok t) : DrawsFreeBits i s t := by
  obtain ⟨-, -, rfl⟩ := bitOp_eq_ok_iff.1 h
  exact drawsFreeBits_drawFlags hi hpopf (by decide) draws_bitStore

theorem drawsFreeBits_bitRegOp {act : BitAction} {base : Rm Gpr} {off : Gpr}
    (hi : undefinedFlags i = [.of, .sf, .af, .pf]) (hpopf : ∀ sz, i ≠ .popf sz)
    (h : bitRegOp act w base off s = .ok t) : DrawsFreeBits i s t := by
  obtain ⟨_, -, hb⟩ := bitRegOp_eq_ok_iff.1 h
  exact drawsFreeBits_bitOp hi hpopf hb

/-- No pop into the flags takes VIF or VIP from the stack (40_flag_control.md R230). -/
theorem getFlag_mergeBits_popfMask {v : Quad} {f : Flag} (hf : notPopped.getLsbD f.bit = true) :
    getFlag (mergeBits s.rflags v (popfMask s.launch.cpl (iopl s.rflags) s.launch.idToggle)) f = getFlag s.rflags f := by
  have hm : (popfMask s.launch.cpl (iopl s.rflags) s.launch.idToggle).getLsbD f.bit = false :=
    loadMask_of_notPopped hf .w32 s
  rw [getFlag, getLsbD_mergeBits, hm]
  rfl

/-- VIF takes the first free bit, VIP the second (log 11). -/
theorem drawsFreeBits_popfOp {sz : OpSize} (h : popfOp sz s = .ok t) : DrawsFreeBits (.popf sz) s t := by
  obtain ⟨-, rfl⟩ := popfOp_eq_ok_iff.1 h
  refine ⟨nofun, ?_⟩
  cases sz with
  | w16 => exact ⟨by simp, rfl⟩
  | w32 | w64 =>
    have hkeep {v : Quad} {f : Flag} := getFlag_mergeBits_popfMask (s := s) (v := v) (f := f)
    exact ⟨fun _ => by simp [loadFlags, hkeep (f := .vif) (by decide), hkeep (f := .vip) (by decide)], rfl⟩

end

/-! ## All instructions -/

section
variable {i : Instr} {s : State} {r : Res State}

/-- The move of `pc` at the end of an instruction draws nothing. -/
theorem drawsFreeBits_of_finish (hr : ∀ u, r = .ok u → DrawsFreeBits i s u) (he : exec i s = finish r) (t : State)
    (h : exec i s = .next t) : DrawsFreeBits i s t := by
  obtain ⟨u, hu, rfl⟩ := finish_eq_next_iff.1 (he.symm.trans h)
  exact hr u hu

/-- An instruction that leaves no flag undefined and whose operation draws nothing. -/
theorem drawsFreeBits_of_quiet (hr : DrawsNothing s r) (he : exec i s = finish r ∨ exec i s = toOutcome r)
    (hi : undefinedFlags i = [] := by rfl) (hpopf : ∀ sz, i ≠ .popf sz := by nofun) (t : State)
    (h : exec i s = .next t) : DrawsFreeBits i s t := by
  have hdraws : ∀ u, r = .ok u → DrawsFreeBits i s u := fun u hu => drawsFreeBits_drawFlags hi hpopf .nil (hr u hu)
  obtain he | he := he
  · exact drawsFreeBits_of_finish hdraws he t h
  · exact hdraws t (toOutcome_eq_next_iff.1 (he.symm.trans h))

end

/-- Every instruction draws what it leaves undefined: each by the operation that it runs. -/
theorem drawsFreeBits_exec (i : Instr) (s : State) : ∀ t, exec i s = .next t → DrawsFreeBits i s t :=
  match i with
  | .mulRm8 .. | .mulRm .. => drawsFreeBits_of_finish (fun _ => drawsFreeBits_mulOp rfl nofun) rfl
  | .divRm8 .. | .divRm .. => drawsFreeBits_of_finish (fun _ => drawsFreeBits_divOp rfl nofun) rfl
  | .idivRm8 .. | .idivRm .. => drawsFreeBits_of_finish (fun _ => drawsFreeBits_idivOp rfl nofun) rfl
  | .btRmImm8 .. | .btsRmImm8 .. | .btrRmImm8 .. | .btcRmImm8 .. =>
    drawsFreeBits_of_finish (fun _ => drawsFreeBits_bitOp rfl nofun) rfl
  | .btRmR .. | .btsRmR .. | .btrRmR .. | .btcRmR .. =>
    drawsFreeBits_of_finish (fun _ => drawsFreeBits_bitRegOp rfl nofun) rfl
  | .popf .. => drawsFreeBits_of_finish (fun _ => drawsFreeBits_popfOp) rfl
  | .addRm8R8 .. | .addRmR .. | .addRm8Imm8 .. | .addRmImm .. | .addRmSimm8 ..
  | .adcRm8R8 .. | .adcRmR .. | .adcRm8Imm8 .. | .adcRmImm .. | .adcRmSimm8 ..
  | .sbbRm8R8 .. | .sbbRmR .. | .sbbRm8Imm8 .. | .sbbRmImm .. | .sbbRmSimm8 ..
  | .subRm8R8 .. | .subRmR .. | .subRm8Imm8 .. | .subRmImm .. | .subRmSimm8 .. =>
    drawsFreeBits_of_quiet drawsNothing_aluRm (.inl rfl)
  | .addAlImm8 .. | .adcAlImm8 .. | .sbbAlImm8 .. | .subAlImm8 .. =>
    drawsFreeBits_of_quiet (drawsNothing_aluRm (dst := .reg (.lo .rax))) (.inl rfl)
  | .addAccImm imm | .adcAccImm imm | .sbbAccImm imm | .subAccImm imm =>
    drawsFreeBits_of_quiet (drawsNothing_aluRm (w := imm.size.width) (dst := .reg (.lo .rax))) (.inl rfl)
  | .addR8Rm8 .. | .addRRm .. | .adcR8Rm8 .. | .adcRRm .. | .sbbR8Rm8 .. | .sbbRRm .. | .subR8Rm8 .. | .subRRm .. =>
    drawsFreeBits_of_quiet drawsNothing_aluReg (.inl rfl)
  | .movR8Imm8 .. | .movRImm .. => drawsFreeBits_of_quiet (drawsNothing_ok (writeReg_draws ..)) (.inl rfl)
  | .movRm8R8 .. | .movRmR .. | .movRm8Imm8 .. | .movRmImm .. | .setcc .. =>
    drawsFreeBits_of_quiet drawsNothing_writeRm (.inl rfl)
  | .movR8Rm8 .. | .movRRm .. => drawsFreeBits_of_quiet drawsNothing_movToReg (.inl rfl)
  | .movRmSreg .. => drawsFreeBits_of_quiet drawsNothing_movFromSeg (.inl rfl)
  | .movSregRm .. => drawsFreeBits_of_quiet drawsNothing_movToSeg (.inl rfl)
  | .cmovcc .. => drawsFreeBits_of_quiet drawsNothing_cmovOp (.inl rfl)
  | .jccRel8 .. | .jccRel32 .. => drawsFreeBits_of_quiet (drawsNothing_ok (branchIf_draws ..)) (.inr rfl)
  | .loop .. | .loope .. | .loopne .. => drawsFreeBits_of_quiet (drawsNothing_ok (loopOp_draws ..)) (.inr rfl)
  | .movsb .. | .movs .. => drawsFreeBits_of_quiet drawsNothing_movsOp (.inl rfl)
  | .cmpsb .. | .cmps .. => drawsFreeBits_of_quiet drawsNothing_cmpsOp (.inl rfl)
  | .scasb | .scas .. => drawsFreeBits_of_quiet drawsNothing_scasOp (.inl rfl)
  | .lodsb .. | .lods .. => drawsFreeBits_of_quiet drawsNothing_lodsOp (.inl rfl)
  | .stosb | .stos .. => drawsFreeBits_of_quiet drawsNothing_stosOp (.inl rfl)
  | .push .. | .pushf .. => drawsFreeBits_of_quiet drawsNothing_push (.inl rfl)
  | .pop .. => drawsFreeBits_of_quiet drawsNothing_popOp (.inl rfl)
  | .cmc | .clc | .stc | .cld | .std => drawsFreeBits_of_quiet (r := setFlagOp _ _ s) (drawsNothing_ok rfl) (.inl rfl)
  | .lahf => drawsFreeBits_of_quiet drawsNothing_lahfOp (.inl rfl)
  | .sahf => drawsFreeBits_of_quiet drawsNothing_sahfOp (.inl rfl)
  | .iret | .cpuid => drawsFreeBits_of_quiet drawsNothing_refuse (.inl rfl)

/-- Settles O20, instruction by instruction. -/
theorem freeBitsDrawn : Obligations.FreeBitsDrawn := drawsFreeBits_exec

end Sys2Proof.Machine
end

section
/-!
SUPPORT. PUSH and POP of a register (spec/40_flag_control.md R220, R221, R232, R233): what a push and a pop leave when their
stack slot can be accessed.
-/
namespace Sys2Proof.Machine

/-- Reduction before an addition changes nothing after it. -/
theorem truncAddr_truncAddr_add (md : Mode) (a b : Quad) : truncAddr md (truncAddr md a + b) = truncAddr md (a + b) := by
  cases md with
  | prot32 =>
    simp only [truncAddr]
    bv_omega
  | long64 => rfl

/-- An instruction that runs a push (40_flag_control.md R220). -/
theorem push_completes {w : Width} {s : State} (hwf : Memory.wf s.mem = true)
    (h : Writable s (stackSlot s w.bytes) w.bytes) (v : BitVec w.bits) :
    ∃ t, finish (push w v s) = .next t ∧ Stored (stackSlot s w.bytes) w.bytes v s t ∧
      t.gpr.get .rsp = truncAddr s.launch.mode (s.gpr.get .rsp - BitVec.ofNat 64 w.bytes) ∧
      GprSameBut [.rsp] s t ∧ t.rflags = s.rflags ∧ SegmentsSame s t ∧ SystemSame s t ∧ t.pc = s.pcNext := by
  have hstored := stored_storeBytes hwf (stackSlot s w.bytes) w.bytes v
  rw [← pushAddr_eq_stackSlot] at h hstored ⊢
  refine ⟨_, finish_eq_next_iff.2 ⟨_, push_eq_ok_iff.2 ⟨h, rfl⟩, rfl⟩, hstored, ?_, fun r hr => ?_, rfl, ⟨rfl, rfl⟩,
    ⟨rfl, rfl, rfl⟩, rfl⟩
  · simp [readAddrReg, truncAddr_truncAddr_sub]
  · simp [List.mem_singleton.not.1 hr]

/-- The state in which a pop of `n` bytes has moved the stack pointer (40_flag_control.md R221). -/
def popped (n : Nat) (s : State) : State := writeAddrReg .rsp (readAddrReg .rsp s + BitVec.ofNat 64 n) s

theorem get_popped (n : Nat) (s : State) (r : Gpr) :
    (popped n s).gpr.get r =
      if r = .rsp then truncAddr s.launch.mode (s.gpr.get .rsp + BitVec.ofNat 64 n) else s.gpr.get r := by
  simp [popped, readAddrReg, truncAddr_truncAddr_add]

theorem gprSameBut_popped (n : Nat) (s : State) : GprSameBut [.rsp] s (popped n s) := fun r hr => by
  rw [get_popped, if_neg (List.mem_singleton.not.1 hr)]

/-- Settles O52: the register is read before the push. -/
theorem pushCompletes : Obligations.PushCompletes :=
  fun sz r s hwf h => push_completes hwf h (readReg sz.width (.lo r) s)

/-- What a pop into `r` leaves in each general register (40_flag_control.md R233). -/
theorem get_writeReg_popped (w : Width) (r q : Gpr) (v : BitVec w.bits) (s : State) :
    (writeReg w (.lo r) v (popped w.bytes s)).gpr.get q =
      if q = r then mergeLow w ((popped w.bytes s).gpr.get r) v else (popped w.bytes s).gpr.get q :=
  get_writeReg ..

/-- Settles O53: the register is written in the state in which the pointer has moved. -/
theorem popCompletes : Obligations.PopCompletes := by
  intro sz r s src sp hread
  have hget (q : Gpr) := get_writeReg_popped sz.width r q (memValue s src sz.width.bytes) s
  have hsp : (popped sz.width.bytes s).gpr.get .rsp = sp := (get_popped ..).trans (if_pos rfl)
  refine ⟨_, finish_eq_next_iff.2 ⟨_, popOp_eq_ok_iff.2 ⟨hread, rfl⟩, rfl⟩, readReg_writeReg _ (.lo r) _ _ trivial,
    fun hr => ⟨?_, ?_⟩, ?_, fun q hq => ?_, rfl, fun _ => rfl, ⟨rfl, rfl⟩, ⟨rfl, rfl, rfl⟩, rfl⟩
  · exact (hget .rsp).trans ((if_neg hr.symm).trans hsp)
  · rw [get_popped, if_neg hr] at hget
    exact (hget r).trans (if_pos rfl)
  · rintro rfl
    rw [hsp] at hget
    exact (hget .rsp).trans (if_pos rfl)
  · obtain ⟨hqsp, hqr⟩ : q ≠ .rsp ∧ q ≠ r := by simpa using hq
    exact (hget q).trans ((if_neg hqr).trans ((get_popped ..).trans (if_neg hqsp)))

end Sys2Proof.Machine
end

section
/-!
SUPPORT. The flags as data: what PUSHF stores, which bits POPF takes from the stack, and the flags byte of LAHF and SAHF
(spec/40_flag_control.md R227 to R231).
-/
namespace Sys2Proof.Machine

/-! ## The reserved bits -/

/-- A reserved bit holds its fixed value: bit 1 is 1, the others are 0 (10_state.md R52, R79). -/
theorem getLsbD_of_reservedOk {fl : Quad} (h : reservedOk fl = true) {k : Nat} (hk : reservedMask.getLsbD k = true) :
    fl.getLsbD k = (2#64).getLsbD k := by
  have hand : (fl &&& reservedMask).getLsbD k = (2#64).getLsbD k := congrArg (BitVec.getLsbD · k) (beq_iff_eq.1 h)
  rwa [BitVec.getLsbD_and, hk, Bool.and_true] at hand

/-! ## PUSHF -/

/-- The flags without RF and VM: the mask of the image clears reserved bits only, beside these two (40_flag_control.md
R229). -/
theorem getLsbD_pushfImage {fl : Quad} (h : reservedOk fl = true) {k : Nat} (hk : k < 64) :
    (pushfImage fl).getLsbD k = (fl.getLsbD k && k != 16 && k != 17) := by
  rw [pushfImage, BitVec.getLsbD_and, Bool.and_assoc]
  cases hr : reservedMask.getLsbD k with
  | true =>
    rw [getLsbD_of_reservedOk h hr]
    revert k
    decide
  | false =>
    refine congrArg (fl.getLsbD k && ·) ?_
    revert k
    decide

theorem getLsbD_flagsImage {sz : OpSize} {fl : Quad} (h : reservedOk fl = true) {k : Nat} (hk : k < sz.width.bits) :
    (flagsImage sz fl).getLsbD k = (fl.getLsbD k && k != 16 && k != 17) := by
  cases sz with
  | w16 =>
    have hk16 : k < 16 := hk
    have hlow : (flagsImage .w16 fl).getLsbD k = fl.getLsbD k :=
      (BitVec.getLsbD_setWidth ..).trans (by rw [decide_eq_true hk, Bool.true_and])
    rw [hlow, bne_iff_ne.2 (show k ≠ 16 by omega), bne_iff_ne.2 (show k ≠ 17 by omega), Bool.and_true, Bool.and_true]
  | w32 =>
    have hk32 : k < 32 := hk
    have hlow : (flagsImage .w32 fl).getLsbD k = (pushfImage fl).getLsbD k :=
      (BitVec.getLsbD_setWidth ..).trans (by rw [decide_eq_true hk, Bool.true_and])
    rw [hlow, getLsbD_pushfImage h (by omega)]
  | w64 => exact getLsbD_pushfImage h hk

/-- Settles O54: a push of the image of the flags. -/
theorem pushfCompletes : Obligations.PushfCompletes := by
  intro sz s hwf hres h
  obtain ⟨t, he, hstored, hframe⟩ := push_completes hwf h (flagsImage sz s.rflags)
  exact ⟨t, _, he, hstored, fun _ => getLsbD_flagsImage hres, hframe⟩

/-! ## POPF -/

/-- The bits that POPF takes from the stack, by CPL, IOPL and whether ID can be toggled (40_flag_control.md R230). -/
def TakesBit (sz : OpSize) (s : State) (k : Nat) : Prop :=
  k ∈ [0, 2, 4, 6, 7, 8, 10, 11, 14] ∨ (k = 9 ∧ s.launch.cpl ≤ iopl s.rflags) ∨
    ((k = 12 ∨ k = 13) ∧ s.launch.cpl = 0) ∨ (k = 18 ∧ sz ≠ .w16) ∨ (k = 21 ∧ sz ≠ .w16 ∧ s.launch.idToggle = true)

/-- RF, VIF and VIP are not among them. -/
theorem TakesBit.ne {sz : OpSize} {s : State} {k : Nat} (h : TakesBit sz s k) : k ≠ 16 ∧ k ≠ 19 ∧ k ≠ 20 := by
  simp only [TakesBit, List.mem_cons, List.not_mem_nil, or_false] at h
  omega

theorem getLsbD_popfMask16 (cpl io : BitVec 2) (k : Nat) :
    (popfMask16 cpl io).getLsbD k = true ↔
      k ∈ [0, 2, 4, 6, 7, 8, 10, 11, 14] ∨ (k = 9 ∧ cpl ≤ io) ∨ ((k = 12 ∨ k = 13) ∧ cpl = 0) := by
  by_cases hk : k < 64
  · unfold popfMask16
    split
    · rename_i h0
      subst h0
      have hle : 0 ≤ io := by bv_omega
      simp only [hle, and_true]
      revert k
      decide
    · rename_i h0
      split
      · rename_i hle
        simp only [h0, hle, and_true, and_false, or_false]
        revert k
        decide
      · rename_i hle
        simp only [h0, hle, and_false, or_false]
        revert k
        decide
  · rw [BitVec.getLsbD_of_ge _ _ (by omega)]
    simp only [Bool.false_eq_true, false_iff, List.mem_cons, List.not_mem_nil, or_false]
    omega

/-- The wider forms take AC besides, and ID when it can be toggled (40_flag_control.md R230). -/
theorem popfMask_eq (cpl io : BitVec 2) (b : Bool) :
    popfMask cpl io b = popfMask16 cpl io ||| BitVec.twoPow 64 18 ||| (if b then BitVec.twoPow 64 21 else 0#64) := by
  unfold popfMask popfMask16
  cases b <;> split_ifs <;> rfl

theorem getLsbD_loadMask (sz : OpSize) (s : State) (k : Nat) : (loadMask sz s).getLsbD k = true ↔ TakesBit sz s k := by
  cases sz with
  | w16 => simp [loadMask, TakesBit, getLsbD_popfMask16]
  | w32 | w64 =>
    have hac : (BitVec.twoPow 64 18).getLsbD k = true ↔ k = 18 := by simp [BitVec.getLsbD_twoPow, eq_comm]
    have hid : (if s.launch.idToggle then BitVec.twoPow 64 21 else 0#64).getLsbD k = true ↔
        k = 21 ∧ s.launch.idToggle = true := by
      cases s.launch.idToggle <;> simp [BitVec.getLsbD_twoPow, eq_comm]
    rw [loadMask, popfMask_eq, BitVec.getLsbD_or, BitVec.getLsbD_or, Bool.or_eq_true, Bool.or_eq_true, hac, hid,
      getLsbD_popfMask16]
    simp [TakesBit, or_assoc]

/-- A pop into the flags takes the bits of the mask from the stack and leaves the others, but for RF, VIF and VIP in the
wider forms (40_flag_control.md R230, R231). -/
theorem getLsbD_loadFlags_eq_ite {sz : OpSize} (v : BitVec sz.width.bits) {s : State} {k : Nat}
    (hk : sz ≠ .w16 → k ≠ 16 ∧ k ≠ 19 ∧ k ≠ 20) :
    (loadFlags sz v s).rflags.getLsbD k =
      if (loadMask sz s).getLsbD k then (v.setWidth 64).getLsbD k else s.rflags.getLsbD k := by
  cases sz with
  | w16 => exact getLsbD_mergeBits ..
  | w32 | w64 =>
    obtain ⟨hrf, hvif, hvip⟩ := hk nofun
    simp only [loadFlags, drawKeepOrClear_rflags, withFlags_rflags, getLsbD_setFlag]
    rw [if_neg (show k ≠ Flag.bit .vip from hvip), if_neg (show k ≠ Flag.bit .vif from hvif),
      if_neg (show k ≠ Flag.bit .rf from hrf), getLsbD_mergeBits]
    rfl

theorem getFlag_loadFlags_rf {sz : OpSize} (hsz : sz ≠ .w16) (v : BitVec sz.width.bits) (s : State) :
    getFlag (loadFlags sz v s).rflags .rf = false := by
  cases sz with
  | w16 => exact absurd rfl hsz
  | w32 | w64 => simp [loadFlags]

/-- Settles O55: the bits of the mask, RF, VIF and VIP, and the rest. -/
theorem popfCompletes : Obligations.PopfCompletes := by
  intro sz s src image loaded hread
  have hmask (k : Nat) : (loadMask sz (popped sz.width.bytes s)).getLsbD k = true ↔ loaded k := getLsbD_loadMask sz s k
  have hgpr (q : Gpr) : (loadFlags sz image (popped sz.width.bytes s)).gpr.get q = (popped sz.width.bytes s).gpr.get q :=
    congrArg (GprFile.get · q) (loadFlags_gpr ..)
  refine ⟨_, finish_eq_next_iff.2 ⟨_, popfOp_eq_ok_iff.2 ⟨hread, rfl⟩, rfl⟩, fun k hk => ?_, fun hsz => ⟨?_, ?_, ?_⟩,
    fun k hk hne => ?_, ?_, ?_, ?_, ?_, ?_, ?_⟩
  · have hbit := (getLsbD_loadFlags_eq_ite image fun _ => TakesBit.ne hk).trans (if_pos ((hmask k).2 hk))
    rw [BitVec.getLsbD_setWidth, decide_eq_true (BitVec.lt_of_getLsbD ((hmask k).2 hk)), Bool.true_and] at hbit
    exact hbit
  · exact getFlag_loadFlags_rf hsz ..
  · exact getFlag_of_loadFlags (.inl rfl)
  · exact getFlag_of_loadFlags (.inr rfl)
  · exact (getLsbD_loadFlags_eq_ite _ hne).trans (if_neg (mt (hmask k).1 hk))
  · exact (hgpr .rsp).trans ((get_popped ..).trans (if_pos rfl))
  · exact fun q hq => (hgpr q).trans (gprSameBut_popped _ s q hq)
  · exact fun x => congrArg (Memory.read · x) (loadFlags_mem ..)
  · exact ⟨loadFlags_selector .., loadFlags_segBase ..⟩
  · exact ⟨loadFlags_launch .., loadFlags_sys .., loadFlags_fp ..⟩
  · exact loadFlags_pcNext ..

/-! ## LAHF and SAHF -/

theorem lahfMissing_eq_false {s : State} (h : s.launch.mode = .prot32 ∨ s.launch.lahf64 = true) :
    lahfMissing s = false := by
  rw [← Bool.not_eq_true, lahfMissing_iff]
  rintro ⟨hmode, hlahf⟩
  simp [hmode, hlahf] at h

/-- Bits 7:0 of the flags, written out (40_flag_control.md R227). -/
theorem setWidth_flags {fl : Quad} (h : reservedOk fl = true) :
    fl.setWidth 8 =
      (BitVec.ofBool (getFlag fl .sf) ++ BitVec.ofBool (getFlag fl .zf) ++ 0#1 ++ BitVec.ofBool (getFlag fl .af) ++ 0#1 ++
        BitVec.ofBool (getFlag fl .pf) ++ 1#1 ++ BitVec.ofBool (getFlag fl .cf) : BitVec 8) := by
  have h1 : fl.getLsbD 1 = true := getLsbD_of_reservedOk h (by decide)
  have h3 : fl.getLsbD 3 = false := getLsbD_of_reservedOk h (by decide)
  have h5 : fl.getLsbD 5 = false := getLsbD_of_reservedOk h (by decide)
  have hbits (sf zf af pf cf : Bool) : ∀ k (_ : k < 8),
      (BitVec.ofBool sf ++ BitVec.ofBool zf ++ 0#1 ++ BitVec.ofBool af ++ 0#1 ++ BitVec.ofBool pf ++ 1#1 ++
        BitVec.ofBool cf : BitVec 8).getLsbD k = [cf, true, pf, false, af, false, zf, sf][k] := by
    revert sf zf af pf cf
    decide
  apply BitVec.eq_of_getLsbD_eq
  intro k hk
  rw [hbits _ _ _ _ _ k hk, BitVec.getLsbD_setWidth, decide_eq_true hk, Bool.true_and]
  interval_cases k
  exacts [rfl, h1, rfl, h3, rfl, h5, rfl, rfl]

theorem mergeHigh_and_rest (old : Quad) (v : Byte) : mergeHigh old v &&& ~~~0xFF00#64 = old &&& ~~~0xFF00#64 := by
  apply BitVec.eq_of_getLsbD_eq
  intro k hk
  have hmask : (~~~0xFF00#64).getLsbD k = !decide (8 ≤ k ∧ k < 16) := by
    revert k
    decide
  rw [BitVec.getLsbD_and, BitVec.getLsbD_and, getLsbD_mergeHigh, hmask]
  split <;> simp [*]

theorem decode_lahf (md : Mode) (rest : List Byte) :
    decode md (0x9F :: rest) = .ok (.lahf, rest) ∧ decode .long64 (0x40 :: 0x9F :: rest) = .ok (.lahf, rest) := by
  have hrex : RexOk .long64 (some 0x40) := by
    rintro _ ⟨⟩
    exact ⟨rfl, rfl⟩
  exact ⟨decode_opcode md (by decide) rest, decode_encodePrefixes false none hrex (by decide) rest⟩

/-- Settles O57: AH is written with the flags byte, unless the instruction does not exist. -/
theorem lahfLoadsFlags : Obligations.LahfLoadsFlags := by
  intro md rest s hres
  obtain ⟨hdec, hdecRex⟩ := decode_lahf md rest
  refine ⟨hdec, hdecRex, fun hmode hlahf => exec_of_undefinedIn (.inr (.inr ⟨.inl rfl, hmode, hlahf⟩)), fun h => ?_⟩
  have hok := lahfOp_eq_ok_iff.2 ⟨lahfMissing_eq_false h, rfl⟩
  refine ⟨_, finish_eq_next_iff.2 ⟨_, hok, rfl⟩, ?_, ?_, gprSameBut_writeReg .b8 (.hi .ah) _ s, rfl, fun _ => rfl,
    ⟨rfl, rfl⟩, ⟨rfl, rfl, rfl⟩, rfl⟩
  · exact (readReg_writeReg .b8 (.hi .ah) _ s rfl).trans (setWidth_flags hres)
  · exact (congrArg (· &&& _) (get_writeReg_hi_self .ah _ s)).trans (mergeHigh_and_rest ..)

theorem getLsbD_readReg_ah (s : State) {k : Nat} (hk : k < 8) :
    (readReg .b8 (.hi .ah) s).getLsbD k = (s.gpr.get .rax).getLsbD (8 + k) := by
  simp [readReg, highGpr, hk]

/-- SAHF takes each of its five flags from the bit of the byte at the flag's own place (40_flag_control.md R228). -/
theorem getFlag_sahfFlags {f : Flag} (hf : f ∈ [Flag.sf, .zf, .af, .pf, .cf]) (fl : Quad) (ah : Byte) :
    getFlag (sahfFlags fl ah) f = ah.getLsbD f.bit := by
  simp only [List.mem_cons, List.not_mem_nil, or_false] at hf
  obtain rfl | rfl | rfl | rfl | rfl := hf <;>
    simp only [sahfFlags, getFlag_setFlag, reduceCtorEq, if_true, if_false, Flag.bit]

theorem flagsSameBut_sahf (s : State) (ah : Byte) :
    FlagsSameBut [.sf, .zf, .af, .pf, .cf] s (withFlags s (sahfFlags s.rflags ah)) := by
  intro k hk
  simp only [List.mem_cons, List.not_mem_nil, or_false, forall_eq_or_imp, forall_eq] at hk
  obtain ⟨hsf, hzf, haf, hpf, hcf⟩ := hk
  simp only [withFlags_rflags, sahfFlags, getLsbD_setFlag]
  rw [if_neg hcf.symm, if_neg hpf.symm, if_neg haf.symm, if_neg hzf.symm, if_neg hsf.symm]

/-- Settles O58: each of the five flags is the bit of AH at its own place. -/
theorem sahfStoresFlags : Obligations.SahfStoresFlags := by
  intro md rest s
  refine ⟨decode_opcode md (by decide) rest,
    fun hmode hlahf => exec_of_undefinedIn (.inr (.inr ⟨.inr rfl, hmode, hlahf⟩)), fun h => ?_⟩
  have hok := sahfOp_eq_ok_iff.2 ⟨lahfMissing_eq_false h, rfl⟩
  have hflag (f : Flag) (hf : f ∈ [Flag.sf, .zf, .af, .pf, .cf]) (hlt : f.bit < 8) :=
    (getFlag_sahfFlags hf s.rflags (readReg .b8 (.hi .ah) s)).trans (getLsbD_readReg_ah s hlt)
  exact ⟨_, finish_eq_next_iff.2 ⟨_, hok, rfl⟩, hflag .sf (by decide) (by decide), hflag .zf (by decide) (by decide),
    hflag .af (by decide) (by decide), hflag .pf (by decide) (by decide), hflag .cf (by decide) (by decide),
    flagsSameBut_sahf s _, rfl, fun _ => rfl, ⟨rfl, rfl⟩, ⟨rfl, rfl, rfl⟩, rfl⟩

end Sys2Proof.Machine
end

section
/-!
SUPPORT. STC, CLC, CMC, STD and CLD (spec/40_flag_control.md R222 to R226): opcodes without operands, which decode alike after
an operand-size byte or a segment override, and which write one flag.
-/
namespace Sys2Proof.Machine

/-- An opcode without operands is read after the legacy prefixes, whatever they say (30_encoding.md R181). -/
theorem decode_after_takes {pre : List Byte} {q : Prefixes} (hq : Takes ⟨false, none⟩ pre q) {op : Byte} {i : Instr}
    (hop : OpcodeByte op) (hsel : Selects [op] fun _ bs => .ok (i, bs)) (md : Mode) (rest : List Byte) :
    decode md (pre ++ op :: rest) = .ok (i, rest) := by
  have h := decode_of_takes hq rexOk_none (hop.startsOpcode md) rest
  rw [Option.toList_none, List.append_nil] at h
  exact h.trans (hsel _ rest)

theorem takes_opsize : Takes ⟨false, none⟩ [0x66] ⟨true, none⟩ := takes_cons_opsize rfl (takes_nil _)

theorem takes_segment {b : Byte} {r : SegReg} (h : segmentPrefix b = some r) :
    Takes ⟨false, none⟩ [b] ⟨false, some r⟩ :=
  takes_cons_segment h rfl (takes_nil _)

/-- The bytes of the segment overrides (30_encoding.md R163). -/
theorem segmentPrefix_of_mem {b : Byte} (h : b ∈ [0x26#8, 0x2E#8, 0x36#8, 0x3E#8, 0x64#8, 0x65#8]) :
    ∃ r, segmentPrefix b = some r := by
  rw [← Option.isSome_iff_exists]
  revert b
  decide

/-- The five instructions: opcode, instruction, and the flag with the value that it takes. -/
def flagRows (s : State) : List (Byte × Instr × Flag × Bool) :=
  [(0xF9#8, Instr.stc, Flag.cf, true), (0xF8#8, .clc, .cf, false), (0xF5#8, .cmc, .cf, !getFlag s.rflags .cf),
    (0xFD#8, .std, .df, true), (0xFC#8, .cld, .df, false)]

theorem flagRows_spec {s : State} {op : Byte} {i : Instr} {f : Flag} {b : Bool} (h : (op, i, f, b) ∈ flagRows s) :
    OpcodeByte op ∧ Selects [op] (fun _ bs => .ok (i, bs)) ∧ exec i s = finish (setFlagOp f b s) := by
  simp only [flagRows, List.mem_cons, List.not_mem_nil, or_false, Prod.mk.injEq] at h
  obtain ⟨rfl, rfl, rfl, rfl⟩ | ⟨rfl, rfl, rfl, rfl⟩ | ⟨rfl, rfl, rfl, rfl⟩ | ⟨rfl, rfl, rfl, rfl⟩ |
    ⟨rfl, rfl, rfl, rfl⟩ := h
  all_goals exact ⟨by decide, fun _ _ => rfl, rfl⟩

/-- Settles O59: the rows decode as opcodes without operands, and each runs `setFlagOp`. -/
theorem flagInstructionsComplete : Obligations.FlagInstructionsComplete := by
  intro md rest s op i f b h
  obtain ⟨hop, hsel, he⟩ := flagRows_spec h
  refine ⟨decode_after_takes (takes_nil _) hop hsel md rest, decode_after_takes takes_opsize hop hsel md rest,
    fun p hp => ?_, _, he, getFlag_setFlag_self .., flagsSameBut_setFlag rfl, rfl, fun _ => rfl, ⟨rfl, rfl⟩,
    ⟨rfl, rfl, rfl⟩, rfl⟩
  obtain ⟨r, hr⟩ := segmentPrefix_of_mem hp
  exact decode_after_takes (takes_segment hr) hop hsel md rest

end Sys2Proof.Machine
end

section
/-!
SUPPORT. ADD, ADC, SUB and SBB in their nine operand forms (spec/41_arithmetic.md R250 to R255): each form runs one operation,
and what that operation leaves when the operands can be accessed.
-/
namespace Sys2Proof.Machine

theorem highOnlyByte_b8 (r : Reg8) : highOnlyByte .b8 r := by
  cases r with
  | lo g => trivial
  | hi g => rfl

/-- An operand of general registers names no high byte. -/
theorem highOnlyByte_wide {rm : Rm Gpr} {r : Reg8} (h : wide rm = .reg r) (w : Width) : highOnlyByte w r := by
  cases rm with
  | reg g =>
    cases h
    trivial
  | mem m => cases h

/-- A high byte is the destination of a byte form only (10_state.md R26). -/
theorem highOnlyByte_of_aluForm {i : Instr} {f : AluForm} (h : aluForm i = some f) {r : Reg8} (hr : f.dst = .reg r) :
    highOnlyByte f.w r := by
  cases i
  case addRm8R8 | addR8Rm8 | addAlImm8 | addRm8Imm8 | adcRm8R8 | adcR8Rm8 | adcAlImm8 | adcRm8Imm8
      | sbbRm8R8 | sbbR8Rm8 | sbbAlImm8 | sbbRm8Imm8 | subRm8R8 | subR8Rm8 | subAlImm8 | subRm8Imm8 =>
    cases h
    exact highOnlyByte_b8 r
  case addRmR | addRmImm | addRmSimm8 | adcRmR | adcRmImm | adcRmSimm8
      | sbbRmR | sbbRmImm | sbbRmSimm8 | subRmR | subRmImm | subRmSimm8 =>
    cases h
    exact highOnlyByte_wide hr _
  case addRRm | addAccImm | adcRRm | adcAccImm | sbbRRm | sbbAccImm | subRRm | subAccImm =>
    cases h
    cases hr
    trivial
  all_goals cases h

theorem statusAre_setStatus {t : State} {fl : Quad} {f : StatusFlags} (h : t.rflags = setStatus fl f) : StatusAre f t := by
  simp [StatusAre, h, setStatus]

/-- The result and the flags of a form, from the values of its operands (41_arithmetic.md R252 to R255). -/
def AluForm.result (f : AluForm) (s : State) : BitVec f.w.bits × StatusFlags :=
  aluResult f.op (rmValue f.w f.dst s) (f.src.value s) (carry s)

/-- What a form leaves, before `pc` moves. -/
def AluForm.leaves (f : AluForm) (s : State) : State :=
  withFlags (storeRm f.w f.dst (f.result s).1 s) (setStatus s.rflags (f.result s).2)

section
variable {i : Instr} {f : AluForm} {s : State}

theorem exec_eq_leaves_of_aluForm (h : aluForm i = some f) (hd : RmReadable f.w f.dst s) (hs : f.src.readable s)
    (hw : RmWritable f.w f.dst s) : exec i s = .next (advance (f.leaves s)) := by
  obtain ⟨-, he⟩ | ⟨d, src, hdst, hsrc, he⟩ := exec_of_aluForm h s
  · rw [he]
    exact finish_eq_next_iff.2 ⟨_, aluRm_eq_ok_iff.2 ⟨hd, hw, rfl⟩, rfl⟩
  · rw [hsrc] at hs
    rw [he]
    refine finish_eq_next_iff.2 ⟨_, aluReg_eq_ok_iff.2 ⟨hs, ?_⟩, rfl⟩
    simp only [AluForm.leaves, AluForm.result, hdst, hsrc, storeRm, rmValue, Source.value]

/-- Every arithmetic form whose operands can be accessed (41_arithmetic.md R250). -/
theorem aluForm_completes (h : aluForm i = some f) (hwf : Memory.wf s.mem = true) (hd : RmReadable f.w f.dst s)
    (hs : f.src.readable s) (hw : RmWritable f.w f.dst s) :
    ∃ t, exec i s = .next t ∧ (RmWritten f.w f.dst (f.result s).1 s t ∧ StatusAre (f.result s).2 t) ∧
      FlagsSameBut statusFlags s t ∧ SegmentsSame s t ∧ SystemSame s t ∧ t.pc = s.pcNext :=
  ⟨_, exec_eq_leaves_of_aluForm h hd hs hw,
    ⟨rmWritten_of_storeRm hwf (fun _ => highOnlyByte_of_aluForm h) rfl rfl, statusAre_setStatus rfl⟩,
    flagsSameBut_setStatus rfl, by simp [SegmentsSame, AluForm.leaves], by simp [SystemSame, AluForm.leaves],
    by simp [AluForm.leaves]⟩

end

theorem aluResult_eq_addFlags {op : AluOp} (h : op = .add ∨ op = .adc) {w : Nat} (a b : BitVec w) (c : Bool) :
    aluResult op a b c = addFlags a b (op == .adc && c) := by
  obtain rfl | rfl := h <;> rfl

theorem aluResult_eq_subFlags {op : AluOp} (h : op = .sub ∨ op = .sbb) {w : Nat} (a b : BitVec w) (c : Bool) :
    aluResult op a b c = subFlags a b (op == .sbb && c) := by
  obtain rfl | rfl := h <;> rfl

/-- Settles O30: the result of ADD and ADC is a sum. -/
theorem addAndAdcComplete : Obligations.AddAndAdcComplete := by
  intro i f s h hop hwf hd hs hw
  simpa only [AluForm.result, aluResult_eq_addFlags hop, carry] using aluForm_completes h hwf hd hs hw

/-- Settles O31: the result of SUB and SBB is a difference. -/
theorem subAndSbbComplete : Obligations.SubAndSbbComplete := by
  intro i f s h hop hwf hd hs hw
  simpa only [AluForm.result, aluResult_eq_subFlags hop, carry] using aluForm_completes h hwf hd hs hw

end Sys2Proof.Machine
end

section
/-!
SUPPORT. MUL, DIV and IDIV (spec/41_arithmetic.md R256 to R258): the halves of a double-width operand, what MUL leaves, and
the quotients and remainders that fit.
-/
namespace Sys2Proof.Machine

/-- The move of `pc` at the end of an instruction changes no flag. -/
theorem FlagsSameBut.advance {fs : List Flag} {s t : State} (h : FlagsSameBut fs s t) :
    FlagsSameBut fs s (Machine.advance t) := h

/-! ## The halves of a double-width operand -/

section
variable {w : Width} {hi lo : BitVec w.bits} {s t : State}

theorem readReg_highHalf_writePair : readReg w (highHalf w) (writePair w hi lo s) = hi :=
  readReg_writeReg _ _ _ _ (by cases w <;> trivial)

/-- A write of AH keeps AL, and a write of DX, EDX or RDX keeps the accumulator. -/
theorem readReg_rax_writePair : readReg w (.lo .rax) (writePair w hi lo s) = lo := by
  refine Eq.trans ?_ (readReg_writeReg w (.lo .rax) lo s trivial)
  cases w with
  | b8 =>
    have hah : (writePair .b8 hi lo s).gpr.get .rax = mergeHigh ((writeReg .b8 (.lo .rax) lo s).gpr.get .rax) hi :=
      get_writeReg_hi_self .ah hi _
    apply BitVec.eq_of_getLsbD_eq
    intro k hk
    have hk8 : k < 8 := hk
    rw [readReg, readReg, hah, BitVec.getLsbD_setWidth, BitVec.getLsbD_setWidth, getLsbD_mergeHigh, if_neg (by omega)]
  | b16 | b32 | b64 => exact congrArg (BitVec.setWidth _) (gprSameBut_writeReg _ (.lo .rdx) hi _ .rax (by decide))

theorem gprSameBut_writePair : GprSameBut [.rax, .rdx] s (writePair w hi lo s) := by
  intro r hr
  have hhigh : r ∉ [wholeGpr (highHalf w)] := by cases w <;> simp_all [highHalf, wholeGpr, highGpr]
  rw [writePair, gprSameBut_writeReg _ _ _ _ r hhigh, gprSameBut_writeReg _ _ _ _ r (by simp_all [wholeGpr])]

theorem get_rdx_writePair_b8 (h : w = .b8) : (writePair w hi lo s).gpr.get .rdx = s.gpr.get .rdx := by
  subst h
  rw [writePair, gprSameBut_writeReg _ _ _ _ .rdx (by decide), gprSameBut_writeReg _ _ _ _ .rdx (by decide)]

/-- The product, the quotient and the remainder are in their registers, and no other register changed. -/
def PairWritten (w : Width) (hi lo : BitVec w.bits) (s t : State) : Prop :=
  readReg w (highHalf w) t = hi ∧ readReg w (.lo .rax) t = lo ∧
    t.gpr = (writePair w (readReg w (highHalf w) t) (readReg w (.lo .rax) t) s).gpr ∧ GprSameBut [.rax, .rdx] s t ∧
      (w = .b8 → t.gpr.get .rdx = s.gpr.get .rdx)

theorem pairWritten_of_gpr (h : t.gpr = (writePair w hi lo s).gpr) : PairWritten w hi lo s t := by
  have hhi : readReg w (highHalf w) t = hi := (readReg_congr h ..).trans readReg_highHalf_writePair
  have hlo : readReg w (.lo .rax) t = lo := (readReg_congr h ..).trans readReg_rax_writePair
  refine ⟨hhi, hlo, by rw [hhi, hlo, h], fun r hr => ?_, fun hw => ?_⟩
  · rw [h]
    exact gprSameBut_writePair r hr
  · rw [h, get_rdx_writePair_b8 hw]

end

theorem toNat_append_eq_add {n : Nat} (hi lo : BitVec n) : (hi ++ lo).toNat = hi.toNat * 2 ^ n + lo.toNat := by
  rw [BitVec.toNat_append, ← Nat.shiftLeft_add_eq_or_of_lt lo.isLt, Nat.shiftLeft_eq]

/-! ## MUL -/

theorem exec_of_mulForm {i : Instr} {w : Width} {src : Rm Reg8} (h : mulForm i = some (w, src)) (s : State) :
    exec i s = finish (mulOp w src s) := by
  cases i
  case mulRm8 | mulRm =>
    cases h
    rfl
  all_goals cases h

section
variable {w : Width} {p : Nat} {s : State}

/-- CF and OF say whether the upper half of the product is 0 (41_arithmetic.md R256). -/
theorem getFlag_mulLeaves {f : Flag} (hf : f = .cf ∨ f = .of) :
    getFlag (mulLeaves w p s).rflags f = decide (2 ^ w.bits ≤ p) := by
  have hupper : p / 2 ^ w.bits ≠ 0 ↔ 2 ^ w.bits ≤ p := Nat.div_ne_zero_iff.trans (and_iff_right (by positivity))
  have hkept : getFlag (mulLeaves w p s).rflags f =
      getFlag (setFlag (setFlag s.rflags .cf (decide (p / 2 ^ w.bits ≠ 0))) .of (decide (p / 2 ^ w.bits ≠ 0))) f :=
    getFlag_drawFlags_of_ne _ _ _ (by obtain rfl | rfl := hf <;> decide)
  rw [hkept, getFlag_setFlag, getFlag_setFlag, decide_eq_decide.2 hupper]
  obtain rfl | rfl := hf <;> rfl

theorem flagsSameBut_mulLeaves : FlagsSameBut statusFlags s (mulLeaves w p s) := by
  have hcf : FlagsSameBut statusFlags s (withFlags s (setFlag s.rflags .cf (decide (p / 2 ^ w.bits ≠ 0)))) :=
    flagsSameBut_setStatusFlag (by decide) rfl
  exact flagsSameBut_drawStatus (hcf.trans (flagsSameBut_setStatusFlag (by decide) rfl)) (by decide)

end

/-- The upper and the lower half of a product make up the product. -/
theorem toNat_append_product {n : Nat} (a b : BitVec n) :
    (BitVec.ofNat n (a.toNat * b.toNat / 2 ^ n) ++ BitVec.ofNat n (a.toNat * b.toNat)).toNat = a.toNat * b.toNat := by
  have hupper : a.toNat * b.toNat / 2 ^ n < 2 ^ n := Nat.div_lt_of_lt_mul (Nat.mul_lt_mul'' a.isLt b.isLt)
  rw [toNat_append_eq_add, BitVec.toNat_ofNat, BitVec.toNat_ofNat, Nat.mod_eq_of_lt hupper, Nat.div_add_mod']

/-- What MUL leaves: the halves of the product in their registers, CF and OF by the upper half, SF, ZF, AF and PF open, all
else as it was. -/
theorem mul_leaves {w : Width} {p : Nat} {s t : State} (ht : t = advance (mulLeaves w p s)) :
    PairWritten w (BitVec.ofNat w.bits (p / 2 ^ w.bits)) (BitVec.ofNat w.bits p) s t ∧
      (∀ f, f = .cf ∨ f = .of → getFlag t.rflags f = decide (2 ^ w.bits ≤ p)) ∧
      FlagsSameBut statusFlags s t ∧ MemSame s t ∧ SegmentsSame s t ∧ SystemSame s t ∧ t.pc = s.pcNext := by
  subst ht
  refine ⟨pairWritten_of_gpr (drawFlags_gpr ..), fun f => ?_, flagsSameBut_mulLeaves.advance, ?_, ?_, ?_, ?_⟩
  · rw [advance_rflags]
    exact getFlag_mulLeaves
  · simp [MemSame, mulLeaves]
  · simp [SegmentsSame, mulLeaves]
  · simp [SystemSame, mulLeaves]
  · simp [mulLeaves]

/-- Settles O33: the halves of the product are in their registers. -/
theorem mulCompletes : Obligations.MulCompletes := by
  intro i w src s h hr
  obtain ⟨⟨hhi, hlo, hgpr, hsame, hrdx⟩, hflag, hframe⟩ :=
    mul_leaves (p := (readReg w (.lo .rax) s).toNat * (rmValue w src s).toNat) rfl
  refine ⟨_, (exec_of_mulForm h s).trans (finish_eq_next_iff.2 ⟨_, mulOp_eq_ok_iff.2 ⟨hr, rfl⟩, rfl⟩), ?_, hgpr, hsame,
    hrdx, hflag .cf (.inl rfl), (hflag .of (.inr rfl)).trans (hflag .cf (.inl rfl)).symm, hframe⟩
  rw [readPair, hhi, hlo, toNat_append_product]

/-! ## DIV -/

theorem exec_of_divForm {i : Instr} {w : Width} {src : Rm Reg8} (h : divForm i = some (w, src)) (s : State) :
    exec i s = finish (divOp w src s) := by
  cases i
  case divRm8 | divRm =>
    cases h
    rfl
  all_goals cases h

/-- What DIV and IDIV leave: quotient and remainder in their registers, the status flags open, all else as it was. -/
theorem div_leaves {w : Width} {q m : BitVec w.bits} {s t : State} (ht : t = advance (divResult w q m s)) :
    PairWritten w m q s t ∧ FlagsSameBut statusFlags s t ∧ MemSame s t ∧ SegmentsSame s t ∧ SystemSame s t ∧
      t.pc = s.pcNext := by
  subst ht
  refine ⟨pairWritten_of_gpr (drawFlags_gpr ..), FlagsSameBut.advance ?_, ?_, ?_, ?_, ?_⟩
  · exact flagsSameBut_drawStatus (flagsSameBut_of_rflags_eq (writePair_rflags ..)) (by decide)
  · simp [MemSame, divResult]
  · simp [SegmentsSame, divResult]
  · simp [SystemSame, divResult]
  · simp [divResult]

theorem divOp_eq_divideError {w : Width} {src : Rm Reg8} {s : State} (hr : RmReadable w src s)
    (h : (rmValue w src s).toNat = 0 ∨ 2 ^ w.bits ≤ (readPair w s).toNat / (rmValue w src s).toNat) :
    divOp w src s = .error (.fault .divideError) := by
  refine bind_eq_error_iff.2 (.inr ⟨_, readRm_eq_ok_iff.2 ⟨hr, rfl⟩, ?_⟩)
  obtain h | h := h
  · exact if_pos h
  · exact ite_eq_left_iff.2 fun _ => if_pos h

/-- Settles O34: a remainder fits its register, and so does the quotient of a division that completes. -/
theorem divCompletesOrFaults : Obligations.DivCompletesOrFaults := by
  intro i w src s h hr n d
  refine ⟨fun hde => (exec_of_divForm h s).trans (finish_eq_fault_iff.2 (divOp_eq_divideError hr hde)), fun hd hq => ?_⟩
  have hm : n % d < 2 ^ w.bits := (Nat.mod_lt n (Nat.pos_of_ne_zero hd)).trans (rmValue w src s).isLt
  obtain ⟨⟨hhi, hlo, hgpr, hsame, hrdx⟩, hframe⟩ :=
    div_leaves (q := BitVec.ofNat w.bits (n / d)) (m := BitVec.ofNat w.bits (n % d)) rfl
  refine ⟨_, (exec_of_divForm h s).trans (finish_eq_next_iff.2 ⟨_, divOp_eq_ok_iff.2 ⟨hr, hd, hq, rfl⟩, rfl⟩), ?_, ?_, hgpr,
    hsame, hrdx, hframe⟩
  · exact (congrArg BitVec.toNat hlo).trans ((BitVec.toNat_ofNat ..).trans (Nat.mod_eq_of_lt hq))
  · exact (congrArg BitVec.toNat hhi).trans ((BitVec.toNat_ofNat ..).trans (Nat.mod_eq_of_lt hm))

/-! ## IDIV -/

theorem exec_of_idivForm {i : Instr} {w : Width} {src : Rm Reg8} (h : idivForm i = some (w, src)) (s : State) :
    exec i s = finish (idivOp w src s) := by
  cases i
  case idivRm8 | idivRm =>
    cases h
    rfl
  all_goals cases h

theorem idivOp_eq_divideError {w : Width} {src : Rm Reg8} {s : State} (hr : RmReadable w src s)
    (h : (rmValue w src s).toInt = 0 ∨
      (readPair w s).toInt.tdiv (rmValue w src s).toInt < -2 ^ (w.bits - 1) ∨
      2 ^ (w.bits - 1) - 1 < (readPair w s).toInt.tdiv (rmValue w src s).toInt) :
    idivOp w src s = .error (.fault .divideError) := by
  refine bind_eq_error_iff.2 (.inr ⟨_, readRm_eq_ok_iff.2 ⟨hr, rfl⟩, ?_⟩)
  obtain h | h := h
  · exact if_pos h
  · exact ite_eq_left_iff.2 fun _ => if_pos h

/-- A remainder is smaller than the divisor, so it fits where the divisor does. -/
theorem tmod_fits {w : Nat} (d : BitVec w) (hd : d.toInt ≠ 0) (n : Int) :
    -2 ^ (w - 1) ≤ n.tmod d.toInt ∧ n.tmod d.toInt ≤ 2 ^ (w - 1) - 1 := by
  have hlo := d.le_toInt
  have hhi := d.toInt_lt
  have hlt : (n.tmod d.toInt).natAbs < d.toInt.natAbs := by
    rw [Int.natAbs_tmod]
    exact Nat.mod_lt _ (Int.natAbs_pos.2 hd)
  omega

/-- A remainder that is not 0 has the sign of the dividend (41_arithmetic.md R258). -/
theorem tmod_neg_iff {n d : Int} (h : n.tmod d ≠ 0) : n.tmod d < 0 ↔ n < 0 := by
  obtain hn | hn := lt_or_ge n 0
  · have hneg := Int.tmod_nonneg d (show 0 ≤ -n by omega)
    rw [Int.neg_tmod] at hneg
    omega
  · have hpos := Int.tmod_nonneg d hn
    omega

/-- Settles O35: the quotient fits when the division completes, and the remainder fits always. -/
theorem idivCompletesOrFaults : Obligations.IdivCompletesOrFaults := by
  intro i w src s h hr n d q
  have hbits : 0 < w.bits := by cases w <;> decide
  have hrem : n - q * d = n.tmod d := by rw [Int.tmod_def, Int.mul_comm]
  refine ⟨fun hde => (exec_of_idivForm h s).trans (finish_eq_fault_iff.2 (idivOp_eq_divideError hr hde)),
    fun hd hqlo hqhi => ?_⟩
  obtain ⟨hmlo, hmhi⟩ := tmod_fits (rmValue w src s) hd n
  obtain ⟨⟨hhi, hlo, hgpr, hsame, hrdx⟩, hframe⟩ :=
    div_leaves (q := BitVec.ofInt w.bits q) (m := BitVec.ofInt w.bits (n.tmod d)) rfl
  rw [hrem]
  refine ⟨_, (exec_of_idivForm h s).trans (finish_eq_next_iff.2 ⟨_, idivOp_eq_ok_iff.2 ⟨hr, hd, hqlo, hqhi, rfl⟩, rfl⟩),
    ?_, ?_, tmod_neg_iff, hgpr, hsame, hrdx, hframe⟩
  · exact (congrArg BitVec.toInt hlo).trans (BitVec.toInt_ofInt_eq_self hbits hqlo (Int.lt_of_le_sub_one hqhi))
  · exact (congrArg BitVec.toInt hhi).trans (BitVec.toInt_ofInt_eq_self hbits hmlo (Int.lt_of_le_sub_one hmhi))

end Sys2Proof.Machine
end

section
/-!
SUPPORT. BT, BTS, BTR and BTC (spec/41_arithmetic.md R259 to R263): the operation that each form runs, the refusal of the bit
strings, and the base and the flags of the other forms.
-/
namespace Sys2Proof.Machine

theorem exec_of_bitForm {i : Instr} {f : BitForm} (h : bitForm i = some f) (s : State) :
    (∃ r, f.off = .inl r ∧ exec i s = finish (bitRegOp f.act f.sz.width f.base r s)) ∨
      ∃ v, f.off = .inr v ∧ exec i s = finish (bitOp f.act f.sz.width (wide f.base) v.toNat s) := by
  cases i
  case btRmR | btsRmR | btrRmR | btcRmR =>
    cases h
    exact .inl ⟨_, rfl, rfl⟩
  case btRmImm8 | btsRmImm8 | btrRmImm8 | btcRmImm8 =>
    cases h
    exact .inr ⟨_, rfl, rfl⟩
  all_goals cases h

/-- Settles O37: a register offset runs `bitRegOp`, which refuses a memory base. -/
theorem bitStringFormRefused : Obligations.BitStringFormRefused := by
  rintro i f s h ⟨⟨m, hm⟩, r, hr⟩
  obtain ⟨q, -, he⟩ | ⟨v, hv, -⟩ := exec_of_bitForm h s
  · rw [he, hm]
    rfl
  · cases hr.symm.trans hv

/-- A form that is no bit string runs `bitOp` on its base and its offset. -/
theorem exec_eq_bitOp_of_bitForm {i : Instr} {f : BitForm} (h : bitForm i = some f) (hf : ¬ f.isBitString) (s : State) :
    exec i s = finish (bitOp f.act f.sz.width (wide f.base) (f.offset s) s) := by
  obtain ⟨r, hr, he⟩ | ⟨v, hv, he⟩ := exec_of_bitForm h s
  · obtain ⟨act, sz, base, off⟩ := f
    cases hr
    cases base with
    | reg q => exact he
    | mem m => exact absurd ⟨⟨m, rfl⟩, r, rfl⟩ hf
  · rw [he, BitForm.offset, hv]

section
variable {act : BitAction} {w : Width} {base : Rm Reg8} {off : Nat} {s : State}

@[simp] theorem bitStore_pcNext : (bitStore act w base off s).pcNext = s.pcNext := by
  unfold bitStore
  split <;> simp

@[simp] theorem bitStore_rflags : (bitStore act w base off s).rflags = s.rflags := by
  unfold bitStore
  split <;> simp

theorem segmentsSame_bitStore : SegmentsSame s (bitStore act w base off s) := by
  unfold bitStore SegmentsSame
  split <;> simp

theorem systemSame_bitStore : SystemSame s (bitStore act w base off s) := by
  unfold bitStore SystemSame
  split <;> simp

end

theorem getFlag_bitFlags_cf (s : State) (b : Bool) : getFlag (bitFlags s b).rflags .cf = b :=
  (getFlag_drawFlags_of_ne _ _ .cf (by decide)).trans (getFlag_setFlag_self ..)

/-- The flags of a bit instruction keep ZF (41_arithmetic.md R259). -/
theorem flagsSameBut_bitFlags_exceptZf {s t : State} (h : t.rflags = s.rflags) (b : Bool) :
    FlagsSameBut [.of, .sf, .af, .pf, .cf] s (bitFlags t b) := by
  have hcf : FlagsSameBut [.cf] s (withFlags t (setFlag t.rflags .cf b)) := flagsSameBut_setFlag (by rw [h]; rfl)
  exact (hcf.mono (by decide)).trans ((flagsSameBut_drawFlags _ _).mono (by decide))

/-- A bit instruction whose base can be accessed (41_arithmetic.md R259). -/
theorem bitOp_completes {act : BitAction} {w : Width} {base : Rm Reg8} {s : State} (off : Nat)
    (hbase : ∀ r, base = .reg r → highOnlyByte w r) (hwf : Memory.wf s.mem = true) (hr : RmReadable w base s)
    (hw : act ≠ .test → RmWritable w base s) :
    ∃ t, finish (bitOp act w base off s) = .next t ∧
      getFlag t.rflags .cf = (rmValue w base s).getLsbD (off % w.bits) ∧
      (act = .test → t.gpr = s.gpr ∧ MemSame s t) ∧
      (act ≠ .test → RmWritten w base
        (setBit (rmValue w base s) (off % w.bits) (bitAfter act ((rmValue w base s).getLsbD (off % w.bits)))) s t) ∧
      FlagsSameBut [.of, .sf, .af, .pf, .cf] s t ∧ SegmentsSame s t ∧ SystemSame s t ∧ t.pc = s.pcNext := by
  refine ⟨_, finish_eq_next_iff.2 ⟨_, bitOp_eq_ok_iff.2 ⟨hr, hw, rfl⟩, rfl⟩, ?_, fun ht => ?_, fun ht => ?_, ?_,
    ?_, ?_, ?_⟩
  · rw [advance_rflags, getFlag_bitFlags_cf]
  · simp [bitStore, ht, MemSame]
  · exact rmWritten_of_storeRm hwf hbase (by simp [bitStore, ht]) (by simp [bitStore, ht])
  · exact (flagsSameBut_bitFlags_exceptZf bitStore_rflags _).advance
  · simpa [SegmentsSame] using segmentsSame_bitStore
  · simpa [SystemSame] using systemSame_bitStore
  · simp

/-- Settles O36: the base that is written back differs from the old one in the selected bit only. -/
theorem bitInstructionsComplete : Obligations.BitInstructionsComplete := by
  intro i f s h hf hwf hr hw w old k
  have hk : k < w.bits := Nat.mod_lt _ (by cases w <;> decide)
  obtain ⟨t, ht, hcf, htest, hwrite, hframe⟩ :=
    bitOp_completes (f.offset s) (fun r hreg => highOnlyByte_wide hreg _) hwf hr hw
  have hself := getLsbD_setBit_self old k (bitAfter f.act (old.getLsbD k)) hk
  refine ⟨t, (exec_eq_bitOp_of_bitForm h hf s).trans ht, hcf, htest, fun hact =>
    ⟨_, hwrite hact, fun j hj => getLsbD_setBit_of_ne old k j _ hj, fun ha => ?_, fun ha => ?_, fun ha => ?_⟩, hframe⟩
  all_goals exact hself.trans (by rw [ha, bitAfter])

end Sys2Proof.Machine
end

section
/-!
SUPPORT. MOV, CMOVcc and SETcc (spec/42_data_movement.md R290 to R298): what the write of one operand leaves, the operation
that each form of MOV runs, and the loads of segment registers.
-/
namespace Sys2Proof.Machine

/-! ## Instructions that write one operand -/

/-- The write of one operand changes no flag, no segment register and no system register (42_data_movement.md R290). -/
theorem storeRm_frame (w : Width) (rm : Rm Reg8) (v : BitVec w.bits) (s : State) :
    (advance (storeRm w rm v s)).rflags = s.rflags ∧ SegmentsSame s (advance (storeRm w rm v s)) ∧
      SystemSame s (advance (storeRm w rm v s)) ∧ (advance (storeRm w rm v s)).pc = s.pcNext := by
  simp [SegmentsSame, SystemSame]

/-- An instruction that writes one operand and does nothing else. -/
theorem storeRm_completes {w : Width} {rm : Rm Reg8} {v : BitVec w.bits} {s : State} {r : Res State}
    (hr : r = .ok (storeRm w rm v s)) (hwf : Memory.wf s.mem = true) (hrm : ∀ q, rm = .reg q → highOnlyByte w q) :
    ∃ t, finish r = .next t ∧ RmWritten w rm v s t ∧
      t.rflags = s.rflags ∧ SegmentsSame s t ∧ SystemSame s t ∧ t.pc = s.pcNext :=
  ⟨_, finish_eq_next_iff.2 ⟨_, hr, rfl⟩, rmWritten_of_storeRm hwf hrm rfl rfl, storeRm_frame w rm v s⟩

theorem regWritten_advance_writeReg (w : Width) (d : Gpr) (v : BitVec w.bits) (s : State) :
    RegWritten w (.lo d) v s (advance (writeReg w (.lo d) v s)) :=
  regWritten_of_gpr rfl trivial

/-- Settles O43: SETcc writes one byte, whatever the condition. -/
theorem setccCompletes : Obligations.SetccCompletes := fun _ _ _ hwf hw =>
  storeRm_completes (writeRm_eq_ok_iff.2 ⟨hw, rfl⟩) hwf fun q _ => highOnlyByte_b8 q

/-! ## MOV between registers, memory and immediates -/

/-- A high byte is the destination of a byte form only (10_state.md R26). -/
theorem highOnlyByte_of_moveForm {i : Instr} {f : MoveForm} (h : moveForm i = some f) {r : Reg8} (hr : f.dst = .reg r) :
    highOnlyByte f.w r := by
  cases i
  case movRm8R8 | movR8Rm8 | movR8Imm8 | movRm8Imm8 =>
    cases h
    exact highOnlyByte_b8 r
  case movRmR | movRmImm =>
    cases h
    exact highOnlyByte_wide hr _
  case movRRm | movRImm =>
    cases h
    cases hr
    trivial
  all_goals cases h

/-- Each form of MOV whose operands can be accessed writes the source value to its destination (42_data_movement.md R291 to
R294). -/
theorem exec_of_moveForm {i : Instr} {f : MoveForm} {s : State} (h : moveForm i = some f) (hs : f.src.readable s)
    (hw : RmWritable f.w f.dst s) :
    ∃ r, exec i s = finish r ∧ r = .ok (storeRm f.w f.dst (f.src.value s) s) := by
  cases i
  case movRm8R8 | movRmR | movRm8Imm8 | movRmImm =>
    cases h
    exact ⟨_, rfl, writeRm_eq_ok_iff.2 ⟨hw, rfl⟩⟩
  case movR8Rm8 | movRRm =>
    cases h
    exact ⟨_, rfl, movToReg_eq_ok_iff.2 ⟨hs, rfl⟩⟩
  case movR8Imm8 | movRImm =>
    cases h
    exact ⟨_, rfl, rfl⟩
  all_goals cases h

/-- Settles O38: every form is the write of one operand. -/
theorem movCompletes : Obligations.MovCompletes := by
  intro i f s h hwf hs hw
  obtain ⟨r, he, hr⟩ := exec_of_moveForm h hs hw
  rw [he]
  exact storeRm_completes hr hwf fun _ => highOnlyByte_of_moveForm h

/-! ## MOV with a segment register -/

/-- Settles O39: a register is written at the operand size, memory with two bytes. -/
theorem movFromSegmentCompletes : Obligations.MovFromSegmentCompletes := by
  intro sz r s
  refine ⟨fun d => ?_, fun m hwf hw => ?_⟩
  · have hok : movFromSeg sz.width (.reg d) (.sreg r) s =
        .ok (writeReg sz.width (.lo d) ((s.selector.get r).setWidth sz.width.bits) s) :=
      movFromSeg_eq_ok_iff.2 ⟨r, rfl, .inl ⟨d, rfl, rfl⟩⟩
    exact ⟨_, finish_eq_next_iff.2 ⟨_, hok, rfl⟩, regWritten_advance_writeReg .., fun _ => rfl,
      storeRm_frame sz.width (.reg (.lo d)) _ s⟩
  · have hok : movFromSeg sz.width (.mem m) (.sreg r) s = .ok (storeBytes s (operandAddr s m) 2 (s.selector.get r)) :=
      movFromSeg_eq_ok_iff.2 ⟨r, rfl, .inr ⟨m, rfl, hw, rfl⟩⟩
    exact ⟨_, finish_eq_next_iff.2 ⟨_, hok, rfl⟩, stored_storeBytes hwf .., rfl,
      storeRm_frame .b16 (.mem m) (s.selector.get r) s⟩

/-- The bases that a load of a segment register leaves: its own is loaded in PROT32, and in LONG64 for FS and GS
(10_state.md R48). -/
theorem get_segBase_loadSegment (s : State) (r : SegReg) (sel : BitVec 16) (base : BitVec 32) (q : SegReg) :
    (loadSegment s r sel base).segBase.get q =
      if q = r ∧ (s.launch.mode = .prot32 ∨ r = .fs ∨ r = .gs) then base.setWidth 64 else s.segBase.get q := by
  simp only [loadSegment_segBase, isFsGs_iff]
  by_cases hload : s.launch.mode = .prot32 ∨ r = .fs ∨ r = .gs
  · simp only [hload, if_true, and_true, SegFile.get_set]
  · simp only [hload, if_false, and_false]

/-- Settles O40: what the load of the selector and of the base leaves. -/
theorem movToSegmentCompletes : Obligations.MovToSegmentCompletes := by
  intro r src base s hr hss hread hbase
  have htf : ¬ (r = .ss ∧ getFlag s.rflags .tf = true) := fun ⟨h, htrue⟩ => Bool.eq_false_iff.1 (hss h) htrue
  have hok : movToSeg (.sreg r) src s = .ok (loadSegment s r (rmValue .b16 (wide src) s) base) :=
    movToSeg_eq_ok_iff.2 ⟨r, rfl, hr, loadFromRm_eq_ok_iff.2 ⟨htf, hread, base, hbase, rfl⟩⟩
  exact ⟨_, finish_eq_next_iff.2 ⟨_, hok, rfl⟩, fun q => SegFile.get_set s.selector r q _,
    get_segBase_loadSegment s r (rmValue .b16 (wide src) s) base, rfl, fun _ => rfl, rfl, ⟨rfl, rfl, rfl⟩, rfl⟩

/-! ## CMOVcc -/

/-- A 32-bit register written with its own value loses its upper half (10_state.md R30). -/
theorem get_writeReg_readReg_b32 (d : Gpr) (s : State) :
    (writeReg .b32 (.lo d) (readReg .b32 (.lo d) s) s).gpr.get d = s.gpr.get d &&& 0xFFFFFFFF#64 := by
  have hmerge : mergeLow .b32 (s.gpr.get d) (readReg .b32 (.lo d) s) = ((s.gpr.get d).setWidth 32).setWidth 64 := rfl
  rw [get_writeReg, wholeGpr, if_pos rfl, writtenGpr, hmerge]
  refine BitVec.eq_of_toNat_eq ?_
  have hmask : (0xFFFFFFFF#64).toNat = 2 ^ 32 - 1 := rfl
  rw [BitVec.toNat_and, hmask, Nat.and_two_pow_sub_one_eq_mod, BitVec.toNat_setWidth, BitVec.toNat_setWidth]
  omega

section
variable {c : Cond} {w : Width} {d : Gpr} {v : BitVec w.bits} {s : State}

theorem cmovLeaves_of_holds (h : condHolds c s.rflags = true) : cmovLeaves c w d v s = writeReg w (.lo d) v s :=
  if_pos h

theorem cmovLeaves_of_fails (h : condHolds c s.rflags = false) :
    cmovLeaves c w d v s =
      if s.launch.mode = .long64 ∧ w = .b32 then writeReg w (.lo d) (readReg w (.lo d) s) s else s :=
  if_neg (Bool.eq_false_iff.1 h)

/-- With its condition false CMOVcc touches the destination at most, and there the upper half only (42_data_movement.md
R297). -/
theorem gpr_cmovLeaves_of_fails (h : condHolds c s.rflags = false) :
    GprSameBut [d] s (cmovLeaves c w d v s) ∧
      (cmovLeaves c w d v s).gpr.get d =
        if s.launch.mode = .long64 ∧ w = .b32 then s.gpr.get d &&& 0xFFFFFFFF#64 else s.gpr.get d := by
  rw [cmovLeaves_of_fails h]
  split
  · rename_i hclear
    obtain ⟨-, rfl⟩ := hclear
    exact ⟨gprSameBut_writeReg _ (.lo d) _ s, get_writeReg_readReg_b32 d s⟩
  · exact ⟨fun _ _ => rfl, rfl⟩

/-- CMOVcc changes the general registers only. -/
theorem cmovLeaves_frame (c : Cond) (w : Width) (d : Gpr) (v : BitVec w.bits) (s : State) :
    MemSame s (advance (cmovLeaves c w d v s)) ∧ (advance (cmovLeaves c w d v s)).rflags = s.rflags ∧
      SegmentsSame s (advance (cmovLeaves c w d v s)) ∧ SystemSame s (advance (cmovLeaves c w d v s)) ∧
      (advance (cmovLeaves c w d v s)).pc = s.pcNext := by
  unfold cmovLeaves
  split
  · exact ⟨fun _ => rfl, storeRm_frame w (.reg (.lo d)) v s⟩
  · split
    · exact ⟨fun _ => rfl, storeRm_frame w (.reg (.lo d)) _ s⟩
    · exact ⟨fun _ => rfl, rfl, ⟨rfl, rfl⟩, ⟨rfl, rfl, rfl⟩, rfl⟩

end

theorem width_eq_b32_iff (sz : OpSize) : sz.width = .b32 ↔ sz = .w32 := by
  cases sz <;> decide

/-- Settles O42: the source is read before the condition is looked at. -/
theorem cmovCompletes : Obligations.CmovCompletes := by
  intro c sz d src s
  refine ⟨fun hread => ?_, fun m hm hadm hal => ?_⟩
  · refine ⟨_, finish_eq_next_iff.2 ⟨_, cmovOp_eq_ok_iff.2 ⟨hread, rfl⟩, rfl⟩, fun hc => ?_, fun hc => ?_,
      cmovLeaves_frame ..⟩
    · rw [cmovLeaves_of_holds hc]
      exact regWritten_advance_writeReg ..
    · simp only [← width_eq_b32_iff]
      exact gpr_cmovLeaves_of_fails hc
  · subst hm
    exact finish_bind_fault (memRead_of_misaligned hadm hal) _

end Sys2Proof.Machine
end

section
/-!
SUPPORT. Conditions and relative branches (spec/43_control_transfer.md R320 to R327): the pairs of condition codes, the branch
target as a sum of integers, and what Jcc and the three loops leave.
-/
namespace Sys2Proof.Machine

/-! ## Conditions -/

theorem even_condition_number {n : BitVec 4} (h : n.getLsbD 0 = false) : n ∈ [0, 2, 4, 6, 8, 10, 12, 14] := by
  revert n
  decide

/-- Settles O44: a code by its flags, then the eight pairs of an even code and its negation. -/
theorem conditionCodes : Obligations.ConditionCodes := by
  intro fl
  refine ⟨⟨rfl, rfl, rfl, rfl, rfl, rfl, rfl, rfl⟩, fun n hn => ?_⟩
  have hmem := even_condition_number hn
  simp only [List.mem_cons, List.not_mem_nil, or_false] at hmem
  obtain rfl | rfl | rfl | rfl | rfl | rfl | rfl | rfl := hmem
  · rfl
  · rfl
  · rfl
  · exact (Bool.not_or ..).symm
  · rfl
  · rfl
  · exact (Bool.not_not _).symm
  · exact ((Bool.not_or ..).trans (congrArg _ (Bool.not_not _))).symm

/-! ## Branches -/

/-- The branch target is the sum of `pc_next` and the signed displacement, reduced to the address width
(43_control_transfer.md R321, R322). -/
theorem toNat_branchTarget {n : Nat} (s : State) (rel : BitVec n) :
    ((branchTarget s rel).toNat : Int) = ((s.pcNext.toNat : Int) + rel.toInt) % 2 ^ s.launch.mode.addrBits := by
  have hpc : s.pcNext = BitVec.ofInt 64 s.pcNext.toNat := baseValue_eq_ofInt s .rip
  have hsum : s.pcNext + rel.signExtend 64 = BitVec.ofInt 64 (s.pcNext.toNat + rel.toInt) := by
    rw [BitVec.ofInt_add, ← hpc, BitVec.signExtend]
  rw [branchTarget, hsum, toNat_truncAddr_ofInt]

theorem pc_branchIf_of_taken {n : Nat} {taken : Bool} (h : taken = true) (rel : BitVec n) (s : State) :
    ((branchIf taken rel s).pc.toNat : Int) =
      ((s.pcNext.toNat : Int) + rel.toInt) % 2 ^ s.launch.mode.addrBits := by
  rw [branchIf_pc, if_pos h, toNat_branchTarget]

theorem pc_branchIf_of_not_taken {n : Nat} {taken : Bool} (h : ¬ taken = true) (rel : BitVec n) (s : State) :
    (branchIf taken rel s).pc = s.pcNext := by
  rw [branchIf_pc, if_neg h]

/-- Settles O45: both forms branch to the sum of `pc_next` and the displacement, and write `pc` alone. -/
theorem jccCompletes : Obligations.JccCompletes := fun _ rel8 rel32 s =>
  ⟨⟨_, rfl, rfl, (pc_branchIf_of_taken · rel8 s), fun h => pc_branchIf_of_not_taken (Bool.eq_false_iff.1 h) rel8 s⟩,
    _, rfl, rfl, (pc_branchIf_of_taken · rel32 s), fun h => pc_branchIf_of_not_taken (Bool.eq_false_iff.1 h) rel32 s⟩

/-! ## Loops -/

/-- The count of a loop is the register less 1, reduced to the address width (43_control_transfer.md R323). -/
theorem toNat_loopCount (s : State) :
    ((loopCount s).toNat : Int) = ((s.gpr.get .rcx).toNat - 1 : Int) % 2 ^ s.launch.mode.addrBits := by
  have hdiff : s.gpr.get .rcx - 1 = BitVec.ofInt 64 ((s.gpr.get .rcx).toNat - 1) := by
    rw [Int.sub_eq_add_neg, BitVec.ofInt_add, BitVec.ofInt_natCast, BitVec.ofNat_toNat, BitVec.setWidth_eq]
    exact BitVec.sub_eq_add_neg _ _
  rw [loopCount, readAddrReg, truncAddr_truncAddr_sub, hdiff, toNat_truncAddr_ofInt]

theorem get_rcx_loopOp (also : Bool) (rel : BitVec 8) (s : State) : (loopOp also rel s).gpr.get .rcx = loopCount s := by
  rw [loopOp_gpr, GprFile.get_set, if_pos rfl, loopCount, truncAddr_truncAddr]

/-- What each loop asks of ZF beside a count that is not 0 (43_control_transfer.md R323 to R325). -/
theorem exec_loop_form {i : Instr} {rel : BitVec 8} (h : i = .loop rel ∨ i = .loope rel ∨ i = .loopne rel) (s : State) :
    ∃ also, exec i s = .next (loopOp also rel s) ∧
      (also = true ↔ (i = .loope rel → getFlag s.rflags .zf = true) ∧
        (i = .loopne rel → getFlag s.rflags .zf = false)) := by
  obtain rfl | rfl | rfl := h
  · exact ⟨true, rfl, by simp⟩
  · exact ⟨getFlag s.rflags .zf, rfl, by simp⟩
  · exact ⟨!getFlag s.rflags .zf, rfl, by simp⟩

/-- Settles O46: the count is written first, and the branch then looks at the count that it left. -/
theorem loopsComplete : Obligations.LoopsComplete := by
  intro i rel s hi
  obtain ⟨also, hexec, halso⟩ := exec_loop_form hi s
  refine ⟨_, hexec, ?_, ?_, fun r hr => ?_, fun _ => rfl, rfl, ⟨rfl, rfl⟩, ⟨rfl, rfl, rfl⟩⟩
  · rw [get_rcx_loopOp, toNat_loopCount]
  · rw [get_rcx_loopOp, ← halso]
    have htaken : (decide (loopCount s ≠ 0) && also) = true ↔ loopCount s ≠ 0 ∧ also = true := by simp
    exact ⟨fun h => pc_branchIf_of_taken (htaken.2 h) rel _,
      fun h => pc_branchIf_of_not_taken (h ∘ htaken.1) rel _⟩
  · rw [loopOp_gpr, GprFile.get_set, if_neg (List.mem_singleton.not.1 hr)]

end Sys2Proof.Machine
end

section
/-!
SUPPORT. MOVS, CMPS, SCAS, LODS and STOS (spec/44_string.md R340 to R345): the move of a pointer register by the element
size, what it leaves unchanged, and the operation that each form runs.
-/
namespace Sys2Proof.Machine

/-! ## Pointer registers -/

section
variable {r q : Gpr} {d : Quad} {w : Width} {n : Nat} {rs : List Gpr} {s u : State}

theorem get_movePointer_self : (movePointer r d s).gpr.get r = truncAddr s.launch.mode (s.gpr.get r + d) := by
  rw [movePointer_gpr, GprFile.get_set, if_pos rfl, readAddrReg, truncAddr_truncAddr_add]

theorem get_movePointer_of_ne (h : q ≠ r) : (movePointer r d s).gpr.get q = s.gpr.get q := by
  rw [movePointer_gpr, GprFile.get_set, if_neg h]

/-- Adding `delta` is the move up or down that DF asks for (44_string.md R340). -/
theorem add_stringDelta (s : State) (w : Width) (a : Quad) :
    a + stringDelta s w =
      if getFlag s.rflags .df then a - BitVec.ofNat 64 w.bytes else a + BitVec.ofNat 64 w.bytes := by
  rw [stringDelta]
  split
  · exact (BitVec.sub_eq_add_neg _ _).symm
  · rfl

/-- A pointer that nothing wrote before its move ends where the claims say (44_string.md R340). -/
theorem pointerMoved_movePointer (hr : u.gpr.get r = s.gpr.get r) (hl : u.launch = s.launch) :
    PointerMoved r w.bytes s (movePointer r (stringDelta s w) u) := by
  rw [PointerMoved, get_movePointer_self, hr, hl, add_stringDelta]

/-- The move of one pointer leaves the other where it was moved to. -/
theorem PointerMoved.movePointer (h : PointerMoved q n s u) (hne : q ≠ r) :
    PointerMoved q n s (Machine.movePointer r d u) :=
  (get_movePointer_of_ne hne).trans h

theorem GprSameBut.movePointer (h : GprSameBut rs s u) (hr : r ∈ rs) : GprSameBut rs s (Machine.movePointer r d u) :=
  fun q hq => (get_movePointer_of_ne (ne_of_mem_of_not_mem hr hq).symm).trans (h q hq)

/-- One pointer moved, the other general registers as before (44_string.md R343, R345). -/
theorem movePointer_moves (hg : u.gpr = s.gpr) (hl : u.launch = s.launch) :
    PointerMoved r w.bytes s (movePointer r (stringDelta s w) u) ∧
      GprSameBut [r] s (movePointer r (stringDelta s w) u) := by
  have hsame : GprSameBut [r] s u := fun q _ => by rw [hg]
  exact ⟨pointerMoved_movePointer (by rw [hg]) hl, hsame.movePointer (List.mem_singleton_self r)⟩

/-- Both pointers moved, the other general registers as before (44_string.md R341, R342). -/
theorem movePointers_move (hg : u.gpr = s.gpr) (hl : u.launch = s.launch) :
    let t := movePointer .rdi (stringDelta s w) (movePointer .rsi (stringDelta s w) u)
    PointerMoved .rsi w.bytes s t ∧ PointerMoved .rdi w.bytes s t ∧ GprSameBut [.rsi, .rdi] s t := by
  have hsame : GprSameBut [.rsi, .rdi] s u := fun q _ => by rw [hg]
  have hrsi : PointerMoved .rsi w.bytes s (movePointer .rsi (stringDelta s w) u) :=
    pointerMoved_movePointer (by rw [hg]) hl
  have hrdi : (movePointer .rsi (stringDelta s w) u).gpr.get .rdi = s.gpr.get .rdi := by
    rw [get_movePointer_of_ne (by decide), hg]
  exact ⟨hrsi.movePointer (by decide), pointerMoved_movePointer hrdi hl,
    (hsame.movePointer (by decide)).movePointer (by decide)⟩

end

/-! ## MOVS and CMPS -/

theorem exec_of_movsForm {i : Instr} {w : Width} {seg : Option SegReg} (h : movsForm i = some (w, seg)) (s : State) :
    exec i s = finish (movsOp w seg s) := by
  cases i
  case movsb | movs =>
    cases h
    rfl
  all_goals cases h

/-- Settles O47: one store, then the moves of both pointers. -/
theorem movsCompletes : Obligations.MovsCompletes := by
  intro i w seg s h hwf src dst hr hw
  obtain ⟨hrsi, hrdi, hgpr⟩ := movePointers_move (w := w) (s := s)
    (u := storeBytes s dst w.bytes (memValue s src w.bytes)) rfl rfl
  exact ⟨_, (exec_of_movsForm h s).trans (finish_eq_next_iff.2 ⟨_, movsOp_eq_ok_iff.2 ⟨hr, hw, rfl⟩, rfl⟩),
    stored_storeBytes hwf .., hrsi, hrdi, hgpr, rfl, ⟨rfl, rfl⟩, ⟨rfl, rfl, rfl⟩, rfl⟩

theorem exec_of_cmpsForm {i : Instr} {w : Width} {seg : Option SegReg} (h : cmpsForm i = some (w, seg)) (s : State) :
    exec i s = finish (cmpsOp w seg s) := by
  cases i
  case cmpsb | cmps =>
    cases h
    rfl
  all_goals cases h

/-- Settles O48: the moves of both pointers, then the status flags. -/
theorem cmpsCompletes : Obligations.CmpsCompletes := by
  intro i w seg s h src dst hsrc hdst
  obtain ⟨hrsi, hrdi, hgpr⟩ := movePointers_move (w := w) (s := s) (u := s) rfl rfl
  exact ⟨_, (exec_of_cmpsForm h s).trans (finish_eq_next_iff.2 ⟨_, cmpsOp_eq_ok_iff.2 ⟨hsrc, hdst, rfl⟩, rfl⟩),
    statusAre_setStatus rfl, hrsi, hrdi, hgpr, flagsSameBut_setStatus rfl, fun _ => rfl, ⟨rfl, rfl⟩, ⟨rfl, rfl, rfl⟩,
    rfl⟩

/-! ## SCAS, LODS and STOS -/

theorem exec_of_scasForm {i : Instr} {w : Width} (h : scasForm i = some w) (s : State) :
    exec i s = finish (scasOp w s) := by
  cases i
  case scasb | scas =>
    cases h
    rfl
  all_goals cases h

/-- Settles O49: the move of DI, then the status flags. -/
theorem scasCompletes : Obligations.ScasCompletes := by
  intro i w s h dst hdst
  obtain ⟨hrdi, hgpr⟩ := movePointer_moves (r := .rdi) (w := w) (s := s) (u := s) rfl rfl
  exact ⟨_, (exec_of_scasForm h s).trans (finish_eq_next_iff.2 ⟨_, scasOp_eq_ok_iff.2 ⟨hdst, rfl⟩, rfl⟩),
    statusAre_setStatus rfl, hrdi, hgpr, flagsSameBut_setStatus rfl, fun _ => rfl, ⟨rfl, rfl⟩, ⟨rfl, rfl, rfl⟩, rfl⟩

theorem exec_of_lodsForm {i : Instr} {w : Width} {seg : Option SegReg} (h : lodsForm i = some (w, seg)) (s : State) :
    exec i s = finish (lodsOp w seg s) := by
  cases i
  case lodsb | lods =>
    cases h
    rfl
  all_goals cases h

/-- The accumulator written and the source pointer, another register, moved (44_string.md R344). -/
theorem writeAccumulator_movePointer_moves {w : Width} (v : BitVec w.bits) (s : State) :
    let t := movePointer .rsi (stringDelta s w) (writeReg w (.lo .rax) v s)
    readReg w (.lo .rax) t = v ∧ t.gpr.get .rax = mergeLow w (s.gpr.get .rax) v ∧ PointerMoved .rsi w.bytes s t ∧
      GprSameBut [.rsi, .rax] s t := by
  intro t
  have hwrite : GprSameBut [.rax] s (writeReg w (.lo .rax) v s) := gprSameBut_writeReg w (.lo .rax) v s
  have hsame : GprSameBut [.rsi, .rax] s (writeReg w (.lo .rax) v s) := fun q hq =>
    hwrite q (List.not_mem_of_not_mem_cons hq)
  have hrax : t.gpr.get .rax = mergeLow w (s.gpr.get .rax) v :=
    (get_movePointer_of_ne (by decide)).trans (get_writeReg_lo_self ..)
  refine ⟨?_, hrax, pointerMoved_movePointer (hwrite .rsi (by decide)) rfl, hsame.movePointer (by decide)⟩
  rw [readReg, hrax, setWidth_mergeLow]

/-- Settles O50: the write of the accumulator, then the move of SI. -/
theorem lodsCompletes : Obligations.LodsCompletes := by
  intro i w seg s h src hr
  obtain ⟨hread, hrax, hrsi, hgpr⟩ := writeAccumulator_movePointer_moves (memValue s src w.bytes) s
  exact ⟨_, (exec_of_lodsForm h s).trans (finish_eq_next_iff.2 ⟨_, lodsOp_eq_ok_iff.2 ⟨hr, rfl⟩, rfl⟩),
    hread, hrax, hrsi, hgpr, rfl, fun _ => rfl, ⟨rfl, rfl⟩, ⟨rfl, rfl, rfl⟩, rfl⟩

theorem exec_of_stosForm {i : Instr} {w : Width} (h : stosForm i = some w) (s : State) :
    exec i s = finish (stosOp w s) := by
  cases i
  case stosb | stos =>
    cases h
    rfl
  all_goals cases h

/-- Settles O51: one store, then the move of DI. -/
theorem stosCompletes : Obligations.StosCompletes := by
  intro i w s h hwf dst hw
  obtain ⟨hrdi, hgpr⟩ := movePointer_moves (r := .rdi) (w := w) (s := s)
    (u := storeBytes s dst w.bytes (readReg w (.lo .rax) s)) rfl rfl
  exact ⟨_, (exec_of_stosForm h s).trans (finish_eq_next_iff.2 ⟨_, stosOp_eq_ok_iff.2 ⟨hw, rfl⟩, rfl⟩),
    stored_storeBytes hwf .., hrdi, hgpr, rfl, ⟨rfl, rfl⟩, ⟨rfl, rfl, rfl⟩, rfl⟩

end Sys2Proof.Machine
end

section
/-!
SUPPORT. The system registers and the x87, MMX and XMM registers are read by no operation but the alignment check, which
reads CR0.AM (spec/20_memory.md R122; spec/45_named_only.md R363): run in the state with other values of them, each shared
operation gives the result it gives without them, with those values carried along. IRET and CPUID are refused
(spec/45_named_only.md R360, R361).
-/
namespace Sys2Proof.Machine

/-! ## Results that carry a change along -/

/-- `y` is the result `x` with `g` applied to its value: it stops where `x` stops, for the same reason. -/
def Carried {α β : Type} (g : α → β) (x : Res α) (y : Res β) : Prop := y = x.map g

theorem carried_ok {α β : Type} {g : α → β} {a : α} {b : β} (h : b = g a) : Carried g (.ok a) (.ok b) :=
  congrArg Except.ok h

theorem carried_raise {α β : Type} {g : α → β} {f : Fault} : Carried g (raise f) (raise f) := rfl

theorem carried_refuse {α β : Type} {g : α → β} {q : Refusal} : Carried g (refuse q) (refuse q) := rfl

theorem carried_id {α : Type} (x : Res α) : Carried id x x := (congrFun Except.map_id x).symm

section
variable {α β γ δ : Type} {f : γ → δ} {g : α → β}

theorem Carried.bind {x : Res α} {y : Res β} {k : α → Res γ} {k' : β → Res δ} (hx : Carried g x y)
    (hk : ∀ a, Carried f (k a) (k' (g a))) : Carried f (x >>= k) (y >>= k') := by
  obtain rfl := hx
  cases x with
  | ok a => exact hk a
  | error e => rfl

theorem Carried.ite {p : Prop} [Decidable p] {x y : Res γ} {x' y' : Res δ} (hx : Carried f x x') (hy : Carried f y y') :
    Carried f (if p then x else y) (if p then x' else y') := by
  split
  · exact hx
  · exact hy

end

/-- The end of an instruction carries along what its operation carries along. -/
theorem Carried.map_advance {sys : SysRegs} {fp : FpRegs} {r r' : Res State} (h : Carried (withSystem sys fp) r r') :
    Carried (withSystem sys fp) (r.map advance) (r'.map advance) := by
  obtain rfl := h
  cases r <;> rfl

/-- A fault other than the single-step trap holds no state. -/
theorem mapState_fault {g : State → State} {f : Fault} (hf : ∀ u, f ≠ .debug u) :
    mapState g (.fault f) = .fault f := by
  cases f with
  | debug u => exact absurd rfl (hf u)
  | divideError | invalidOpcode | segmentNotPresent | stackFault | generalProtection | pageFault | alignmentCheck => rfl

/-- Outside the single-step trap, an outcome is carried along as the result behind it is. -/
theorem Carried.toOutcome {sys : SysRegs} {fp : FpRegs} {r r' : Res State} (h : Carried (withSystem sys fp) r r')
    (hr : ∀ u, toOutcome r ≠ .fault (.debug u)) : toOutcome r' = mapState (withSystem sys fp) (toOutcome r) := by
  obtain rfl := h
  cases r with
  | ok t => rfl
  | error e =>
    cases e with
    | fault f => exact (mapState_fault fun u hu => hr u (congrArg _ hu)).symm
    | refusal q => rfl

/-! ## Writes -/

section
variable {sys : SysRegs} {fp : FpRegs}

theorem writeReg_withSystem (w : Width) (r : Reg8) (v : BitVec w.bits) (s : State) :
    writeReg w r v (withSystem sys fp s) = withSystem sys fp (writeReg w r v s) := by
  cases r <;> rfl

theorem withFlags_withSystem (s : State) (fl : Quad) :
    withFlags (withSystem sys fp s) fl = withSystem sys fp (withFlags s fl) := rfl

theorem writePair_withSystem (w : Width) (hi lo : BitVec w.bits) (s : State) :
    writePair w hi lo (withSystem sys fp s) = withSystem sys fp (writePair w hi lo s) :=
  (congrArg (writeReg w (highHalf w) hi) (writeReg_withSystem ..)).trans (writeReg_withSystem ..)

theorem drawFlags_withSystem (fs : List Flag) (s : State) :
    drawFlags (withSystem sys fp s) fs = withSystem sys fp (drawFlags s fs) := by
  induction fs generalizing s with
  | nil => rfl
  | cons f fs ih => exact ih (drawFlag s f)

theorem divResult_withSystem (w : Width) (q m : BitVec w.bits) (s : State) :
    divResult w q m (withSystem sys fp s) = withSystem sys fp (divResult w q m s) :=
  (congrArg (drawFlags · _) (writePair_withSystem ..)).trans (drawFlags_withSystem ..)

theorem mulLeaves_withSystem (w : Width) (p : Nat) (s : State) :
    mulLeaves w p (withSystem sys fp s) = withSystem sys fp (mulLeaves w p s) := by
  rw [mulLeaves, writePair_withSystem, withFlags_withSystem, drawFlags_withSystem]
  rfl

theorem bitFlags_withSystem (s : State) (b : Bool) :
    bitFlags (withSystem sys fp s) b = withSystem sys fp (bitFlags s b) :=
  drawFlags_withSystem _ (withFlags s _)

theorem loadFlags_withSystem (sz : OpSize) (v : BitVec sz.width.bits) (s : State) :
    loadFlags sz v (withSystem sys fp s) = withSystem sys fp (loadFlags sz v s) := by
  cases sz <;> rfl

/-! ## Accesses -/

theorem admitsAll_withSystem (s : State) (k : Access) (a n : Nat) :
    admitsAll (withSystem sys fp s) k a n = admitsAll s k a n :=
  Bool.eq_iff_iff.2 ((admitsAll_iff ..).trans (admitsAll_iff s k a n).symm)

theorem touchesCode_withSystem (s : State) (a n : Nat) :
    touchesCode (withSystem sys fp s) a n = touchesCode s a n := by
  rw [← Bool.not_inj_iff, Bool.eq_iff_iff, Bool.not_eq_true', Bool.not_eq_true']
  exact (touchesCode_eq_false_iff ..).trans (touchesCode_eq_false_iff s a n).symm

variable {s : State} (h : sys.cr0.getLsbD 18 = s.sys.cr0.getLsbD 18)
include h

/-- The one place where a system register is read: CR0.AM (20_memory.md R122). -/
theorem misaligned_withSystem (a n : Nat) : misaligned (withSystem sys fp s) a n = misaligned s a n := by
  have ham : cr0Am (withSystem sys fp s) = cr0Am s := h
  rw [misaligned, misaligned, ham]
  rfl

theorem carried_memRead (a : Quad) (n : Nat) : Carried id (memRead s a n) (memRead (withSystem sys fp s) a n) := by
  rw [memRead, memRead, admitsAll_withSystem, misaligned_withSystem h]
  exact carried_id _

theorem carried_memWrite (a : Quad) (n : Nat) (v : BitVec (8 * n)) :
    Carried (withSystem sys fp) (memWrite s a n v) (memWrite (withSystem sys fp s) a n v) := by
  rw [memWrite, memWrite, touchesCode_withSystem, admitsAll_withSystem, misaligned_withSystem h]
  exact carried_refuse.ite (carried_refuse.ite (carried_raise.ite (carried_ok rfl)))

theorem carried_readRm (w : Width) (rm : Rm Reg8) : Carried id (readRm w rm s) (readRm w rm (withSystem sys fp s)) := by
  cases rm with
  | reg r => exact carried_ok rfl
  | mem m => exact carried_memRead h (operandAddr s m) w.bytes

theorem carried_writeRm (w : Width) (rm : Rm Reg8) (v : BitVec w.bits) :
    Carried (withSystem sys fp) (writeRm w rm v s) (writeRm w rm v (withSystem sys fp s)) := by
  cases rm with
  | reg r => exact carried_ok (writeReg_withSystem ..)
  | mem m => exact carried_memWrite h (operandAddr s m) w.bytes v

theorem carried_push (w : Width) (v : BitVec w.bits) :
    Carried (withSystem sys fp) (push w v s) (push w v (withSystem sys fp s)) :=
  (carried_memWrite h (pushAddr s w.bytes) w.bytes v).bind fun _ => carried_ok rfl

theorem carried_pop (w : Width) :
    Carried (Prod.map id (withSystem sys fp)) (pop w s) (pop w (withSystem sys fp s)) :=
  (carried_memRead h (popAddr s) w.bytes).bind fun _ => carried_ok rfl

/-! ## The shared operations -/

theorem carried_aluRm (op : AluOp) (w : Width) (dst : Rm Reg8) (b : BitVec w.bits) :
    Carried (withSystem sys fp) (aluRm op w dst b s) (aluRm op w dst b (withSystem sys fp s)) :=
  (carried_readRm h w dst).bind fun _ => (carried_writeRm h w dst _).bind fun _ => carried_ok rfl

theorem carried_aluReg (op : AluOp) (w : Width) (dst : Reg8) (src : Rm Reg8) :
    Carried (withSystem sys fp) (aluReg op w dst src s) (aluReg op w dst src (withSystem sys fp s)) :=
  (carried_readRm h w src).bind fun _ => carried_ok (congrArg (withFlags · _) (writeReg_withSystem ..))

theorem carried_mulOp (w : Width) (src : Rm Reg8) :
    Carried (withSystem sys fp) (mulOp w src s) (mulOp w src (withSystem sys fp s)) :=
  (carried_readRm h w src).bind fun b =>
    carried_ok (mulLeaves_withSystem w ((readReg w (.lo .rax) s).toNat * b.toNat) s)

theorem carried_divOp (w : Width) (src : Rm Reg8) :
    Carried (withSystem sys fp) (divOp w src s) (divOp w src (withSystem sys fp s)) :=
  (carried_readRm h w src).bind fun _ => carried_raise.ite (carried_raise.ite (carried_ok (divResult_withSystem ..)))

theorem carried_idivOp (w : Width) (src : Rm Reg8) :
    Carried (withSystem sys fp) (idivOp w src s) (idivOp w src (withSystem sys fp s)) :=
  (carried_readRm h w src).bind fun _ => carried_raise.ite (carried_raise.ite (carried_ok (divResult_withSystem ..)))

theorem carried_bitOp (act : BitAction) (w : Width) (base : Rm Reg8) (off : Nat) :
    Carried (withSystem sys fp) (bitOp act w base off s) (bitOp act w base off (withSystem sys fp s)) :=
  (carried_readRm h w base).bind fun _ =>
    .ite ((carried_ok rfl).bind fun _ => carried_ok (bitFlags_withSystem ..))
      ((carried_writeRm h w base _).bind fun _ => carried_ok (bitFlags_withSystem ..))

theorem carried_bitRegOp (act : BitAction) (w : Width) (base : Rm Gpr) (off : Gpr) :
    Carried (withSystem sys fp) (bitRegOp act w base off s) (bitRegOp act w base off (withSystem sys fp s)) := by
  cases base with
  | reg r => exact carried_bitOp h act w (.reg (.lo r)) (readReg w (.lo off) s).toNat
  | mem m => exact carried_refuse

theorem carried_movToReg (w : Width) (dst : Reg8) (src : Rm Reg8) :
    Carried (withSystem sys fp) (movToReg w dst src s) (movToReg w dst src (withSystem sys fp s)) :=
  (carried_readRm h w src).bind fun _ => carried_ok (writeReg_withSystem ..)

theorem carried_movFromSeg (w : Width) (dst : Rm Gpr) (src : SegField) :
    Carried (withSystem sys fp) (movFromSeg w dst src s) (movFromSeg w dst src (withSystem sys fp s)) := by
  cases src with
  | sreg r =>
    cases dst with
    | reg d => exact carried_ok rfl
    | mem m => exact carried_memWrite h (operandAddr s m) 2 (s.selector.get r)
  | reserved6 => exact carried_raise
  | reserved7 => exact carried_raise

theorem carried_loadFromRm (r : SegReg) (src : Rm Gpr) :
    Carried (withSystem sys fp) (loadFromRm r src s) (loadFromRm r src (withSystem sys fp s)) := by
  refine carried_refuse.ite ((carried_readRm h .b16 (wide src)).bind fun sel => ?_)
  have hlookup : descLookup (withSystem sys fp s) r sel = descLookup s r sel := rfl
  rw [id, hlookup]
  cases descLookup s r sel with
  | ok base => exact carried_ok rfl
  | fault e => exact carried_raise
  | unknown => exact carried_refuse

theorem carried_movToSeg (dst : SegField) (src : Rm Gpr) :
    Carried (withSystem sys fp) (movToSeg dst src s) (movToSeg dst src (withSystem sys fp s)) := by
  cases dst with
  | sreg r =>
    cases r with
    | cs => exact carried_raise
    | es | ss | ds | fs | gs => exact carried_loadFromRm h _ src
  | reserved6 => exact carried_raise
  | reserved7 => exact carried_raise

theorem carried_cmovOp (c : Cond) (w : Width) (dst : Gpr) (src : Rm Gpr) :
    Carried (withSystem sys fp) (cmovOp c w dst src s) (cmovOp c w dst src (withSystem sys fp s)) :=
  (carried_readRm h w (wide src)).bind fun _ => (carried_ok rfl).ite ((carried_ok rfl).ite (carried_ok rfl))

theorem carried_movsOp (w : Width) (seg : Option SegReg) :
    Carried (withSystem sys fp) (movsOp w seg s) (movsOp w seg (withSystem sys fp s)) :=
  (carried_memRead h (stringSrc s seg) w.bytes).bind fun v =>
    (carried_memWrite h (stringDst s) w.bytes v).bind fun _ => carried_ok rfl

theorem carried_cmpsOp (w : Width) (seg : Option SegReg) :
    Carried (withSystem sys fp) (cmpsOp w seg s) (cmpsOp w seg (withSystem sys fp s)) :=
  (carried_memRead h (stringSrc s seg) w.bytes).bind fun _ =>
    (carried_memRead h (stringDst s) w.bytes).bind fun _ => carried_ok rfl

theorem carried_scasOp (w : Width) : Carried (withSystem sys fp) (scasOp w s) (scasOp w (withSystem sys fp s)) :=
  (carried_memRead h (stringDst s) w.bytes).bind fun _ => carried_ok rfl

theorem carried_lodsOp (w : Width) (seg : Option SegReg) :
    Carried (withSystem sys fp) (lodsOp w seg s) (lodsOp w seg (withSystem sys fp s)) :=
  (carried_memRead h (stringSrc s seg) w.bytes).bind fun _ => carried_ok rfl

theorem carried_stosOp (w : Width) : Carried (withSystem sys fp) (stosOp w s) (stosOp w (withSystem sys fp s)) :=
  (carried_memWrite h (stringDst s) w.bytes (readReg w (.lo .rax) s)).bind fun _ => carried_ok rfl

theorem carried_popOp (w : Width) (r : Gpr) :
    Carried (withSystem sys fp) (popOp w r s) (popOp w r (withSystem sys fp s)) :=
  (carried_pop h w).bind fun _ => carried_ok rfl

theorem carried_popfOp (sz : OpSize) :
    Carried (withSystem sys fp) (popfOp sz s) (popfOp sz (withSystem sys fp s)) :=
  (carried_pop h sz.width).bind fun _ => carried_ok (loadFlags_withSystem ..)

/-! ## Instructions -/

/-- Every instruction ends with a result that carries those registers along. -/
theorem exec_carried (i : Instr) :
    ∃ r r', Carried (withSystem sys fp) r r' ∧ exec i s = toOutcome r ∧ exec i (withSystem sys fp s) = toOutcome r' :=
  match i with
  | .addRm8R8 .. | .addRmR .. | .addRm8Imm8 .. | .addRmImm .. | .addRmSimm8 ..
  | .adcRm8R8 .. | .adcRmR .. | .adcRm8Imm8 .. | .adcRmImm .. | .adcRmSimm8 ..
  | .sbbRm8R8 .. | .sbbRmR .. | .sbbRm8Imm8 .. | .sbbRmImm .. | .sbbRmSimm8 ..
  | .subRm8R8 .. | .subRmR .. | .subRm8Imm8 .. | .subRmImm .. | .subRmSimm8 .. =>
    ⟨_, _, (carried_aluRm h ..).map_advance, rfl, rfl⟩
  | .addAlImm8 .. | .adcAlImm8 .. | .sbbAlImm8 .. | .subAlImm8 .. =>
    ⟨_, _, (carried_aluRm h _ .b8 (.reg (.lo .rax)) _).map_advance, rfl, rfl⟩
  | .addAccImm imm | .adcAccImm imm | .sbbAccImm imm | .subAccImm imm =>
    ⟨_, _, (carried_aluRm h _ imm.size.width (.reg (.lo .rax)) _).map_advance, rfl, rfl⟩
  | .addR8Rm8 .. | .addRRm .. | .adcR8Rm8 .. | .adcRRm .. | .sbbR8Rm8 .. | .sbbRRm .. | .subR8Rm8 .. | .subRRm .. =>
    ⟨_, _, (carried_aluReg h ..).map_advance, rfl, rfl⟩
  | .mulRm8 .. | .mulRm .. => ⟨_, _, (carried_mulOp h ..).map_advance, rfl, rfl⟩
  | .divRm8 .. | .divRm .. => ⟨_, _, (carried_divOp h ..).map_advance, rfl, rfl⟩
  | .idivRm8 .. | .idivRm .. => ⟨_, _, (carried_idivOp h ..).map_advance, rfl, rfl⟩
  | .btRmImm8 .. | .btsRmImm8 .. | .btrRmImm8 .. | .btcRmImm8 .. => ⟨_, _, (carried_bitOp h ..).map_advance, rfl, rfl⟩
  | .btRmR .. | .btsRmR .. | .btrRmR .. | .btcRmR .. => ⟨_, _, (carried_bitRegOp h ..).map_advance, rfl, rfl⟩
  | .movR8Imm8 .. | .movRImm .. => ⟨_, _, (carried_ok (writeReg_withSystem ..)).map_advance, rfl, rfl⟩
  | .movRm8R8 .. | .movRmR .. | .movRm8Imm8 .. | .movRmImm .. | .setcc .. =>
    ⟨_, _, (carried_writeRm h ..).map_advance, rfl, rfl⟩
  | .movR8Rm8 .. | .movRRm .. => ⟨_, _, (carried_movToReg h ..).map_advance, rfl, rfl⟩
  | .movRmSreg .. => ⟨_, _, (carried_movFromSeg h ..).map_advance, rfl, rfl⟩
  | .movSregRm .. => ⟨_, _, (carried_movToSeg h ..).map_advance, rfl, rfl⟩
  | .cmovcc .. => ⟨_, _, (carried_cmovOp h ..).map_advance, rfl, rfl⟩
  | .jccRel8 .. | .jccRel32 .. | .loop .. | .loope .. | .loopne .. => ⟨_, _, carried_ok rfl, rfl, rfl⟩
  | .movsb .. | .movs .. => ⟨_, _, (carried_movsOp h ..).map_advance, rfl, rfl⟩
  | .cmpsb .. | .cmps .. => ⟨_, _, (carried_cmpsOp h ..).map_advance, rfl, rfl⟩
  | .scasb | .scas .. => ⟨_, _, (carried_scasOp h ..).map_advance, rfl, rfl⟩
  | .lodsb .. | .lods .. => ⟨_, _, (carried_lodsOp h ..).map_advance, rfl, rfl⟩
  | .stosb | .stos .. => ⟨_, _, (carried_stosOp h ..).map_advance, rfl, rfl⟩
  | .push .. | .pushf .. => ⟨_, _, (carried_push h ..).map_advance, rfl, rfl⟩
  | .pop .. => ⟨_, _, (carried_popOp h ..).map_advance, rfl, rfl⟩
  | .popf .. => ⟨_, _, (carried_popfOp h ..).map_advance, rfl, rfl⟩
  | .cmc | .clc | .stc | .cld | .std => ⟨_, _, (carried_ok rfl).map_advance, rfl, rfl⟩
  | .lahf => ⟨_, _, (carried_raise.ite (carried_ok rfl)).map_advance, rfl, rfl⟩
  | .sahf => ⟨_, _, (carried_raise.ite (carried_ok rfl)).map_advance, rfl, rfl⟩
  | .iret | .cpuid => ⟨_, _, carried_refuse.map_advance, rfl, rfl⟩

theorem exec_withSystem (i : Instr) : exec i (withSystem sys fp s) = mapState (withSystem sys fp) (exec i s) := by
  obtain ⟨r, r', hr, he, he'⟩ := exec_carried (fp := fp) h i
  rw [he', he]
  exact hr.toOutcome fun u hu => exec_ne_debug i s u (he.trans hu)

omit h

/-! ## Steps -/

theorem fetchBytes_withSystem (a n : Nat) : fetchBytes (withSystem sys fp s) a n = fetchBytes s a n := by
  induction n generalizing a with
  | zero => rfl
  | succ n ih =>
    rw [fetchBytes, fetchBytes, ih]
    rfl

theorem fetchDecode_withSystem : fetchDecode (withSystem sys fp s) = fetchDecode s := by
  have hwindow : fetchWindow (withSystem sys fp s) = fetchWindow s := fetchBytes_withSystem ..
  rw [fetchDecode, fetchDecode, hwindow]
  rfl

/-- Single-step traps with the state that the instruction left, so it carries along what the instruction does. -/
theorem singleStep_mapState (f : State → State) (tf : Bool) (o : Host.Outcome State Fault Refusal) :
    singleStep tf (mapState f o) = mapState f (singleStep tf o) := by
  cases o with
  | next t => cases tf <;> rfl
  | fault q => cases q <;> rfl
  | refused q => rfl

end

/-- Settles O16: fetch and decode read no such register, and the instruction carries them along. -/
theorem stepReadsNoSystemRegisterButAm : Obligations.StepReadsNoSystemRegisterButAm := by
  intro s sys fp h
  have hcompleted : completed (withSystem sys fp s) = completed s := rfl
  unfold step
  rw [hcompleted, fetchDecode_withSystem]
  cases completed s with
  | true => rfl
  | false =>
    match hd : fetchDecode s with
    | .ok (i, len) =>
      have hexec : exec i (beginInstr (withSystem sys fp s) len) =
          mapState (withSystem sys fp) (exec i (beginInstr s len)) :=
        exec_withSystem (s := beginInstr s len) h i
      exact (congrArg (singleStep _) hexec).trans (singleStep_mapState ..)
    | .error (.fault f) => exact (mapState_fault fun u hu => noTrap_fetchDecode u (hu ▸ hd)).symm
    | .error (.refusal q) => rfl

/-- Settles O60: both are read back from their encodings, and both refuse. -/
theorem iretAndCpuidRefused : Obligations.IretAndCpuidRefused := fun md rest _ =>
  ⟨decode_encode md .iret rest rfl, decode_encode md .cpuid rest rfl, rfl, rfl⟩

end Sys2Proof.Machine
end

section
/-!
SUPPORT. Single-step (spec/60_exceptions.md R408).
-/
namespace Sys2Proof.Machine

/-- Where TF was set when an instruction began, its completion is the trap `#DB`. -/
theorem singleStep_ne_next (o : Host.Outcome State Fault Refusal) (t : State) : singleStep true o ≠ .next t := by
  cases o <;> exact nofun

theorem step_ne_next_of_tf {s : State} (hpc : s.pc ≠ s.launch.endAddr) (htf : getFlag s.rflags .tf = true) (t : State) :
    step s ≠ .next t := by
  match hd : fetchDecode s with
  | .ok (i, len) =>
    rw [step_of_fetchDecode hpc hd, htf]
    exact singleStep_ne_next _ t
  | .error (.fault f) => simp [step, completed_eq_false hpc, hd]
  | .error (.refusal r) => simp [step, completed_eq_false hpc, hd]

/-- Settles O10: with TF set `singleStep` answers no next state, and what it does with the outcome of the decoded
instruction is read off its three equations. -/
theorem singleStepTraps : Obligations.SingleStepTraps := by
  refine fun s i len hpc htf => ⟨step_ne_next_of_tf hpc htf, fun hd => ?_⟩
  have hstep : step s = singleStep true (exec i (beginInstr s len)) := htf ▸ step_of_fetchDecode hpc hd
  refine ⟨fun t he => ?_, fun f he => ?_, fun r he => ?_⟩
  all_goals
    rw [hstep, he]
    rfl

end Sys2Proof.Machine
end
